-- ==== Sys2Proof/Word.lean ====
section
/-! DEFINITION. The words of the LW2410: bytes, instants of engine time, bus addresses and source tags (spec/00, section 1.6). -/

namespace Sys2Proof

/-- One byte of memory. -/
abbrev Byte := BitVec 8

/-- An instant of engine time, or framer time: a 32-bit millisecond count (R1). -/
abbrev Time := BitVec 32

/-- A 40-bit byte address (spec/00, section 1.6). -/
abbrev Addr := BitVec 40

/-- A source tag, 0–31, naming a bus master (spec/00, section 1.6). -/
abbrev Tag := Fin 32

end Sys2Proof
end

