-- ==== Sys2Proof/Syntax.lean ====
section
/-! DEFINITION. The commands of the LW2410: one constructor of `Instr` for each row of spec/opcode_table.json, with
the operands an outside agent supplies (notes/assumptions/6.md). -/

namespace Sys2Proof

/-- One beat of a WRITE: eight bytes, and bit j of `enable` is the enable of byte j (R3). -/
structure Beat where
  data   : Vector Byte 8
  enable : BitVec 8
  deriving DecidableEq, Repr

/-- READ with its beat count, or WRITE with its beats (spec/00, section 1.6). -/
inductive Body where
  | read  (beats : Nat)
  | write (beats : List Beat)
  deriving DecidableEq, Repr

/-- A bus request: address, source tag, and READ or WRITE (spec/00, section 1.6). -/
structure Request where
  addr : Addr
  tag  : Tag
  body : Body
  deriving DecidableEq, Repr

/-- An answer of the memory controller (spec/00, section 1.6). -/
inductive Resp where
  | ok
  | error
  deriving DecidableEq, Repr

/-- The two building contact lines. -/
inductive Line where
  | a
  | b
  deriving DecidableEq, Repr

/-- The 240 correlation groups by kind and number (R93). -/
inductive GroupId where
  | tap   (n : Fin 128)
  | riser (n : Fin 32)
  | port  (n : Fin 16)
  | zone  (n : Fin 64)
  deriving DecidableEq, Repr

/-- The groups that have groups as members: risers and ports (R38, R100). -/
inductive Parent where
  | riser (n : Fin 32)
  | port  (n : Fin 16)
  deriving DecidableEq, Repr

/-- The levels of the pins sampled at the release of RESET_N (R23, R30, R181). -/
structure Straps where
  anchorSel : Fin 4
  holdupLow : Bool
  lineA     : Bool
  lineB     : Bool
  deriving DecidableEq, Repr

/-- One constructor per row of spec/opcode_table.json. A `tag` names the lane whose front request the row takes. -/
inductive Instr where
  | upstreamRequest (r : Request)
  | downstreamGrant
  | memoryResponse (n : Nat) (resp : Resp) (data : List Byte)
  | ownWriteError (n : Nat) (resp : Resp)
  | mirrorWriteResponse (n : Nat) (resp : Resp)
  | heldRead (tag : Tag)
  | resetNAssertion
  | resetNRelease (straps : Straps)
  | anchorWrite (tag : Tag)
  | holdupLowAssertion
  | gasp (tag : Tag)
  | loss (tag : Tag)
  | restore (tag : Tag)
  | portDark (tag : Tag)
  | portLit (tag : Tag)
  | malformed (tag : Tag)
  | graceExpiry (n : Fin 1024)
  | gaspFollowExpiry (n : Fin 1024)
  | staleGaspWindowEnd (n : Fin 1024)
  | quietExpiry (n : Fin 1024)
  | tapVerdict (n : Fin 128)
  | parentDeadlineWait (p : Parent)
  | riserVerdict (n : Fin 32)
  | portVerdict (n : Fin 16)
  | zoneVerdict (n : Fin 64)
  | holdDownExpiry (g : GroupId)
  | consumedIndexWrite (tag : Tag)
  | loadWindowWrite (tag : Tag)
  | burstTimerExpiry
  | setIntake (tag : Tag)
  | clearIntake (tag : Tag)
  | setWindows (tag : Tag)
  | setThresholds (tag : Tag)
  | setFlap (tag : Tag)
  | setStorm (tag : Tag)
  | setReporting (tag : Tag)
  | arm (tag : Tag)
  | setSync (tag : Tag)
  | forceSync (tag : Tag)
  | mute (tag : Tag)
  | unmute (tag : Tag)
  | seed (tag : Tag)
  | mapBegin (tag : Tag)
  | mapEnd (tag : Tag)
  | mapCheckEnd
  | mapEndCompletion
  | mapAbort (tag : Tag)
  | unmap (tag : Tag)
  | unmapClearing
  | unmapCompletion
  | restart (tag : Tag)
  | restartClearing
  | restartCompletion
  | dropAction (tag : Tag)
  | queueFlush (tag : Tag)
  | badKind (tag : Tag)
  | atTimeReached
  | linePinChange (line : Line) (level : Bool)
  | debounceExpiry (line : Line)
  | deferredEntryRun
  | lineActionRun (line : Line)
  deriving DecidableEq, Repr

end Sys2Proof
end

