-- ==== Sys2Proof/Config.lean ====
section
/-! DEFINITION. What the part fixes once (sizes of its stores), and the one free value of the model. -/

namespace Sys2Proof.Config

/-- Accepted requests a lane holds (R4). -/
def laneDepth : Nat := 4

/-- Reads the held-read list holds (R14). -/
def heldReads : Nat := 8

/-- Entries of the own-write queue (R146). -/
def queueSize : Nat := 48

/-- Free own-write queue entries a unit of engine work waits for (R9, R147). -/
def admission : Nat := 20

/-- Occupied entries at which own writes overtake passing traffic (TABLE 1-10, rank 3). -/
def queueHigh : Nat := 32

/-- The pass-run count at which the ordinary drain goes first (R17). -/
def passRunMax : Nat := 16

/-- Records of the status mirror (TABLE 9-1). -/
def mirrorRecords : Nat := 1281

/-- Mirror record index of the engine summary (TABLE 9-1). -/
def summaryRecord : Nat := 1280

/-- Mirror record index of port 0's tally (TABLE 9-1). -/
def tallyBase : Nat := 1264

/-- Mirror record index of the first group record (TABLE 9-1). -/
def groupBase : Nat := 1024

/-- Bytes of the capture buffer (spec/03, section 3.2). -/
def captureSize : Nat := 4448

/-- Entries of the deferred queue (R176). -/
def deferredSize : Nat := 8

/-- Entries of one line action list (R183). -/
def lineListSize : Nat := 4

/-- Milliseconds a line's pin must hold still (R181). -/
def debounceTime : Nat := 20

/-- Where the 16-bit counts saturate (spec/00, section 1.6). -/
def count16 : Nat := 65535

/-- FREE VALUE (notes/assumptions/9.md). Which of several requests that one event frees together enters the
pass path first: the spec gives requests of different tags no order (R4). Applied to a counter of State;
nothing is known of its values. -/
opaque freePick : Nat → Nat

end Sys2Proof.Config
end

