-- ==== Sys2Proof/Machine/State.lean ====
section
/-! DEFINITION. The state of the LW2410 as plain data, block by block (TABLE 1-1), why a step can stop, and the state
right after the release of RESET_N. -/

namespace Sys2Proof.Machine

/-! ## Names with encodings in memory (spec/13) -/

/-- Engine modes (TABLE 2-3). -/
inductive Mode where
  | detached | attached | loading | running | halted
  deriving DecidableEq, Repr

/-- Terminal states (TABLE 5-2). -/
inductive TState where
  | unlisted | up | gasped | suspect | downFibre | downPower | downOff
  deriving DecidableEq, Repr

/-- Dispositions of a terminal's outage (spec/05, section 5.4). -/
inductive Disp where
  | none | pending | covered | reported | quiet
  deriving DecidableEq, Repr

/-- Group states (TABLE 6-2). -/
inductive GState where
  | clear | gathering | parked | raised | clearing
  deriving DecidableEq, Repr

/-- Causes of a TERMINAL_DOWN or TERMINALS_DOWN (TABLE 13-5). -/
inductive OutageCause where
  | fibre | power | off
  deriving DecidableEq, Repr

/-- Causes of a GROUP_RAISED (R114). -/
inductive RaiseCause where
  | fibre | power | dark
  deriving DecidableEq, Repr

/-- Fault kinds of an intake fault (R62). -/
inductive FaultKind where
  | malformed | check | portMismatch | unknownKind | unknownCause | reserved
  deriving DecidableEq, Repr

/-- Origins of the work that makes a report (R134). -/
inductive Source where
  | engine | command | deferred | line (l : Line)
  deriving DecidableEq, Repr

/-- Command kinds (TABLE 10-3). -/
inductive Kind where
  | setIntake | clearIntake | setWindows | setThresholds | setFlap | setStorm | setReporting | arm | setSync
  | forceSync | mute | unmute | seed | mapBegin | mapEnd | mapAbort | unmap | restart | dropAction | queueFlush
  deriving DecidableEq, Repr

/-- Result codes of a command slot (TABLE 13-3). -/
inductive Code where
  | done | wrongMode | busy | slotBusy | badKind | badParam | overlap | notDeferrable | queueFull | listFull
  | lineInUse | noTerminal | terminalPending | failed | halted | timeout
  deriving DecidableEq, Repr

/-- States a write-back gives a slot (R162). -/
inductive SlotState where
  | queued | done | refused | failed
  deriving DecidableEq, Repr

/-- Failure codes of a MAP_END (TABLE 3-4, R50). -/
inductive MapFail where
  | length | version | check | counts | reference | duplicate | tree | aborted
  deriving DecidableEq, Repr

/-- Reasons of an acknowledgement word (TABLE 2-2, R27). -/
inductive AckReason where
  | none | mark | version | check | align | size | tag | overlap | busyMode
  deriving DecidableEq, Repr

/-- Treatment of a ring's messages (R67). -/
inductive Treatment where
  | observe | claim
  deriving DecidableEq, Repr

/-- Brownout modes (R83). -/
inductive BrownoutMode where
  | none | single | every
  deriving DecidableEq, Repr

/-- Storm modes (R129). -/
inductive StormMode where
  | single | every
  deriving DecidableEq, Repr

/-! ## Engine control -/

/-- The adopted anchor fields (TABLE 2-1). -/
structure Anchor where
  ownTag            : Tag
  procMask          : BitVec 32
  ringBase          : Addr
  ringSlots         : Nat
  consumedAddr      : Addr
  cmdBase           : Addr
  cmdSlots          : Nat
  mirrorBase        : Addr
  windowBase        : Addr
  completionReports : Bool
  deriving DecidableEq, Repr

/-- Engine control (spec/02). -/
structure Control where
  mode       : Mode
  anchorAddr : Addr
  anchor     : Option Anchor
  startMark  : Bool
  holdupMark : Bool
  deriving DecidableEq, Repr

/-! ## Map store and loader -/

/-- What the map says of one terminal (R38, R39). -/
structure TermEntry where
  port    : Fin 16
  localId : Fin 128
  tap     : Fin 128
  zone    : Fin 64
  prompt  : Bool
  noOff   : Bool
  deriving DecidableEq, Repr

/-- An active map: terminal n, tap n and riser n are the entries at position n (R40). -/
structure BuildingMap where
  terminals : List TermEntry
  taps      : List (Fin 32)
  risers    : List (Fin 16)
  zones     : Nat
  deriving DecidableEq, Repr

/-- The loader (spec/03, its opening list). `capture` is the capture buffer, as far as it has ever been
written since it was last discarded (notes/assumptions/30.md). -/
structure Loader where
  capture  : List Byte
  pointer  : Nat
  declared : Nat
  timeout  : Nat
  tag      : BitVec 16
  overlong : Bool
  crc      : BitVec 32
  burst    : Option Time
  deriving DecidableEq, Repr

/-! ## Intake unit -/

/-- A present intake ring descriptor; its port is its index (R55). -/
structure Ring where
  base      : Addr
  slots     : Nat
  framer    : Tag
  treatment : Treatment
  deriving DecidableEq, Repr

/-- One port's tally (R68). -/
structure Tally where
  taken         : Nat
  duplicates    : Nat
  checkFailures : Nat
  malformed     : Nat
  strays        : Nat
  left          : Nat
  blips         : Nat
  deriving DecidableEq, Repr

/-- The intake unit (spec/04). -/
structure Intake where
  rings      : Vector (Option Ring) 16
  tallies    : Vector Tally 16
  faultMarks : Vector Bool 16
  deriving DecidableEq, Repr

/-! ## Terminal table -/

/-- A terminal record (TABLE 5-1). -/
structure Terminal where
  state       : TState
  disp        : Disp
  muted       : Bool
  lastTag     : Option Byte
  deadline    : Option Time
  flapStart   : Option Time
  downEntries : Nat
  quiet       : Option Time
  lastChange  : Time
  lateGasps   : Nat
  deriving DecidableEq, Repr

/-- The terminal table (spec/05). -/
structure Table where
  terms         : Vector Terminal 1024
  suppressed    : Nat
  brownoutArmed : Bool
  deriving DecidableEq, Repr

/-! ## Correlation unit -/

/-- A group record (TABLE 6-1). Members, down count and eligible are views (notes/assumptions/10.md). -/
structure Group where
  state     : GState
  settled   : Nat
  deadline  : Option Time
  pending   : List (Fin 1024)
  parked    : List GroupId
  covered   : Bool
  announced : Bool
  dark      : Bool
  deriving DecidableEq, Repr

/-- The correlation unit (spec/06, spec/07). -/
structure Correlation where
  groups     : Vector Group 240
  stormIn    : Bool
  stormArmed : Bool
  deriving DecidableEq, Repr

/-! ## Report writer -/

/-- Flags of a SYNC (R144). -/
structure SyncFlags where
  started   : Bool := false
  restarted : Bool := false
  mapActive : Bool := false
  resumed   : Bool := false
  forced    : Bool := false
  deriving DecidableEq, Repr

/-- Counts of mapped terminals in each state (R91). -/
structure StateCounts where
  up        : Nat
  gasped    : Nat
  suspect   : Nat
  downFibre : Nat
  downPower : Nat
  downOff   : Nat
  deriving DecidableEq, Repr

/-- Kinds of report with their payloads (TABLE 8-1). -/
inductive Payload where
  | sync (flags : SyncFlags) (mode : Mode) (down : Nat) (counts : StateCounts) (lost indexFaults failedWrites : Nat)
  | terminalDown (cause : OutageCause)
  | terminalsDown (cause : OutageCause) (terminals : List (Fin 1024))
  | terminalUp
  | terminalBrownout
  | muted (downEntries : Nat)
  | unmuted
  | groupRaised (cause : RaiseCause) (members down settled : Nat) (straggler : Bool)
  | groupCleared (settledMembers : Nat)
  | stormEnter (down : Nat)
  | stormLeave (down : Nat)
  | lineChange (line : Line) (level : Bool) (absorbed : Nat)
  | intakeFault (port : Fin 16) (kind : FaultKind)
  | actionDone (kind : Kind) (code : Code)
  | actionFailed (kind : Kind) (code : Code)
  | deferredFlushed (entries : Nat)
  | commandDone (kind : Kind) (code : Code) (data : Nat)
  | anchorIgnored
  | overrun (lostTotal : Nat)
  | headGasp (down : Nat) (counts : StateCounts) (stormIn : Bool)
  deriving DecidableEq, Repr

/-- A report: its header fields and payload (R134). The subject is a mirror record index (section 13.4). -/
structure Report where
  seq     : BitVec 32
  source  : Source
  subject : Option Nat
  time    : Time
  origin  : BitVec 32
  payload : Payload
  deriving DecidableEq, Repr

/-- The acknowledgement word (R188). -/
structure AckWord where
  adopted   : Bool
  reason    : AckReason
  firstSlot : Nat
  deriving DecidableEq, Repr

/-- An entry of the own-write queue: an own write with its address and contents (R146). `answers` is the source
tag of the anchor write an acknowledgement answers (R18). -/
inductive OwnWrite where
  | report (addr : Addr) (r : Report)
  | writeBack (addr : Addr) (bytes : List Byte)
  | ack (addr : Addr) (word : AckWord) (answers : Tag)
  deriving DecidableEq, Repr

/-- The report writer (spec/08, its opening list). The ring's base and slot count are in the adopted anchor. -/
structure ReportWriter where
  queue        : List OwnWrite
  nextSeq      : BitVec 32
  produced     : Nat
  consumed     : Nat
  occupancy    : Nat
  stalled      : Bool
  sinceSync    : Nat
  lost         : Nat
  lostTotal    : Nat
  indexFaults  : Nat
  failedWrites : Nat
  deriving DecidableEq, Repr

/-! ## Mirror writer -/

/-- The mirror writer (spec/09). The dirty set is a strictly rising list. -/
structure Mirror where
  dirty    : List Nat
  cursor   : Nat
  counts   : Vector (BitVec 8) 1281
  inFlight : List Nat
  deriving DecidableEq, Repr

/-! ## Path unit -/

/-- What a step write is a unit of work for (R8, TABLE 1-8); `consumed` is the consumed-index value it hands over at the
same taking, if any. -/
structure StepFor where
  anchor   : Bool
  intake   : Bool
  command  : Bool
  window   : Bool
  consumed : Option Nat
  deriving DecidableEq, Repr

/-- How far the examination of a mirror read at the front of its lane has come (R14, R15): classified and not yet
examined (notes/assumptions/8.md); found stale and waiting for room in the held-read list; found current and waiting
behind a held read of its tag; to be examined afresh, since what it waited for has come. -/
inductive ReadStage where
  | presented | room | behind | again
  deriving DecidableEq, Repr

/-- Outcomes of classification (R8). A mirror check in stage `room` is R8's hold for room in the held-read list. -/
inductive Verdict where
  | pass
  | step (f : StepFor)
  | consumedIndex (value : Nat)
  | mirrorCheck (stage : ReadStage)
  deriving DecidableEq, Repr

/-- One lane (R4): its requests in order of arrival, and, once the front has been classified, the engine mode and the
outcome of that classification. -/
structure Lane where
  reqs    : List Request
  outcome : Option (Mode × Verdict)
  deriving DecidableEq, Repr

/-- A request in the pass path; `acted` says that the engine acted upon it (R19). -/
structure PassEntry where
  req   : Request
  acted : Bool
  deriving DecidableEq, Repr

/-- What a held read waits for at one record (R14, R15): a write not yet granted, or the k-th answer from now to a
mirror write of that record. -/
inductive Await where
  | needsWrite
  | answers (k : Nat)
  deriving DecidableEq, Repr

/-- A held read with the records it still awaits (R14). -/
structure HeldRead where
  req    : Request
  awaits : List (Nat × Await)
  deriving DecidableEq, Repr

/-- A request that has left the downstream port. A passing request keeps memory's answer until it is returned in its
tag's order (R5). `absorbed` marks an own write issued before a pin reset (R21), `stale` a mirror write issued before a
re-adoption (R159). -/
inductive Issued where
  | pass (req : Request) (acted : Bool) (answer : Option (Resp × List Byte))
  | own (req : Request) (absorbed : Bool)
  | mirror (index : Nat) (req : Request) (stale absorbed : Bool)
  deriving DecidableEq, Repr

/-- A response returned at the upstream port (R5). -/
structure Response where
  tag  : Tag
  resp : Resp
  data : List Byte
  deriving DecidableEq, Repr

/-- The path unit (spec/01). `responses` is its output at the last answer of memory; `picks` numbers the free
choices of order (notes/assumptions/9.md). -/
structure Path where
  lanes     : Vector Lane 32
  passPath  : List PassEntry
  held      : List HeldRead
  issued    : List Issued
  responses : List Response
  passRun   : Nat
  picks     : Nat
  deriving DecidableEq, Repr

/-! ## Command unit -/

/-- The settings (TABLE 10-4). Times are in the unit the table gives. -/
structure Settings where
  grace        : Nat
  gaspFollow   : Nat
  tapWindow    : Nat
  riserWindow  : Nat
  portWindow   : Nat
  zoneWindow   : Nat
  holdDown     : Nat
  tapRaise     : Nat
  riserRaise   : Nat
  portRaise    : Nat
  zoneRaise    : Nat
  tapClear     : Nat
  riserClear   : Nat
  portClear    : Nat
  zoneClear    : Nat
  tapMin       : Nat
  zoneMin      : Nat
  flapLimit    : Nat
  flapWindow   : Nat
  quietTime    : Nat
  stormOn      : Nat
  stormOff     : Nat
  stormMode    : StormMode
  brownoutMode : BrownoutMode
  offReports   : Bool
  syncInterval : Nat
  deriving DecidableEq, Repr

/-- How a MAP_END check ended (R44). -/
inductive CheckEnd where
  | passed (m : BuildingMap)
  | failed (code : MapFail)
  deriving DecidableEq, Repr

/-- The command that makes the unit BUSY, and how far it is: a check under way with its expected length or ended with
its outcome; a clearing under way or ended (TABLE 2-5, 3-3, 3-5). -/
inductive Job where
  | mapEnd (expected : Nat) (ended : Option CheckEnd)
  | restart (cleared : Bool)
  | unmap (cleared : Bool)
  deriving DecidableEq, Repr

/-- The unit state (R164). A BUSY unit knows its slot and the engine time of the taking. -/
inductive UnitState where
  | idle
  | busy (job : Job) (slot : Addr) (since : Time)
  | actions
  deriving DecidableEq, Repr

/-- An entry of the in-progress list (R165): slot address, slot as received, overwritten mark. -/
structure InProgress where
  addr        : Addr
  slot        : List Byte
  overwritten : Bool
  deriving DecidableEq, Repr

/-- Deferred triggers (TABLE 11-1). -/
inductive Trigger where
  | stormIn
  | stormOut
  | line (l : Line)
  | downAtLeast (n : Nat)
  | atTime (t : Time)
  deriving DecidableEq, Repr

/-- A deferred entry (spec/11, its opening list). -/
structure DeferredEntry where
  kind    : Kind
  slot    : List Byte
  trigger : Trigger
  addr    : Addr
  due     : Bool
  deriving DecidableEq, Repr

/-- An entry of a line action list: a command's kind, tag and parameters, kept as the slot was received (R183). -/
structure LineEntry where
  kind : Kind
  slot : List Byte
  deriving DecidableEq, Repr

/-- One contact line: its pin, its debouncer, its action list, its run pending mark and absorbed count (spec/11). -/
structure LineUnit where
  pin        : Bool
  level      : Bool
  deadline   : Option Time
  actions    : List LineEntry
  runPending : Bool
  absorbed   : Nat
  deriving DecidableEq, Repr

/-- The due actions (R186). -/
inductive DueAction where
  | deferred
  | line (l : Line)
  deriving DecidableEq, Repr

/-- The command unit (spec/10, spec/11). `unit` is its unit state; `due` the due list. -/
structure CommandUnit where
  unit       : UnitState
  inProgress : List InProgress
  settings   : Settings
  deferred   : List DeferredEntry
  lineA      : LineUnit
  lineB      : LineUnit
  due        : List DueAction
  deriving DecidableEq, Repr

/-! ## The whole part -/

/-- The state of the LW2410: engine time, RESET_N, the blocks of TABLE 1-1, and the commands waiting. -/
structure State where
  pending : List Instr
  inReset : Bool
  time    : Time
  ctl     : Control
  map     : Option BuildingMap
  loader  : Loader
  intake  : Intake
  table   : Table
  corr    : Correlation
  rw      : ReportWriter
  mirror  : Mirror
  path    : Path
  cmd     : CommandUnit
  deriving DecidableEq, Repr

/-- Why the model stops. -/
inductive Fault where
  /-- Raised by UPSTREAM_REQUEST alone, when its operand is no bus request: an address that is not a multiple of 8, or
  a beat count outside 1–8 (R3). No such request exists, so stopping is safe (notes/assumptions/5.md). -/
  | notARequest
  deriving DecidableEq, Repr

/-- Why the model has no meaning for a command. -/
inductive Refusal where
  /-- Raised by an arm of `exec` whose command has no meaning yet; no arm does. Safe. -/
  | notModelled (mnemonic : String)
  deriving DecidableEq, Repr

/-! ## Values at the release of RESET_N -/

/-- The terminal record at the release of RESET_N (R70). -/
def Terminal.unlisted : Terminal :=
  { state := .unlisted, disp := .none, muted := false, lastTag := none, deadline := none, flapStart := none,
    downEntries := 0, quiet := none, lastChange := 0, lateGasps := 0 }

/-- The group record at the release of RESET_N (R93). -/
def Group.idle : Group :=
  { state := .clear, settled := 0, deadline := none, pending := [], parked := [], covered := false, announced := false,
    dark := false }

/-- A tally of zeros (R68). -/
def Tally.zero : Tally :=
  { taken := 0, duplicates := 0, checkFailures := 0, malformed := 0, strays := 0, left := 0, blips := 0 }

/-- The settings at their defaults (TABLE 10-4). -/
def Settings.default : Settings :=
  { grace := 200, gaspFollow := 1000, tapWindow := 1500, riserWindow := 2500, portWindow := 3500, zoneWindow := 2000,
    holdDown := 5000, tapRaise := 75, riserRaise := 50, portRaise := 50, zoneRaise := 40, tapClear := 25,
    riserClear := 25, portClear := 25, zoneClear := 20, tapMin := 2, zoneMin := 2, flapLimit := 4, flapWindow := 60,
    quietTime := 300, stormOn := 64, stormOff := 16, stormMode := .every, brownoutMode := .every, offReports := false,
    syncInterval := 256 }

/-- The loader at the release of RESET_N (R53). -/
def Loader.empty : Loader :=
  { capture := [], pointer := 0, declared := 0, timeout := 0, tag := 0, overlong := false, crc := 0xFFFFFFFF#32,
    burst := none }

/-- The intake unit at the release of RESET_N (R69). -/
def Intake.reset : Intake :=
  { rings := Vector.replicate 16 none, tallies := Vector.replicate 16 Tally.zero,
    faultMarks := Vector.replicate 16 false }

/-- The terminal table at the release of RESET_N (R70, R83). -/
def Table.reset : Table :=
  { terms := Vector.replicate 1024 Terminal.unlisted, suppressed := 0, brownoutArmed := true }

/-- The correlation unit at the release of RESET_N (R93, R130). -/
def Correlation.reset : Correlation :=
  { groups := Vector.replicate 240 Group.idle, stormIn := false, stormArmed := true }

/-- The report writer at the release of RESET_N (R138). -/
def ReportWriter.reset : ReportWriter :=
  { queue := [], nextSeq := 0, produced := 0, consumed := 0, occupancy := 0, stalled := false, sinceSync := 0,
    lost := 0, lostTotal := 0, indexFaults := 0, failedWrites := 0 }

/-- The mirror writer at the release of RESET_N (R160). -/
def Mirror.reset : Mirror :=
  { dirty := [], cursor := 0, counts := Vector.replicate 1281 0, inFlight := [] }

/-- A line at the release of RESET_N: the debounced level is taken from the pin (R181). -/
def LineUnit.reset (pin : Bool) : LineUnit :=
  { pin := pin, level := pin, deadline := none, actions := [], runPending := false, absorbed := 0 }

/-- The command unit at the release of RESET_N (R175, R187). -/
def CommandUnit.reset (pinA pinB : Bool) : CommandUnit :=
  { unit := .idle, inProgress := [], settings := .default, deferred := [], lineA := .reset pinA, lineB := .reset pinB,
    due := [] }

/-- The path unit with nothing in it (R21). -/
def Path.empty : Path :=
  { lanes := Vector.replicate 32 { reqs := [], outcome := none }, passPath := [], held := [], issued := [],
    responses := [], passRun := 0, picks := 0 }

/-- Engine control at the release of RESET_N with HOLDUP_LOW deasserted (R30). -/
def Control.reset (anchorAddr : Addr) : Control :=
  { mode := .detached, anchorAddr := anchorAddr, anchor := none, startMark := true, holdupMark := false }

/-- The machine right after reset: RESET_N has just been released with ANCHOR_SEL 0, HOLDUP_LOW deasserted and both lines
low (notes/assumptions/4.md), and no request has arrived. -/
def State.reset : State :=
  { pending := [], inReset := false, time := 0, ctl := .reset 0x0000000400#40, map := none, loader := .empty,
    intake := .reset, table := .reset, corr := .reset, rw := .reset, mirror := .reset, path := .empty,
    cmd := .reset false false }

end Sys2Proof.Machine
end

