-- ==== Sys2Proof/WellFormed.lean ====
section
/-! DEFINITION. Which commands are commands of this part at all: a request must have the form of a bus request (R3). -/

namespace Sys2Proof

/-- Number of beats of a request. -/
def Body.beatCount : Body → Nat
  | .read n => n
  | .write bs => bs.length

/-- The address of every request is a multiple of 8 (R3). -/
def Request.aligned (r : Request) : Bool := r.addr.toNat % 8 == 0

/-- A request has 1 to 8 beats (spec/00, section 1.6). -/
def Request.beatsOk (r : Request) : Bool := decide (1 ≤ r.body.beatCount) && decide (r.body.beatCount ≤ 8)

/-- The form of a bus request (R3). -/
def Request.wf (r : Request) : Bool := r.aligned && r.beatsOk

/-- A command is well formed when the request it carries, if any, is a bus request. Every other operand is
bounded by its type. -/
def Instr.wf : Instr → Bool
  | .upstreamRequest r => r.wf
  | .downstreamGrant => true
  | .memoryResponse _ _ _ => true
  | .ownWriteError _ _ => true
  | .mirrorWriteResponse _ _ => true
  | .heldRead _ => true
  | .resetNAssertion => true
  | .resetNRelease _ => true
  | .anchorWrite _ => true
  | .holdupLowAssertion => true
  | .gasp _ => true
  | .loss _ => true
  | .restore _ => true
  | .portDark _ => true
  | .portLit _ => true
  | .malformed _ => true
  | .graceExpiry _ => true
  | .gaspFollowExpiry _ => true
  | .staleGaspWindowEnd _ => true
  | .quietExpiry _ => true
  | .tapVerdict _ => true
  | .parentDeadlineWait _ => true
  | .riserVerdict _ => true
  | .portVerdict _ => true
  | .zoneVerdict _ => true
  | .holdDownExpiry _ => true
  | .consumedIndexWrite _ => true
  | .loadWindowWrite _ => true
  | .burstTimerExpiry => true
  | .setIntake _ => true
  | .clearIntake _ => true
  | .setWindows _ => true
  | .setThresholds _ => true
  | .setFlap _ => true
  | .setStorm _ => true
  | .setReporting _ => true
  | .arm _ => true
  | .setSync _ => true
  | .forceSync _ => true
  | .mute _ => true
  | .unmute _ => true
  | .seed _ => true
  | .mapBegin _ => true
  | .mapEnd _ => true
  | .mapCheckEnd => true
  | .mapEndCompletion => true
  | .mapAbort _ => true
  | .unmap _ => true
  | .unmapClearing => true
  | .unmapCompletion => true
  | .restart _ => true
  | .restartClearing => true
  | .restartCompletion => true
  | .dropAction _ => true
  | .queueFlush _ => true
  | .badKind _ => true
  | .atTimeReached => true
  | .linePinChange _ _ => true
  | .debounceExpiry _ => true
  | .deferredEntryRun => true
  | .lineActionRun _ => true

end Sys2Proof
end

