-- ==== Sys2Proof/Machine/Operands.lean ====
section
/-! DEFINITION. Bytes, check values, the parts of a request, the encodings of spec/13, and how the part reads an intake
message, a command slot, an anchor block and a map image. -/

namespace Sys2Proof.Machine

/-! ## Bytes and packed runs -/

/-- Byte k of a run of bytes; 0 beyond its end. -/
def byteAt (b : List Byte) (k : Nat) : Nat := (b.getD k 0).toNat

/-- The little-endian number in the `n` bytes from byte `k` (spec/00, section 1.6). -/
def leAt (b : List Byte) (k : Nat) : Nat → Nat
  | 0 => 0
  | n + 1 => byteAt b k + 256 * leAt b (k + 1) n

/-- The `n` bytes of a number, least significant first (spec/00, section 1.6). -/
def leBytes : Nat → Nat → List Byte
  | 0, _ => []
  | n + 1, v => BitVec.ofNat 8 v :: leBytes n (v / 256)

/-- A packed run of fields of width `w`, as one number: field k at bit k × w (spec/13, its opening). -/
def packRun (w : Nat) : List Nat → Nat
  | [] => 0
  | v :: vs => v % 2 ^ w + 2 ^ w * packRun w vs

/-- `n` zero bytes. -/
def zeros (n : Nat) : List Byte := List.replicate n 0

/-- A run of bytes in batches of eight, the last holding the remainder (R103). -/
def batches8 {α : Type} : List α → List (List α)
  | a :: b :: c :: d :: e :: f :: g :: h :: rest => [a, b, c, d, e, f, g, h] :: batches8 rest
  | [] => []
  | rest => [rest]

/-! ## Check values (R2) -/

/-- One bit of the CRC-8: polynomial 0x07, not reflected. -/
def crc8Bit (c : BitVec 8) : BitVec 8 := if c.msb then (c <<< 1) ^^^ 0x07#8 else c <<< 1

/-- `n` bits of a CRC register. -/
def crcBits {w : Nat} (f : BitVec w → BitVec w) : Nat → BitVec w → BitVec w
  | 0, c => c
  | n + 1, c => crcBits f n (f c)

/-- The CRC-8 of a run of bytes, initial value 0, no final XOR (R2). -/
def crc8 (bs : List Byte) : BitVec 8 := bs.foldl (fun c b => crcBits crc8Bit 8 (c ^^^ b)) 0

/-- One bit of the CRC-32: polynomial 0x04C11DB7 reflected. -/
def crc32Bit (c : BitVec 32) : BitVec 32 := if c.getLsbD 0 then (c >>> 1) ^^^ 0xEDB88320#32 else c >>> 1

/-- The CRC-32 register after one more byte. -/
def crc32Byte (c : BitVec 32) (b : Byte) : BitVec 32 := crcBits crc32Bit 8 (c ^^^ b.setWidth 32)

/-- The initial value of the CRC-32 register (R2). -/
def crc32Init : BitVec 32 := 0xFFFFFFFF#32

/-- The CRC-32 that a register stands for: final XOR of 0xFFFFFFFF (R2). -/
def crc32Final (c : BitVec 32) : BitVec 32 := c ^^^ 0xFFFFFFFF#32

/-- The CRC-32 of a run of bytes (R2). -/
def crc32 (bs : List Byte) : BitVec 32 := crc32Final (bs.foldl crc32Byte crc32Init)

end Sys2Proof.Machine

namespace Sys2Proof

/-! ## Requests -/

/-- Bytes a request covers: 8 for each beat, whatever its enables (R3). -/
def Request.size (r : Request) : Nat := 8 * r.body.beatCount

/-- Whether the request covers a byte of the `len` bytes from `base`. -/
def Request.overlaps (r : Request) (base len : Nat) : Bool :=
  decide (r.addr.toNat < base + len) && decide (base < r.addr.toNat + r.size)

/-- The beats of a WRITE; none of a READ. -/
def Request.beats (r : Request) : List Beat :=
  match r.body with
  | .read _ => []
  | .write bs => bs

/-- Whether the request is a WRITE. -/
def Request.isWrite (r : Request) : Bool :=
  match r.body with
  | .read _ => false
  | .write _ => true

/-- The data of a WRITE, in address order. -/
def Request.bytes (r : Request) : List Byte := r.beats.flatMap (fun b => b.data.toList)

/-- A full aligned write of `n` bytes (spec/00, section 1.6). -/
def Request.fullAligned (r : Request) (n : Nat) : Bool :=
  r.isWrite && r.size == n && r.addr.toNat % n == 0 && r.beats.all (fun b => b.enable == 0xFF#8)

/-- Whether byte enable and coverage reach the byte at address `a`: byte j of beat k lies at address + 8k + j (R3). -/
def Request.enables (r : Request) (a : Nat) : Bool :=
  decide (r.addr.toNat ≤ a) &&
    match r.beats[(a - r.addr.toNat) / 8]? with
    | some b => b.enable.getLsbD ((a - r.addr.toNat) % 8)
    | none => false

/-- The request with byte 0 of its data replaced (R13). -/
def Request.withByte0 (r : Request) (v : Byte) : Request :=
  match r.body with
  | .write (b :: bs) => { r with body := .write ({ b with data := b.data.set 0 v } :: bs) }
  | _ => r

end Sys2Proof

namespace Sys2Proof.Machine

/-- Whether two runs of bytes share a byte. -/
def rangesOverlap (b1 l1 b2 l2 : Nat) : Bool := decide (b1 < b2 + l2) && decide (b2 < b1 + l1)

/-- A full beat of eight bytes. -/
def fullBeat (b0 b1 b2 b3 b4 b5 b6 b7 : Byte) : Beat := { data := #v[b0, b1, b2, b3, b4, b5, b6, b7], enable := 0xFF#8 }

/-- Beats with every byte enabled; bytes short of a whole beat are left out. -/
def fullBeats : List Byte → List Beat
  | b0 :: b1 :: b2 :: b3 :: b4 :: b5 :: b6 :: b7 :: rest => fullBeat b0 b1 b2 b3 b4 b5 b6 b7 :: fullBeats rest
  | _ => []

/-! ## Encodings (spec/13) -/

/-- TABLE 13-5, engine mode. -/
def Mode.code : Mode → Nat
  | .detached => 0 | .attached => 1 | .loading => 2 | .running => 3 | .halted => 4

/-- TABLE 13-6, terminal state. -/
def TState.code : TState → Nat
  | .unlisted => 0 | .up => 1 | .gasped => 2 | .suspect => 3 | .downFibre => 4 | .downPower => 5 | .downOff => 6

/-- TABLE 13-6, disposition. -/
def Disp.code : Disp → Nat
  | .none => 0 | .pending => 1 | .covered => 2 | .reported => 3 | .quiet => 4

/-- TABLE 13-6, group state. -/
def GState.code : GState → Nat
  | .clear => 0 | .gathering => 1 | .parked => 2 | .raised => 3 | .clearing => 4

/-- TABLE 13-5, outage cause. -/
def OutageCause.code : OutageCause → Nat
  | .fibre => 1 | .power => 2 | .off => 3

/-- TABLE 13-5, cause of a GROUP_RAISED. -/
def RaiseCause.code : RaiseCause → Nat
  | .fibre => 1 | .power => 2 | .dark => 3

/-- TABLE 13-5, fault kind. -/
def FaultKind.code : FaultKind → Nat
  | .malformed => 1 | .check => 2 | .portMismatch => 3 | .unknownKind => 4 | .unknownCause => 5 | .reserved => 6

/-- Section 13.4, source. -/
def Source.code : Source → Nat
  | .engine => 0 | .command => 1 | .deferred => 2 | .line .a => 3 | .line .b => 4

/-- TABLE 13-4, command kind. -/
def Kind.code : Kind → Nat
  | .setIntake => 1 | .clearIntake => 2 | .setWindows => 3 | .setThresholds => 4 | .setFlap => 5 | .setStorm => 6
  | .setReporting => 7 | .arm => 8 | .setSync => 9 | .forceSync => 10 | .mute => 11 | .unmute => 12 | .seed => 13
  | .mapBegin => 14 | .mapEnd => 15 | .mapAbort => 16 | .unmap => 17 | .restart => 18 | .dropAction => 19
  | .queueFlush => 20

/-- TABLE 13-3, result code. -/
def Code.code : Code → Nat
  | .done => 0 | .wrongMode => 1 | .busy => 2 | .slotBusy => 3 | .badKind => 4 | .badParam => 5 | .overlap => 6
  | .notDeferrable => 7 | .queueFull => 8 | .listFull => 9 | .lineInUse => 10 | .noTerminal => 11
  | .terminalPending => 12 | .failed => 13 | .halted => 14 | .timeout => 15

/-- TABLE 13-3, slot state as a write-back gives it. -/
def SlotState.code : SlotState → Nat
  | .queued => 2 | .done => 3 | .refused => 4 | .failed => 5

/-- Section 13.3, MAP_END failure code. -/
def MapFail.code : MapFail → Nat
  | .length => 1 | .version => 2 | .check => 3 | .counts => 4 | .reference => 5 | .duplicate => 6 | .tree => 7
  | .aborted => 8

/-- Section 13.1, acknowledgement reason. -/
def AckReason.code : AckReason → Nat
  | .none => 0 | .mark => 1 | .version => 2 | .check => 3 | .align => 4 | .size => 5 | .tag => 6 | .overlap => 7
  | .busyMode => 8

/-- A yes or no as a bit. -/
def bit (b : Bool) : Nat := if b then 1 else 0

/-- TABLE 13-5, line. -/
def lineCode : Line → Nat
  | .a => 0 | .b => 1

end Sys2Proof.Machine

namespace Sys2Proof

/-! ## Groups and records -/

/-- A group's place among the 240 (R93): taps, risers, ports, zones. -/
def GroupId.index : GroupId → Fin 240
  | .tap n => ⟨n.val, by omega⟩
  | .riser n => ⟨128 + n.val, by omega⟩
  | .port n => ⟨160 + n.val, by omega⟩
  | .zone n => ⟨176 + n.val, by omega⟩

/-- A group's number within its kind. -/
def GroupId.number : GroupId → Nat
  | .tap n => n.val
  | .riser n => n.val
  | .port n => n.val
  | .zone n => n.val

/-- A group's mirror record index (R93, TABLE 9-1). -/
def GroupId.record (g : GroupId) : Nat := Config.groupBase + g.index.val

/-- The group a parent is. -/
def Parent.group : Parent → GroupId
  | .riser n => .riser n
  | .port n => .port n

end Sys2Proof

namespace Sys2Proof.Machine

/-! ## The intake message (TABLE 13-2) -/

/-- Kinds of intake message. -/
inductive MsgKind where
  | gasp | loss | restore | portDark | portLit
  deriving DecidableEq, Repr

/-- The kind a message's byte 1 names, if any. -/
def msgKind (m : List Byte) : Option MsgKind :=
  match byteAt m 1 with
  | 1 => some .gasp
  | 2 => some .loss
  | 3 => some .restore
  | 4 => some .portDark
  | 5 => some .portLit
  | _ => none

/-- Answer byte NEW. -/
def byteNew : Byte := 1
/-- Answer byte TAKEN. -/
def byteTaken : Byte := 2
/-- Answer byte DUPLICATE. -/
def byteDuplicate : Byte := 3

/-- A write of a message's form: a full aligned 16-byte write whose byte 0 holds NEW (R60). -/
def messageForm (r : Request) : Bool := r.fullAligned 16 && byteAt r.bytes 0 == byteNew.toNat

/-- A message's framer time. -/
def framerTime (m : List Byte) : BitVec 32 := BitVec.ofNat 32 (leAt m 8 4)

/-- Whether a cause field is in order for its kind (TABLE 4-2, test 4). -/
def causeOk (k : MsgKind) (cause : Nat) : Bool :=
  match k with
  | .gasp => cause == 1 || cause == 2
  | .loss => cause == 0
  | .restore => cause == 0
  | .portDark => cause == 0
  | .portLit => cause == 0

/-- Whether the reserved bytes, and a port message's local id, are in order (TABLE 4-2, test 5). -/
def reservedOk (k : MsgKind) (m : List Byte) : Bool :=
  leAt m 6 2 == 0 && leAt m 12 3 == 0 &&
    match k with
    | .portDark => byteAt m 3 == 0xFF
    | .portLit => byteAt m 3 == 0xFF
    | .gasp => true
    | .loss => true
    | .restore => true

/-- The first failing test of TABLE 4-2 for a message in a ring of `port`, or none where the message is sound (R61). -/
def messageFault (port : Fin 16) (m : List Byte) : Option FaultKind :=
  if byteAt m 15 != (crc8 ((m.drop 1).take 14)).toNat then some .check
  else if byteAt m 2 != port.val then some .portMismatch
  else
    match msgKind m with
    | none => some .unknownKind
    | some k =>
      if !causeOk k (byteAt m 5) then some .unknownCause
      else if !reservedOk k m then some .reserved
      else none

/-! ## The command slot (TABLE 13-3) -/

/-- State byte ISSUED. -/
def slotIssued : Nat := 1

/-- The kind a slot names (TABLE 13-4), if any. -/
def slotKind (s : List Byte) : Option Kind :=
  match byteAt s 1 with
  | 1 => some .setIntake
  | 2 => some .clearIntake
  | 3 => some .setWindows
  | 4 => some .setThresholds
  | 5 => some .setFlap
  | 6 => some .setStorm
  | 7 => some .setReporting
  | 8 => some .arm
  | 9 => some .setSync
  | 10 => some .forceSync
  | 11 => some .mute
  | 12 => some .unmute
  | 13 => some .seed
  | 14 => some .mapBegin
  | 15 => some .mapEnd
  | 16 => some .mapAbort
  | 17 => some .unmap
  | 18 => some .restart
  | 19 => some .dropAction
  | 20 => some .queueFlush
  | _ => none

/-- Placements (R166). -/
inductive Placement where
  | now
  | defer
  | line (l : Line)
  deriving DecidableEq, Repr

/-- The placement a slot names, if any (TABLE 13-3). -/
def slotPlacement (s : List Byte) : Option Placement :=
  match byteAt s 2 with
  | 0 => some .now
  | 1 => some .defer
  | 2 => some (.line .a)
  | 3 => some (.line .b)
  | _ => none

/-- A slot's tag (TABLE 13-3). -/
def slotTag (s : List Byte) : BitVec 16 := BitVec.ofNat 16 (leAt s 4 2)

/-- A slot's trigger, or none where R177's test 1 fails. -/
def slotTrigger (s : List Byte) : Option Trigger :=
  let v := leAt s 6 4
  match byteAt s 3 with
  | 1 => some .stormIn
  | 2 => some .stormOut
  | 3 => some (.line .a)
  | 4 => some (.line .b)
  | 5 => if 1 ≤ v ∧ v ≤ 1024 then some (.downAtLeast v) else none
  | 6 => some (.atTime (BitVec.ofNat 32 v))
  | _ => none

/-- A slot's write-back: bytes 1–27 as taken, bytes 0 and 28–31 afresh (R162, R189). -/
def writeBackBytes (slot : List Byte) (st : SlotState) (code : Code) (overwritten : Bool) (data : Nat) : List Byte :=
  leBytes 1 st.code ++ (List.range' 1 27).map (fun k => slot.getD k 0) ++
    leBytes 1 code.code ++ leBytes 1 (bit overwritten) ++ leBytes 2 data

/-! ## The anchor block (TABLE 13-1) -/

/-- The fields of an anchor block, as an adoption takes them. -/
def anchorOf (b : List Byte) : Anchor :=
  { ownTag := Fin.ofNat 32 (byteAt b 3),
    procMask := BitVec.ofNat 32 (leAt b 4 4),
    ringBase := BitVec.ofNat 40 (leAt b 8 5),
    ringSlots := leAt b 13 2,
    consumedAddr := BitVec.ofNat 40 (leAt b 16 5),
    cmdBase := BitVec.ofNat 40 (leAt b 24 5),
    cmdSlots := byteAt b 29,
    mirrorBase := BitVec.ofNat 40 (leAt b 32 5),
    windowBase := BitVec.ofNat 40 (leAt b 40 5),
    completionReports := byteAt b 15 % 2 == 1 }

/-- Whether `n` is a power of two from 2^lo to 2^hi. -/
def powerOfTwoIn (n lo hi : Nat) : Bool := (List.range' lo (hi + 1 - lo)).any (fun k => n == 2 ^ k)

/-- One past the highest address (spec/00, section 1.6). -/
def addrTop : Nat := 2 ^ 40

/-- Bytes of the status mirror (TABLE 9-1). -/
def mirrorSize : Nat := 16 * Config.mirrorRecords

/-- Bytes of the map load window (TABLE 1-7). -/
def windowSize : Nat := 4096

/-- The areas an anchor block names, as base and length: report ring, consumed-index word, command area, status mirror,
load window (TABLE 1-7). -/
def Anchor.areas (a : Anchor) : List (Nat × Nat) :=
  [(a.ringBase.toNat, 32 * a.ringSlots), (a.consumedAddr.toNat, 4), (a.cmdBase.toNat, 32 * a.cmdSlots),
    (a.mirrorBase.toNat, mirrorSize), (a.windowBase.toNat, windowSize)]

/-- The area of a ring (R55). -/
def Ring.area (r : Ring) : Nat × Nat := (r.base.toNat, 16 * r.slots)

/-- Whether any two of a list of areas overlap. -/
def anyOverlap : List (Nat × Nat) → Bool
  | [] => false
  | a :: rest => rest.any (fun b => rangesOverlap a.1 a.2 b.1 b.2) || anyOverlap rest

/-- The first failing check of TABLE 2-2, or none where the block is valid (R24). `rings` are the areas of the intake
rings in force. Bytes 0–59 alone are read (R188). -/
def anchorFault (anchorAddr : Addr) (rings : List (Nat × Nat)) (b : List Byte) : Option AckReason :=
  let a := anchorOf b
  if leAt b 0 2 != 0xA5C3 then some .mark
  else if byteAt b 2 != 1 then some .version
  else if leAt b 56 4 != (crc32 (b.take 56)).toNat then some .check
  else if a.ringBase.toNat % 64 != 0 || a.cmdBase.toNat % 64 != 0 || a.mirrorBase.toNat % 64 != 0 ||
      a.windowBase.toNat % 64 != 0 || a.consumedAddr.toNat % 4 != 0 then some .align
  else if !powerOfTwoIn a.ringSlots 4 12 || a.cmdSlots < 8 || 64 < a.cmdSlots ||
      a.areas.any (fun p => decide (addrTop < p.1 + p.2)) then some .size
  else if 31 < byteAt b 3 || a.procMask == 0 || a.procMask.getLsbD (byteAt b 3) then some .tag
  else if anyOverlap (a.areas ++ [(anchorAddr.toNat, 64)]) ||
      (a.areas ++ [(anchorAddr.toNat, 64)]).any (fun p => rings.any (fun q => rangesOverlap p.1 p.2 q.1 q.2)) then
    some .overlap
  else none

/-- The anchor address the straps select (TABLE 1-3). -/
def strapAddress (sel : Fin 4) : Addr :=
  match sel.val with
  | 0 => 0x0000000400#40
  | 1 => 0x0000100000#40
  | 2 => 0x0040000000#40
  | _ => 0x7FFFFFFFC0#40

/-! ## The map image (section 13.6) -/

/-- A length rounded up to a multiple of 8 (section 3.2). -/
def round8 (n : Nat) : Nat := (n + 7) / 8 * 8

/-- Header counts: terminals, taps, risers, zones (section 13.6). -/
def imageTerminals (b : List Byte) : Nat := leAt b 2 2
/-- Tap count of an image. -/
def imageTaps (b : List Byte) : Nat := leAt b 4 2
/-- Riser count of an image. -/
def imageRisers (b : List Byte) : Nat := leAt b 6 2
/-- Zone count of an image. -/
def imageZones (b : List Byte) : Nat := leAt b 8 2

/-- The image length the counts give (section 3.2). -/
def imageLength (b : List Byte) : Nat :=
  32 + round8 (2 * imageTaps b) + round8 (2 * imageRisers b) + round8 (4 * imageTerminals b)

/-- Riser number of tap entry t. -/
def imageTapRiser (b : List Byte) (t : Nat) : Nat := byteAt b (32 + 2 * t)

/-- Port of riser entry r. -/
def imageRiserPort (b : List Byte) (r : Nat) : Nat := byteAt b (32 + round8 (2 * imageTaps b) + 2 * r)

/-- Position of terminal entry n. -/
def imageTermAt (b : List Byte) (n : Nat) : Nat :=
  32 + round8 (2 * imageTaps b) + round8 (2 * imageRisers b) + 4 * n

/-- Port of terminal entry n: byte 0 bits 0–5. -/
def imageTermPort (b : List Byte) (n : Nat) : Nat := byteAt b (imageTermAt b n) % 64
/-- Local id of terminal entry n. -/
def imageTermLocal (b : List Byte) (n : Nat) : Nat := byteAt b (imageTermAt b n + 1)
/-- Tap of terminal entry n. -/
def imageTermTap (b : List Byte) (n : Nat) : Nat := byteAt b (imageTermAt b n + 2)
/-- Zone of terminal entry n. -/
def imageTermZone (b : List Byte) (n : Nat) : Nat := byteAt b (imageTermAt b n + 3)

/-- The map an image describes (R40). -/
def mapOf (b : List Byte) : BuildingMap :=
  { terminals := (List.range (imageTerminals b)).map fun n =>
      { port := Fin.ofNat 16 (imageTermPort b n), localId := Fin.ofNat 128 (imageTermLocal b n),
        tap := Fin.ofNat 128 (imageTermTap b n), zone := Fin.ofNat 64 (imageTermZone b n),
        prompt := byteAt b (imageTermAt b n) / 64 % 2 == 1, noOff := byteAt b (imageTermAt b n) / 128 == 1 },
    taps := (List.range (imageTaps b)).map fun t => Fin.ofNat 32 (imageTapRiser b t),
    risers := (List.range (imageRisers b)).map fun r => Fin.ofNat 16 (imageRiserPort b r),
    zones := imageZones b }

/-- The empty map (R49). -/
def emptyMap : BuildingMap := { terminals := [], taps := [], risers := [], zones := 0 }

/-- Whether some reference of the image is out of range (TABLE 3-4, test 5). -/
def imageBadReference (b : List Byte) : Bool :=
  (List.range (imageTaps b)).any (fun t => decide (imageRisers b ≤ imageTapRiser b t)) ||
    (List.range (imageRisers b)).any (fun r => decide (15 < imageRiserPort b r)) ||
    (List.range (imageTerminals b)).any (fun n =>
      decide (imageTaps b ≤ imageTermTap b n) || decide (imageZones b ≤ imageTermZone b n) ||
        decide (15 < imageTermPort b n) || decide (127 < imageTermLocal b n))

/-- Whether two entries of a list are equal. -/
def anyEqualPair {α : Type} [DecidableEq α] : List α → Bool
  | [] => false
  | a :: rest => rest.contains a || anyEqualPair rest

/-- Whether a terminal's port differs from its tap's riser's, or a group has too many members (TABLE 3-4, test 7;
TABLE 3-1). -/
def mapBadTree (m : BuildingMap) : Bool :=
  m.terminals.any (fun e =>
      match m.taps[e.tap.val]? with
      | some r => m.risers[r.val]? != some e.port
      | none => true) ||
    (List.finRange 128).any (fun t => decide (32 < m.terminals.countP (fun e => e.tap == t))) ||
    (List.finRange 32).any (fun r => decide (16 < m.taps.countP (fun x => x == r))) ||
    (List.finRange 16).any (fun p => decide (8 < m.risers.countP (fun x => x == p))) ||
    (List.finRange 64).any (fun z => decide (64 < m.terminals.countP (fun e => e.zone == z)))

/-- The outcome of the check of a captured image (R45, TABLE 3-4): the first failing test, or the map. Only what the pointer
covers is read (R41). -/
def checkImage (l : Loader) (expected : Nat) : CheckEnd :=
  let b := l.capture.take l.pointer
  if l.pointer != l.declared || l.overlong || expected != l.declared then .failed .length
  else if leAt b 0 2 != 1 then .failed .version
  else if (crc32Final l.crc).toNat != leAt b 16 4 then .failed .check
  else if 1024 < imageTerminals b || 128 < imageTaps b || 32 < imageRisers b || 64 < imageZones b ||
      imageLength b != l.declared then .failed .counts
  else if imageBadReference b then .failed .reference
  else if anyEqualPair ((mapOf b).terminals.map (fun e => (e.port, e.localId))) then .failed .duplicate
  else if mapBadTree (mapOf b) then .failed .tree
  else .passed (mapOf b)

end Sys2Proof.Machine
end

