-- ==== Sys2Proof/Machine/Ops.lean ====
section
/-! DEFINITION. The named operations over the state: engine time, reading and writing records, the map store's answers,
marking mirror records, the own-write queue's room. -/

namespace Sys2Proof.Machine

/-! ## Engine time (R1) -/

/-- Engine time `now` has reached instant `t`: their difference modulo 2^32 is less than 2^31 (R1). -/
def reached (now t : Time) : Bool := decide ((now - t).toNat < 2 ^ 31)

/-- An instant some milliseconds after another, modulo 2^32. -/
def after (t : Time) (ms : Nat) : Time := t + BitVec.ofNat 32 ms

/-- Whether an optional deadline is present and reached (R71, R99). -/
def due (now : Time) : Option Time → Bool
  | none => false
  | some t => reached now t

/-- The later of two instants. -/
def later (a b : Time) : Time := if reached a b then a else b

/-- What happens on an empty queue: one millisecond of engine time passes; engine time stands still while RESET_N is
asserted (R1; notes/assumptions/1.md). -/
def tick (s : State) : State := if s.inReset then s else { s with time := s.time + 1 }

/-! ## Records -/

/-- Terminal record n. -/
def State.term (s : State) (n : Fin 1024) : Terminal := s.table.terms[n.val]

/-- Overwrite terminal record n, with no mark. -/
def State.setTerm (s : State) (n : Fin 1024) (t : Terminal) : State :=
  { s with table := { s.table with terms := s.table.terms.set n.val t } }

/-- Group record g. -/
def State.group (s : State) (g : GroupId) : Group := s.corr.groups[g.index.val]

/-- Overwrite group record g, with no mark. -/
def State.setGroup (s : State) (g : GroupId) (x : Group) : State :=
  { s with corr := { s.corr with groups := s.corr.groups.set g.index.val x } }

/-- Port p's tally. -/
def State.tally (s : State) (p : Fin 16) : Tally := s.intake.tallies[p.val]

/-- Overwrite port p's tally, with no mark. -/
def State.setTally (s : State) (p : Fin 16) (t : Tally) : State :=
  { s with intake := { s.intake with tallies := s.intake.tallies.set p.val t } }

/-- Port p's intake ring descriptor. -/
def State.ring (s : State) (p : Fin 16) : Option Ring := s.intake.rings[p.val]

/-- Port p's fault mark. -/
def State.faultMark (s : State) (p : Fin 16) : Bool := s.intake.faultMarks[p.val]

/-- Overwrite port p's fault mark, with no mirror mark. -/
def State.setFaultMark (s : State) (p : Fin 16) (v : Bool) : State :=
  { s with intake := { s.intake with faultMarks := s.intake.faultMarks.set p.val v } }

/-- Lane of tag t. -/
def State.lane (s : State) (t : Tag) : Lane := s.path.lanes[t.val]

/-- Overwrite the lane of tag t. -/
def State.setLane (s : State) (t : Tag) (l : Lane) : State :=
  { s with path := { s.path with lanes := s.path.lanes.set t.val l } }

/-- The unit of line l. -/
def State.line (s : State) : Line → LineUnit
  | .a => s.cmd.lineA
  | .b => s.cmd.lineB

/-- Overwrite the unit of line l. -/
def State.setLine (s : State) (l : Line) (u : LineUnit) : State :=
  match l with
  | .a => { s with cmd := { s.cmd with lineA := u } }
  | .b => { s with cmd := { s.cmd with lineB := u } }

/-- The settings in force. -/
def State.settings (s : State) : Settings := s.cmd.settings

/-- Set the engine mode, with no mark. -/
def State.setMode (s : State) (m : Mode) : State := { s with ctl := { s.ctl with mode := m } }

/-- Set the unit state. -/
def State.setUnit (s : State) (u : UnitState) : State := { s with cmd := { s.cmd with unit := u } }

/-! ## The status mirror's dirty set (R156) -/

/-- Insert an index in a strictly rising list; present already, nothing changes. -/
def insertIndex (i : Nat) : List Nat → List Nat
  | [] => [i]
  | j :: rest => if i < j then i :: j :: rest else if i = j then j :: rest else j :: insertIndex i rest

/-- Mark one mirror record dirty. -/
def State.mark (s : State) (i : Nat) : State :=
  { s with mirror := { s.mirror with dirty := insertIndex i s.mirror.dirty } }

/-- Mark the engine summary record dirty. -/
def State.markSummary (s : State) : State := s.mark Config.summaryRecord

/-- Mark port p's tally record dirty. -/
def State.markTally (s : State) (p : Fin 16) : State := s.mark (Config.tallyBase + p.val)

/-- Mark a record when a condition holds. -/
def State.markIf (s : State) (c : Bool) (i : Nat) : State := if c then s.mark i else s

/-- Mark every record and set the drain cursor to 0 (R156). -/
def State.markAll (s : State) : State :=
  { s with mirror := { s.mirror with dirty := List.range Config.mirrorRecords, cursor := 0 } }

/-! ## What the map store answers (R54) -/

/-- The map's terminal entries with their numbers. -/
def State.entries (s : State) : List (TermEntry × Nat) :=
  match s.map with
  | none => []
  | some m => m.terminals.zipIdx

/-- The map's entry of terminal n, if it is mapped. -/
def State.entry? (s : State) (n : Fin 1024) : Option TermEntry :=
  match s.map with
  | none => none
  | some m => m.terminals[n.val]?

/-- The terminal a pair of port and local id names (R54). -/
def State.terminalOf (s : State) (port : Fin 16) (localId : Nat) : Option (Fin 1024) :=
  (s.entries.find? (fun e => e.1.port == port && e.1.localId.val == localId)).map (fun e => Fin.ofNat 1024 e.2)

/-- A port is mapped when at least one riser names it (R38). -/
def State.portMapped (s : State) (p : Fin 16) : Bool :=
  match s.map with
  | none => false
  | some m => m.risers.contains p

/-- The riser of a tap, the port of a riser; zones and ports have no parent (R38). -/
def State.parent? (s : State) : GroupId → Option GroupId
  | .tap t => s.map.bind (fun m => m.taps[t.val]?.map GroupId.riser)
  | .riser r => s.map.bind (fun m => m.risers[r.val]?.map GroupId.port)
  | .port _ => none
  | .zone _ => none

/-- Whether a map entry is a member of a group. -/
def memberOf (g : GroupId) (e : TermEntry) : Bool :=
  match g with
  | .tap t => e.tap == t
  | .zone z => e.zone == z
  | .riser _ => false
  | .port _ => false

/-- The terminals that are members of a tap or zone, in ascending number (R38). -/
def State.termMembers (s : State) (g : GroupId) : List (Fin 1024) :=
  (s.entries.filter (fun e => memberOf g e.1)).map (fun e => Fin.ofNat 1024 e.2)

/-- The taps of a riser or the risers of a port, in ascending number (R38). -/
def State.children (s : State) (g : GroupId) : List GroupId :=
  match s.map, g with
  | some m, .riser r => (m.taps.zipIdx.filter (fun x => x.1 == r)).map (fun x => GroupId.tap (Fin.ofNat 128 x.2))
  | some m, .port p => (m.risers.zipIdx.filter (fun x => x.1 == p)).map (fun x => GroupId.riser (Fin.ofNat 32 x.2))
  | some _, .tap _ => []
  | some _, .zone _ => []
  | none, _ => []

/-! ## The counts a terminal enters (TABLE 5-2) -/

/-- Counts towards the building down count. -/
def TState.buildingDown : TState → Bool
  | .gasped => true | .suspect => true | .downFibre => true | .downPower => true
  | .unlisted => false | .up => false | .downOff => false

/-- Counts towards its tap's down count. -/
def TState.tapDown : TState → Bool
  | .downFibre => true
  | .unlisted => false | .up => false | .gasped => false | .suspect => false | .downPower => false | .downOff => false

/-- Counts towards its zone's down count. -/
def TState.zoneDown : TState → Bool
  | .gasped => true | .downPower => true
  | .unlisted => false | .up => false | .suspect => false | .downFibre => false | .downOff => false

/-- Counts towards its tap's eligible count. -/
def TState.tapEligible : TState → Bool
  | .up => true | .suspect => true | .downFibre => true
  | .unlisted => false | .gasped => false | .downPower => false | .downOff => false

/-- Counts towards its zone's eligible count. -/
def TState.zoneEligible : TState → Bool
  | .up => true | .gasped => true | .suspect => true | .downPower => true
  | .unlisted => false | .downFibre => false | .downOff => false

/-- A child group counts in its parent's down count while PARKED, RAISED or CLEARING (TABLE 6-3). -/
def GState.counted : GState → Bool
  | .parked => true | .raised => true | .clearing => true
  | .clear => false | .gathering => false

/-- A group is RAISED or CLEARING. -/
def GState.isRaised : GState → Bool
  | .raised => true | .clearing => true
  | .clear => false | .gathering => false | .parked => false

/-! ## Changing a record, with its marks (R70, R91, R93, R156) -/

/-- Mark the group records whose measures a terminal's change of state moves. -/
def State.markMeasures (s : State) (n : Fin 1024) (a b : TState) : State :=
  match s.entry? n with
  | none => s
  | some e =>
    (s.markIf (a.tapDown != b.tapDown || a.tapEligible != b.tapEligible) (GroupId.tap e.tap).record).markIf
      (a.zoneDown != b.zoneDown || a.zoneEligible != b.zoneEligible) (GroupId.zone e.zone).record

/-- Change terminal record n. Any change of a field marks the record (R70); a change of state also marks the engine
summary (R91) and the groups whose measures move (R93). -/
def State.putTerm (s : State) (n : Fin 1024) (t : Terminal) : State :=
  if s.term n = t then s
  else if (s.term n).state = t.state then (s.setTerm n t).mark n.val
  else (((s.setTerm n t).mark n.val).markSummary).markMeasures n (s.term n).state t.state

/-- Mark a group's parent when the child begins or ceases to count in its down count (R93, R94). -/
def State.markParent (s : State) (g : GroupId) (a b : GState) : State :=
  if a.counted = b.counted then s
  else
    match s.parent? g with
    | none => s
    | some p => s.mark p.record

/-- Change group record g. Any change of a field marks the record, and its parent's where the parent's down count
moves (R93). -/
def State.putGroup (s : State) (g : GroupId) (x : Group) : State :=
  if s.group g = x then s else ((s.setGroup g x).mark g.record).markParent g (s.group g).state x.state

/-- Change a port's tally; a change marks its record (R68). -/
def State.putTally (s : State) (p : Fin 16) (t : Tally) : State :=
  if s.tally p = t then s else (s.setTally p t).markTally p

/-- Change a port's fault mark; a change marks its tally record (R63, R156). -/
def State.putFaultMark (s : State) (p : Fin 16) (v : Bool) : State :=
  if s.faultMark p = v then s else (s.setFaultMark p v).markTally p

/-- Change the engine mode; a change marks the summary (R156). -/
def State.putMode (s : State) (m : Mode) : State :=
  if s.ctl.mode = m then s else (s.setMode m).markSummary

/-- A 16-bit saturating increment (spec/00, section 1.6). -/
def sat16 (n : Nat) : Nat := if n < Config.count16 then n + 1 else n

/-- Count one failed own write (R20, R149). -/
def State.countFailedWrite (s : State) : State :=
  { s with rw := { s.rw with failedWrites := sat16 s.rw.failedWrites } }.markIf
    (sat16 s.rw.failedWrites != s.rw.failedWrites) Config.summaryRecord

/-! ## The own-write queue (R146, R147) -/

/-- Free entries of the own-write queue. -/
def State.freeEntries (s : State) : Nat := Config.queueSize - s.rw.queue.length

/-- At least 20 own-write queue entries are free (R9, R147). -/
def State.room (s : State) : Bool := decide (Config.admission ≤ s.freeEntries)

/-- Place an own write at the back of the queue. -/
def State.enqueue (s : State) (w : OwnWrite) : State :=
  { s with rw := { s.rw with queue := s.rw.queue ++ [w] } }

/-- Place a slot's write-back (R162). -/
def State.writeBack (s : State) (addr : Addr) (slot : List Byte) (st : SlotState) (code : Code) (overwritten : Bool)
    (data : Nat) : State :=
  s.enqueue (.writeBack addr (writeBackBytes slot st code overwritten data))

/-! ## Whether the engine works -/

/-- The engine takes work: RESET_N is released and the mode is not HALTED (R21, R37). -/
def State.working (s : State) : Bool := !s.inReset && s.ctl.mode != .halted

/-- A unit of engine work is taken (R147): the engine works and 20 entries are free. -/
def State.ready (s : State) : Bool := s.working && s.room

/-- The unit is BUSY with RESTART or UNMAP (R32, R51). -/
def UnitState.clearing : UnitState → Bool
  | .busy (.restart _) _ _ => true
  | .busy (.unmap _) _ _ => true
  | .busy (.mapEnd _ _) _ _ => false
  | .idle => false
  | .actions => false

/-- The unit is BUSY. -/
def UnitState.isBusy : UnitState → Bool
  | .busy _ _ _ => true
  | .idle => false
  | .actions => false

/-- Correlation is under way: RUNNING, and not inside a RESTART or UNMAP (R32, R51, R64). -/
def State.correlating (s : State) : Bool := s.ctl.mode == .running && !s.cmd.unit.clearing

/-- A timer expiry of the terminal table or correlation unit may be taken now (R71, R99). -/
def State.expiryReady (s : State) : Bool := s.ready && s.correlating

/-- Tag t is a processor tag: the adopted processor tag mask includes it (spec/00, section 1.6). -/
def State.processorTag (s : State) (t : Tag) : Bool :=
  match s.ctl.anchor with
  | none => false
  | some a => a.procMask.getLsbD t.val

end Sys2Proof.Machine
end

