-- ==== Sys2Proof/Machine/Flags.lean ====
section
/-! DEFINITION. What is computed from the records: the counts, the groups' measures and conditions, and the levels of the
output lines. -/

namespace Sys2Proof.Machine

/-! ## Counts of terminals (R91) -/

/-- Number of mapped terminals whose state meets a test. -/
def State.countTerms (s : State) (p : TState → Bool) : Nat :=
  s.entries.countP (fun e => p (s.term (Fin.ofNat 1024 e.2)).state)

/-- The building down count (R91). -/
def State.buildingDown (s : State) : Nat := s.countTerms TState.buildingDown

/-- The per-state counts (R91). -/
def State.stateCounts (s : State) : StateCounts :=
  { up := s.countTerms (· == .up), gasped := s.countTerms (· == .gasped), suspect := s.countTerms (· == .suspect),
    downFibre := s.countTerms (· == .downFibre), downPower := s.countTerms (· == .downPower),
    downOff := s.countTerms (· == .downOff) }

/-! ## Measures of a group (R94, TABLE 6-3) -/

/-- A group's member count. -/
def State.members (s : State) (g : GroupId) : Nat := (s.termMembers g).length + (s.children g).length

/-- How a terminal's state counts in the down count of a tap or zone. -/
def downIn (g : GroupId) (t : TState) : Bool :=
  match g with
  | .tap _ => t.tapDown
  | .zone _ => t.zoneDown
  | .riser _ => false
  | .port _ => false

/-- How a terminal's state counts in the eligible count of a tap or zone. -/
def eligibleIn (g : GroupId) (t : TState) : Bool :=
  match g with
  | .tap _ => t.tapEligible
  | .zone _ => t.zoneEligible
  | .riser _ => false
  | .port _ => false

/-- A group's down count. -/
def State.down (s : State) (g : GroupId) : Nat :=
  (s.termMembers g).countP (fun n => downIn g (s.term n).state) +
    (s.children g).countP (fun c => (s.group c).state.counted)

/-- A group's eligible count; of a riser or port, all its members. -/
def State.eligible (s : State) (g : GroupId) : Nat :=
  (s.termMembers g).countP (fun n => eligibleIn g (s.term n).state) + (s.children g).length

/-! ## Conditions of a group -/

/-- A percentage of a count: the smallest whole number not less than p × n / 100 (spec/00, section 1.6). -/
def percent (p n : Nat) : Nat := (p * n + 99) / 100

/-- The raise percentage of a group's kind. -/
def raisePercent (c : Settings) : GroupId → Nat
  | .tap _ => c.tapRaise
  | .riser _ => c.riserRaise
  | .port _ => c.portRaise
  | .zone _ => c.zoneRaise

/-- The clear percentage of a group's kind. -/
def clearPercent (c : Settings) : GroupId → Nat
  | .tap _ => c.tapClear
  | .riser _ => c.riserClear
  | .port _ => c.portClear
  | .zone _ => c.zoneClear

/-- The minimum members of a group's kind (R101). -/
def minMembers (c : Settings) : GroupId → Nat
  | .tap _ => c.tapMin
  | .zone _ => c.zoneMin
  | .riser _ => 1
  | .port _ => 1

/-- A port whose dark mark is set (R101, R117). -/
def State.darkPort (s : State) (g : GroupId) : Bool := (s.group g).dark

/-- The raise condition (R101). -/
def State.raiseCondition (s : State) (g : GroupId) : Bool :=
  s.darkPort g ||
    (decide (0 < s.eligible g) &&
      decide (max (minMembers s.settings g) (percent (raisePercent s.settings g) (s.eligible g)) ≤ s.down g))

/-- The clear level (R117). -/
def State.clearLevel (s : State) (g : GroupId) : Nat := max 1 (percent (clearPercent s.settings g) (s.members g))

/-- The clearing condition (R117). -/
def State.clearingCondition (s : State) (g : GroupId) : Bool := !s.darkPort g && decide (s.down g < s.clearLevel g)

/-- Whether a child of a riser or port is GATHERING (R100). -/
def State.childGathering (s : State) (g : GroupId) : Bool :=
  (s.children g).any (fun c => (s.group c).state == .gathering)

/-! ## Output lines -/

/-- ALERT: asserted while the occupancy is above 0; deasserted while RESET_N is asserted (R150). -/
def State.alert (s : State) : Bool := !s.inReset && decide (0 < s.rw.occupancy)

/-- The STORM line: asserted while the storm state is IN; released while RESET_N is asserted (R132). -/
def State.stormLine (s : State) : Bool := !s.inReset && s.corr.stormIn

/-- The mirror writer is on: an anchor is adopted and the mode is not DETACHED (R160). -/
def State.mirrorOn (s : State) : Bool := !s.inReset && s.ctl.mode != .detached && s.ctl.anchor.isSome

/-- Free slots of the report ring (R137); 0 without a ring. -/
def State.freeSlots (s : State) : Nat :=
  match s.ctl.anchor with
  | none => 0
  | some a => a.ringSlots - s.rw.occupancy

/-- The pending link of a terminal: the list it is on and its place there, counting from 0 (TABLE 5-1, R97;
notes/assumptions/41.md). -/
def State.pendingLink (s : State) (n : Fin 1024) : Option (GroupId × Nat) :=
  match s.entry? n with
  | none => none
  | some e =>
    match (s.group (.tap e.tap)).pending.findIdx? (· == n) with
    | some i => some (.tap e.tap, i)
    | none => ((s.group (.zone e.zone)).pending.findIdx? (· == n)).map (fun i => (.zone e.zone, i))

end Sys2Proof.Machine
end

