-- ==== Sys2Proof/Machine/Reports.lean ====
section
/-! DEFINITION. The report writer (spec/08): creating reports against the ring's reserves, OVERRUN and the stall, SYNC and
its cadence, consumption, HEAD_GASP; and the meaning of CONSUMED_INDEX_WRITE's value. -/

namespace Sys2Proof.Machine

/-- What the origin of a piece of work gives its reports: their source and origin word (R134). -/
structure Origin where
  source : Source
  word   : BitVec 32
  deriving DecidableEq, Repr

/-- Work of the engine that no message caused: source ENGINE, origin word 0 (R134). -/
def engineOrigin : Origin := { source := .engine, word := 0 }

/-- Work of an intake message: source ENGINE, the message's framer time (R134). -/
def messageOrigin (m : List Byte) : Origin := { source := .engine, word := framerTime m }

/-- Work of a command: the source it ran under and its tag (R134). -/
def commandOrigin (src : Source) (slot : List Byte) : Origin := { source := src, word := (slotTag slot).setWidth 32 }

/-- A report before it is created: all but its sequence number and engine time. -/
structure Draft where
  origin  : Origin
  subject : Option Nat
  payload : Payload
  deriving DecidableEq, Repr

/-! ## Creation (R136, R137, R139–R141) -/

/-- The report a draft becomes when it is created now. -/
def State.reportOf (s : State) (d : Draft) : Report :=
  { seq := s.rw.nextSeq, source := d.origin.source, subject := d.subject, time := s.time, origin := d.origin.word,
    payload := d.payload }

/-- The address of the produced slot (R137). -/
def State.slotAddr (s : State) (a : Anchor) : Addr := a.ringBase + BitVec.ofNat 40 (32 * s.rw.produced)

/-- Take the next sequence number and the produced slot for a report already placed (R136, R137). -/
def ReportWriter.advance (w : ReportWriter) (slots : Nat) : ReportWriter :=
  { w with nextSeq := w.nextSeq + 1, produced := (w.produced + 1) % slots, occupancy := w.occupancy + 1 }

/-- Create a report: next sequence number and slot, placed at the back of the own-write queue (R136). Without a ring no
report is made (TABLE 2-3). -/
def State.place (s : State) (d : Draft) : State :=
  match s.ctl.anchor with
  | none => s
  | some a =>
    { s with rw := { s.rw with queue := s.rw.queue ++ [OwnWrite.report (s.slotAddr a) (s.reportOf d)] }.advance a.ringSlots }

/-- Count a report lost (R141). -/
def State.countLost (s : State) : State :=
  { s with rw := { s.rw with lost := sat16 s.rw.lost, lostTotal := sat16 s.rw.lostTotal } }.markIf
    (sat16 s.rw.lost != s.rw.lost || sat16 s.rw.lostTotal != s.rw.lostTotal) Config.summaryRecord

/-- Count a created report other than SYNC (R145). -/
def State.bumpSync (s : State) : State := { s with rw := { s.rw with sinceSync := s.rw.sinceSync + 1 } }

/-- The OVERRUN in place of a displaced report already counted lost; the stall begins (R140). No cadence SYNC falls due
after it, since the report writer is then STALLED (R145; notes/assumptions/13.md). -/
def State.overrun (s : State) : State :=
  let s1 := (s.place { origin := engineOrigin, subject := none, payload := .overrun s.rw.lostTotal }).bumpSync
  { s1 with rw := { s1.rw with stalled := true } }.markSummary

/-- The reserve test of R139, and whether the report was created. In FLOWING fewer than 2 slots are never free
(notes/assumptions/31.md). -/
def State.attempt (s : State) (d : Draft) : State × Bool :=
  if s.ctl.anchor.isNone then (s, false)
  else if s.rw.stalled then (s.countLost, false)
  else if 3 ≤ s.freeSlots then (s.place d, true)
  else if s.freeSlots = 2 then (s.countLost.overrun, false)
  else (s.countLost, false)

/-! ## SYNC (R144, R145) -/

/-- A SYNC's payload, every value as it stands (R144). -/
def State.syncPayload (s : State) (flags : SyncFlags) : Payload :=
  .sync flags s.ctl.mode s.buildingDown s.stateCounts s.rw.lost s.rw.indexFaults s.rw.failedWrites

/-- Clear every port's fault mark (R63). -/
def State.clearFaultMarks (s : State) : State := (List.finRange 16).foldl (fun s p => s.putFaultMark p false) s

/-- What the creation of a SYNC does (R144). -/
def State.afterSync (s : State) (flags : SyncFlags) : State :=
  let s1 := { s with rw := { s.rw with sinceSync := 0 } }.clearFaultMarks
  if flags.resumed then { s1 with rw := { s1.rw with lost := 0 } }.markIf (s1.rw.lost != 0) Config.summaryRecord
  else s1

/-- Make a SYNC, and whether it was created. -/
def State.makeSync (s : State) (flags : SyncFlags) (o : Origin) : State × Bool :=
  let r := s.attempt { origin := o, subject := none, payload := s.syncPayload flags }
  if r.2 then (r.1.afterSync flags, true) else r

/-- The cadence SYNC, where the count has reached the interval (R145). -/
def State.cadence (s : State) : State :=
  if s.settings.syncInterval ≤ s.rw.sinceSync then (s.makeSync {} engineOrigin).1 else s

/-- Make a report other than SYNC and HEAD_GASP: the reserve test, then the cadence (R139, R145). -/
def State.makeReport (s : State) (d : Draft) : State :=
  let r := s.attempt d
  if r.2 then r.1.bumpSync.cadence else r.1

/-- Make several reports in order, each tested on its own (R139). -/
def State.makeReports (s : State) (ds : List Draft) : State := ds.foldl State.makeReport s

/-! ## HEAD_GASP (R35, R135, R139) -/

/-- The HEAD_GASP report as it stands. -/
def State.headGaspDraft (s : State) : Draft :=
  { origin := engineOrigin, subject := none,
    payload := .headGasp s.buildingDown s.stateCounts s.corr.stormIn }

/-- Discard the back entry of a full own-write queue, counted as a failed own write (R35, R149). -/
def State.makeRoomForGasp (s : State) : State :=
  if s.rw.queue.length < Config.queueSize then s
  else { s with rw := { s.rw with queue := s.rw.queue.dropLast } }.countFailedWrite

/-- Place HEAD_GASP at the front of the own-write queue, whatever the stall state; it counts towards the cadence but
brings no SYNC (R35, R139, R145). That it is counted, where R138's table keeps the count, is the model's choice
(notes/assumptions/43.md). -/
def State.placeHeadGasp (s : State) : State :=
  match s.ctl.anchor with
  | none => s
  | some a =>
    if s.freeSlots = 0 then s
    else
      let s1 := s.makeRoomForGasp
      { s1 with
        rw := { s1.rw with queue := OwnWrite.report (s.slotAddr a) (s.reportOf s.headGaspDraft) :: s1.rw.queue }.advance
          a.ringSlots }.bumpSync

/-! ## Consumption (R142, R143) -/

/-- The slots a value releases (R143). -/
def State.releases (s : State) (slots v : Nat) : Nat := (v + slots - s.rw.consumed) % slots

/-- An index fault (R143). -/
def State.indexFault (s : State) : State :=
  { s with rw := { s.rw with indexFaults := sat16 s.rw.indexFaults } }.markIf
    (sat16 s.rw.indexFaults != s.rw.indexFaults) Config.summaryRecord

/-- The end of a stall by consumption: FLOWING, then a SYNC with RESUMED (R142). -/
def State.endStall (s : State) : State :=
  ({ s with rw := { s.rw with stalled := false } }.markSummary.makeSync { resumed := true } engineOrigin).1

/-- A taken consumed-index value (R143). -/
def State.takeConsumed (s : State) (slots v : Nat) : State :=
  let s1 := { s with rw := { s.rw with consumed := v, occupancy := s.rw.occupancy - s.releases slots v } }
  if s1.rw.stalled && decide (slots ≤ 4 * s1.freeSlots) then s1.endStall else s1

/-- A value handed over by the path unit is taken or counted as an index fault (R143). -/
def State.handConsumed (s : State) (v : Nat) : State :=
  match s.ctl.anchor with
  | none => s
  | some a =>
    if a.ringSlots ≤ v then s.indexFault
    else if s.rw.occupancy < s.releases a.ringSlots v then s.indexFault
    else s.takeConsumed a.ringSlots v

end Sys2Proof.Machine
end

