-- ==== Sys2Proof/Machine/Formats.lean ====
section
/-! DEFINITION. The bytes of what the part writes: reports (TABLE 13-5), acknowledgements, mirror records (TABLE 13-6), and
the request each own write leaves as (R18). -/

namespace Sys2Proof.Machine

/-! ## Reports -/

/-- TABLE 13-5, kind code. -/
def Payload.code : Payload → Nat
  | .sync .. => 1 | .terminalDown _ => 2 | .terminalsDown _ _ => 3 | .terminalUp => 4 | .terminalBrownout => 5
  | .muted _ => 6 | .unmuted => 7 | .groupRaised .. => 8 | .groupCleared _ => 9 | .stormEnter _ => 10
  | .stormLeave _ => 11 | .lineChange .. => 12 | .intakeFault .. => 13 | .actionDone .. => 14 | .actionFailed .. => 15
  | .deferredFlushed _ => 16 | .commandDone .. => 17 | .anchorIgnored => 18 | .overrun _ => 19 | .headGasp .. => 20

/-- The flags byte of a SYNC. -/
def SyncFlags.code (f : SyncFlags) : Nat :=
  bit f.started + 2 * bit f.restarted + 4 * bit f.mapActive + 8 * bit f.resumed + 16 * bit f.forced

/-- The payload bytes a kind uses, from byte 16 on (TABLE 13-5). -/
def Payload.used : Payload → List Byte
  | .sync flags mode down c lost idx failed =>
    leBytes 1 flags.code ++ leBytes 1 mode.code ++
      leBytes 7 (packRun 11 [down, c.up, c.downFibre, c.downPower, c.downOff]) ++
      leBytes 2 lost ++ leBytes 2 idx ++ leBytes 2 failed
  | .terminalDown c => leBytes 1 c.code
  | .terminalsDown c ts => leBytes 1 c.code ++ leBytes 1 ts.length ++ leBytes 10 (packRun 10 (ts.map (·.val)))
  | .terminalUp => []
  | .terminalBrownout => []
  | .muted n => leBytes 1 n
  | .unmuted => []
  | .groupRaised c m d st straggler =>
    leBytes 1 c.code ++ leBytes 1 m ++ leBytes 1 d ++ leBytes 1 st ++ leBytes 1 (bit straggler)
  | .groupCleared n => leBytes 1 n
  | .stormEnter n => leBytes 2 n
  | .stormLeave n => leBytes 2 n
  | .lineChange l level n => leBytes 1 (lineCode l) ++ leBytes 1 (bit level) ++ leBytes 1 n
  | .intakeFault p k => leBytes 1 p.val ++ leBytes 1 k.code
  | .actionDone k c => leBytes 1 k.code ++ leBytes 1 c.code
  | .actionFailed k c => leBytes 1 k.code ++ leBytes 1 c.code
  | .deferredFlushed n => leBytes 1 n
  | .commandDone k c d => leBytes 1 k.code ++ leBytes 1 c.code ++ leBytes 2 d
  | .anchorIgnored => []
  | .overrun n => leBytes 2 n
  | .headGasp down c storm =>
    leBytes 2 down ++ leBytes 2 c.up ++ leBytes 2 c.gasped ++ leBytes 2 c.suspect ++ leBytes 2 c.downFibre ++
      leBytes 2 c.downPower ++ leBytes 2 c.downOff ++ leBytes 1 (bit storm)

/-- A run of bytes brought to `n` bytes with zeros (R134, R189). -/
def padTo (n : Nat) (b : List Byte) : List Byte := b ++ zeros (n - b.length)

/-- The 32 bytes of a report (section 13.4). -/
def Report.bytes (r : Report) : List Byte :=
  leBytes 4 r.seq.toNat ++ leBytes 1 r.payload.code ++ leBytes 1 r.source.code ++ leBytes 2 (r.subject.getD 0xFFFF) ++
    leBytes 4 r.time.toNat ++ leBytes 4 r.origin.toNat ++ padTo 16 r.payload.used

/-! ## Mirror records -/

/-- The value of an absent field is written as 0 (R189). -/
def timeOr0 : Option Time → Nat
  | none => 0
  | some t => t.toNat

/-- The mark time of a terminal record: the quiet deadline while muted, else the flap window start (R152). -/
def Terminal.markTime (t : Terminal) : Option Time := if t.muted then t.quiet else t.flapStart

/-- The deadline as its distance from the last change time (R152). -/
def Terminal.distance (t : Terminal) : Nat :=
  match t.deadline with
  | none => 0
  | some d => (d - t.lastChange).toNat

/-- A terminal record without its change count (TABLE 13-6). -/
def Terminal.mirrorBytes (t : Terminal) : List Byte :=
  leBytes 1 (t.state.code + 16 * t.disp.code) ++
    leBytes 1 (bit t.muted + 2 * bit t.lastTag.isSome + 4 * bit t.deadline.isSome + 8 * bit t.markTime.isSome) ++
    leBytes 1 (match t.lastTag with | none => 0 | some b => b.toNat) ++
    leBytes 1 t.downEntries ++ leBytes 1 t.lateGasps ++ leBytes 2 t.distance ++ leBytes 4 t.lastChange.toNat ++
    leBytes 4 (timeOr0 t.markTime)

/-- The list a group record shows: its pending list or its parked list, as numbers (R153). -/
def Group.listShown (g : GroupId) (x : Group) : List Nat :=
  match g with
  | .tap _ => x.pending.map (·.val)
  | .zone _ => x.pending.map (·.val)
  | .riser _ => x.parked.map GroupId.number
  | .port _ => x.parked.map GroupId.number

/-- A group record without its change count (TABLE 13-6). -/
def State.groupBytes (s : State) (g : GroupId) : List Byte :=
  let x := s.group g
  let l := Group.listShown g x
  leBytes 1 x.state.code ++
    leBytes 1 (bit x.covered + 2 * bit x.announced + 4 * bit x.dark + 8 * bit x.deadline.isSome + 16 * bit (!l.isEmpty)) ++
    leBytes 1 (s.members g) ++ leBytes 1 (s.down g) ++ leBytes 1 (s.eligible g) ++ leBytes 1 x.settled ++
    leBytes 1 l.length ++ leBytes 2 (l.headD 0) ++ zeros 2 ++ leBytes 4 (timeOr0 x.deadline)

/-- TABLE 13-6, ring field of a port tally record. -/
def ringCode : Option Ring → Nat
  | none => 0
  | some r => match r.treatment with | .observe => 1 | .claim => 2

/-- A port tally record without its change count (TABLE 13-6). -/
def State.tallyBytes (s : State) (p : Fin 16) : List Byte :=
  let t := s.tally p
  leBytes 1 (ringCode (s.ring p) + 4 * bit (s.faultMark p)) ++ leBytes 2 t.taken ++ leBytes 2 t.duplicates ++
    leBytes 2 t.checkFailures ++ leBytes 2 t.malformed ++ leBytes 2 t.strays ++ leBytes 2 t.left ++ leBytes 2 t.blips

/-- The engine summary record without its change count (TABLE 13-6). -/
def State.summaryBytes (s : State) : List Byte :=
  let c := s.stateCounts
  leBytes 1 (s.ctl.mode.code + 8 * bit s.map.isSome + 16 * bit s.corr.stormIn + 32 * bit s.corr.stormArmed +
      64 * bit s.table.brownoutArmed + 128 * bit s.rw.stalled) ++
    leBytes 6 (packRun 11 [s.buildingDown, c.downFibre, c.downPower, c.downOff]) ++ leBytes 2 s.rw.lostTotal ++
    leBytes 2 s.rw.indexFaults ++ leBytes 2 s.rw.failedWrites ++ leBytes 2 s.table.suppressed

/-- The subject of a group record index (TABLE 9-1). -/
def groupOfRecord (i : Nat) : GroupId :=
  if i < 1152 then .tap (Fin.ofNat 128 (i - 1024))
  else if i < 1184 then .riser (Fin.ofNat 32 (i - 1152))
  else if i < 1200 then .port (Fin.ofNat 16 (i - 1184))
  else .zone (Fin.ofNat 64 (i - 1200))

/-- The sixteen bytes of mirror record i with a change count (R151, TABLE 9-1). -/
def State.recordBytes (s : State) (i : Nat) (count : BitVec 8) : List Byte :=
  count ::
    (if i < 1024 then (s.term (Fin.ofNat 1024 i)).mirrorBytes
     else if i < 1264 then s.groupBytes (groupOfRecord i)
     else if i < 1280 then s.tallyBytes (Fin.ofNat 16 (i - 1264))
     else s.summaryBytes)

/-! ## Own writes as requests (R18) -/

/-- A full write of whole beats. -/
def fullWrite (addr : Addr) (tag : Tag) (b : List Byte) : Request := { addr := addr, tag := tag, body := .write (fullBeats b) }

/-- The four bytes of an acknowledgement word (section 13.1). -/
def AckWord.bytes (w : AckWord) : List Byte :=
  leBytes 1 (if w.adopted then 1 else 2) ++ leBytes 1 w.reason.code ++ leBytes 2 w.firstSlot

/-- An acknowledgement: a one-beat write whose byte enables cover its bytes 4–7 only (R18, R188). The data of its disabled
bytes are zeros: the model's choice (notes/assumptions/44.md). -/
def ackWrite (addr : Addr) (tag : Tag) (w : AckWord) : Request :=
  { addr := addr, tag := tag,
    body := .write ((fullBeats (zeros 4 ++ w.bytes)).map (fun b => { b with enable := 0xF0#8 })) }

/-- The tag an own write carries when it leaves: the adopted own source tag, or, for an acknowledgement while no anchor
block is adopted, the tag of the anchor write it answers (R18). -/
def State.ownTagFor (s : State) (w : OwnWrite) : Tag :=
  match s.ctl.anchor, w with
  | some a, _ => a.ownTag
  | none, .ack _ _ t => t
  | none, .report _ _ => 0
  | none, .writeBack _ _ => 0

/-- The request an own write leaves as (R18). -/
def State.ownRequest (s : State) (w : OwnWrite) : Request :=
  match w with
  | .report addr r => fullWrite addr (s.ownTagFor w) r.bytes
  | .writeBack addr b => fullWrite addr (s.ownTagFor w) b
  | .ack addr word _ => ackWrite addr (s.ownTagFor w) word

/-- The write of mirror record i (R151): at mirror base + 16 × i, with its change count incremented. -/
def State.mirrorRequest (s : State) (a : Anchor) (i : Nat) (count : BitVec 8) : Request :=
  fullWrite (a.mirrorBase + BitVec.ofNat 40 (16 * i)) a.ownTag (s.recordBytes i count)

end Sys2Proof.Machine
end

