-- ==== Sys2Proof/Machine/Storm.lean ====
section
/-! DEFINITION. Falling due of the head deferred entry (R178), the storm state (R128–R133), and what every terminal claim
ends with: the building down count handed over (R91). -/

namespace Sys2Proof.Machine

/-! ## Falling due (R178) -/

/-- The unit state when an action falls due: IDLE becomes ACTIONS (R164). -/
def UnitState.wake : UnitState → UnitState
  | .idle => .actions
  | .busy j a t => .busy j a t
  | .actions => .actions

/-- Append a due action and wake the unit (R164, R186). -/
def State.appendDue (s : State) (a : DueAction) : State :=
  { s with cmd := { s.cmd with due := s.cmd.due ++ [a], unit := s.cmd.unit.wake } }

/-- The head deferred entry falls due, unless it is due already (R178). -/
def State.fallDue (s : State) : State :=
  match s.cmd.deferred with
  | [] => s
  | e :: rest =>
    if e.due then s
    else ({ s with cmd := { s.cmd with deferred := { e with due := true } :: rest } }).appendDue .deferred

/-- The head deferred entry falls due when its trigger is met (TABLE 11-1). -/
def State.watch (s : State) (met : Trigger → Bool) : State :=
  match s.cmd.deferred with
  | [] => s
  | e :: _ => if met e.trigger then s.fallDue else s

/-- Whether a building down count meets a trigger (TABLE 11-1). -/
def metByDown (count : Nat) : Trigger → Bool
  | .downAtLeast n => decide (n ≤ count)
  | .stormIn => false
  | .stormOut => false
  | .line _ => false
  | .atTime _ => false

/-- Whether engine time meets a trigger (TABLE 11-1). -/
def metByTime (now : Time) : Trigger → Bool
  | .atTime t => reached now t
  | .stormIn => false
  | .stormOut => false
  | .line _ => false
  | .downAtLeast _ => false

/-- Whether a storm change to IN or to OUT meets a trigger (TABLE 11-1). -/
def metByStorm (toIn : Bool) : Trigger → Bool
  | .stormIn => toIn
  | .stormOut => !toIn
  | .line _ => false
  | .downAtLeast _ => false
  | .atTime _ => false

/-- Whether a debounced assertion of a line meets a trigger (TABLE 11-1). -/
def metByLine (l : Line) : Trigger → Bool
  | .line l' => l == l'
  | .stormIn => false
  | .stormOut => false
  | .downAtLeast _ => false
  | .atTime _ => false

/-- A new head is examined for falling due on becoming head (TABLE 11-1, right-hand column). -/
def State.examineHead (s : State) : State :=
  s.watch (fun t => metByDown s.buildingDown t || metByTime s.time t)

/-! ## The storm state -/

/-- Set the storm state; a change marks the engine summary. -/
def State.putStorm (s : State) (v : Bool) : State :=
  if s.corr.stormIn = v then s else { s with corr := { s.corr with stormIn := v } }.markSummary

/-- Set the storm reports armed mark; a change marks the engine summary. -/
def State.putStormArmed (s : State) (v : Bool) : State :=
  if s.corr.stormArmed = v then s else { s with corr := { s.corr with stormArmed := v } }.markSummary

/-- A storm change's report, carrying the building down count after the change (R129). -/
def State.stormDraft (s : State) (toIn : Bool) (o : Origin) : Draft :=
  { origin := o, subject := none, payload := if toIn then .stormEnter s.buildingDown else .stormLeave s.buildingDown }

/-- The report of a storm change by storm mode and armed mark (R129). -/
def State.reportStorm (s : State) (toIn : Bool) (o : Origin) : State :=
  match s.settings.stormMode with
  | .every => s.makeReport (s.stormDraft toIn o)
  | .single => if s.corr.stormArmed then (s.putStormArmed false).makeReport (s.stormDraft toIn o) else s

/-- A storm change: the state, its report, and the handover to the command unit (R129, R133). -/
def State.stormChange (s : State) (toIn : Bool) (o : Origin) : State :=
  ((s.putStorm toIn).reportStorm toIn o).watch (metByStorm toIn)

/-- Evaluate the storm state against the building down count with the levels in force (R128, R131). -/
def State.evaluateStorm (s : State) (o : Origin) : State :=
  if !s.corr.stormIn && decide (s.settings.stormOn ≤ s.buildingDown) then s.stormChange true o
  else if s.corr.stormIn && decide (s.buildingDown ≤ s.settings.stormOff) then s.stormChange false o
  else s

/-- The end of a claim that began with a building down count: where the count has changed, it is handed to the
correlation unit and to the command unit (R91, R128, R178). -/
def State.handDown (s : State) (before : Nat) (o : Origin) : State :=
  if s.buildingDown = before then s else (s.evaluateStorm o).watch (metByDown s.buildingDown)

end Sys2Proof.Machine
end

