-- ==== Sys2Proof/Machine/Groups.lean ====
section
/-! DEFINITION. The correlation unit (spec/06, spec/07): joins and leavings, gather windows, verdicts at every level,
covering, dark ports, clearing, hold-down and stragglers; and the meanings of the verdict rows. -/

namespace Sys2Proof.Machine

/-! ## The clearing test (R118–R120) -/

/-- The clearing test of a group in RAISED or CLEARING; other groups are not tested (R118). -/
def State.clearingTest (s : State) (g : GroupId) : State :=
  match (s.group g).state with
  | .raised =>
    if s.clearingCondition g then
      s.putGroup g { s.group g with state := .clearing, deadline := some (after s.time s.settings.holdDown) }
    else s
  | .clearing =>
    if s.clearingCondition g then s else s.putGroup g { s.group g with state := .raised, deadline := none }
  | .clear => s
  | .gathering => s
  | .parked => s

/-- The clearing test of several groups in order. -/
def State.clearingTests (s : State) (gs : List GroupId) : State := gs.foldl State.clearingTest s

/-- The clearing test of a group's parent, where it has one (R118). -/
def State.parentTest (s : State) (g : GroupId) : State :=
  match s.parent? g with
  | none => s
  | some p => s.clearingTest p

/-! ## Gather windows (R95, R96) -/

/-- The window length of a group's kind (TABLE 10-4). -/
def windowOf (c : Settings) : GroupId → Nat
  | .tap _ => c.tapWindow
  | .riser _ => c.riserWindow
  | .port _ => c.portWindow
  | .zone _ => c.zoneWindow

/-- A group opens a gather window: GATHERING, deadline at the window's end, settled count 0 (R95, R96). -/
def State.openWindow (s : State) (g : GroupId) : State :=
  s.putGroup g { s.group g with state := .gathering, settled := 0,
                                deadline := some (after s.time (windowOf s.settings g)) }

/-- The opening carried to a CLEAR riser and then to its CLEAR port (R96). -/
def State.propagate (s : State) (tap : GroupId) : State :=
  match s.parent? tap with
  | none => s
  | some r =>
    if (s.group r).state = .clear then
      let s1 := s.openWindow r
      match s1.parent? r with
      | none => s1
      | some p => if (s1.group p).state = .clear then s1.openWindow p else s1
    else s

/-! ## Joining and leaving (R80, R97, R98) -/

/-- Set a terminal's disposition. -/
def State.putDisp (s : State) (n : Fin 1024) (d : Disp) : State := s.putTerm n { s.term n with disp := d }

/-- Append a terminal to a group's pending list. -/
def State.listPending (s : State) (g : GroupId) (n : Fin 1024) : State :=
  (s.putGroup g { s.group g with pending := (s.group g).pending ++ [n] }).putDisp n .pending

/-- List a joining terminal, or leave a PROMPT terminal unlisted with disposition REPORTED (R80, R97). -/
def State.listUnlessPrompt (s : State) (g : GroupId) (n : Fin 1024) (isPrompt : Bool) : State :=
  if isPrompt then s.putDisp n .reported else s.listPending g n

/-- A terminal whose state already counts in group g joins it (R80, R95–R97). -/
def State.join (s : State) (g : GroupId) (n : Fin 1024) (isPrompt : Bool) : State :=
  match (s.group g).state with
  | .clear => ((s.openWindow g).listUnlessPrompt g n isPrompt).propagate g
  | .gathering => s.listUnlessPrompt g n isPrompt
  | .parked => s.listUnlessPrompt g n isPrompt
  | .raised => (s.putDisp n (if isPrompt then .reported else .covered)).clearingTest g
  | .clearing => (s.putDisp n (if isPrompt then .reported else .covered)).clearingTest g

/-- Remove a terminal from a group's pending list, the order of the others kept (R98). The links of the others shift, and
their records are not marked: the model's choice (notes/assumptions/41.md). -/
def State.unlist (s : State) (g : GroupId) (n : Fin 1024) : State :=
  s.putGroup g { s.group g with pending := (s.group g).pending.filter (· != n) }

/-- Count a member that returned while PENDING; the settled count stays within the members (R82, TABLE 6-1;
notes/assumptions/11.md). -/
def State.settle (s : State) (g : GroupId) : State :=
  s.putGroup g { s.group g with settled := min ((s.group g).settled + 1) (s.members g) }

/-! ## Reports of groups and releases (R103, R114, R124) -/

/-- A GROUP_RAISED of a group with its measures as they stand (R114, R125). -/
def State.raisedDraft (s : State) (g : GroupId) (cause : RaiseCause) (straggler : Bool) (o : Origin) : Draft :=
  { origin := o, subject := some g.record,
    payload := .groupRaised cause (s.members g) (s.down g) (s.group g).settled straggler }

/-- Announce a group: the announced field becomes yes and the GROUP_RAISED is made (R122). -/
def State.announce (s : State) (g : GroupId) (cause : RaiseCause) (straggler : Bool) (o : Origin) : State :=
  (s.putGroup g { s.group g with announced := true }).makeReport (s.raisedDraft g cause straggler o)

/-- A TERMINALS_DOWN naming up to eight terminals (R103). -/
def namedDraft (g : GroupId) (cause : OutageCause) (ns : List (Fin 1024)) : Draft :=
  { origin := engineOrigin, subject := some g.record, payload := .terminalsDown cause ns }

/-- Release a terminal: QUIET if muted, else REPORTED (R84). -/
def State.releaseOne (s : State) (n : Fin 1024) : State :=
  s.putDisp n (if (s.term n).muted then .quiet else .reported)

/-- Release terminals in order, those not muted named in TERMINALS_DOWN of eight (R103, R110, R124). -/
def State.release (s : State) (g : GroupId) (ns : List (Fin 1024)) (cause : OutageCause) : State :=
  (ns.foldl State.releaseOne s).makeReports
    ((batches8 (ns.filter (fun n => !(s.term n).muted))).map (namedDraft g cause))

/-- A group's pending members become COVERED and its list is emptied (R98). -/
def State.coverPending (s : State) (g : GroupId) : State :=
  let s1 := (s.group g).pending.foldl (fun s n => s.putDisp n .covered) s
  s1.putGroup g { s1.group g with pending := [] }

/-- A group becomes RAISED, its pending members COVERED; no report and no test yet. -/
def State.becomeRaised (s : State) (g : GroupId) (covered : Bool) : State :=
  let s1 := s.coverPending g
  s1.putGroup g { s1.group g with state := .raised, deadline := none, covered := covered, parked := [] }

/-- A child already RAISED or CLEARING becomes covered (R111). -/
def State.coverIfRaised (s : State) (c : GroupId) : State :=
  if (s.group c).state.isRaised then s.putGroup c { s.group c with covered := true } else s

/-- Every child already RAISED or CLEARING becomes covered (R111). -/
def State.coverChildren (s : State) (g : GroupId) : State := (s.children g).foldl State.coverIfRaised s

/-- A riser becomes RAISED: its parked taps RAISED and covered, its raised taps covered (R106, R109, R111). -/
def State.raiseRiser (s : State) (r : GroupId) (covered : Bool) : State :=
  let s1 := (s.group r).parked.foldl (fun s t => s.becomeRaised t true) s
  (s1.becomeRaised r covered).coverChildren r

/-- A group becomes CLEAR after a verdict that does not raise: deadline absent, parked list emptied (R103, R107,
R109). -/
def State.becomeClear (s : State) (g : GroupId) : State :=
  s.putGroup g { s.group g with state := .clear, deadline := none, parked := [] }

/-- Release a tap or zone that does not raise (R103, R110): CLEAR, list emptied, its members released. -/
def State.releaseGroup (s : State) (g : GroupId) (cause : OutageCause) : State :=
  ((s.becomeClear g).putGroup g { (s.becomeClear g).group g with pending := [] }).release g (s.group g).pending cause

/-! ## Tap and zone verdicts (R102, R103, R110) -/

/-- A group parks under its parent: deadline absent, lists kept, appended to the parent's parked list (R102, R106). -/
def State.park (s : State) (g p : GroupId) : State :=
  let s1 := s.putGroup g { s.group g with state := .parked, deadline := none }
  s1.putGroup p { s1.group p with parked := (s1.group p).parked ++ [g] }

/-- A tap or zone raises on its own: RAISED, announced, then the clearing test (R102, R110, R118). -/
def State.raiseAlone (s : State) (g : GroupId) (cause : RaiseCause) : State :=
  ((s.becomeRaised g false).announce g cause false engineOrigin).clearingTest g

/-- The state of a group's parent; CLEAR where it has none. -/
def State.parentState (s : State) (g : GroupId) : GState :=
  match s.parent? g with
  | none => .clear
  | some p => (s.group p).state

/-- A group that parks under its parent, where it has one. -/
def State.parkUnder (s : State) (g : GroupId) : State :=
  match s.parent? g with
  | none => s
  | some p => s.park g p

/-- A tap's verdict (R102, R103). -/
def State.tapVerdict (s : State) (t : GroupId) : State :=
  if s.raiseCondition t then
    match s.parentState t with
    | .gathering => s.parkUnder t
    | .parked => s.parkUnder t
    | .raised => ((s.becomeRaised t true).clearingTest t).parentTest t
    | .clearing => ((s.becomeRaised t true).clearingTest t).parentTest t
    | .clear => s.raiseAlone t .fibre
  else s.releaseGroup t .fibre

/-- A zone's verdict (R110). -/
def State.zoneVerdict (s : State) (z : GroupId) : State :=
  if s.raiseCondition z then s.raiseAlone z .power else s.releaseGroup z .power

/-! ## Riser and port verdicts (R105–R109) -/

/-- A parked child that fails its re-test is reopened: off the parked list, GATHERING with its deadline now (R105,
R108). -/
def State.reopen (s : State) (p c : GroupId) : State :=
  let s1 := s.putGroup p { s.group p with parked := (s.group p).parked.filter (· != c) }
  s1.putGroup c { s1.group c with state := .gathering, deadline := some s.time }

/-- The re-test of one parked child (R105). -/
def State.retestOne (p : GroupId) (s : State) (c : GroupId) : State :=
  if s.raiseCondition c then s else s.reopen p c

/-- The re-tests of a riser's parked taps, in parking order (R105). -/
def State.retestTaps (s : State) (r : GroupId) : State := (s.group r).parked.foldl (State.retestOne r) s

/-- The re-test of one parked riser: its taps first, then the riser itself (R108). -/
def State.retestRiser (p : GroupId) (s : State) (r : GroupId) : State := State.retestOne p (s.retestTaps r) r

/-- A parked tap settled on its own by its riser's release: RAISED, announced, tested (R107). -/
def State.settleAlone (s : State) (t : GroupId) : State := s.raiseAlone t .fibre

/-- A riser raised under no raised port: announced, then the clearing tests of its parked taps and of itself (R106,
R109). -/
def State.raiseRiserAlone (s : State) (r : GroupId) : State :=
  ((s.raiseRiser r false).announce r .fibre false engineOrigin).clearingTests ((s.group r).parked ++ [r])

/-- A riser raised under a raised port: covered, no report, and the clearing tests (R106, R112). -/
def State.raiseRiserCovered (s : State) (r : GroupId) : State :=
  (s.raiseRiser r true).clearingTests ((s.group r).parked ++ [r])

/-- A riser's release: each parked tap settled on its own, the riser CLEAR (R107). -/
def State.releaseRiser (s : State) (r : GroupId) : State := (s.group r).parked.foldl State.settleAlone (s.becomeClear r)

/-- A riser's verdict (R105–R107). -/
def State.riserVerdict (s : State) (r : GroupId) : State :=
  let s1 := s.retestTaps r
  if s1.raiseCondition r then
    match s1.parentState r with
    | .gathering => s1.parkUnder r
    | .raised => (s1.raiseRiserCovered r).parentTest r
    | .clearing => (s1.raiseRiserCovered r).parentTest r
    | .clear => s1.raiseRiserAlone r
    | .parked => s1.raiseRiserAlone r
  else s1.releaseRiser r

/-- A port raises: RAISED and announced, its parked risers and their taps covered, its raised risers covered, and the
clearing tests (R109, R112). -/
def State.raisePort (s : State) (p : GroupId) (cause : RaiseCause) (o : Origin) : State :=
  let risers := (s.group p).parked
  let taps := risers.flatMap (fun r => (s.group r).parked)
  let s1 := risers.foldl (fun s r => s.raiseRiser r true) s
  let s2 := ((s1.becomeRaised p false).coverChildren p).announce p cause false o
  s2.clearingTests (taps ++ risers ++ [p])

/-- A port's release: each parked riser settled as RAISED and announced, the port CLEAR (R109). -/
def State.releasePort (s : State) (p : GroupId) : State :=
  (s.group p).parked.foldl State.raiseRiserAlone (s.becomeClear p)

/-- A port's verdict (R108, R109). -/
def State.portVerdict (s : State) (p : GroupId) : State :=
  let s1 := (s.group p).parked.foldl (State.retestRiser p) s
  if s1.raiseCondition p then s1.raisePort p .fibre engineOrigin else s1.releasePort p

/-! ## Dark ports (R112, R113) -/

/-- A PORT_DARK on a port whose dark mark is clear (R112). -/
def State.portDark (s : State) (p : GroupId) (o : Origin) : State :=
  let s1 := s.putGroup p { s.group p with dark := true }
  match (s.group p).state with
  | .clear => s1.raisePort p .dark o
  | .gathering => s1.raisePort p .dark o
  | .raised => s1
  | .clearing => s1.putGroup p { s1.group p with state := .raised, deadline := none }
  | .parked => s1

/-- A PORT_LIT on a port whose dark mark is set (R113). -/
def State.portLit (s : State) (p : GroupId) : State :=
  (s.putGroup p { s.group p with dark := false }).clearingTest p

/-! ## Hold-down expiry (R121–R126) -/

/-- The members a clearing tap or zone covers, in ascending number: COVERED, and down in the group's own way. A tap's
COVERED member that its zone covers is left to the zone, and the reverse (R84, R124). -/
def State.stragglers (s : State) (g : GroupId) : List (Fin 1024) :=
  (s.termMembers g).filter (fun n => (s.term n).disp == .covered && downIn g (s.term n).state)

/-- The covered children of a clearing riser or port, in ascending number (R125). -/
def State.coveredChildren (s : State) (g : GroupId) : List GroupId :=
  (s.children g).filter (fun c => (s.group c).state.isRaised && (s.group c).covered)

/-- One child uncovered, and announced as a straggler where it was not announced (R125). -/
def State.uncover (s : State) (c : GroupId) : State :=
  let s1 := s.putGroup c { s.group c with covered := false }
  if (s.group c).announced then s1 else s1.announce c .fibre true engineOrigin

/-- The GROUP_CLEARED of an announced group (R123, step 1). -/
def State.reportCleared (s : State) (g : GroupId) : State :=
  if (s.group g).announced then
    (s.putGroup g { s.group g with announced := false }).makeReport
      { origin := engineOrigin, subject := some g.record,
        payload := .groupCleared ((s.stragglers g).length + (s.coveredChildren g).length) }
  else s

/-- The cause of a straggler release (R124). -/
def releaseCause : GroupId → OutageCause
  | .zone _ => .power
  | .tap _ => .fibre
  | .riser _ => .fibre
  | .port _ => .fibre

/-- A group clears (R123): its report, its stragglers, its children, its state, its parent's test. -/
def State.clearGroup (s : State) (g : GroupId) : State :=
  let s1 := (s.reportCleared g).release g (s.stragglers g) (releaseCause g)
  let s2 := (s.coveredChildren g).foldl State.uncover s1
  (s2.putGroup g { s2.group g with state := .clear, deadline := none, covered := false, pending := [],
                                   parked := [] }).parentTest g

/-- A hold-down expiry taken: back to RAISED where the condition no longer holds, else the group clears (R121). -/
def State.holdDownEnd (s : State) (g : GroupId) : State :=
  if s.clearingCondition g then s.clearGroup g
  else s.putGroup g { s.group g with state := .raised, deadline := none }

/-! ## A deadline's expiry (R99, R100) -/

/-- A group's gather deadline has been reached and none of its children is GATHERING (R99, R100). -/
def State.verdictDue (s : State) (g : GroupId) : Bool :=
  (s.group g).state == .gathering && due s.time (s.group g).deadline && !s.childGathering g

/-- The latest deadline among a parent's GATHERING children (R100). -/
def State.latestChild (s : State) (g : GroupId) : Option Time :=
  ((s.children g).filter (fun c => (s.group c).state == .gathering)).foldl
    (fun acc c =>
      match acc, (s.group c).deadline with
      | none, d => d
      | some a, none => some a
      | some a, some d => some (later d a))
    none

/-- A riser or port whose deadline has been reached while a child gathers waits for the latest of them (R100). -/
def State.waitForChildren (s : State) (g : GroupId) : State :=
  if (s.group g).state == .gathering && due s.time (s.group g).deadline && s.childGathering g then
    s.putGroup g { s.group g with deadline := s.latestChild g }
  else s

/-! ## The rows -/

/-- TAP_VERDICT (R99, R102, R103). -/
def execTapVerdict (n : Fin 128) (s : State) : Host.Outcome State Fault Refusal :=
  .next (if s.expiryReady && s.verdictDue (.tap n) then s.tapVerdict (.tap n) else s)

/-- PARENT_DEADLINE_WAIT (R100). It places nothing and needs no room (notes/assumptions/22.md). -/
def execParentDeadlineWait (p : Parent) (s : State) : Host.Outcome State Fault Refusal :=
  .next (if s.working && s.correlating then s.waitForChildren p.group else s)

/-- RISER_VERDICT (R99, R100, R105–R107). -/
def execRiserVerdict (n : Fin 32) (s : State) : Host.Outcome State Fault Refusal :=
  .next (if s.expiryReady && s.verdictDue (.riser n) then s.riserVerdict (.riser n) else s)

/-- PORT_VERDICT (R99, R100, R108, R109). -/
def execPortVerdict (n : Fin 16) (s : State) : Host.Outcome State Fault Refusal :=
  .next (if s.expiryReady && s.verdictDue (.port n) then s.portVerdict (.port n) else s)

/-- ZONE_VERDICT (R99, R110). -/
def execZoneVerdict (n : Fin 64) (s : State) : Host.Outcome State Fault Refusal :=
  .next (if s.expiryReady && s.verdictDue (.zone n) then s.zoneVerdict (.zone n) else s)

/-- HOLD_DOWN_EXPIRY (R99, R121). -/
def execHoldDownExpiry (g : GroupId) (s : State) : Host.Outcome State Fault Refusal :=
  .next (if s.expiryReady && (s.group g).state == .clearing && due s.time (s.group g).deadline then s.holdDownEnd g
    else s)

end Sys2Proof.Machine
end

