-- ==== Sys2Proof/Machine/Terminals.lean ====
section
/-! DEFINITION. The terminal table (spec/05): the state machine of TABLE 5-3, flap detection and muting, returns and
brownouts, the claims of GASP, LOSS and RESTORE, SEED, MUTE and UNMUTE; and the meanings of the terminal timer rows. -/

namespace Sys2Proof.Machine

/-- Answers to a judged write (R67). -/
inductive Answer where
  | taken
  | duplicate
  | left
  deriving DecidableEq, Repr

/-- The outcome of a message handed on: the state after it, its answer, and whether it was a blip (R65). -/
structure Claimed where
  state  : State
  answer : Answer
  blip   : Bool

/-- A claim answered TAKEN. -/
def Claimed.taken (s : State) : Claimed := { state := s, answer := .taken, blip := false }

/-- A claim answered DUPLICATE: nothing changes (R72). -/
def Claimed.duplicate (s : State) : Claimed := { state := s, answer := .duplicate, blip := false }

/-- A report about terminal n. -/
def termDraft (o : Origin) (n : Fin 1024) (p : Payload) : Draft := { origin := o, subject := some n.val, payload := p }

/-! ## Changes of a record -/

/-- The end of a quiet time that begins now (R87, R88); the setting is in seconds. -/
def State.quietEnd (s : State) : Time := after s.time (1000 * s.settings.quietTime)

/-- The end of a gasp-follow time that begins now (R73, R75). -/
def State.followEnd (s : State) : Time := after s.time s.settings.gaspFollow

/-- A state change: the last change time, and a muted terminal's quiet deadline restarted (R70, R88). -/
def State.moveTo (s : State) (t : Terminal) (st : TState) (deadline : Option Time) : Terminal :=
  { t with state := st, deadline := deadline, lastChange := s.time,
           quiet := if t.muted then some s.quietEnd else t.quiet }

/-- The flap window is open (R86); the setting is in seconds. -/
def State.flapOpen (s : State) (t : Terminal) : Bool :=
  match t.flapStart with
  | none => false
  | some b => !reached s.time (after b (1000 * s.settings.flapWindow))

/-- A down-entry counted (R86). -/
def State.countDown (s : State) (t : Terminal) : Terminal :=
  if s.flapOpen t then { t with downEntries := min (t.downEntries + 1) 15 }
  else { t with flapStart := some s.time, downEntries := 1 }

/-- The withdrawal of a down-entry at a blip (R86). A count that is 0 already stays 0: the model's choice
(notes/assumptions/40.md). -/
def Terminal.withdraw (t : Terminal) : Terminal :=
  { t with downEntries := t.downEntries - 1, flapStart := if t.downEntries ≤ 1 then none else t.flapStart }

/-- A terminal muted, its quiet deadline set (R87, R89). -/
def State.muteTerm (s : State) (t : Terminal) : Terminal := { t with muted := true, quiet := some s.quietEnd }

/-- A terminal unmuted: quiet deadline removed, flap window closed (R86, R88). -/
def Terminal.unmute (t : Terminal) : Terminal :=
  { t with muted := false, quiet := none, flapStart := none, downEntries := 0 }

/-- Muting after a counted down-entry (R87). -/
def State.muteIfDue (s : State) (isPrompt : Bool) (t : Terminal) : Terminal :=
  if !isPrompt && !t.muted && decide (s.settings.flapLimit ≤ t.downEntries) then s.muteTerm t else t

/-- The record after an entry into an outage from UP: state change, down-entry, muting (R86, R87). -/
def State.downRecord (s : State) (t : Terminal) (isPrompt : Bool) (st : TState) (deadline : Option Time) : Terminal :=
  s.muteIfDue isPrompt (s.countDown (s.moveTo t st deadline))

/-! ## Reports of an outage and of a return (R82, R83, R85, R87) -/

/-- The MUTED report of a claim that muted terminal n (R87). -/
def State.reportMuted (s : State) (n : Fin 1024) (wasMuted : Bool) (o : Origin) : State :=
  if !wasMuted && (s.term n).muted then s.makeReport (termDraft o n (.muted (s.term n).downEntries)) else s

/-- A PROMPT terminal's TERMINAL_DOWN, made at once (R85). -/
def State.reportPrompt (s : State) (n : Fin 1024) (isPrompt : Bool) (cause : OutageCause) (o : Origin) : State :=
  if isPrompt then s.makeReport (termDraft o n (.terminalDown cause)) else s

/-- Brownout reports are made now: storm OUT, and mode EVERY, or mode SINGLE while armed (R83). -/
def State.brownoutReported (s : State) : Bool :=
  !s.corr.stormIn &&
    match s.settings.brownoutMode with
    | .every => true
    | .single => s.table.brownoutArmed
    | .none => false

/-- Set the brownout reports armed mark; a change marks the engine summary (R156). -/
def State.putBrownoutArmed (s : State) (v : Bool) : State :=
  if s.table.brownoutArmed = v then s else { s with table := { s.table with brownoutArmed := v } }.markSummary

/-- Count a suppressed brownout (R83). -/
def State.suppressBrownout (s : State) : State :=
  { s with table := { s.table with suppressed := sat16 s.table.suppressed } }.markIf
    (sat16 s.table.suppressed != s.table.suppressed) Config.summaryRecord

/-- The brownout decision (R83). -/
def State.brownout (s : State) (n : Fin 1024) (o : Origin) : State :=
  if s.brownoutReported then
    match s.settings.brownoutMode with
    | .single => (s.putBrownoutArmed false).makeReport (termDraft o n .terminalBrownout)
    | .every => s.makeReport (termDraft o n .terminalBrownout)
    | .none => s.makeReport (termDraft o n .terminalBrownout)
  else s.suppressBrownout

/-- The report of a return from state `st` with disposition `d` (R82). -/
def State.reportReturn (s : State) (n : Fin 1024) (st : TState) (d : Disp) (o : Origin) : State :=
  if d = .reported && !(s.term n).muted then
    if st = .gasped then s.brownout n o else s.makeReport (termDraft o n .terminalUp)
  else s

/-! ## Leaving a group -/

/-- The group whose down count a terminal in state `st` is in (TABLE 5-2). -/
def countingGroup (e : TermEntry) (st : TState) : Option GroupId :=
  if st.tapDown then some (.tap e.tap) else if st.zoneDown then some (.zone e.zone) else none

/-- A terminal that has returned leaves its group: unlisted and settled where it was PENDING, and the group's clearing
test (R80, R82, R98, R118). -/
def State.leaveGroup (s : State) (g : Option GroupId) (n : Fin 1024) (d : Disp) : State :=
  match g with
  | none => s
  | some g => (if d = .pending then (s.unlist g n).settle g else s).clearingTest g

/-- A return to UP with the deadline the return leaves (R75, R79, R82). -/
def State.returnUp (s : State) (n : Fin 1024) (e : TermEntry) (deadline : Option Time) (o : Origin) : State :=
  let t := s.term n
  let s1 := s.putTerm n { s.moveTo t .up deadline with disp := .none }
  ((s1.leaveGroup (countingGroup e t.state) n t.disp).reportReturn n t.state t.disp o).handDown s.buildingDown o

/-! ## Entries -/

/-- The disposition of a non-PROMPT terminal entering DOWN_OFF, or of a PROMPT one (R81, R85). -/
def State.offDisp (s : State) (isPrompt : Bool) (t : Terminal) : Disp :=
  if isPrompt || (s.settings.offReports && !t.muted) then .reported else .none

/-- Enter DOWN_OFF with a record already moved there (R81, R85). -/
def State.enterOff (s : State) (n : Fin 1024) (e : TermEntry) (t : Terminal) (o : Origin) : State :=
  let was := (s.term n).muted
  let d := s.offDisp e.prompt t
  let s1 := (s.putTerm n { t with disp := d }).reportMuted n was o
  (if d = .reported then s1.makeReport (termDraft o n (.terminalDown .off)) else s1).handDown s.buildingDown o

/-- Enter a group's outage with a record already moved there: join, MUTED, and a PROMPT terminal's report (R80, R85). -/
def State.enterGroup (s : State) (n : Fin 1024) (e : TermEntry) (g : GroupId) (t : Terminal) (cause : OutageCause)
    (o : Origin) : State :=
  let was := (s.term n).muted
  ((((s.putTerm n t).join g n e.prompt).reportMuted n was o).reportPrompt n e.prompt cause o).handDown s.buildingDown o

/-- Enter SUSPECT (R74, R85). -/
def State.enterSuspect (s : State) (n : Fin 1024) (e : TermEntry) (o : Origin) : State :=
  let was := (s.term n).muted
  let t := s.downRecord (s.term n) e.prompt .suspect (some (after s.time s.settings.grace))
  let s1 := s.putTerm n { t with disp := if e.prompt then .reported else .none }
  ((s1.reportMuted n was o).reportPrompt n e.prompt .fibre o).handDown s.buildingDown o

/-! ## GASP (R73, R76–R79) -/

/-- The cause a GASP is read with: a NO_OFF terminal's OFF is SUPPLY (R72). `off` says the cause field holds OFF. -/
def gaspOff (e : TermEntry) (off : Bool) : Bool := off && !e.noOff

/-- A GASP taken in UP is a repeat (R73). -/
def State.repeatGasp (s : State) (t : Terminal) (tag : Byte) : Bool :=
  match t.deadline with
  | none => false
  | some d => !reached s.time d && t.lastTag == some tag

/-- A GASP that starts a new outage in UP (R73). -/
def State.gaspUp (s : State) (n : Fin 1024) (e : TermEntry) (off : Bool) (tag : Byte) (o : Origin) : State :=
  if off then s.enterOff n e { s.downRecord (s.term n) e.prompt .downOff none with lastTag := some tag } o
  else
    s.enterGroup n e (.zone e.zone)
      { s.downRecord (s.term n) e.prompt .gasped (some s.followEnd) with lastTag := some tag } .power o

/-- A GASP in SUSPECT (R77, R85). -/
def State.gaspSuspect (s : State) (n : Fin 1024) (e : TermEntry) (off : Bool) (tag : Byte) (o : Origin) : State :=
  if off then s.enterOff n e { s.moveTo (s.term n) .downOff none with lastTag := some tag } o
  else s.enterGroup n e (.zone e.zone) { s.moveTo (s.term n) .downPower none with lastTag := some tag } .power o

/-- A late gasp that reclassifies a PENDING terminal: off its tap's list, into DOWN_POWER and its zone (R78). -/
def State.reclassify (s : State) (n : Fin 1024) (e : TermEntry) (tag : Byte) : State :=
  let s1 := s.putTerm n { s.moveTo (s.term n) .downPower none with lastTag := some tag }
  (s1.unlist (.tap e.tap) n).join (.zone e.zone) n e.prompt

/-- A late gasp that is only counted; it marks the record in any case (R78). -/
def State.countLate (s : State) (n : Fin 1024) (tag : Byte) : State :=
  (s.setTerm n { s.term n with lateGasps := min ((s.term n).lateGasps + 1) 255, lastTag := some tag }).mark n.val

/-- A late gasp (R78). -/
def State.lateGasp (s : State) (n : Fin 1024) (e : TermEntry) (tag : Byte) : State :=
  if (s.term n).disp = .pending then s.reclassify n e tag else s.countLate n tag

/-- A GASP applied to terminal n (TABLE 5-3). -/
def State.claimGasp (s : State) (n : Fin 1024) (e : TermEntry) (off : Bool) (tag : Byte) (o : Origin) : Claimed :=
  match (s.term n).state with
  | .up => if s.repeatGasp (s.term n) tag then .duplicate s else .taken (s.gaspUp n e (gaspOff e off) tag o)
  | .suspect => .taken (s.gaspSuspect n e (gaspOff e off) tag o)
  | .downFibre => .taken (s.lateGasp n e tag)
  | .gasped => .duplicate s
  | .downPower => .duplicate s
  | .downOff => .duplicate s
  | .unlisted => .duplicate s

/-! ## LOSS (R74, R76) -/

/-- A LOSS taken in UP (R74). -/
def State.lossUp (s : State) (n : Fin 1024) (e : TermEntry) (o : Origin) : State :=
  if s.settings.grace = 0 then
    s.enterGroup n e (.tap e.tap) (s.downRecord (s.term n) e.prompt .downFibre none) .fibre o
  else s.enterSuspect n e o

/-- A LOSS applied to terminal n (TABLE 5-3). In GASPED the terminal keeps its zone and its disposition (R76). -/
def State.claimLoss (s : State) (n : Fin 1024) (e : TermEntry) (o : Origin) : Claimed :=
  match (s.term n).state with
  | .up => .taken (s.lossUp n e o)
  | .gasped => .taken (s.putTerm n (s.moveTo (s.term n) .downPower none))
  | .suspect => .duplicate s
  | .downFibre => .duplicate s
  | .downPower => .duplicate s
  | .downOff => .duplicate s
  | .unlisted => .duplicate s

/-! ## RESTORE (R75–R77, R79) -/

/-- A blip: SUSPECT straight back to UP, the down-entry withdrawn (R77, R86). -/
def State.blip (s : State) (n : Fin 1024) (o : Origin) : State :=
  let t := s.term n
  let s1 := s.putTerm n { (s.moveTo t .up none).withdraw with disp := .none }
  (s1.reportReturn n t.state t.disp o).handDown s.buildingDown o

/-- A RESTORE applied to terminal n (TABLE 5-3). -/
def State.claimRestore (s : State) (n : Fin 1024) (e : TermEntry) (o : Origin) : Claimed :=
  match (s.term n).state with
  | .up => .duplicate s
  | .suspect => { state := s.blip n o, answer := .taken, blip := true }
  | .gasped => .taken (s.returnUp n e (some s.followEnd) o)
  | .downFibre => .taken (s.returnUp n e (some s.followEnd) o)
  | .downPower => .taken (s.returnUp n e (some s.followEnd) o)
  | .downOff => .taken (s.returnUp n e (some s.followEnd) o)
  | .unlisted => .duplicate s

/-! ## Commands on a terminal (R89, R90) -/

/-- MUTE of an unmuted or a muted terminal, and its result data (R89). -/
def State.mute (s : State) (n : Fin 1024) (o : Origin) : State × Nat :=
  if (s.term n).muted then (s.putTerm n { s.term n with quiet := some s.quietEnd }, 0)
  else
    ((s.putTerm n (s.muteTerm (s.term n))).makeReport (termDraft o n (.muted (s.term n).downEntries)), 1)

/-- The cause an UNMUTE reports for a terminal down with QUIET (R89). -/
def quietCause (st : TState) : OutageCause := if st = .downFibre then .fibre else .power

/-- UNMUTE, and its result data (R89). -/
def State.unmute (s : State) (n : Fin 1024) (o : Origin) : State × Nat :=
  let t := s.term n
  if !t.muted then (s, 0)
  else if t.disp = .quiet then
    (((s.putTerm n { t.unmute with disp := .reported }).makeReport (termDraft o n .unmuted)).makeReport
      (termDraft o n (.terminalDown (quietCause t.state))), 1)
  else ((s.putTerm n t.unmute).makeReport (termDraft o n .unmuted), 1)

/-- The disposition a SEED gives (R90). -/
def seedDisp (target : TState) : Disp := if target = .up then .none else .reported

/-- The groups whose down count a change of a terminal's state moves: these are tested (R90, R118). -/
def movedGroups (e : TermEntry) (a b : TState) : List GroupId :=
  (if a.tapDown = b.tapDown then [] else [.tap e.tap]) ++ if a.zoneDown = b.zoneDown then [] else [.zone e.zone]

/-- A SEED that passes (R90). To the present state it sets the disposition alone (notes/assumptions/12.md). -/
def State.seed (s : State) (n : Fin 1024) (e : TermEntry) (target : TState) (o : Origin) : State :=
  let t := s.term n
  if t.state = target then s.putTerm n { t with disp := seedDisp target }
  else
    ((s.putTerm n { s.moveTo t target none with disp := seedDisp target }).clearingTests
      (movedGroups e t.state target)).handDown s.buildingDown o

/-! ## Timer expiries (R71) -/

/-- Grace expiry: SUSPECT to DOWN_FIBRE, joining the tap (R77). -/
def State.graceEnd (s : State) (n : Fin 1024) (e : TermEntry) : State :=
  (s.putTerm n (s.moveTo (s.term n) .downFibre none)).join (.tap e.tap) n e.prompt

/-- An expiry of terminal n's deadline in state `st`, where one is due (R71). -/
def State.deadlineDue (s : State) (n : Fin 1024) (st : TState) : Bool :=
  s.expiryReady && (s.term n).state == st && due s.time (s.term n).deadline

/-- GRACE_EXPIRY (R71, R77). -/
def execGraceExpiry (n : Fin 1024) (s : State) : Host.Outcome State Fault Refusal :=
  .next (match s.entry? n with
    | none => s
    | some e => if s.deadlineDue n .suspect then s.graceEnd n e else s)

/-- GASP_FOLLOW_EXPIRY: a return from GASPED with the deadline absent (R71, R76). -/
def execGaspFollowExpiry (n : Fin 1024) (s : State) : Host.Outcome State Fault Refusal :=
  .next (match s.entry? n with
    | none => s
    | some e => if s.deadlineDue n .gasped then s.returnUp n e none engineOrigin else s)

/-- STALE_GASP_WINDOW_END (R71, R75). -/
def execStaleGaspWindowEnd (n : Fin 1024) (s : State) : Host.Outcome State Fault Refusal :=
  .next (if s.deadlineDue n .up then s.putTerm n { s.term n with deadline := none } else s)

/-- QUIET_EXPIRY: a muted terminal that is UP is unmuted (R71, R88). -/
def execQuietExpiry (n : Fin 1024) (s : State) : Host.Outcome State Fault Refusal :=
  .next (if s.expiryReady && (s.term n).muted && due s.time (s.term n).quiet && (s.term n).state == .up then
      (s.unmute n engineOrigin).1
    else s)

end Sys2Proof.Machine
end

