-- ==== Sys2Proof/Machine/Intake.lean ====
section
/-! DEFINITION. The intake unit (spec/04): attribution of a judged write to a port, the checks, the tallies and fault
reports, and the routing of sound messages. -/

namespace Sys2Proof.Machine

/-! ## Attribution (R59) -/

/-- Whether a request is a write into port p's ring from the ring's framer tag (R8, R59). -/
def State.inRingOf (s : State) (r : Request) (p : Fin 16) : Bool :=
  match s.ring p with
  | none => false
  | some x => r.isWrite && x.framer == r.tag && r.overlaps x.area.1 x.area.2

/-- The port a judged write is attributed to: the lowest-numbered of those whose ring it writes (R59); none where its
ring has gone since it was presented (R57). -/
def State.portOf (s : State) (r : Request) : Option (Fin 16) := (List.finRange 16).find? (s.inRingOf r)

/-! ## Verdicts and their tallies (TABLE 4-1, R68) -/

/-- An INTAKE_FAULT report before it is created (R62). -/
def faultDraft (p : Fin 16) (k : FaultKind) (word : BitVec 32) : Draft :=
  { origin := { source := .engine, word := word }, subject := some (GroupId.port p).record, payload := .intakeFault p k }

/-- The INTAKE_FAULT of a port, made where the port's fault mark is clear; then the mark is set, after any cadence SYNC
that the report brings (R62; notes/assumptions/14.md). -/
def State.reportFault (s : State) (p : Fin 16) (k : FaultKind) (word : BitVec 32) : State :=
  if s.faultMark p then s else (s.makeReport (faultDraft p k word)).putFaultMark p true

/-- A malformed write (R60, R62). -/
def State.malformedAt (s : State) (p : Fin 16) : State :=
  (s.putTally p { s.tally p with malformed := sat16 (s.tally p).malformed }).reportFault p .malformed 0

/-- A check failure (R61, R62). -/
def State.checkFailedAt (s : State) (p : Fin 16) (k : FaultKind) (word : BitVec 32) : State :=
  (s.putTally p { s.tally p with checkFailures := sat16 (s.tally p).checkFailures }).reportFault p k word

/-- A sound message judged left (R64). -/
def State.leftAt (s : State) (p : Fin 16) : State :=
  s.putTally p { s.tally p with left := sat16 (s.tally p).left }

/-- A stray (R64). -/
def State.strayAt (s : State) (p : Fin 16) : State :=
  s.putTally p { s.tally p with strays := sat16 (s.tally p).strays }

/-- A message answered TAKEN; a blip counts besides (R65, R68). -/
def State.takenAt (s : State) (p : Fin 16) (blip : Bool) : State :=
  s.putTally p { s.tally p with taken := sat16 (s.tally p).taken,
                                blips := if blip then sat16 (s.tally p).blips else (s.tally p).blips }

/-- A message answered DUPLICATE (R65, R66). -/
def State.duplicateAt (s : State) (p : Fin 16) : State :=
  s.putTally p { s.tally p with duplicates := sat16 (s.tally p).duplicates }

/-- The tally of an answered message. -/
def Claimed.tallied (c : Claimed) (p : Fin 16) : State :=
  match c.answer with
  | .taken => c.state.takenAt p c.blip
  | .duplicate => c.state.duplicateAt p
  | .left => c.state.leftAt p

/-! ## Routing (R64–R66) -/

/-- A terminal message handed to its mapped terminal, or none for a stray (R64, R65). -/
def State.routeTerminal (s : State) (p : Fin 16) (m : List Byte) (claim : Fin 1024 → TermEntry → Claimed) :
    Option Claimed :=
  match s.terminalOf p (byteAt m 3) with
  | none => none
  | some n => (s.entry? n).map (claim n)

/-- A port message handed to the correlation unit, or none where the port is not mapped (R64, R66). -/
def State.routePort (s : State) (p : Fin 16) (claim : Claimed) : Option Claimed :=
  if s.portMapped p then some claim else none

/-- A PORT_DARK message: DUPLICATE where the dark mark is set (R66, R112). -/
def State.claimDark (s : State) (p : Fin 16) (o : Origin) : Claimed :=
  if (s.group (.port p)).dark then .duplicate s else .taken (s.portDark (.port p) o)

/-- A PORT_LIT message: DUPLICATE where the dark mark is clear (R66, R113). -/
def State.claimLit (s : State) (p : Fin 16) : Claimed :=
  if (s.group (.port p)).dark then .taken (s.portLit (.port p)) else .duplicate s

/-- A message's cause field holds OFF (TABLE 13-2). -/
def causeOff (m : List Byte) : Bool := byteAt m 5 == 2

/-- A message's repeat tag (TABLE 13-2). -/
def repeatTag (m : List Byte) : Byte := m.getD 4 0

/-- A sound message routed by the active map (R64). -/
def State.routeMessage (s : State) (p : Fin 16) (m : List Byte) : Option Claimed :=
  match msgKind m with
  | some .gasp => s.routeTerminal p m (fun n e => s.claimGasp n e (causeOff m) (repeatTag m) (messageOrigin m))
  | some .loss => s.routeTerminal p m (fun n e => s.claimLoss n e (messageOrigin m))
  | some .restore => s.routeTerminal p m (fun n e => s.claimRestore n e (messageOrigin m))
  | some .portDark => s.routePort p (s.claimDark p (messageOrigin m))
  | some .portLit => s.routePort p (s.claimLit p)
  | none => none

/-! ## Judgment (R59–R67) -/

/-- The answer written into a passing message under CLAIM (R13, R67). -/
def answered (t : Treatment) (a : Answer) (r : Request) : Request :=
  match t, a with
  | .claim, .taken => r.withByte0 byteTaken
  | .claim, .duplicate => r.withByte0 byteDuplicate
  | .claim, .left => r
  | .observe, _ => r

/-- A sound message: left outside correlation, else routed as given; a stray where the route has no answer (R64). -/
def State.judgeSound (s : State) (p : Fin 16) (t : Treatment) (r : Request) (route : Option Claimed) : State × Request :=
  if !s.correlating then (s.leftAt p, r)
  else
    match route with
    | none => (s.strayAt p, r)
    | some c => (c.tallied p, answered t c.answer r)

/-- A message of the right form: faulty, or sound (R61). -/
def State.judgeMessage (s : State) (p : Fin 16) (t : Treatment) (r : Request) (route : Option Claimed) :
    State × Request :=
  match messageFault p r.bytes with
  | some k => (s.checkFailedAt p k (framerTime r.bytes), r)
  | none => s.judgeSound p t r route

/-- A write of a message's form, judged against the rings in force at its taking; outside every ring of its tag it has no
effect (R57, R59). `route` hands a sound message of port p on. -/
def State.judgeForm (s : State) (r : Request) (route : Fin 16 → Option Claimed) : State × Request :=
  match s.portOf r with
  | none => (s, r)
  | some p =>
    match s.ring p with
    | none => (s, r)
    | some x => s.judgeMessage p x.treatment r (route p)

/-- A judged write that is not of a message's form (R60). -/
def State.judgeMalformed (s : State) (r : Request) : State :=
  match s.portOf r with
  | none => s
  | some p => s.malformedAt p

/-- Any judged write. -/
def State.judgeWrite (s : State) (r : Request) : State × Request :=
  if messageForm r then s.judgeForm r (fun p => s.routeMessage p r.bytes) else (s.judgeMalformed r, r)

end Sys2Proof.Machine
end

