-- ==== Sys2Proof/Machine/PathUnit.lean ====
section
/-! DEFINITION. The path unit (spec/01) and the mirror writer's side of it (spec/09): classification, presentation of the
lanes, held reads, taking a step write, the downstream arbiter and memory's answers; and the meanings of those rows. -/

namespace Sys2Proof.Machine

/-! ## Classification (R7, R8, TABLE 1-8) -/

/-- The tags whose anchor writes the mode admits (R23). -/
def State.admitsAnchor (s : State) (t : Tag) : Bool :=
  match s.ctl.mode with
  | .detached => true
  | .attached => s.processorTag t
  | .loading => s.processorTag t
  | .running => s.processorTag t
  | .halted => false

/-- A write the part examines as an anchor block (R23). -/
def State.anchorForm (s : State) (r : Request) : Bool :=
  r.fullAligned 64 && r.addr == s.ctl.anchorAddr && s.admitsAnchor r.tag

/-- An ISSUED slot write from a processor tag (R161). -/
def State.commandForm (s : State) (r : Request) : Bool :=
  match s.ctl.anchor with
  | none => false
  | some a =>
    s.processorTag r.tag && r.fullAligned 32 && byteAt r.bytes 0 == slotIssued &&
      decide (a.cmdBase.toNat ≤ r.addr.toNat) && decide (r.addr.toNat + 32 ≤ a.cmdBase.toNat + 32 * a.cmdSlots)

/-- A processor write that overlaps the map load window in LOADING (R42). -/
def State.windowForm (s : State) (r : Request) : Bool :=
  match s.ctl.anchor with
  | none => false
  | some a =>
    s.ctl.mode == .loading && s.processorTag r.tag && r.isWrite && r.overlaps a.windowBase.toNat windowSize

/-- The value a processor write of all four bytes of the consumed-index word carries (R11, R143). -/
def State.consumedValue (s : State) (r : Request) : Option Nat :=
  match s.ctl.anchor with
  | none => none
  | some a =>
    let w := a.consumedAddr.toNat
    if s.processorTag r.tag && r.enables w && r.enables (w + 1) && r.enables (w + 2) && r.enables (w + 3) then
      some (leAt r.bytes (w - r.addr.toNat) 4)
    else none

/-- A processor read that overlaps the status mirror (TABLE 1-7). -/
def State.mirrorRead (s : State) (r : Request) : Bool :=
  match s.ctl.anchor with
  | none => false
  | some a =>
    s.ctl.mode != .detached && s.processorTag r.tag && !r.isWrite && r.overlaps a.mirrorBase.toNat mirrorSize

/-- What a write is a unit of engine work for. -/
def State.stepFor (s : State) (r : Request) : StepFor :=
  { anchor := s.anchorForm r, intake := (s.portOf r).isSome, command := s.commandForm r, window := s.windowForm r,
    consumed := s.consumedValue r }

/-- A write is a step for some area. -/
def StepFor.isStep (f : StepFor) : Bool := f.anchor || f.intake || f.command || f.window

/-- The outcome of a write outside HALTED. -/
def StepFor.verdict (f : StepFor) : Verdict :=
  if f.isStep then .step f
  else
    match f.consumed with
    | some v => .consumedIndex v
    | none => .pass

/-- Classification of a presented request (R8); while RESET_N is asserted every request passes (R21), in HALTED every
write (R22). -/
def State.verdict (s : State) (r : Request) : Verdict :=
  if s.inReset then .pass
  else if s.mirrorRead r then .mirrorCheck .presented
  else if !r.isWrite || s.ctl.mode == .halted then .pass
  else (s.stepFor r).verdict

/-! ## Presentation (R4, R15) -/

/-- A request enters the pass path (R4). -/
def State.enterPass (s : State) (r : Request) (acted : Bool) : State :=
  { s with path := { s.path with passPath := s.path.passPath ++ [{ req := r, acted := acted }] } }

/-- The front request leaves its lane; the next is presented. -/
def State.popLane (s : State) (t : Tag) : State := s.setLane t { reqs := (s.lane t).reqs.tail, outcome := none }

/-- A read of tag t is in the held-read list. -/
def State.tagHeld (s : State) (t : Tag) : Bool := s.path.held.any (fun h => h.req.tag == t)

/-- The front of lane t is to be classified: not yet, and not held behind a held read of its tag (R15). -/
def State.presentable (s : State) (t : Tag) : Bool :=
  match (s.lane t).reqs, (s.lane t).outcome with
  | r :: _, none => !s.tagHeld t || s.verdict r == .mirrorCheck .presented
  | _ :: _, some _ => false
  | [], _ => false

/-- A held read that may enter the pass path: satisfied, and no earlier read of its tag is in the list (R15). -/
def State.releasable (s : State) (i : Nat) : Bool :=
  match s.path.held[i]? with
  | none => false
  | some h => h.awaits.isEmpty && !(s.path.held.take i).any (fun g => g.req.tag == h.req.tag)

/-- The front of lane t is a mirror read to be examined afresh (R15). -/
def State.recheckable (s : State) (t : Tag) : Bool :=
  match (s.lane t).reqs, (s.lane t).outcome with
  | _ :: _, some (_, v) => v == .mirrorCheck .again
  | _ :: _, none => false
  | [], _ => false

/-- What may move in the path unit. -/
inductive Move where
  | present (t : Tag)
  | recheck (t : Tag)
  | release (i : Nat)
  deriving DecidableEq, Repr

/-- Every move that may be made now. -/
def State.moves (s : State) : List Move :=
  ((List.finRange 32).filter s.presentable).map .present ++
    (((List.finRange 32).filter s.recheckable).map .recheck ++
      ((List.range s.path.held.length).filter s.releasable).map .release)

/-- The front of a lane is classified: it passes, or it stays with its outcome (R4). -/
def State.present (s : State) (t : Tag) : State :=
  match (s.lane t).reqs with
  | [] => s
  | r :: rest =>
    match s.verdict r with
    | .pass => (s.popLane t).enterPass r false
    | v => s.setLane t { reqs := r :: rest, outcome := some (s.ctl.mode, v) }

/-- The front of lane t is to be classified afresh. -/
def State.reopenLane (s : State) (t : Tag) : State := s.setLane t { s.lane t with outcome := none }

/-! ## Held reads (R14, R15) -/

/-- The mirror records a read overlaps (R14). -/
def overlapped (a : Anchor) (r : Request) : List Nat :=
  let lo := (r.addr.toNat - a.mirrorBase.toNat) / 16
  let hi := min ((r.addr.toNat + r.size - 1 - a.mirrorBase.toNat) / 16) (Config.mirrorRecords - 1)
  List.range' lo (hi + 1 - lo)

/-- The condition of a record a read overlaps; none where it is current (R14). -/
def State.condition (s : State) (i : Nat) : Option Await :=
  if s.mirror.dirty.contains i then some .needsWrite
  else if s.mirror.inFlight.count i = 0 then none
  else some (.answers (s.mirror.inFlight.count i))

/-- The records a read would await if it entered the held-read list now (R14). -/
def State.awaited (s : State) (r : Request) : List (Nat × Await) :=
  match s.ctl.anchor with
  | none => []
  | some a =>
    if r.overlaps a.mirrorBase.toNat mirrorSize then
      (overlapped a r).filterMap (fun i => (s.condition i).map (fun c => (i, c)))
    else []

/-- A read enters the held-read list (R14). -/
def State.enterHeld (s : State) (h : HeldRead) : State :=
  { s with path := { s.path with held := s.path.held ++ [h] } }

/-- The front of lane t is a mirror read that waits in the given stage. -/
def State.waitRead (s : State) (t : Tag) (stage : ReadStage) : State :=
  s.setLane t { s.lane t with outcome := some (s.ctl.mode, .mirrorCheck stage) }

/-- The front read of lane t is current: it passes, unless a read of its tag is held (R14, R15). -/
def State.passRead (s : State) (t : Tag) (r : Request) : State :=
  if s.tagHeld t then s.waitRead t .behind else (s.popLane t).enterPass r false

/-- The examination of a mirror read at the front of lane t (R14, R15). -/
def State.examineRead (s : State) (t : Tag) (r : Request) : State :=
  if (s.awaited r).isEmpty then s.passRead t r
  else if s.path.held.length < Config.heldReads then (s.popLane t).enterHeld { req := r, awaits := s.awaited r }
  else s.waitRead t .room

/-- The front read of lane t is classified and examined afresh (R15; notes/assumptions/42.md). -/
def State.recheck (s : State) (t : Tag) : State :=
  match (s.lane t).reqs with
  | [] => s
  | r :: _ => if s.mirrorRead r then s.examineRead t r else s.passRead t r

/-- The stage of a waiting read after a read has left the held-read list; `held` says that a read of its own tag is
still in it (R15). -/
def ReadStage.afterLeaving (held : Bool) : ReadStage → ReadStage
  | .presented => .presented
  | .room => .again
  | .behind => if held then .behind else .again
  | .again => .again

/-- A lane after a read has left the held-read list (R15). -/
def Lane.afterLeaving (held : Bool) (l : Lane) : Lane :=
  match l.outcome with
  | some (m, .mirrorCheck stage) => { l with outcome := some (m, .mirrorCheck (stage.afterLeaving held)) }
  | some (_, .pass) => l
  | some (_, .step _) => l
  | some (_, .consumedIndex _) => l
  | none => l

/-- A read has left the held-read list: reads that wait for room, and one that waits behind the last held read of its
tag, are to be examined afresh (R15). -/
def State.readLeft (s : State) : State :=
  { s with path := { s.path with
      lanes := Vector.ofFn (fun t : Tag => (s.lane t).afterLeaving (s.tagHeld t)) } }

/-- A held read enters the pass path (R15). -/
def State.release1 (s : State) (i : Nat) : State :=
  match s.path.held[i]? with
  | none => s
  | some h => ({ s with path := { s.path with held := s.path.held.eraseIdx i } }.enterPass h.req false).readLeft

/-! ## Movement -/

/-- Make one move. -/
def State.move (s : State) : Move → State
  | .present t => s.present t
  | .recheck t => s.recheck t
  | .release i => s.release1 i

/-- The move made first of those that may be made: the one there is, or a free choice (notes/assumptions/9.md). -/
def State.pickMove (s : State) : State :=
  match s.moves with
  | [] => s
  | [m] => s.move m
  | m :: ms =>
    { s with path := { s.path with picks := s.path.picks + 1 } }.move
      ((m :: ms).getD (Config.freePick s.path.picks % (ms.length + 1)) m)

/-- Moves up to a number of times. -/
def State.flowN : Nat → State → State
  | 0, s => s
  | n + 1, s => if s.moves.isEmpty then s else State.flowN n s.pickMove

/-- More moves than one event can free: 128 requests leave, 32 fronts stay, and each of 8 held reads that leave lets 33
fronts be examined afresh. -/
def flowMoves : Nat := 432

/-- The path unit moves until every request stays where it is. -/
def State.flow (s : State) : State := State.flowN flowMoves s

/-- A write held under an outcome of an earlier engine mode is classified again; a read waits as R15 says. -/
def Verdict.reclassified : Verdict → Bool
  | .step _ => true
  | .consumedIndex _ => true
  | .pass => true
  | .mirrorCheck _ => false

/-- A row examines the front of a lane: a write is classified afresh where the engine mode has changed since (R9, R22;
notes/assumptions/7.md). -/
def State.examine (s : State) (t : Tag) : State :=
  match (s.lane t).outcome with
  | none => s.flow
  | some (m, v) => if m = s.ctl.mode || !v.reclassified then s else (s.reopenLane t).flow

/-! ## Taking a write (R9–R12) -/

/-- The front of lane t with its outcome. -/
def State.front (s : State) (t : Tag) : Option (Request × Verdict) :=
  match (s.lane t).reqs, (s.lane t).outcome with
  | r :: _, some (_, v) => some (r, v)
  | _ :: _, none => none
  | [], _ => none

/-- The command unit is in ACTIONS. -/
def UnitState.inActions : UnitState → Bool
  | .actions => true
  | .idle => false
  | .busy _ _ _ => false

/-- A step write may be taken now: 20 free entries, and for a slot write a unit not in ACTIONS (R9, R10). -/
def State.admits (s : State) (f : StepFor) : Bool := s.ready && !(f.command && s.cmd.unit.inActions)

/-- The value a step write hands over besides (R8). -/
def State.handOver (s : State) (f : StepFor) : State :=
  match f.consumed with
  | none => s
  | some v => s.handConsumed v

/-- The write taken: it leaves its lane, the engine acts, it enters the pass path (R12). Two choices of the model: the
write enters the pass path before the held reads that its step frees (notes/assumptions/35.md), and it counts as acted
upon for the fence of R19 whatever the step did (notes/assumptions/36.md). -/
def State.takeWrite (s : State) (t : Tag) (r : Request) (act : State → Request → State × Request) : State :=
  let x := act (s.popLane t) r
  (x.1.enterPass x.2 true).flow

/-- Take the front write of lane t as a unit of engine work of the kind that `fits` names (R9). -/
def State.takeStep (s : State) (t : Tag) (fits : StepFor → Request → Bool)
    (act : StepFor → State → Request → State × Request) : State :=
  let s := s.examine t
  match s.front t with
  | some (r, .step f) => if fits f r && s.admits f then s.takeWrite t r (act f) else s
  | some (_, .pass) => s
  | some (_, .consumedIndex _) => s
  | some (_, .mirrorCheck _) => s
  | none => s

/-- CONSUMED_INDEX_WRITE (R11, R143): one free own-write queue entry is enough. -/
def execConsumedIndexWrite (t : Tag) (s : State) : Host.Outcome State Fault Refusal :=
  let s1 := s.examine t
  .next (match s1.front t with
    | some (r, .consumedIndex v) =>
      if s1.working && decide (1 ≤ s1.freeEntries) then s1.takeWrite t r (fun s r => (s.handConsumed v, r)) else s1
    | some (_, .step _) => s1
    | some (_, .pass) => s1
    | some (_, .mirrorCheck _) => s1
    | none => s1)

/-! ## Intake rows (R59–R67) -/

/-- A message row takes messages of its kind, and those whose kind byte names no kind (notes/assumptions/6.md). -/
def fitsMessage (k : MsgKind) (f : StepFor) (r : Request) : Bool :=
  f.intake && messageForm r && (msgKind r.bytes == some k || msgKind r.bytes == none)

/-- What a message row does to the write it takes. A write of a message's form that is a step for the load window besides
is not the row's alone; it cannot be, since the areas do not overlap (R55). -/
def actMessage (route : State → Fin 16 → List Byte → Option Claimed) (f : StepFor) (s : State) (r : Request) :
    State × Request :=
  let x := s.judgeForm r (fun p => route s p r.bytes)
  (x.1.handOver f, x.2)

/-- GASP (R61, R64, R65, R72). -/
def execGasp (t : Tag) (s : State) : Host.Outcome State Fault Refusal :=
  .next (s.takeStep t (fitsMessage .gasp) (actMessage fun s p m =>
    s.routeTerminal p m (fun n e => s.claimGasp n e (causeOff m) (repeatTag m) (messageOrigin m))))

/-- LOSS (R61, R64, R65, R74). -/
def execLoss (t : Tag) (s : State) : Host.Outcome State Fault Refusal :=
  .next (s.takeStep t (fitsMessage .loss) (actMessage fun s p m =>
    s.routeTerminal p m (fun n e => s.claimLoss n e (messageOrigin m))))

/-- RESTORE (R61, R64, R65, R75, R79). -/
def execRestore (t : Tag) (s : State) : Host.Outcome State Fault Refusal :=
  .next (s.takeStep t (fitsMessage .restore) (actMessage fun s p m =>
    s.routeTerminal p m (fun n e => s.claimRestore n e (messageOrigin m))))

/-- PORT_DARK (R61, R64, R66, R112). -/
def execPortDark (t : Tag) (s : State) : Host.Outcome State Fault Refusal :=
  .next (s.takeStep t (fitsMessage .portDark) (actMessage fun s p m =>
    s.routePort p (s.claimDark p (messageOrigin m))))

/-- PORT_LIT (R61, R64, R66, R113). -/
def execPortLit (t : Tag) (s : State) : Host.Outcome State Fault Refusal :=
  .next (s.takeStep t (fitsMessage .portLit) (actMessage fun s p _ => s.routePort p (s.claimLit p)))

/-! ## HELD_READ (R14, R15) -/

/-- HELD_READ (R14, R15): the examination of a mirror read, and what it frees. -/
def execHeldRead (t : Tag) (s : State) : Host.Outcome State Fault Refusal :=
  let s1 := s.examine t
  .next (match s1.front t with
    | some (r, .mirrorCheck .presented) => (s1.examineRead t r).flow
    | some (_, .mirrorCheck .room) => s1
    | some (_, .mirrorCheck .behind) => s1
    | some (_, .mirrorCheck .again) => s1
    | some (_, .step _) => s1
    | some (_, .pass) => s1
    | some (_, .consumedIndex _) => s1
    | none => s1)

/-! ## UPSTREAM_REQUEST (R4) -/

/-- The upstream port accepts a request into its lane while the lane holds fewer than 4 (R4). -/
def State.accept (s : State) (r : Request) : State :=
  if (s.lane r.tag).reqs.length < Config.laneDepth then
    s.setLane r.tag { s.lane r.tag with reqs := (s.lane r.tag).reqs ++ [r] }
  else s

/-- UPSTREAM_REQUEST (R4, R8). An operand that is no bus request stops the model (R3; notes/assumptions/5.md). -/
def execUpstreamRequest (r : Request) (s : State) : Host.Outcome State Fault Refusal :=
  if r.wf then .next ((s.accept r).examine r.tag) else .fault .notARequest

/-! ## The downstream arbiter (R16, R17, R19) -/

/-- Candidate H: the lowest record the oldest held read still needs a write of (R16, R158). -/
def State.heldWrite (s : State) : Option Nat :=
  if s.mirrorOn then
    s.path.held.findSome? (fun h => (h.awaits.find? (fun x => x.2 == .needsWrite)).map (fun x => x.1))
  else none

/-- Candidate M: the next record of the drain (R157). -/
def State.drainNext (s : State) : Option Nat :=
  if s.mirrorOn then
    match s.mirror.dirty.find? (fun i => decide (s.mirror.cursor ≤ i)) with
    | some i => some i
    | none => s.mirror.dirty.head?
  else none

/-- An unanswered write the engine acted upon. -/
def Issued.actedPending : Issued → Option Request
  | .pass r true none => some r
  | .pass _ true (some _) => none
  | .pass _ false _ => none
  | .own _ _ => none
  | .mirror _ _ _ _ => none

/-- The writes the engine acted upon that memory has not answered (R19). -/
def State.actedWrites (s : State) : List Request :=
  (s.path.passPath.filter (fun e => e.acted)).map (fun e => e.req) ++ s.path.issued.filterMap Issued.actedPending

/-- The own write is HEAD_GASP, which the fence does not hold (R35; notes/assumptions/16.md). -/
def OwnWrite.isHeadGasp : OwnWrite → Bool
  | .report _ r =>
    match r.payload with
    | .headGasp _ _ _ => true
    | _ => false
  | .writeBack _ _ => false
  | .ack _ _ _ => false

/-- The fence holds an own write behind an overlapping write the engine acted upon (R19). -/
def State.fenced (s : State) (w : OwnWrite) : Bool :=
  !w.isHeadGasp && s.actedWrites.any (fun r => r.overlaps (s.ownRequest w).addr.toNat (s.ownRequest w).size)

/-- Candidate Q: the front entry of the own-write queue, unless the fence holds it (R16, R19). -/
def State.ownNext (s : State) : Option OwnWrite :=
  match s.rw.queue with
  | [] => none
  | w :: _ => if s.fenced w then none else some w

/-- A held read's wait after a mirror write of record i is granted, with k writes of it then in flight (R15, R158). -/
def HeldRead.granted (i k : Nat) (h : HeldRead) : HeldRead :=
  { h with awaits := h.awaits.map (fun x => if x.1 = i && x.2 == .needsWrite then (i, .answers k) else x) }

/-- A mirror write is granted (R151, R155): built, counted, issued, off the dirty set, in flight. -/
def State.grantMirror (s : State) (a : Anchor) (i : Nat) : State :=
  let count := s.mirror.counts.toArray.getD i 0 + 1
  { s with
    mirror := { s.mirror with dirty := s.mirror.dirty.erase i, counts := s.mirror.counts.setIfInBounds i count,
                              inFlight := s.mirror.inFlight ++ [i] },
    path := { s.path with passRun := 0,
                          issued := s.path.issued ++ [.mirror i (s.mirrorRequest a i count) false false],
                          held := s.path.held.map (HeldRead.granted i (s.mirror.inFlight.count i + 1)) } }

/-- A mirror write for the adopted anchor. -/
def State.grantRecord (s : State) (i : Nat) : State :=
  match s.ctl.anchor with
  | none => s
  | some a => s.grantMirror a i

/-- An M grant: the drain cursor follows, wrapping from 1281 to 0 (R157). -/
def State.grantDrain (s : State) (i : Nat) : State :=
  let s1 := s.grantRecord i
  { s1 with mirror := { s1.mirror with cursor := if i + 1 < Config.mirrorRecords then i + 1 else 0 } }

/-- A Q grant (R16, R18). -/
def State.grantOwn (s : State) (w : OwnWrite) : State :=
  { s with
    rw := { s.rw with queue := s.rw.queue.tail },
    path := { s.path with issued := s.path.issued ++ [.own (s.ownRequest w) false] } }

/-- A P grant and the pass-run count (R16, R17). -/
def State.grantPass (s : State) (e : PassEntry) : State :=
  { s with
    path := { s.path with passPath := s.path.passPath.tail, issued := s.path.issued ++ [.pass e.req e.acted none],
                          passRun := if s.mirror.dirty.isEmpty then s.path.passRun
                            else min (s.path.passRun + 1) Config.passRunMax } }

/-- Ranks 5 and 6 of TABLE 1-10. -/
def State.grantRest (s : State) : State :=
  match s.ownNext, s.drainNext with
  | some w, _ => s.grantOwn w
  | none, some i => s.grantDrain i
  | none, none => s

/-- Ranks 4 to 6 of TABLE 1-10. -/
def State.grantPassFirst (s : State) : State :=
  match s.path.passPath with
  | e :: _ => s.grantPass e
  | [] => s.grantRest

/-- Ranks 3 to 6 of TABLE 1-10. -/
def State.grantOwnFirst (s : State) : State :=
  match s.ownNext with
  | some w => if Config.queueHigh ≤ s.rw.queue.length then s.grantOwn w else s.grantPassFirst
  | none => s.grantPassFirst

/-- One grant by TABLE 1-10; while RESET_N is asserted the pass path alone (R21). -/
def State.grant (s : State) : State :=
  if s.inReset then
    match s.path.passPath with
    | e :: _ => s.grantPass e
    | [] => s
  else
    match s.heldWrite, s.drainNext with
    | some i, _ => s.grantRecord i
    | none, some i => if s.path.passRun = Config.passRunMax then s.grantDrain i else s.grantOwnFirst
    | none, none => s.grantOwnFirst

/-- DOWNSTREAM_GRANT (R16). -/
def execDownstreamGrant (s : State) : Host.Outcome State Fault Refusal := .next s.grant

/-! ## Memory's answers (R5, R15, R19, R20, R159) -/

/-- Record memory's answer to the n-th passing request still unanswered; its tag with the list. -/
def answerPass (resp : Resp) (data : List Byte) : Nat → List Issued → Option (Tag × List Issued)
  | _, [] => none
  | 0, .pass r acted none :: rest => some (r.tag, .pass r acted (some (resp, if r.isWrite then [] else data)) :: rest)
  | n + 1, .pass r acted none :: rest =>
    (answerPass resp data n rest).map (fun x => (x.1, .pass r acted none :: x.2))
  | n, .pass r acted (some x) :: rest =>
    (answerPass resp data n rest).map (fun y => (y.1, .pass r acted (some x) :: y.2))
  | n, .own r a :: rest => (answerPass resp data n rest).map (fun x => (x.1, .own r a :: x.2))
  | n, .mirror i r st a :: rest => (answerPass resp data n rest).map (fun x => (x.1, .mirror i r st a :: x.2))

/-- The responses of tag t that may be returned, in the order of its requests, and what stays (R5). -/
def returnable (t : Tag) : List Issued → List Response × List Issued
  | [] => ([], [])
  | .pass r acted ans :: rest =>
    if r.tag = t then
      match ans with
      | none => ([], .pass r acted ans :: rest)
      | some (resp, data) => ({ tag := t, resp := resp, data := data } :: (returnable t rest).1, (returnable t rest).2)
    else ((returnable t rest).1, .pass r acted ans :: (returnable t rest).2)
  | .own r a :: rest => ((returnable t rest).1, .own r a :: (returnable t rest).2)
  | .mirror i r st a :: rest => ((returnable t rest).1, .mirror i r st a :: (returnable t rest).2)

/-- Memory answers the n-th unanswered passing request (R5). -/
def State.memoryAnswer (s : State) (n : Nat) (resp : Resp) (data : List Byte) : State :=
  match answerPass resp data n s.path.issued with
  | none => s
  | some (t, l) =>
    { s with path := { s.path with issued := (returnable t l).2, responses := (returnable t l).1 } }

/-- MEMORY_RESPONSE (R5, R19). -/
def execMemoryResponse (n : Nat) (resp : Resp) (data : List Byte) (s : State) : Host.Outcome State Fault Refusal :=
  .next (s.memoryAnswer n resp data)

/-- Take the n-th own write out of the issued requests: whether it is absorbed, and the rest. -/
def takeOwn : Nat → List Issued → Option (Bool × List Issued)
  | _, [] => none
  | 0, .own _ a :: rest => some (a, rest)
  | n + 1, .own r a :: rest => (takeOwn n rest).map (fun x => (x.1, .own r a :: x.2))
  | n, .pass r acted ans :: rest => (takeOwn n rest).map (fun x => (x.1, .pass r acted ans :: x.2))
  | n, .mirror i r st a :: rest => (takeOwn n rest).map (fun x => (x.1, .mirror i r st a :: x.2))

/-- An ERROR answer to an own write is counted (R20). -/
def State.countIfError (s : State) (resp : Resp) : State :=
  match resp with
  | .ok => s
  | .error => s.countFailedWrite

/-- Memory answers the n-th own write; an answer absorbed has no effect (R20, R21). -/
def State.ownAnswer (s : State) (n : Nat) (resp : Resp) : State :=
  match takeOwn n s.path.issued with
  | none => s
  | some (absorbed, l) =>
    let s1 := { s with path := { s.path with issued := l } }
    if absorbed then s1 else s1.countIfError resp

/-- OWN_WRITE_ERROR (R20, R149). -/
def execOwnWriteError (n : Nat) (resp : Resp) (s : State) : Host.Outcome State Fault Refusal := .next (s.ownAnswer n resp)

/-- Take the n-th mirror write out of the issued requests: its index, whether stale, whether absorbed, and the rest. -/
def takeMirror : Nat → List Issued → Option ((Nat × Bool × Bool) × List Issued)
  | _, [] => none
  | 0, .mirror i _ st a :: rest => some ((i, st, a), rest)
  | n + 1, .mirror i r st a :: rest => (takeMirror n rest).map (fun x => (x.1, .mirror i r st a :: x.2))
  | n, .pass r acted ans :: rest => (takeMirror n rest).map (fun x => (x.1, .pass r acted ans :: x.2))
  | n, .own r a :: rest => (takeMirror n rest).map (fun x => (x.1, .own r a :: x.2))

/-- One wait after an answer to a mirror write of record i: gone once it has counted down (R15). -/
def awaitAnswered (i : Nat) (x : Nat × Await) : Option (Nat × Await) :=
  match x.2 with
  | .needsWrite => some x
  | .answers k => if x.1 = i then if k ≤ 1 then none else some (i, .answers (k - 1)) else some x

/-- A held read's waits after an answer to a mirror write of record i. -/
def HeldRead.answered (i : Nat) (h : HeldRead) : HeldRead := { h with awaits := h.awaits.filterMap (awaitAnswered i) }

/-- A fresh mirror write of record i is answered: off the in-flight list, and held reads awaiting it served (R15). -/
def State.recordAnswered (s : State) (i : Nat) : State :=
  { s with
    mirror := { s.mirror with inFlight := s.mirror.inFlight.erase i },
    path := { s.path with held := s.path.held.map (HeldRead.answered i) } }

/-- Memory answers the n-th mirror write (R159): one issued before a re-adoption only counts an ERROR, one issued
before a pin reset does nothing. -/
def State.mirrorAnswer (s : State) (n : Nat) (resp : Resp) : State :=
  match takeMirror n s.path.issued with
  | none => s
  | some ((i, stale, absorbed), l) =>
    let s1 := { s with path := { s.path with issued := l } }
    if absorbed then s1
    else if stale then s1.countIfError resp
    else ((s1.countIfError resp).recordAnswered i).flow

/-- MIRROR_WRITE_RESPONSE (R15, R159). -/
def execMirrorWriteResponse (n : Nat) (resp : Resp) (s : State) : Host.Outcome State Fault Refusal :=
  .next (s.mirrorAnswer n resp)

end Sys2Proof.Machine
end

