-- ==== Sys2Proof/Machine/Anchor.lean ====
section
/-! DEFINITION. Engine control (spec/02): examining and adopting an anchor block, HOLDUP_LOW, pin reset; and the meanings
of those rows. -/

namespace Sys2Proof.Machine

/-! ## The anchor block (R23–R28) -/

/-- Place an acknowledgement of an anchor write from tag t (R18, R28, R188). -/
def State.acknowledge (s : State) (t : Tag) (w : AckWord) : State :=
  s.enqueue (.ack (s.ctl.anchorAddr + 56) w t)

/-- The areas of the intake rings in force (R24). -/
def State.ringAreas (s : State) : List (Nat × Nat) :=
  (List.finRange 16).filterMap (fun p => (s.ring p).map Ring.area)

/-- The report writer adopts a new ring (R25, R26, R138). -/
def ReportWriter.adoptRing (w : ReportWriter) (slots : Nat) : ReportWriter :=
  { w with produced := w.nextSeq.toNat % slots, consumed := w.nextSeq.toNat % slots, occupancy := 0, stalled := false }

/-- An outstanding mirror write after a re-adoption: its answer will remove nothing (R159). -/
def Issued.outdate : Issued → Issued
  | .mirror i r _ a => .mirror i r true a
  | .pass r acted ans => .pass r acted ans
  | .own r a => .own r a

/-- A held read that awaits nothing any more (R21, R26). -/
def HeldRead.satisfy (h : HeldRead) : HeldRead := { h with awaits := [] }

/-- The adopted fields, the mode, the ring, the mirror and the held reads of an adoption (R25, R26, R156). -/
def State.adoptFields (s : State) (a : Anchor) : State :=
  { s with
    ctl := { s.ctl with mode := .attached, anchor := some a },
    rw := s.rw.adoptRing a.ringSlots,
    mirror := { s.mirror with inFlight := [] },
    path := { s.path with held := s.path.held.map HeldRead.satisfy, issued := s.path.issued.map Issued.outdate } }.markAll

/-- Remove the start mark (R25). -/
def State.dropStartMark (s : State) : State := { s with ctl := { s.ctl with startMark := false } }

/-- Adoption or re-adoption of a valid block written from tag t (R25, R26). -/
def State.adopt (s : State) (a : Anchor) (t : Tag) : State :=
  let s1 := s.adoptFields a
  let s2 := s1.acknowledge t { adopted := true, reason := .none, firstSlot := s1.rw.produced }
  (s2.makeSync { started := s.ctl.startMark, resumed := s.rw.stalled } engineOrigin).1.dropStartMark

/-- A refusal's acknowledgement (R27, R188). -/
def State.refuseAnchor (s : State) (t : Tag) (reason : AckReason) : State :=
  s.acknowledge t { adopted := false, reason := reason, firstSlot := 0 }

/-- The checks of TABLE 2-2 and what they lead to (R24–R27). -/
def State.checkAnchor (s : State) (r : Request) : State :=
  match anchorFault s.ctl.anchorAddr s.ringAreas r.bytes with
  | some reason => s.refuseAnchor r.tag reason
  | none => s.adopt (anchorOf r.bytes) r.tag

/-- An anchor write in LOADING or RUNNING: examined, not checked (R27). -/
def State.ignoreAnchor (s : State) (r : Request) : State :=
  (s.refuseAnchor r.tag .busyMode).makeReport { origin := engineOrigin, subject := none, payload := .anchorIgnored }

/-- The examination of an anchor write (R23–R27). -/
def State.examineAnchor (s : State) (r : Request) : State :=
  match s.ctl.mode with
  | .detached => s.checkAnchor r
  | .attached => s.checkAnchor r
  | .loading => s.ignoreAnchor r
  | .running => s.ignoreAnchor r
  | .halted => s

/-- ANCHOR_WRITE (R23). -/
def execAnchorWrite (t : Tag) (s : State) : Host.Outcome State Fault Refusal :=
  .next (s.takeStep t (fun f _ => f.anchor) (fun _ s r => (s.examineAnchor r, r)))

/-! ## HOLDUP_LOW (R35–R37) -/

/-- The entry of the in-progress list for a slot address (R165). -/
def State.progress (s : State) (addr : Addr) : Option InProgress := s.cmd.inProgress.find? (fun e => e.addr == addr)

/-- Take a slot's entry off the in-progress list. -/
def State.endProgress (s : State) (addr : Addr) : State :=
  { s with cmd := { s.cmd with inProgress := s.cmd.inProgress.filter (fun e => e.addr != addr) } }

/-- The final write-back of a command in progress; its entry leaves the list (R162, R165). -/
def State.finalWriteBack (s : State) (addr : Addr) (st : SlotState) (code : Code) (data : Nat) : State :=
  match s.progress addr with
  | none => s
  | some e => (s.writeBack addr e.slot st code e.overwritten data).endProgress addr

/-- The command that made the unit BUSY is abandoned; the unit becomes IDLE (R36, R164, R175). -/
def State.abandonBusy (s : State) : State :=
  match s.cmd.unit with
  | .busy _ addr _ => (s.finalWriteBack addr .failed .halted 0).setUnit .idle
  | .actions => s.setUnit .idle
  | .idle => s

/-- The mode becomes HALTED and the holdup mark the asserted level (R35, R37). The change of mode marks the engine summary
in DETACHED as well: the model's choice (notes/assumptions/37.md). -/
def State.halt (s : State) : State :=
  let s1 := s.putMode .halted
  { s1 with ctl := { s1.ctl with holdupMark := true } }

/-- Stop the burst timer (R36, R43, R44). -/
def State.stopBurst (s : State) : State := { s with loader := { s.loader with burst := none } }

/-- HOLDUP_LOW taken in ATTACHED, LOADING or RUNNING (R35, R36). -/
def State.takeHoldup (s : State) : State := (s.placeHeadGasp.halt.stopBurst).abandonBusy

/-- HOLDUP_LOW_ASSERTION (R35–R37); in HALTED and while RESET_N is asserted it has no effect. -/
def execHoldupLowAssertion (s : State) : Host.Outcome State Fault Refusal :=
  .next (if s.inReset then s
    else
      match s.ctl.mode with
      | .halted => s
      | .detached => s.halt
      | .attached => s.takeHoldup
      | .loading => s.takeHoldup
      | .running => s.takeHoldup)

/-! ## Pin reset (R21, R30) -/

/-- An outstanding own or mirror write at the assertion of RESET_N: its answer is absorbed (R21). -/
def Issued.absorb : Issued → Issued
  | .own r _ => .own r true
  | .mirror i r st _ => .mirror i r st true
  | .pass r acted ans => .pass r acted ans

/-- A lane whose front is to be classified afresh. -/
def Lane.reopen (l : Lane) : Lane := { l with outcome := none }

/-- What the assertion of RESET_N changes before the held requests pass (R21, R132, R160). The in-flight list is emptied
here, with the dirty set; R160 gives it empty at the release and does not say when it empties: the model's choice
(notes/assumptions/45.md). -/
def State.enterReset (s : State) : State :=
  { s with
    inReset := true,
    corr := { s.corr with stormIn := false },
    rw := { s.rw with queue := [] },
    mirror := { s.mirror with dirty := [], inFlight := [] },
    path := { s.path with passRun := 0, lanes := s.path.lanes.map Lane.reopen,
                          held := s.path.held.map HeldRead.satisfy, issued := s.path.issued.map Issued.absorb } }

/-- RESET_N_ASSERTION (R21). -/
def execResetNAssertion (s : State) : Host.Outcome State Fault Refusal :=
  .next (if s.inReset then s else s.enterReset.flow)

/-- Engine control at the release of RESET_N (R23, R30). -/
def Control.released (straps : Straps) : Control :=
  if straps.holdupLow then
    { Control.reset (strapAddress straps.anchorSel) with mode := .halted, holdupMark := true }
  else Control.reset (strapAddress straps.anchorSel)

/-- The path unit at the release of RESET_N: what is under way stays (R21). -/
def Path.released (p : Path) : Path :=
  { p with lanes := p.lanes.map Lane.reopen, held := [], passRun := 0 }

/-- The whole part at the release of RESET_N (R30). With HOLDUP_LOW asserted the mode is HALTED and the dirty set is still
empty: the model's choice (notes/assumptions/38.md). -/
def State.released (s : State) (straps : Straps) : State :=
  { State.reset with
    pending := s.pending, ctl := Control.released straps, path := s.path.released,
    cmd := CommandUnit.reset straps.lineA straps.lineB }

/-- RESET_N_RELEASE (R21, R30). -/
def execResetNRelease (straps : Straps) (s : State) : Host.Outcome State Fault Refusal :=
  .next (if s.inReset then (s.released straps).flow else s)

end Sys2Proof.Machine
end

