-- ==== Sys2Proof/Machine/MapLoad.lean ====
section
/-! DEFINITION. The map store and loader (spec/03) and the clearing of RESTART (spec/02, section 2.4): capturing a load,
the burst timer, the check, activation, and the clearings and completions; and the meanings of those rows. -/

namespace Sys2Proof.Machine

/-! ## Capturing (R40, R42) -/

/-- The bytes a beat stores: disabled bytes are zero (R42). -/
def Beat.stored (b : Beat) : List Byte :=
  (List.finRange 8).map (fun j => if b.enable.getLsbD j.val then b.data[j.val] else 0)

/-- The running CRC after one byte at image position k; the CRC field counts as zero (R40). -/
def crcStep (c : BitVec 32) (k : Nat) (b : Byte) : BitVec 32 := crc32Byte c (if 16 ≤ k ∧ k < 20 then 0 else b)

/-- The running CRC after a run of bytes from image position k on. -/
def crcRun (c : BitVec 32) (k : Nat) : List Byte → BitVec 32
  | [] => c
  | b :: bs => crcRun (crcStep c k b) (k + 1) bs

/-- Overwrite a buffer from position k on; what lies further on stays (R41). -/
def overwrite (buf : List Byte) (k : Nat) (bs : List Byte) : List Byte := buf.take k ++ bs ++ buf.drop (k + bs.length)

/-- One beat inside the window (R42). -/
def Loader.captureBeat (l : Loader) (b : Beat) : Loader :=
  if l.pointer < l.declared then
    { l with capture := overwrite l.capture l.pointer (Beat.stored b), crc := crcRun l.crc l.pointer (Beat.stored b),
             pointer := l.pointer + 8 }
  else { l with overlong := true }

/-- The beats of a write that lie inside the window, in ascending order (R42). -/
def windowBeats (a : Anchor) (r : Request) : List Beat :=
  (r.beats.zipIdx.filter (fun x =>
    decide (a.windowBase.toNat ≤ r.addr.toNat + 8 * x.2) &&
      decide (r.addr.toNat + 8 * x.2 + 8 ≤ a.windowBase.toNat + windowSize))).map (fun x => x.1)

/-- The burst timer's deadline as it starts or restarts now (R41, R42). -/
def State.burstEnd (s : State) : Time := after s.time (100 * s.loader.timeout)

/-- A MAP_END check is under way or ended and not completed: the capture is closed (R42, R44). -/
def UnitState.checking : UnitState → Bool
  | .busy (.mapEnd _ _) _ _ => true
  | .busy (.restart _) _ _ => false
  | .busy (.unmap _) _ _ => false
  | .idle => false
  | .actions => false

/-- A load-window write captured (R42). -/
def State.captureWrite (s : State) (r : Request) : State :=
  match s.ctl.anchor with
  | none => s
  | some a =>
    if s.ctl.mode != .loading || s.cmd.unit.checking then s
    else { s with loader := { (windowBeats a r).foldl Loader.captureBeat s.loader with burst := some s.burstEnd } }

/-- LOAD_WINDOW_WRITE (R42). A write that is a step for a ring besides is judged first (notes/assumptions/18.md). -/
def execLoadWindowWrite (t : Tag) (s : State) : Host.Outcome State Fault Refusal :=
  .next (s.takeStep t (fun f _ => f.window) (fun f s r =>
    let x := if f.intake then s.judgeWrite r else (s, r)
    ((x.1.captureWrite r).handOver f, x.2)))

/-- MALFORMED (R60). A write that is a step for the load window besides is captured too (notes/assumptions/18.md). -/
def execMalformed (t : Tag) (s : State) : Host.Outcome State Fault Refusal :=
  .next (s.takeStep t (fun f r => f.intake && !messageForm r) (fun f s r =>
    let s1 := s.judgeMalformed r
    ((if f.window then s1.captureWrite r else s1).handOver f, r)))

/-! ## The end of a load (R43, R46, R50) -/

/-- The load ends: burst timer stopped, capture discarded, pointer 0, overlong mark clear (R43, R46, R47, R50). -/
def State.dropLoad (s : State) : State :=
  { s with loader := { s.loader with capture := [], pointer := 0, overlong := false, burst := none } }

/-- A COMMAND_DONE (R135). -/
def doneDraft (tag : BitVec 16) (k : Kind) (c : Code) (data : Nat) : Draft :=
  { origin := { source := .command, word := tag.setWidth 32 }, subject := none, payload := .commandDone k c data }

/-- A COMMAND_DONE where completion reports are on (R135). -/
def State.reportDone (s : State) (slot : List Byte) (k : Kind) (c : Code) (data : Nat) : State :=
  match s.ctl.anchor with
  | none => s
  | some a => if a.completionReports then s.makeReport (doneDraft (slotTag slot) k c data) else s

/-- BURST_TIMER_EXPIRY (R43). -/
def execBurstTimerExpiry (s : State) : Host.Outcome State Fault Refusal :=
  .next (if s.ready && s.ctl.mode == .loading && due s.time s.loader.burst then
      (s.dropLoad.putMode .attached).makeReport (doneDraft s.loader.tag .mapBegin .timeout 0)
    else s)

/-! ## Leaving BUSY (R164) -/

/-- The unit enters ACTIONS if a due action waits, and IDLE otherwise (R164). -/
def State.leaveBusy (s : State) : State := s.setUnit (if s.cmd.due.isEmpty then .idle else .actions)

/-- The slot of a command in progress, as received. -/
def State.progressSlot (s : State) (addr : Addr) : List Byte :=
  match s.progress addr with
  | none => []
  | some e => e.slot

/-- The earliest T1 of a check or clearing has come: 1 ms after its taking (TABLE 2-5, 3-3, 3-5). -/
def State.workDone (s : State) (since : Time) : Bool := s.working && reached s.time (after since 1)

/-! ## Activation (R47) -/

/-- A mapped terminal's record at activation (R47). -/
def Terminal.activated (now : Time) : Terminal := { Terminal.unlisted with state := .up, lastChange := now }

/-- The terminal records at activation: those below the terminal count become UP (R47). -/
def State.activatedTerms (s : State) (count : Nat) : Vector Terminal 1024 :=
  Vector.ofFn (fun n : Fin 1024 => if n.val < count then Terminal.activated s.time else s.term n)

/-- Every group record CLEAR and empty (R47, R93). -/
def clearedGroups : Vector Group 240 := Vector.replicate 240 Group.idle

/-- Every terminal and group record set afresh, the storm state OUT without a report (R33, R47, R52). -/
def State.setRecords (s : State) (terms : Vector Terminal 1024) : State :=
  { s with table := { s.table with terms := terms },
           corr := { s.corr with groups := clearedGroups, stormIn := false } }

/-- Activation of a map: records, the capture discarded, RUNNING, the whole mirror marked (R47, R49). -/
def State.activate (s : State) (m : BuildingMap) : State :=
  (({ s with map := some m }.setRecords (s.activatedTerms m.terminals.length)).dropLoad.setMode .running).markAll

/-- The reports of a successful MAP_END: SYNC with MAP_ACTIVE, COMMAND_DONE (R48). -/
def State.reportActivation (s : State) (slot : List Byte) (count : Nat) : State :=
  ((s.makeSync { mapActive := true } engineOrigin).1).reportDone slot .mapEnd .done count

/-! ## MAP_END's check and completion (R44–R48) -/

/-- MAP_CHECK_END: the check ends with its outcome decided (R44, R45). -/
def execMapCheckEnd (s : State) : Host.Outcome State Fault Refusal :=
  .next (match s.cmd.unit with
    | .busy (.mapEnd expected none) addr since =>
      if s.workDone since then s.setUnit (.busy (.mapEnd expected (some (checkImage s.loader expected))) addr since)
      else s
    | .busy (.mapEnd _ (some _)) _ _ => s
    | .busy (.restart _) _ _ => s
    | .busy (.unmap _) _ _ => s
    | .idle => s
    | .actions => s)

/-- The completion of a check that passed (R47, R48). -/
def State.completeLoad (s : State) (addr : Addr) (m : BuildingMap) : State :=
  let n := m.terminals.length
  (((s.activate m).reportActivation (s.progressSlot addr) n).finalWriteBack addr .done .done n).leaveBusy

/-- The completion of a check that failed (R46). The mode changes before the reports are made: the model's choice
(notes/assumptions/39.md). -/
def State.failLoad (s : State) (addr : Addr) (c : MapFail) : State :=
  (((s.dropLoad.putMode .attached).reportDone (s.progressSlot addr) .mapEnd .failed c.code).finalWriteBack addr
    .failed .failed c.code).leaveBusy

/-- MAP_END_COMPLETION (R46–R48). -/
def execMapEndCompletion (s : State) : Host.Outcome State Fault Refusal :=
  .next (match s.cmd.unit with
    | .busy (.mapEnd _ (some (.passed m))) addr _ => if s.ready then s.completeLoad addr m else s
    | .busy (.mapEnd _ (some (.failed c))) addr _ => if s.ready then s.failLoad addr c else s
    | .busy (.mapEnd _ none) _ _ => s
    | .busy (.restart _) _ _ => s
    | .busy (.unmap _) _ _ => s
    | .idle => s
    | .actions => s)

/-! ## Emptying the stores of spec/11 (R176, R187) -/

/-- Every deferred entry is discarded, leaving the in-progress list without a write-back; a due head leaves the due list
with it (R165, R176, R187). -/
def State.flushDeferred (s : State) : State :=
  { s with cmd := { s.cmd with
      inProgress := s.cmd.inProgress.filter (fun e => !s.cmd.deferred.any (fun d => d.addr == e.addr)),
      deferred := [], due := s.cmd.due.filter (fun a => a != .deferred) } }

/-- A line's list emptied: no run pending, absorbed count 0 (R182, R187). -/
def LineUnit.emptied (u : LineUnit) : LineUnit := { u with actions := [], runPending := false, absorbed := 0 }

/-- Both line lists emptied, waiting runs discarded (R52, R187). -/
def State.emptyLines (s : State) : State :=
  { s with cmd := { s.cmd with lineA := s.cmd.lineA.emptied, lineB := s.cmd.lineB.emptied,
                               due := s.cmd.due.filter (fun a => a == .deferred) } }

/-! ## UNMAP (R51, R52) -/

/-- A terminal record at the clearing of UNMAP: UNLISTED, its last change time kept (R70, R52). -/
def Terminal.unmapped (t : Terminal) : Terminal := { Terminal.unlisted with lastChange := t.lastChange }

/-- Whether mirror record i shows or holds something else than it did (R70, R93; notes/assumptions/24.md). -/
def State.recordChanged (old new : State) (i : Nat) : Bool :=
  if i < 1024 then old.term (Fin.ofNat 1024 i) != new.term (Fin.ofNat 1024 i)
  else if i < 1264 then
    old.group (groupOfRecord i) != new.group (groupOfRecord i) ||
      old.groupBytes (groupOfRecord i) != new.groupBytes (groupOfRecord i)
  else i == Config.summaryRecord

/-- Mark the records that differ from an earlier state's, and the engine summary. -/
def State.markChanged (new old : State) : State :=
  ((List.range Config.mirrorRecords).filter (State.recordChanged old new)).foldl State.mark new

/-- The changes of UNMAP at T1 (R52). -/
def State.clearMap (s : State) : State :=
  ((({ s with map := none }.setRecords (s.table.terms.map Terminal.unmapped)).flushDeferred).emptyLines).markChanged s

/-- UNMAP_CLEARING: the clearing ends (R52). -/
def execUnmapClearing (s : State) : Host.Outcome State Fault Refusal :=
  .next (match s.cmd.unit with
    | .busy (.unmap false) addr since =>
      if s.workDone since then s.clearMap.setUnit (.busy (.unmap true) addr since) else s
    | .busy (.unmap true) _ _ => s
    | .busy (.mapEnd _ _) _ _ => s
    | .busy (.restart _) _ _ => s
    | .idle => s
    | .actions => s)

/-- UNMAP's completion (R52). -/
def State.completeUnmap (s : State) (addr : Addr) : State :=
  ((((s.setMode .attached).markAll).reportDone (s.progressSlot addr) .unmap .done 0).finalWriteBack addr .done .done
    0).leaveBusy

/-- UNMAP_COMPLETION (R52). -/
def execUnmapCompletion (s : State) : Host.Outcome State Fault Refusal :=
  .next (match s.cmd.unit with
    | .busy (.unmap true) addr _ => if s.ready then s.completeUnmap addr else s
    | .busy (.unmap false) _ _ => s
    | .busy (.mapEnd _ _) _ _ => s
    | .busy (.restart _) _ _ => s
    | .idle => s
    | .actions => s)

/-! ## RESTART (R31–R34) -/

/-- The terminal records at the clearing of RESTART: mapped terminals at their activation values (R33). -/
def State.restartedTerms (s : State) : Vector Terminal 1024 := s.activatedTerms s.entries.length

/-- The changes of RESTART in RUNNING at T1; in ATTACHED there are none left (R33). -/
def State.clearRecords (s : State) : State :=
  if s.ctl.mode = .running then ((s.setRecords s.restartedTerms).flushDeferred).markAll else s

/-- RESTART_CLEARING: the clearing ends (R33). -/
def execRestartClearing (s : State) : Host.Outcome State Fault Refusal :=
  .next (match s.cmd.unit with
    | .busy (.restart false) addr since =>
      if s.workDone since then s.clearRecords.setUnit (.busy (.restart true) addr since) else s
    | .busy (.restart true) _ _ => s
    | .busy (.mapEnd _ _) _ _ => s
    | .busy (.unmap _) _ _ => s
    | .idle => s
    | .actions => s)

/-- RESTART's completion (R34). -/
def State.completeRestart (s : State) (addr : Addr) : State :=
  ((((s.makeSync { restarted := true } engineOrigin).1).reportDone (s.progressSlot addr) .restart .done 0).finalWriteBack
    addr .done .done 0).leaveBusy

/-- RESTART_COMPLETION (R34). -/
def execRestartCompletion (s : State) : Host.Outcome State Fault Refusal :=
  .next (match s.cmd.unit with
    | .busy (.restart true) addr _ => if s.ready then s.completeRestart addr else s
    | .busy (.restart false) _ _ => s
    | .busy (.mapEnd _ _) _ _ => s
    | .busy (.unmap _) _ _ => s
    | .idle => s
    | .actions => s)

end Sys2Proof.Machine
end

