-- ==== Sys2Proof/Machine/Commands.lean ====
section
/-! DEFINITION. The command unit (spec/10): the tests of TABLE 10-2, what each command kind does, deferring and line
registration (spec/11); and the meanings of the slot command rows. -/

namespace Sys2Proof.Machine

/-! ## The kinds (TABLE 10-3) -/

/-- Deferrable kinds (TABLE 10-3). -/
def Kind.deferrable : Kind → Bool
  | .setWindows => true | .setThresholds => true | .setFlap => true | .setStorm => true | .setReporting => true
  | .arm => true | .setSync => true | .forceSync => true | .mute => true | .unmute => true
  | .setIntake => false | .clearIntake => false | .seed => false | .mapBegin => false | .mapEnd => false
  | .mapAbort => false | .unmap => false | .restart => false | .dropAction => false | .queueFlush => false

/-- Modes in which commands are taken: ATTACHED, LOADING, RUNNING (R161). -/
def Mode.takesCommands : Mode → Bool
  | .attached => true | .loading => true | .running => true | .detached => false | .halted => false

/-- The modes of a kind with placement NOW (TABLE 10-3). -/
def Kind.inMode (k : Kind) (m : Mode) : Bool :=
  match k with
  | .setIntake => m == .attached || m == .running
  | .clearIntake => m == .attached || m == .running
  | .setWindows => m.takesCommands
  | .setThresholds => m.takesCommands
  | .setFlap => m.takesCommands
  | .setStorm => m.takesCommands
  | .setReporting => m.takesCommands
  | .arm => m.takesCommands
  | .setSync => m.takesCommands
  | .forceSync => m == .attached || m == .running
  | .mute => m == .running
  | .unmute => m == .running
  | .seed => m == .running
  | .mapBegin => m == .attached || m == .loading
  | .mapEnd => m == .attached || m == .loading
  | .mapAbort => m == .loading
  | .unmap => m == .running
  | .restart => m == .attached || m == .running
  | .dropAction => m.takesCommands
  | .queueFlush => m.takesCommands

/-! ## Parameters (TABLE 13-4) and test 7 -/

/-- A value lies in a range, both ends included. -/
def inRange (lo hi v : Nat) : Bool := decide (lo ≤ v) && decide (v ≤ hi)

/-- Parameters of SET_INTAKE: base, slot count (TABLE 13-4). -/
def intakeBase (b : List Byte) : Nat := leAt b 11 5
/-- Slot count of a SET_INTAKE. -/
def intakeSlots (b : List Byte) : Nat := leAt b 16 2

/-- The treatment a SET_INTAKE names, if any. -/
def intakeTreatment (b : List Byte) : Option Treatment :=
  match byteAt b 19 with
  | 1 => some .observe
  | 2 => some .claim
  | _ => none

/-- Test 1 of R56. -/
def setIntakeOk (b : List Byte) : Bool :=
  inRange 0 15 (byteAt b 10) && intakeBase b % 64 == 0 && powerOfTwoIn (intakeSlots b) 2 12 && inRange 0 31 (byteAt b 18) &&
    (intakeTreatment b).isSome && decide (intakeBase b + 16 * intakeSlots b ≤ addrTop)

/-- Ranges and order of SET_WINDOWS (R168, TABLE 10-4). -/
def setWindowsOk (b : List Byte) : Bool :=
  inRange 0 2000 (leAt b 10 2) && inRange 100 10000 (leAt b 12 2) && inRange 100 30000 (leAt b 14 2) &&
    inRange 100 30000 (leAt b 16 2) && inRange 100 30000 (leAt b 18 2) && inRange 100 30000 (leAt b 20 2) &&
    inRange 0 60000 (leAt b 22 2) && decide (leAt b 14 2 ≤ leAt b 16 2) && decide (leAt b 16 2 ≤ leAt b 18 2)

/-- Ranges and order of SET_THRESHOLDS (R169, TABLE 10-4). -/
def setThresholdsOk (b : List Byte) : Bool :=
  (List.range 4).all (fun k => inRange 1 100 (byteAt b (10 + k)) && inRange 0 99 (byteAt b (14 + k)) &&
    decide (byteAt b (14 + k) < byteAt b (10 + k))) && inRange 2 32 (byteAt b 18) && inRange 2 32 (byteAt b 19)

/-- Ranges of SET_FLAP (R170, TABLE 10-4). -/
def setFlapOk (b : List Byte) : Bool :=
  inRange 2 15 (byteAt b 10) && inRange 1 600 (leAt b 12 2) && inRange 10 3600 (leAt b 14 2)

/-- Ranges and order of SET_STORM (R171, TABLE 10-4). -/
def setStormOk (b : List Byte) : Bool := inRange 1 1024 (leAt b 10 2) && decide (leAt b 12 2 < leAt b 10 2)

/-- The storm mode a SET_REPORTING names, if any. -/
def slotStormMode (b : List Byte) : Option StormMode :=
  match byteAt b 10 with
  | 1 => some .single
  | 2 => some .every
  | _ => none

/-- The brownout mode a SET_REPORTING names, if any. -/
def slotBrownoutMode (b : List Byte) : Option BrownoutMode :=
  match byteAt b 11 with
  | 0 => some .none
  | 1 => some .single
  | 2 => some .every
  | _ => none

/-- The off-report choice a SET_REPORTING names, if any. -/
def slotOffReports (b : List Byte) : Option Bool :=
  match byteAt b 12 with
  | 0 => some false
  | 1 => some true
  | _ => none

/-- Values of SET_REPORTING (R171). -/
def setReportingOk (b : List Byte) : Bool :=
  (slotStormMode b).isSome && (slotBrownoutMode b).isSome && (slotOffReports b).isSome

/-- Range of SET_SYNC (R172). -/
def setSyncOk (b : List Byte) : Bool := inRange 16 1024 (leAt b 10 2)

/-- The terminal a command names (R173). -/
def slotTerminal (b : List Byte) : Fin 1024 := Fin.ofNat 1024 (leAt b 10 2)

/-- The number of a terminal command is in range (R173). -/
def terminalOk (b : List Byte) : Bool := inRange 0 1023 (leAt b 10 2)

/-- The target state a SEED names, if any (R90, TABLE 13-6). -/
def seedTarget (b : List Byte) : Option TState :=
  match byteAt b 12 with
  | 1 => some .up
  | 4 => some .downFibre
  | 5 => some .downPower
  | 6 => some .downOff
  | _ => none

/-- Ranges of MAP_BEGIN (R41). -/
def mapBeginOk (b : List Byte) : Bool :=
  inRange 32 4448 (leAt b 10 2) && leAt b 10 2 % 8 == 0 && inRange 1 63 (byteAt b 12)

/-- The line a DROP_ACTION names, if any (R174). -/
def slotLine (b : List Byte) : Option Line :=
  match byteAt b 10 with
  | 0 => some .a
  | 1 => some .b
  | _ => none

/-- Test 7 of TABLE 10-2; a MAP_BEGIN in LOADING is exempt (R41). -/
def paramsOk (k : Kind) (m : Mode) (b : List Byte) : Bool :=
  match k with
  | .setIntake => setIntakeOk b
  | .clearIntake => inRange 0 15 (byteAt b 10)
  | .setWindows => setWindowsOk b
  | .setThresholds => setThresholdsOk b
  | .setFlap => setFlapOk b
  | .setStorm => setStormOk b
  | .setReporting => setReportingOk b
  | .arm => true
  | .setSync => setSyncOk b
  | .forceSync => true
  | .mute => terminalOk b
  | .unmute => terminalOk b
  | .seed => terminalOk b && (seedTarget b).isSome
  | .mapBegin => m == .loading || mapBeginOk b
  | .mapEnd => true
  | .mapAbort => true
  | .unmap => true
  | .restart => true
  | .dropAction => (slotLine b).isSome
  | .queueFlush => true

/-! ## Carrying a command out -/

/-- How the carrying out of a command ends: with result data, refused under test 8, or begun with no write-back yet
(R162, R166). -/
inductive Result where
  | done (data : Nat)
  | refused (code : Code)
  | begun
  deriving DecidableEq, Repr

/-- Replace the settings (R167). -/
def State.putSettings (s : State) (c : Settings) : State := { s with cmd := { s.cmd with settings := c } }

/-- Set or remove a port's ring; a change marks its tally record (R55). -/
def State.putRing (s : State) (p : Fin 16) (x : Option Ring) : State :=
  if s.ring p = x then s
  else { s with intake := { s.intake with rings := s.intake.rings.set p.val x } }.markTally p

/-- The areas a new ring of port p must not touch: other ports' rings, the anchor areas, the anchor block (R56). -/
def State.takenAreas (s : State) (p : Fin 16) : List (Nat × Nat) :=
  ((List.finRange 16).filter (· != p)).filterMap (fun q => (s.ring q).map Ring.area) ++
    (match s.ctl.anchor with | none => [] | some a => a.areas) ++ [(s.ctl.anchorAddr.toNat, 64)]

/-- The ring a SET_INTAKE describes (R55). -/
def slotRing (b : List Byte) : Ring :=
  { base := BitVec.ofNat 40 (intakeBase b), slots := intakeSlots b, framer := Fin.ofNat 32 (byteAt b 18),
    treatment := (intakeTreatment b).getD .observe }

/-- SET_INTAKE carried out (R56, R57). -/
def State.carrySetIntake (s : State) (b : List Byte) : State × Result :=
  let p := Fin.ofNat 16 (byteAt b 10)
  let x := slotRing b
  if (s.takenAreas p).any (fun q => rangesOverlap x.area.1 x.area.2 q.1 q.2) then (s, .refused .overlap)
  else (s.putRing p (some x), .done (bit (s.ring p).isSome))

/-- CLEAR_INTAKE carried out (R58). -/
def State.carryClearIntake (s : State) (b : List Byte) : State × Result :=
  let p := Fin.ofNat 16 (byteAt b 10)
  (s.putRing p none, .done (bit (s.ring p).isSome))

/-- SET_WINDOWS carried out (R168). -/
def State.carrySetWindows (s : State) (b : List Byte) : State × Result :=
  (s.putSettings { s.settings with
    grace := leAt b 10 2, gaspFollow := leAt b 12 2, tapWindow := leAt b 14 2, riserWindow := leAt b 16 2,
    portWindow := leAt b 18 2, zoneWindow := leAt b 20 2, holdDown := leAt b 22 2 }, .done 0)

/-- SET_THRESHOLDS carried out (R169). -/
def State.carrySetThresholds (s : State) (b : List Byte) : State × Result :=
  (s.putSettings { s.settings with
    tapRaise := byteAt b 10, riserRaise := byteAt b 11, portRaise := byteAt b 12, zoneRaise := byteAt b 13,
    tapClear := byteAt b 14, riserClear := byteAt b 15, portClear := byteAt b 16, zoneClear := byteAt b 17,
    tapMin := byteAt b 18, zoneMin := byteAt b 19 }, .done 0)

/-- SET_FLAP carried out (R170). -/
def State.carrySetFlap (s : State) (b : List Byte) : State × Result :=
  (s.putSettings { s.settings with
    flapLimit := byteAt b 10, flapWindow := leAt b 12 2, quietTime := leAt b 14 2 }, .done 0)

/-- SET_STORM carried out: the levels, then the storm state evaluated at once; the data says whether it changed (R131,
R171). -/
def State.carrySetStorm (s : State) (b : List Byte) (o : Origin) : State × Result :=
  let s1 := (s.putSettings { s.settings with stormOn := leAt b 10 2, stormOff := leAt b 12 2 }).evaluateStorm o
  (s1, .done (bit (s1.corr.stormIn != s.corr.stormIn)))

/-- SET_REPORTING carried out (R171). -/
def State.carrySetReporting (s : State) (b : List Byte) : State × Result :=
  (s.putSettings { s.settings with
    stormMode := (slotStormMode b).getD s.settings.stormMode,
    brownoutMode := (slotBrownoutMode b).getD s.settings.brownoutMode,
    offReports := (slotOffReports b).getD s.settings.offReports }, .done 0)

/-- ARM carried out (R130). -/
def State.carryArm (s : State) : State × Result := ((s.putStormArmed true).putBrownoutArmed true, .done 0)

/-- SET_SYNC carried out (R172). -/
def State.carrySetSync (s : State) (b : List Byte) : State × Result :=
  (s.putSettings { s.settings with syncInterval := leAt b 10 2 }, .done 0)

/-- FORCE_SYNC carried out (R172). -/
def State.carryForceSync (s : State) (o : Origin) : State × Result :=
  let x := s.makeSync { forced := true } o
  (x.1, .done (bit x.2))

/-- MUTE carried out (R89). -/
def State.carryMute (s : State) (b : List Byte) (o : Origin) : State × Result :=
  match s.entry? (slotTerminal b) with
  | none => (s, .refused .noTerminal)
  | some e => if e.prompt then (s, .refused .badParam) else ((s.mute (slotTerminal b) o).1, .done (s.mute (slotTerminal b) o).2)

/-- UNMUTE carried out (R89). -/
def State.carryUnmute (s : State) (b : List Byte) (o : Origin) : State × Result :=
  match s.entry? (slotTerminal b) with
  | none => (s, .refused .noTerminal)
  | some _ => ((s.unmute (slotTerminal b) o).1, .done (s.unmute (slotTerminal b) o).2)

/-- SEED carried out (R90). -/
def State.carrySeed (s : State) (b : List Byte) (o : Origin) : State × Result :=
  let n := slotTerminal b
  match s.entry? n, seedTarget b with
  | none, _ => (s, .refused .noTerminal)
  | some _, none => (s, .refused .badParam)
  | some e, some target =>
    if (s.term n).state = .gasped ∨ (s.term n).state = .suspect then (s, .refused .badParam)
    else if (s.term n).disp = .pending then (s, .refused .terminalPending)
    else (s.seed n e target o, .done (s.term n).state.code)

/-- A fresh or a restarted load: pointer, overlong mark and CRC (R41). -/
def Loader.rewind (l : Loader) (tag : BitVec 16) : Loader :=
  { l with pointer := 0, overlong := false, crc := crc32Init, tag := tag }

/-- Start the burst timer (R41). -/
def State.startBurst (s : State) : State := { s with loader := { s.loader with burst := some s.burstEnd } }

/-- The load under way restarts with its recorded length and timeout (R41). -/
def State.restartLoad (s : State) (tag : BitVec 16) : State :=
  State.startBurst { s with loader := s.loader.rewind tag }

/-- A load opens with a declared length and a burst timeout (R41). -/
def State.openLoad (s : State) (declared timeout : Nat) (tag : BitVec 16) : State :=
  State.startBurst
    { s with loader := Loader.rewind { s.loader with declared := declared, timeout := timeout } tag }

/-- MAP_BEGIN carried out: in LOADING the load restarts with its recorded length and timeout, else one opens (R41). -/
def State.carryMapBegin (s : State) (b : List Byte) : State × Result :=
  if s.ctl.mode = .loading then (s.restartLoad (slotTag b), .done 0)
  else ((s.openLoad (leAt b 10 2) (byteAt b 12) (slotTag b)).putMode .loading, .done 0)

/-- The unit becomes BUSY with a job, its slot entering the in-progress list (R164, R165). -/
def State.beginJob (s : State) (j : Job) (addr : Addr) (b : List Byte) : State :=
  { s with cmd := { s.cmd with unit := .busy j addr s.time,
                               inProgress := s.cmd.inProgress ++ [{ addr := addr, slot := b, overwritten := false }] } }

/-- MAP_END carried out: the check begins, or the empty map is adopted (R44, R49). -/
def State.carryMapEnd (s : State) (b : List Byte) (addr : Addr) : State × Result :=
  if s.ctl.mode = .loading then (s.stopBurst.beginJob (.mapEnd (leAt b 10 2) none) addr b, .begun)
  else if leAt b 10 2 = 0 then ((s.activate emptyMap).reportActivation b 0, .done 0)
  else (s, .refused .wrongMode)

/-- A load ended by MAP_ABORT (R50). -/
def State.abortLoad (s : State) : State := s.dropLoad.putMode .attached

/-- MAP_ABORT carried out: the load ends, and a check under way is abandoned (R50). The mode changes before the report is
made: the model's choice (notes/assumptions/39.md). After the check's end it is refused (notes/assumptions/23.md). -/
def State.carryMapAbort (s : State) : State × Result :=
  match s.cmd.unit with
  | .idle => (s.abortLoad, .done 0)
  | .actions => (s.abortLoad, .done 0)
  | .busy (.mapEnd _ none) addr _ =>
    (((s.abortLoad.reportDone (s.progressSlot addr) .mapEnd .failed MapFail.aborted.code).finalWriteBack addr .failed
      .failed MapFail.aborted.code).leaveBusy, .done 0)
  | .busy (.mapEnd _ (some _)) _ _ => (s, .refused .wrongMode)
  | .busy (.restart _) _ _ => (s, .refused .wrongMode)
  | .busy (.unmap _) _ _ => (s, .refused .wrongMode)

/-- UNMAP carried out: the clearing begins (R51). -/
def State.carryUnmap (s : State) (b : List Byte) (addr : Addr) : State × Result :=
  (s.beginJob (.unmap false) addr b, .begun)

/-- Every port tally set to 0, every tally record marked (R33, R68). -/
def State.zeroTallies (s : State) : State :=
  (List.finRange 16).foldl State.markTally
    { s with intake := { s.intake with tallies := Vector.replicate 16 Tally.zero } }

/-- RESTART carried out: the tallies are zeroed and the clearing begins (R31, R33, R68). -/
def State.carryRestart (s : State) (b : List Byte) (addr : Addr) : State × Result :=
  (s.zeroTallies.beginJob (.restart false) addr b, .begun)

/-- A line's last entry removed; an emptied list's absorbed count is 0 (R174, R182). -/
def LineUnit.dropLast (u : LineUnit) : LineUnit :=
  { u with actions := u.actions.dropLast, absorbed := if u.actions.length ≤ 1 then 0 else u.absorbed }

/-- DROP_ACTION carried out (R174). -/
def State.carryDropAction (s : State) (b : List Byte) : State × Result :=
  match slotLine b with
  | none => (s, .refused .badParam)
  | some l =>
    if (s.line l).actions.isEmpty then (s, .done 0) else (s.setLine l (s.line l).dropLast, .done 1)

/-- QUEUE_FLUSH carried out (R174). -/
def State.carryQueueFlush (s : State) (o : Origin) : State × Result :=
  let n := s.cmd.deferred.length
  if n = 0 then (s, .done 0)
  else (s.flushDeferred.makeReport { origin := o, subject := none, payload := .deferredFlushed n }, .done n)

/-! ## Deferring and registering on a line (R166, R177, R183) -/

/-- Place a refusal (R163). -/
def State.refuse (s : State) (addr : Addr) (b : List Byte) (c : Code) : State := s.writeBack addr b .refused c false 0

/-- A line is some deferred entry's trigger (R183). -/
def State.lineDeferred (s : State) (l : Line) : Bool := s.cmd.deferred.any (fun d => d.trigger == .line l)

/-- A trigger is a line whose list holds entries (R177, R184). -/
def State.triggerInUse (s : State) : Trigger → Bool
  | .line l => !(s.line l).actions.isEmpty
  | .stormIn => false
  | .stormOut => false
  | .downAtLeast _ => false
  | .atTime _ => false

/-- An entry joins the deferred queue and the in-progress list; its slot is written back QUEUED (R165, R166, R177). -/
def State.queueEntry (s : State) (k : Kind) (t : Trigger) (addr : Addr) (b : List Byte) : State :=
  State.writeBack
    { s with cmd := { s.cmd with
        deferred := s.cmd.deferred ++ [DeferredEntry.mk k b t addr false],
        inProgress := s.cmd.inProgress ++ [InProgress.mk addr b false] } }
    addr b .queued .done false (s.cmd.deferred.length + 1)

/-- A command with placement DEFER (R177); in an empty queue the new entry is head at once (R178). -/
def State.deferCommand (s : State) (k : Kind) (addr : Addr) (b : List Byte) : State :=
  match slotTrigger b with
  | none => s.refuse addr b .badParam
  | some t =>
    if s.triggerInUse t then s.refuse addr b .lineInUse
    else if Config.deferredSize ≤ s.cmd.deferred.length then s.refuse addr b .queueFull
    else if s.cmd.deferred.isEmpty then (s.queueEntry k t addr b).examineHead
    else s.queueEntry k t addr b

/-- A command with placement LINE_A or LINE_B (R183). -/
def State.registerLine (s : State) (l : Line) (k : Kind) (addr : Addr) (b : List Byte) : State :=
  let u := s.line l
  if s.lineDeferred l then s.refuse addr b .lineInUse
  else if Config.lineListSize ≤ u.actions.length then s.refuse addr b .listFull
  else
    (s.setLine l { u with actions := u.actions ++ [{ kind := k, slot := b }] }).writeBack addr b .done .done false
      u.actions.length

/-! ## Judging a command (R163, R166) -/

/-- A command carried out at once, with its write-back (R166). A refusal leaves everything else as it was (R163). -/
def State.carryNow (s : State) (carry : State → State × Result) (addr : Addr) (b : List Byte) : State :=
  match (carry s).2 with
  | .done data => (carry s).1.writeBack addr b .done .done false data
  | .refused c => s.refuse addr b c
  | .begun => (carry s).1

/-- Tests 4 to 9 (TABLE 10-2). -/
def State.judgePlaced (s : State) (k : Kind) (carry : State → State × Result) (addr : Addr) (b : List Byte) : State :=
  match slotPlacement b with
  | none => s.refuse addr b .badParam
  | some .now =>
    if !k.inMode s.ctl.mode then s.refuse addr b .wrongMode
    else if !paramsOk k s.ctl.mode b then s.refuse addr b .badParam
    else s.carryNow carry addr b
  | some .defer =>
    if !k.deferrable then s.refuse addr b .notDeferrable
    else if !paramsOk k s.ctl.mode b then s.refuse addr b .badParam
    else s.deferCommand k addr b
  | some (.line l) =>
    if !k.deferrable then s.refuse addr b .notDeferrable
    else if !paramsOk k s.ctl.mode b then s.refuse addr b .badParam
    else s.registerLine l k addr b

/-- Set the overwritten mark of a slot's entry (R165). -/
def State.markOverwritten (s : State) (addr : Addr) : State :=
  { s with cmd := { s.cmd with
      inProgress := s.cmd.inProgress.map (fun e => if e.addr == addr then { e with overwritten := true } else e) } }

/-- Test 1: a slot in progress is refused SLOT_BUSY, its entry marked overwritten (R165). -/
def State.unlessSlotBusy (s : State) (addr : Addr) (b : List Byte) (judged : State) : State :=
  if (s.progress addr).isSome then (s.markOverwritten addr).refuse addr b .slotBusy else judged

/-- A slot write of kind k judged (TABLE 10-2). -/
def State.judge (s : State) (k : Kind) (carry : State → State × Result) (addr : Addr) (b : List Byte) : State :=
  s.unlessSlotBusy addr b
    (if s.cmd.unit.isBusy && k != .mapAbort then s.refuse addr b .busy else s.judgePlaced k carry addr b)

/-- A slot command row takes a slot write of its kind. -/
def fitsCommand (k : Kind) (f : StepFor) (r : Request) : Bool := f.command && slotKind r.bytes == some k

/-- Take the front slot write of lane t as a command of kind k, carried out by `carry` (R161). -/
def State.takeCommand (s : State) (t : Tag) (k : Kind) (carry : State → List Byte → Addr → Origin → State × Result) :
    State :=
  s.takeStep t (fitsCommand k) (fun _ s r =>
    (s.judge k (fun s => carry s r.bytes r.addr (commandOrigin .command r.bytes)) r.addr r.bytes, r))

/-! ## The rows -/

/-- SET_INTAKE (R56, R57). -/
def execSetIntake (t : Tag) (s : State) : Host.Outcome State Fault Refusal :=
  .next (s.takeCommand t .setIntake (fun s b _ _ => s.carrySetIntake b))

/-- CLEAR_INTAKE (R58). -/
def execClearIntake (t : Tag) (s : State) : Host.Outcome State Fault Refusal :=
  .next (s.takeCommand t .clearIntake (fun s b _ _ => s.carryClearIntake b))

/-- SET_WINDOWS (R168). -/
def execSetWindows (t : Tag) (s : State) : Host.Outcome State Fault Refusal :=
  .next (s.takeCommand t .setWindows (fun s b _ _ => s.carrySetWindows b))

/-- SET_THRESHOLDS (R169). -/
def execSetThresholds (t : Tag) (s : State) : Host.Outcome State Fault Refusal :=
  .next (s.takeCommand t .setThresholds (fun s b _ _ => s.carrySetThresholds b))

/-- SET_FLAP (R170). -/
def execSetFlap (t : Tag) (s : State) : Host.Outcome State Fault Refusal :=
  .next (s.takeCommand t .setFlap (fun s b _ _ => s.carrySetFlap b))

/-- SET_STORM (R131, R171). -/
def execSetStorm (t : Tag) (s : State) : Host.Outcome State Fault Refusal :=
  .next (s.takeCommand t .setStorm (fun s b _ o => s.carrySetStorm b o))

/-- SET_REPORTING (R171). -/
def execSetReporting (t : Tag) (s : State) : Host.Outcome State Fault Refusal :=
  .next (s.takeCommand t .setReporting (fun s b _ _ => s.carrySetReporting b))

/-- ARM (R130). -/
def execArm (t : Tag) (s : State) : Host.Outcome State Fault Refusal :=
  .next (s.takeCommand t .arm (fun s _ _ _ => s.carryArm))

/-- SET_SYNC (R172). -/
def execSetSync (t : Tag) (s : State) : Host.Outcome State Fault Refusal :=
  .next (s.takeCommand t .setSync (fun s b _ _ => s.carrySetSync b))

/-- FORCE_SYNC (R172). -/
def execForceSync (t : Tag) (s : State) : Host.Outcome State Fault Refusal :=
  .next (s.takeCommand t .forceSync (fun s _ _ o => s.carryForceSync o))

/-- MUTE (R89). -/
def execMute (t : Tag) (s : State) : Host.Outcome State Fault Refusal :=
  .next (s.takeCommand t .mute (fun s b _ o => s.carryMute b o))

/-- UNMUTE (R89). -/
def execUnmute (t : Tag) (s : State) : Host.Outcome State Fault Refusal :=
  .next (s.takeCommand t .unmute (fun s b _ o => s.carryUnmute b o))

/-- SEED (R90). -/
def execSeed (t : Tag) (s : State) : Host.Outcome State Fault Refusal :=
  .next (s.takeCommand t .seed (fun s b _ o => s.carrySeed b o))

/-- MAP_BEGIN (R41). -/
def execMapBegin (t : Tag) (s : State) : Host.Outcome State Fault Refusal :=
  .next (s.takeCommand t .mapBegin (fun s b _ _ => s.carryMapBegin b))

/-- MAP_END (R44, R49). -/
def execMapEnd (t : Tag) (s : State) : Host.Outcome State Fault Refusal :=
  .next (s.takeCommand t .mapEnd (fun s b addr _ => s.carryMapEnd b addr))

/-- MAP_ABORT (R50). -/
def execMapAbort (t : Tag) (s : State) : Host.Outcome State Fault Refusal :=
  .next (s.takeCommand t .mapAbort (fun s _ _ _ => s.carryMapAbort))

/-- UNMAP (R51). -/
def execUnmap (t : Tag) (s : State) : Host.Outcome State Fault Refusal :=
  .next (s.takeCommand t .unmap (fun s b addr _ => s.carryUnmap b addr))

/-- RESTART (R31, R33). -/
def execRestart (t : Tag) (s : State) : Host.Outcome State Fault Refusal :=
  .next (s.takeCommand t .restart (fun s b addr _ => s.carryRestart b addr))

/-- DROP_ACTION (R174). -/
def execDropAction (t : Tag) (s : State) : Host.Outcome State Fault Refusal :=
  .next (s.takeCommand t .dropAction (fun s b _ _ => s.carryDropAction b))

/-- QUEUE_FLUSH (R174). -/
def execQueueFlush (t : Tag) (s : State) : Host.Outcome State Fault Refusal :=
  .next (s.takeCommand t .queueFlush (fun s _ _ o => s.carryQueueFlush o))

/-- BAD_KIND: a slot write whose kind names no command (R163, tests 1 and 2). -/
def execBadKind (t : Tag) (s : State) : Host.Outcome State Fault Refusal :=
  .next (s.takeStep t (fun f r => f.command && slotKind r.bytes == none) (fun _ s r =>
    (s.unlessSlotBusy r.addr r.bytes (s.refuse r.addr r.bytes .badKind), r)))

end Sys2Proof.Machine
end

