-- ==== Sys2Proof/Machine/Actions.lean ====
section
/-! DEFINITION. Deferred entries, contact lines and line action runs (spec/11), and the meanings of their rows. -/

namespace Sys2Proof.Machine

/-! ## The AT_TIME instant (R178) -/

/-- AT_TIME_REACHED: the head entry whose instant engine time has reached falls due (TABLE 11-1). In HALTED no entry
falls due (R37, R178). -/
def execAtTimeReached (s : State) : Host.Outcome State Fault Refusal :=
  .next (if s.working then s.watch (metByTime s.time) else s)

/-! ## The contact lines (R181, R182) -/

/-- LINE_PIN_CHANGE: each change of the pin restarts the 20 ms (R181). In HALTED and while RESET_N is asserted the pin is
not followed. -/
def execLinePinChange (l : Line) (level : Bool) (s : State) : Host.Outcome State Fault Refusal :=
  let u := s.line l
  .next (if u.pin = level then s
    else if s.working then
      s.setLine l { u with pin := level, deadline := some (after s.time Config.debounceTime) }
    else s.setLine l { u with pin := level })

/-- The saturating absorbed count (R182). -/
def sat8 (n : Nat) : Nat := if n < 255 then n + 1 else n

/-- Step 3 of R182: a debounced assertion sets a run of the line's list pending, or is absorbed. -/
def State.assertLine (s : State) (l : Line) : State :=
  let u := s.line l
  if u.actions.isEmpty then s
  else if u.runPending then s.setLine l { u with absorbed := sat8 u.absorbed }
  else (s.setLine l { u with runPending := true }).appendDue (.line l)

/-- The LINE_CHANGE of a debounced change, with the absorbed count as it stands (R182, step 1). -/
def State.reportLine (s : State) (l : Line) (level : Bool) : State :=
  s.makeReport { origin := { source := .line l, word := 0 }, subject := none,
                 payload := .lineChange l level (s.line l).absorbed }

/-- A debounced change of a line to `level` (R182); in DETACHED nothing but the level changes. -/
def State.debounced (s : State) (l : Line) (level : Bool) : State :=
  let s1 := s.setLine l { s.line l with level := level }
  if s1.ctl.mode = .detached then s1
  else if level then ((s1.watch (metByLine l)).assertLine l).reportLine l level
  else s1.reportLine l level

/-- A debounce expiry taken: the deadline goes, and the pin is compared with the debounced level (R181). -/
def State.debounceEnd (s : State) (l : Line) : State :=
  let s1 := s.setLine l { s.line l with deadline := none }
  if (s1.line l).pin = (s1.line l).level then s1 else s1.debounced l (s1.line l).pin

/-- DEBOUNCE_EXPIRY (R181, R182). -/
def execDebounceExpiry (l : Line) (s : State) : Host.Outcome State Fault Refusal :=
  .next (if s.ready && due s.time (s.line l).deadline then s.debounceEnd l else s)

/-! ## Running a stored command (R166, R179, R185) -/

/-- What a deferrable kind does; a kind that cannot be stored is refused, which no stored entry meets. -/
def State.carryStored (s : State) (k : Kind) (b : List Byte) (o : Origin) : State × Result :=
  match k with
  | .setWindows => s.carrySetWindows b
  | .setThresholds => s.carrySetThresholds b
  | .setFlap => s.carrySetFlap b
  | .setStorm => s.carrySetStorm b o
  | .setReporting => s.carrySetReporting b
  | .arm => s.carryArm
  | .setSync => s.carrySetSync b
  | .forceSync => s.carryForceSync o
  | .mute => s.carryMute b o
  | .unmute => s.carryUnmute b o
  | .setIntake => (s, .refused .notDeferrable)
  | .clearIntake => (s, .refused .notDeferrable)
  | .seed => (s, .refused .notDeferrable)
  | .mapBegin => (s, .refused .notDeferrable)
  | .mapEnd => (s, .refused .notDeferrable)
  | .mapAbort => (s, .refused .notDeferrable)
  | .unmap => (s, .refused .notDeferrable)
  | .restart => (s, .refused .notDeferrable)
  | .dropAction => (s, .refused .notDeferrable)
  | .queueFlush => (s, .refused .notDeferrable)

/-- Tests 6 and 8 and the command's own effect (R166): the state with its result data, or the failing code. -/
def State.runStored (s : State) (k : Kind) (b : List Byte) (src : Source) : Except Code (State × Nat) :=
  if !k.inMode s.ctl.mode then .error .wrongMode
  else
    match s.carryStored k b (commandOrigin src b) with
    | (s1, .done data) => .ok (s1, data)
    | (_, .refused c) => .error c
    | (s1, .begun) => .ok (s1, 0)

/-- An ACTION_DONE or ACTION_FAILED report (R179, R180, R185). -/
def actionDraft (src : Source) (b : List Byte) (p : Payload) : Draft :=
  { origin := commandOrigin src b, subject := none, payload := p }

/-- When no due action is waiting the unit becomes IDLE (R164, R186). -/
def State.endActions (s : State) : State := if s.cmd.due.isEmpty then s.setUnit .idle else s

/-- Set the deferred queue. -/
def State.setDeferred (s : State) (q : List DeferredEntry) : State := { s with cmd := { s.cmd with deferred := q } }

/-- Take the first action off the due list. -/
def State.takeDue (s : State) : State := { s with cmd := { s.cmd with due := s.cmd.due.tail } }

/-- A deferred entry that ran (R179): ACTION_DONE, the final write-back, then the next entry becomes head. -/
def State.entryDone (s : State) (e : DeferredEntry) (rest : List DeferredEntry) (data : Nat) : State :=
  (((s.makeReport (actionDraft .deferred e.slot (.actionDone e.kind .done))).finalWriteBack e.addr .done .done data).setDeferred
    rest).examineHead

/-- The DEFERRED_FLUSHED of a failed entry, where entries remain (R180). -/
def State.reportFlushed (s : State) (e : DeferredEntry) (n : Nat) : State :=
  if n = 0 then s else s.makeReport (actionDraft .deferred e.slot (.deferredFlushed n))

/-- A deferred entry that failed: its reports, its write-back, and every remaining entry discarded (R180). -/
def State.entryFailed (s : State) (e : DeferredEntry) (rest : List DeferredEntry) (c : Code) : State :=
  let s1 := (s.makeReport (actionDraft .deferred e.slot (.actionFailed e.kind c))).reportFlushed e rest.length
  ((s1.finalWriteBack e.addr .failed c 0).setDeferred rest).flushDeferred

/-- The run of the head entry; while it lasts no entry is head (R179, R180). -/
def State.runHead (s : State) (e : DeferredEntry) (rest : List DeferredEntry) : State :=
  let s1 := (s.takeDue).setDeferred []
  match s1.runStored e.kind e.slot .deferred with
  | .ok (s2, data) => (s2.entryDone e rest data).endActions
  | .error c => (s1.entryFailed e rest c).endActions

/-- DEFERRED_ENTRY_RUN (R179, R180, R186). -/
def execDeferredEntryRun (s : State) : Host.Outcome State Fault Refusal :=
  .next (match s.cmd.due, s.cmd.deferred with
    | .deferred :: _, e :: rest => if s.ready && s.cmd.unit.inActions then s.runHead e rest else s
    | .deferred :: _, [] => s
    | .line _ :: _, _ => s
    | [], _ => s)

/-! ## A line's run (R185) -/

/-- The entries of a run in order, until one fails (R185). -/
def State.runEntries (l : Line) : List LineEntry → State → State
  | [], s => s
  | e :: rest, s =>
    match s.runStored e.kind e.slot (.line l) with
    | .ok (s1, _) => State.runEntries l rest (s1.makeReport (actionDraft (.line l) e.slot (.actionDone e.kind .done)))
    | .error c =>
      let s1 := s.makeReport (actionDraft (.line l) e.slot (.actionFailed e.kind c))
      s1.setLine l (s1.line l).emptied

/-- The run of a line's list (R185). -/
def State.runLine (s : State) (l : Line) : State :=
  let s1 := s.takeDue
  (State.runEntries l (s1.line l).actions
    (s1.setLine l { s1.line l with runPending := false, absorbed := 0 })).endActions

/-- LINE_ACTION_RUN (R185, R186). -/
def execLineActionRun (l : Line) (s : State) : Host.Outcome State Fault Refusal :=
  .next (match s.cmd.due with
    | .line l' :: _ => if s.ready && s.cmd.unit.inActions && l == l' then s.runLine l else s
    | .deferred :: _ => s
    | [] => s)

end Sys2Proof.Machine
end

