-- ==== Sys2Proof/Machine/Dispatch.lean ====
section
/-! DEFINITION. The effect of every command on everything but the queue: one arm per row of spec/opcode_table.json. -/

namespace Sys2Proof.Machine

def exec (i : Instr) (s : State) : Host.Outcome State Fault Refusal :=
  match i with
  | .upstreamRequest r => Sys2Proof.Machine.execUpstreamRequest r s
  | .downstreamGrant => Sys2Proof.Machine.execDownstreamGrant s
  | .memoryResponse n resp data => Sys2Proof.Machine.execMemoryResponse n resp data s
  | .ownWriteError n resp => Sys2Proof.Machine.execOwnWriteError n resp s
  | .mirrorWriteResponse n resp => Sys2Proof.Machine.execMirrorWriteResponse n resp s
  | .heldRead tag => Sys2Proof.Machine.execHeldRead tag s
  | .resetNAssertion => Sys2Proof.Machine.execResetNAssertion s
  | .resetNRelease straps => Sys2Proof.Machine.execResetNRelease straps s
  | .anchorWrite tag => Sys2Proof.Machine.execAnchorWrite tag s
  | .holdupLowAssertion => Sys2Proof.Machine.execHoldupLowAssertion s
  | .gasp tag => Sys2Proof.Machine.execGasp tag s
  | .loss tag => Sys2Proof.Machine.execLoss tag s
  | .restore tag => Sys2Proof.Machine.execRestore tag s
  | .portDark tag => Sys2Proof.Machine.execPortDark tag s
  | .portLit tag => Sys2Proof.Machine.execPortLit tag s
  | .malformed tag => Sys2Proof.Machine.execMalformed tag s
  | .graceExpiry n => Sys2Proof.Machine.execGraceExpiry n s
  | .gaspFollowExpiry n => Sys2Proof.Machine.execGaspFollowExpiry n s
  | .staleGaspWindowEnd n => Sys2Proof.Machine.execStaleGaspWindowEnd n s
  | .quietExpiry n => Sys2Proof.Machine.execQuietExpiry n s
  | .tapVerdict n => Sys2Proof.Machine.execTapVerdict n s
  | .parentDeadlineWait p => Sys2Proof.Machine.execParentDeadlineWait p s
  | .riserVerdict n => Sys2Proof.Machine.execRiserVerdict n s
  | .portVerdict n => Sys2Proof.Machine.execPortVerdict n s
  | .zoneVerdict n => Sys2Proof.Machine.execZoneVerdict n s
  | .holdDownExpiry g => Sys2Proof.Machine.execHoldDownExpiry g s
  | .consumedIndexWrite tag => Sys2Proof.Machine.execConsumedIndexWrite tag s
  | .loadWindowWrite tag => Sys2Proof.Machine.execLoadWindowWrite tag s
  | .burstTimerExpiry => Sys2Proof.Machine.execBurstTimerExpiry s
  | .setIntake tag => Sys2Proof.Machine.execSetIntake tag s
  | .clearIntake tag => Sys2Proof.Machine.execClearIntake tag s
  | .setWindows tag => Sys2Proof.Machine.execSetWindows tag s
  | .setThresholds tag => Sys2Proof.Machine.execSetThresholds tag s
  | .setFlap tag => Sys2Proof.Machine.execSetFlap tag s
  | .setStorm tag => Sys2Proof.Machine.execSetStorm tag s
  | .setReporting tag => Sys2Proof.Machine.execSetReporting tag s
  | .arm tag => Sys2Proof.Machine.execArm tag s
  | .setSync tag => Sys2Proof.Machine.execSetSync tag s
  | .forceSync tag => Sys2Proof.Machine.execForceSync tag s
  | .mute tag => Sys2Proof.Machine.execMute tag s
  | .unmute tag => Sys2Proof.Machine.execUnmute tag s
  | .seed tag => Sys2Proof.Machine.execSeed tag s
  | .mapBegin tag => Sys2Proof.Machine.execMapBegin tag s
  | .mapEnd tag => Sys2Proof.Machine.execMapEnd tag s
  | .mapCheckEnd => Sys2Proof.Machine.execMapCheckEnd s
  | .mapEndCompletion => Sys2Proof.Machine.execMapEndCompletion s
  | .mapAbort tag => Sys2Proof.Machine.execMapAbort tag s
  | .unmap tag => Sys2Proof.Machine.execUnmap tag s
  | .unmapClearing => Sys2Proof.Machine.execUnmapClearing s
  | .unmapCompletion => Sys2Proof.Machine.execUnmapCompletion s
  | .restart tag => Sys2Proof.Machine.execRestart tag s
  | .restartClearing => Sys2Proof.Machine.execRestartClearing s
  | .restartCompletion => Sys2Proof.Machine.execRestartCompletion s
  | .dropAction tag => Sys2Proof.Machine.execDropAction tag s
  | .queueFlush tag => Sys2Proof.Machine.execQueueFlush tag s
  | .badKind tag => Sys2Proof.Machine.execBadKind tag s
  | .atTimeReached => Sys2Proof.Machine.execAtTimeReached s
  | .linePinChange line level => Sys2Proof.Machine.execLinePinChange line level s
  | .debounceExpiry line => Sys2Proof.Machine.execDebounceExpiry line s
  | .deferredEntryRun => Sys2Proof.Machine.execDeferredEntryRun s
  | .lineActionRun line => Sys2Proof.Machine.execLineActionRun line s

end Sys2Proof.Machine
end

