-- ==== Sys2Proof/Machine/Step.lean ====
section
/-! DEFINITION. One step: the command at the front of the queue, or 1 ms of engine time on an empty queue. -/

namespace Sys2Proof.Machine

/-- One step of the block. An empty queue lets 1 ms of engine time pass (notes/assumptions/1.md). -/
def step (s : State) : Host.Outcome State Fault Refusal :=
  match s.pending with
  | [] => .next (tick s)
  | c :: rest => exec c { s with pending := rest }

/-- The state with the command a word spells at the front of its queue; unchanged where the word spells none
(notes/assumptions/3.md). -/
def State.withFetchWord (s : State) (nbits w : Nat) : State :=
  match decodeTableWord nbits w with
  | none => s
  | some c => { s with pending := c :: s.pending }

end Sys2Proof.Machine
end

