-- ==== Sys2Proof/Safety.lean ====
section
/-! DEFINITION. What counts as a sound state of the LW2410, in the terms the statements use, and when a row takes the
front of a lane. -/

namespace Sys2Proof.Machine

/-- A command completes: it answers a next state. -/
def Completes (c : Instr) (s : State) : Prop := ∃ t, exec c s = .next t

/-! ## Invariants -/

/-- The dirty set is a strictly rising list of record indices, and the drain cursor is one (R156, R157). -/
def State.mirrorSound (s : State) : Prop :=
  s.mirror.dirty.Pairwise (· < ·) ∧ (∀ i ∈ s.mirror.dirty, i < Config.mirrorRecords) ∧
    s.mirror.cursor < Config.mirrorRecords

/-- A mirror read waits for room in the held-read list only while the list is full, and behind a held read of its tag only
while there is one (R15). -/
def Path.waitsSound (p : Path) : Prop :=
  ∀ (t : Tag) (m : Mode),
    (p.lanes[t.val].outcome = some (m, .mirrorCheck .room) → Config.heldReads ≤ p.held.length) ∧
    (p.lanes[t.val].outcome = some (m, .mirrorCheck .behind) → ∃ h ∈ p.held, h.req.tag = t)

/-- Every lane holds at most 4 requests, all of its own tag; the held-read list holds at most 8 reads, each with the
records it awaits in rising order; a read waits in its lane only while it has to; the pass-run count is at most 16, and 0
while the dirty set is empty (R4, R14, R15, R17). -/
def State.pathSound (s : State) : Prop :=
  (∀ t : Tag, (s.lane t).reqs.length ≤ Config.laneDepth) ∧ s.path.held.length ≤ Config.heldReads ∧
    s.path.passRun ≤ Config.passRunMax ∧ (s.mirror.dirty = [] → s.path.passRun = 0) ∧
    (∀ t : Tag, ∀ r ∈ (s.lane t).reqs, r.tag = t) ∧
    (∀ h ∈ s.path.held, h.awaits.Pairwise (fun x y => x.1 < y.1)) ∧ s.path.waitsSound

/-- The stores of spec/11: at most 8 deferred entries, at most 4 actions for each line, and no deferred entry with a
line as trigger while that line's list holds an entry (R184). -/
def State.storesSound (s : State) : Prop :=
  s.cmd.deferred.length ≤ Config.deferredSize ∧ (∀ l : Line, (s.line l).actions.length ≤ Config.lineListSize) ∧
    ∀ l : Line, (s.line l).actions ≠ [] → s.lineDeferred l = false

/-- The report ring: without a ring nothing is occupied and the command unit is not BUSY; with one, the produced slot is the next sequence number modulo
the slot count and the consumed copy plus the occupancy, and at least one slot is free until HALTED, two while FLOWING
(R137, R139, R140). -/
def State.ringSound (s : State) : Prop :=
  match s.ctl.anchor with
  | none =>
    s.rw.occupancy = 0 ∧ s.rw.stalled = false ∧ (s.ctl.mode = .detached ∨ s.ctl.mode = .halted) ∧
      s.cmd.unit.isBusy = false
  | some a =>
    16 ≤ a.ringSlots ∧ a.ringSlots ∣ 2 ^ 32 ∧ s.rw.produced = s.rw.nextSeq.toNat % a.ringSlots ∧
      s.rw.consumed < a.ringSlots ∧ s.rw.produced = (s.rw.consumed + s.rw.occupancy) % a.ringSlots ∧
      s.rw.occupancy ≤ a.ringSlots ∧
      (s.ctl.mode = .halted ∨ s.rw.occupancy + (if s.rw.stalled then 1 else 2) ≤ a.ringSlots)

/-! ## Requests under way -/

/-- A passing request that memory has not answered. -/
def Issued.unanswered : Issued → Bool
  | .pass _ _ none => true
  | .pass _ _ (some _) => false
  | .own _ _ => false
  | .mirror _ _ _ _ => false

/-- An own write. -/
def Issued.isOwn : Issued → Bool
  | .own _ _ => true
  | .pass _ _ _ => false
  | .mirror _ _ _ _ => false

/-- A mirror write. -/
def Issued.isMirror : Issued → Bool
  | .mirror _ _ _ _ => true
  | .pass _ _ _ => false
  | .own _ _ => false

/-- A passing request of tag t. -/
def Issued.ofTag (t : Tag) : Issued → Bool
  | .pass q _ _ => q.tag == t
  | .own _ _ => false
  | .mirror _ _ _ _ => false

/-- The response a passing request that memory has answered returns (R5). -/
def Issued.response : Issued → Option Response
  | .pass q _ (some x) => some { tag := q.tag, resp := x.1, data := x.2 }
  | .pass _ _ none => none
  | .own _ _ => none
  | .mirror _ _ _ _ => none

/-! ## When a row takes the front of a lane -/

/-- The rows that take a step write from the front of lane t. -/
def stepRows (t : Tag) : List Instr :=
  [.anchorWrite t, .gasp t, .loss t, .restore t, .portDark t, .portLit t, .malformed t, .loadWindowWrite t, .setIntake t,
    .clearIntake t, .setWindows t, .setThresholds t, .setFlap t, .setStorm t, .setReporting t, .arm t, .setSync t,
    .forceSync t, .mute t, .unmute t, .seed t, .mapBegin t, .mapEnd t, .mapAbort t, .unmap t, .restart t, .dropAction t,
    .queueFlush t, .badKind t]

/-- The front of lane t is the request r, classified v in the present engine mode. -/
def State.Front (s : State) (t : Tag) (r : Request) (v : Verdict) : Prop :=
  (s.lane t).reqs.head? = some r ∧ (s.lane t).outcome = some (s.ctl.mode, v)

/-- The front of lane t is the step write r, and the engine has room for it (R9, R10). -/
def State.Admitted (s : State) (t : Tag) (r : Request) (f : StepFor) : Prop :=
  s.Front t r (.step f) ∧ s.admits f = true

/-- The front of lane t is a slot write of kind k, for which the engine has room, in a slot with no command in progress,
while the unit is IDLE (R161, R164, R165). -/
def State.SlotWrite (s : State) (t : Tag) (r : Request) (f : StepFor) (k : Kind) : Prop :=
  s.Admitted t r f ∧ f.command = true ∧ slotKind r.bytes = some k ∧ s.progress r.addr = none ∧ s.cmd.unit = .idle

/-- The row of spec/opcode_table.json that takes slot writes of kind k. -/
def slotRow (t : Tag) : Kind → Instr
  | .setIntake => .setIntake t | .clearIntake => .clearIntake t | .setWindows => .setWindows t
  | .setThresholds => .setThresholds t | .setFlap => .setFlap t | .setStorm => .setStorm t
  | .setReporting => .setReporting t | .arm => .arm t | .setSync => .setSync t | .forceSync => .forceSync t
  | .mute => .mute t | .unmute => .unmute t | .seed => .seed t | .mapBegin => .mapBegin t | .mapEnd => .mapEnd t
  | .mapAbort => .mapAbort t | .unmap => .unmap t | .restart => .restart t | .dropAction => .dropAction t
  | .queueFlush => .queueFlush t

/-- The row of spec/opcode_table.json that takes intake messages of kind k. -/
def messageRow (t : Tag) : MsgKind → Instr
  | .gasp => .gasp t | .loss => .loss t | .restore => .restore t | .portDark => .portDark t | .portLit => .portLit t

/-- Such a slot write with placement NOW, in a mode of its kind and with its parameters in range (TABLE 10-2). -/
def State.NowWrite (s : State) (t : Tag) (r : Request) (f : StepFor) (k : Kind) : Prop :=
  s.SlotWrite t r f k ∧ slotPlacement r.bytes = some .now ∧ k.inMode s.ctl.mode = true ∧
    paramsOk k s.ctl.mode r.bytes = true

/-- The front of lane t is an intake message for port p, whose ring has treatment x, and the engine has room (R59, R60). -/
def State.Message (s : State) (t : Tag) (r : Request) (f : StepFor) (p : Fin 16) (x : Ring) : Prop :=
  s.Admitted t r f ∧ f.intake = true ∧ f.consumed = none ∧ messageForm r = true ∧ s.portOf r = some p ∧
    s.ring p = some x

/-- The requests of tag t in a list. -/
def ofTag (t : Tag) (l : List Request) : List Request := l.filter (fun r => r.tag == t)

/-- The requests that wait in front of the pass path, tag t's: its held reads, then its lane (R4, R15). -/
def Path.waiting (p : Path) (t : Tag) : List Request := ofTag t (p.held.map (fun h => h.req)) ++ p.lanes[t.val].reqs

/-- What moves in the path unit without a grant, a new request or an answer (R4, R6, R15). Lanes shed their oldest
requests. The pass path grows at its back by requests as they came, none acted upon. Where every lane holds requests of
its own tag, what entered the pass path and what still waits are, tag by tag and in order, what waited before. Held reads
that await a record stay; of the others some leave, and reads that await a record may join at the back, up to 8. -/
structure Moved (p q : Path) : Prop where
  lanes     : ∀ t : Tag, q.lanes[t.val].reqs <:+ p.lanes[t.val].reqs
  entered   : ∃ new : List PassEntry, q.passPath = p.passPath ++ new ∧ (∀ e ∈ new, e.acted = false) ∧
    ((∀ t : Tag, ∀ r ∈ p.lanes[t.val].reqs, r.tag = t) →
      ∀ t : Tag, p.waiting t = ofTag t (new.map (fun e => e.req)) ++ q.waiting t)
  held      : ∃ stay joined : List HeldRead, q.held = stay ++ joined ∧ stay.Sublist p.held ∧
    (∀ h ∈ joined, h.awaits ≠ [] ∧ h.awaits.Pairwise (fun x y => x.1 < y.1)) ∧
    (joined ≠ [] → q.held.length ≤ Config.heldReads)
  awaiting  : ∀ h ∈ p.held, h.awaits ≠ [] → h ∈ q.held
  issued    : q.issued = p.issued
  responses : q.responses = p.responses
  passRun   : q.passRun = p.passRun

/-- The path with the front of lane t gone into the pass path as the request r, acted upon by the engine (R12). -/
def Path.taken (p : Path) (t : Tag) (r : Request) : Path :=
  { p with lanes := p.lanes.set t.val { reqs := p.lanes[t.val].reqs.tail, outcome := none },
           passPath := p.passPath ++ [{ req := r, acted := true }] }

/-- A state with another path. -/
def State.withPath (s : State) (p : Path) : State := { s with path := p }

/-- t is u, a state whose lanes still hold the write, but for the path, where the front of lane `tag` has gone into the pass
path as r and what that frees has moved on (R12). -/
def Took (t u : State) (tag : Tag) (r : Request) : Prop :=
  t = u.withPath t.path ∧ Moved (u.path.taken tag r) t.path

/-! ## Messages -/

/-- The front of lane t is a sound message of kind k for port p, while correlation is under way (R61, R64). -/
def State.Sound (s : State) (t : Tag) (r : Request) (f : StepFor) (p : Fin 16) (x : Ring) (k : MsgKind) : Prop :=
  s.Message t r f p x ∧ messageFault p r.bytes = none ∧ msgKind r.bytes = some k ∧ s.correlating = true

/-- It is a message about the mapped terminal n, whose map entry is e (R64, R65). -/
def State.About (s : State) (t : Tag) (r : Request) (f : StepFor) (p : Fin 16) (x : Ring) (k : MsgKind) (n : Fin 1024)
    (e : TermEntry) : Prop :=
  s.Sound t r f p x k ∧ s.terminalOf p (byteAt r.bytes 3) = some n ∧ s.entry? n = some e

/-- A port message. -/
def MsgKind.isPort : MsgKind → Bool
  | .portDark => true | .portLit => true | .gasp => false | .loss => false | .restore => false

/-- A GASP in UP is a repeat: its tag is the last one taken, within the stale-gasp window (R73). -/
def State.Repeats (s : State) (d : Terminal) (gaspTag : Byte) : Prop :=
  ∃ q, d.deadline = some q ∧ reached s.time q = false ∧ d.lastTag = some gaspTag

/-- The DUPLICATE cells of TABLE 5-3: a message of kind k meets a record that it does not change. -/
def State.Unchanged (s : State) (k : MsgKind) (d : Terminal) (gaspTag : Byte) : Prop :=
  match k with
  | .gasp => d.state = .gasped ∨ d.state = .downPower ∨ d.state = .downOff ∨ (d.state = .up ∧ s.Repeats d gaspTag)
  | .loss => d.state = .suspect ∨ d.state = .downFibre ∨ d.state = .downPower ∨ d.state = .downOff
  | .restore => d.state = .up
  | .portDark => False
  | .portLit => False

/-! ## Reports -/

/-- The state after one report has been created, before the count of reports since a SYNC (R136, R137). -/
def State.created (s : State) (a : Anchor) (d : Draft) : State :=
  { s with rw := { s.rw with
      queue := s.rw.queue ++ [.report (a.ringBase + BitVec.ofNat 40 (32 * s.rw.produced))
        { seq := s.rw.nextSeq, source := d.origin.source, subject := d.subject, time := s.time, origin := d.origin.word,
          payload := d.payload }],
      nextSeq := s.rw.nextSeq + 1, produced := (s.rw.produced + 1) % a.ringSlots, occupancy := s.rw.occupancy + 1 } }

/-! ## What the part's own writes hold (spec/13) -/

/-- Bytes k to k + n − 1 of b hold the number v, least significant byte first. -/
def Holds (b : List Byte) (k n v : Nat) : Prop := leAt b k n = v % 256 ^ n

/-- The n bytes of b from k on are a packed run: field j, of width w, holds the j-th of the values, and every later one 0. -/
def Packed (b : List Byte) (k n w : Nat) (vs : List Nat) : Prop :=
  ∀ j, leAt b k n / 2 ^ (w * j) % 2 ^ w = vs.getD j 0 % 2 ^ w

/-- From byte k on b holds zeros. -/
def Blank (b : List Byte) (k : Nat) : Prop := ∀ j, k ≤ j → byteAt b j = 0

/-- A mark as the value of its bit. -/
def mark01 (x : Bool) : Nat := if x = true then 1 else 0

/-- The code of a command kind (TABLE 13-4). -/
def codeOf (k : Kind) : Nat :=
  1 + [Kind.setIntake, .clearIntake, .setWindows, .setThresholds, .setFlap, .setStorm, .setReporting, .arm, .setSync,
    .forceSync, .mute, .unmute, .seed, .mapBegin, .mapEnd, .mapAbort, .unmap, .restart, .dropAction, .queueFlush].idxOf k

/-- A result code (TABLE 13-3). -/
def resultOf (c : Code) : Nat :=
  [Code.done, .wrongMode, .busy, .slotBusy, .badKind, .badParam, .overlap, .notDeferrable, .queueFull, .listFull,
    .lineInUse, .noTerminal, .terminalPending, .failed, .halted, .timeout].idxOf c

/-- The kind byte and the payload of a report, by TABLE 13-5. -/
def PayloadHeld (b : List Byte) : Payload → Prop
  | .sync f m down c lost idx failed =>
    Holds b 4 1 1 ∧
      Holds b 16 1 (mark01 f.started + 2 * mark01 f.restarted + 4 * mark01 f.mapActive + 8 * mark01 f.resumed +
        16 * mark01 f.forced) ∧
      Holds b 17 1 ([Mode.detached, .attached, .loading, .running, .halted].idxOf m) ∧
      Packed b 18 7 11 [down, c.up, c.downFibre, c.downPower, c.downOff] ∧ Holds b 25 2 lost ∧ Holds b 27 2 idx ∧
      Holds b 29 2 failed ∧ Blank b 31
  | .terminalDown c => Holds b 4 1 2 ∧ Holds b 16 1 (1 + [OutageCause.fibre, .power, .off].idxOf c) ∧ Blank b 17
  | .terminalsDown c ns =>
    Holds b 4 1 3 ∧ Holds b 16 1 (1 + [OutageCause.fibre, .power, .off].idxOf c) ∧ Holds b 17 1 ns.length ∧
      (ns.length ≤ 8 → Packed b 18 10 10 (ns.map (fun n => n.val))) ∧ Blank b 28
  | .terminalUp => Holds b 4 1 4 ∧ Blank b 16
  | .terminalBrownout => Holds b 4 1 5 ∧ Blank b 16
  | .muted n => Holds b 4 1 6 ∧ Holds b 16 1 n ∧ Blank b 17
  | .unmuted => Holds b 4 1 7 ∧ Blank b 16
  | .groupRaised c members down settled straggler =>
    Holds b 4 1 8 ∧ Holds b 16 1 (1 + [RaiseCause.fibre, .power, .dark].idxOf c) ∧ Holds b 17 1 members ∧
      Holds b 18 1 down ∧ Holds b 19 1 settled ∧ Holds b 20 1 (mark01 straggler) ∧ Blank b 21
  | .groupCleared n => Holds b 4 1 9 ∧ Holds b 16 1 n ∧ Blank b 17
  | .stormEnter n => Holds b 4 1 10 ∧ Holds b 16 2 n ∧ Blank b 18
  | .stormLeave n => Holds b 4 1 11 ∧ Holds b 16 2 n ∧ Blank b 18
  | .lineChange l level n =>
    Holds b 4 1 12 ∧ Holds b 16 1 ([Line.a, .b].idxOf l) ∧ Holds b 17 1 (mark01 level) ∧ Holds b 18 1 n ∧ Blank b 19
  | .intakeFault p k =>
    Holds b 4 1 13 ∧ Holds b 16 1 p.val ∧
      Holds b 17 1 (1 + [FaultKind.malformed, .check, .portMismatch, .unknownKind, .unknownCause, .reserved].idxOf k) ∧
      Blank b 18
  | .actionDone k c => Holds b 4 1 14 ∧ Holds b 16 1 (codeOf k) ∧ Holds b 17 1 (resultOf c) ∧ Blank b 18
  | .actionFailed k c => Holds b 4 1 15 ∧ Holds b 16 1 (codeOf k) ∧ Holds b 17 1 (resultOf c) ∧ Blank b 18
  | .deferredFlushed n => Holds b 4 1 16 ∧ Holds b 16 1 n ∧ Blank b 17
  | .commandDone k c d =>
    Holds b 4 1 17 ∧ Holds b 16 1 (codeOf k) ∧ Holds b 17 1 (resultOf c) ∧ Holds b 18 2 d ∧ Blank b 20
  | .anchorIgnored => Holds b 4 1 18 ∧ Blank b 16
  | .overrun n => Holds b 4 1 19 ∧ Holds b 16 2 n ∧ Blank b 18
  | .headGasp down c storm =>
    Holds b 4 1 20 ∧ Holds b 16 2 down ∧ Holds b 18 2 c.up ∧ Holds b 20 2 c.gasped ∧ Holds b 22 2 c.suspect ∧
      Holds b 24 2 c.downFibre ∧ Holds b 26 2 c.downPower ∧ Holds b 28 2 c.downOff ∧ Holds b 30 1 (mark01 storm) ∧
      Blank b 31

/-- A terminal record in the mirror (R152, TABLE 13-6); an absent field is 0 (R189). -/
def TerminalHeld (b : List Byte) (d : Terminal) : Prop :=
  let markTime := if d.muted = true then d.quiet else d.flapStart
  Holds b 1 1 ([TState.unlisted, .up, .gasped, .suspect, .downFibre, .downPower, .downOff].idxOf d.state +
    16 * [Disp.none, .pending, .covered, .reported, .quiet].idxOf d.disp) ∧
  Holds b 2 1 (mark01 d.muted + 2 * mark01 d.lastTag.isSome + 4 * mark01 d.deadline.isSome + 8 * mark01 markTime.isSome) ∧
  Holds b 3 1 (d.lastTag.elim 0 (fun x => x.toNat)) ∧ Holds b 4 1 d.downEntries ∧ Holds b 5 1 d.lateGasps ∧
  Holds b 6 2 (d.deadline.elim 0 (fun x => (x - d.lastChange).toNat)) ∧ Holds b 8 4 d.lastChange.toNat ∧
  Holds b 12 4 (markTime.elim 0 (fun x => x.toNat))

/-- A group record in the mirror, with the list it shows (R153, TABLE 13-6). -/
def GroupHeld (b : List Byte) (s : State) (g : GroupId) (shown : List Nat) : Prop :=
  let x := s.group g
  Holds b 1 1 ([GState.clear, .gathering, .parked, .raised, .clearing].idxOf x.state) ∧
  Holds b 2 1 (mark01 x.covered + 2 * mark01 x.announced + 4 * mark01 x.dark + 8 * mark01 x.deadline.isSome +
    16 * mark01 (!shown.isEmpty)) ∧
  Holds b 3 1 (s.members g) ∧ Holds b 4 1 (s.down g) ∧ Holds b 5 1 (s.eligible g) ∧ Holds b 6 1 x.settled ∧
  Holds b 7 1 shown.length ∧ Holds b 8 2 (shown.headD 0) ∧ Holds b 10 2 0 ∧
  Holds b 12 4 (x.deadline.elim 0 (fun t => t.toNat))

/-- A port tally record in the mirror (R154, TABLE 13-6). -/
def TallyHeld (b : List Byte) (ring : Option Ring) (fault : Bool) (t : Tally) : Prop :=
  Holds b 1 1 ([none, some Treatment.observe, some .claim].idxOf (ring.map (fun x => x.treatment)) + 4 * mark01 fault) ∧
  Holds b 2 2 t.taken ∧ Holds b 4 2 t.duplicates ∧ Holds b 6 2 t.checkFailures ∧ Holds b 8 2 t.malformed ∧
  Holds b 10 2 t.strays ∧ Holds b 12 2 t.left ∧ Holds b 14 2 t.blips

/-- The engine summary record in the mirror (R154, TABLE 13-6). -/
def SummaryHeld (b : List Byte) (s : State) : Prop :=
  Holds b 1 1 ([Mode.detached, .attached, .loading, .running, .halted].idxOf s.ctl.mode + 8 * mark01 s.map.isSome +
    16 * mark01 s.corr.stormIn + 32 * mark01 s.corr.stormArmed + 64 * mark01 s.table.brownoutArmed +
    128 * mark01 s.rw.stalled) ∧
  Packed b 2 6 11 [s.buildingDown, s.stateCounts.downFibre, s.stateCounts.downPower, s.stateCounts.downOff] ∧
  Holds b 8 2 s.rw.lostTotal ∧ Holds b 10 2 s.rw.indexFaults ∧ Holds b 12 2 s.rw.failedWrites ∧
  Holds b 14 2 s.table.suppressed

/-- A count raised by one, staying at 65,535. -/
def plusOne (n : Nat) : Nat := if n < 65535 then n + 1 else n

end Sys2Proof.Machine
end

