-- ==== Sys2Proof/Certificates/Slice0/Obligations.lean ====
section
/-! DEFINITION. The statements about the LW2410 that the provers are given: the machine as a whole, reset and the
invariants, the path unit, engine control, intake and terminals, groups, reports, commands, the map, the actions. -/

open Sys2Proof Sys2Proof.Machine

/-! ## The machine as a whole -/

/-- A step runs the command at the front of the queue on the state with the queue's rest. -/
def Obligations.StepRunsFrontCommand : Prop :=
  ∀ (c : Instr) (rest : List Instr) (s : State), s.pending = c :: rest → step s = exec c { s with pending := rest }

/-- On an empty queue one millisecond of engine time passes, and none while RESET_N is asserted. That a step stands for 1
ms is the model's choice (notes/assumptions/1.md). When an instant is reached and a deadline due (R1). -/
def Obligations.EmptyQueueCountsTime : Prop :=
  (∀ s : State, s.pending = [] →
    (s.inReset = true → step s = .next s) ∧ (s.inReset = false → step s = .next { s with time := s.time + 1 })) ∧
  (∀ (now x : Time) (ms : Nat), (reached now x = true ↔ (now - x).toNat < 2 ^ 31) ∧
    after x ms = x + BitVec.ofNat 32 ms ∧ due now none = false ∧ due now (some x) = reached now x)

/-- No command changes the queue, and none but the release of RESET_N changes engine time. That commands take no time, and
the queue itself, are the model's choice (notes/assumptions/1.md). -/
def Obligations.CommandsKeepQueueAndTime : Prop :=
  ∀ (c : Instr) (s t : State), exec c s = .next t →
    t.pending = s.pending ∧ ((∀ straps, c ≠ .resetNRelease straps) → t.time = s.time)

/-- Every command completes in every state, but for UPSTREAM_REQUEST with an operand that is no bus request, which stops.
That this stops is the model's choice (notes/assumptions/5.md). -/
def Obligations.OnlyNonRequestsStop : Prop :=
  ∀ (c : Instr) (s : State),
    (c.wf = true → ∃ t, exec c s = .next t) ∧ (c.wf = false → exec c s = .fault .notARequest)

/-- Beat k of a request covers the eight bytes from address + 8 × k, and byte enable j of beat k belongs to the byte at
address + 8 × k + j (R3); so the data of a write is read, and fields of several bytes little-endian (section 1.6). An
address that is no multiple of 8 is no request's and stops, which is the model's choice (notes/assumptions/5.md). -/
def Obligations.BeatsCoverEightBytes : Prop :=
  (∀ (r : Request) (s : State), r.addr.toNat % 8 ≠ 0 → exec (.upstreamRequest r) s = .fault .notARequest) ∧
  (∀ (r : Request) (base len : Nat), r.beatsOk = true → 0 < len →
    (r.overlaps base len = true ↔ ∃ k j, k < r.body.beatCount ∧ j < 8 ∧
      base ≤ r.addr.toNat + 8 * k + j ∧ r.addr.toNat + 8 * k + j < base + len)) ∧
  (∀ (r : Request) (k j : Nat) (b : Beat), r.beats[k]? = some b → j < 8 →
    r.enables (r.addr.toNat + 8 * k + j) = b.enable.getLsbD j) ∧
  (∀ (r : Request) (k j : Nat) (b : Beat) (h : j < 8), r.beats[k]? = some b → byteAt r.bytes (8 * k + j) = b.data[j].toNat) ∧
  (∀ (b : List Byte) (k n j : Nat), (∀ x, b[k]? = some x → byteAt b k = x.toNat) ∧ leAt b k n < 256 ^ n ∧
    (j < n → leAt b k n / 256 ^ j % 256 = byteAt b (k + j)))

/-! ## Reset -/

/-- What the rules say holds at the release of RESET_N holds in the reset state, block by block (R21, R30, R53, R69, R70,
R93, R130, R138, R160, R167, R175, R181, R187, TABLE 10-4). The levels of the straps and pins are the model's choice
(notes/assumptions/4.md), and so are the empty queue of commands (notes/assumptions/1.md), the count of free choices
(notes/assumptions/9.md), the list of returned responses (notes/assumptions/19.md), and the empty lanes, pass path and
list of requests under way, where R21 lets lanes hold what arrived during the reset (notes/assumptions/21.md). -/
def Obligations.ResetStateAsStated : Prop :=
  State.reset.pending = [] ∧ State.reset.inReset = false ∧ State.reset.time = 0 ∧ State.reset.map = none ∧
  State.reset.ctl =
    { mode := .detached, anchorAddr := 0x0000000400#40, anchor := none, startMark := true, holdupMark := false } ∧
  State.reset.loader =
    { capture := [], pointer := 0, declared := 0, timeout := 0, tag := 0, overlong := false, crc := 0xFFFFFFFF#32,
      burst := none } ∧
  (∀ p, State.reset.ring p = none ∧ State.reset.tally p = ⟨0, 0, 0, 0, 0, 0, 0⟩ ∧ State.reset.faultMark p = false) ∧
  (∀ n, State.reset.term n =
    { state := .unlisted, disp := .none, muted := false, lastTag := none, deadline := none, flapStart := none,
      downEntries := 0, quiet := none, lastChange := 0, lateGasps := 0 }) ∧
  State.reset.table.suppressed = 0 ∧ State.reset.table.brownoutArmed = true ∧
  (∀ g, State.reset.group g =
    { state := .clear, settled := 0, deadline := none, pending := [], parked := [], covered := false, announced := false,
      dark := false }) ∧
  State.reset.corr.stormIn = false ∧ State.reset.corr.stormArmed = true ∧
  State.reset.rw =
    { queue := [], nextSeq := 0, produced := 0, consumed := 0, occupancy := 0, stalled := false, sinceSync := 0, lost := 0,
      lostTotal := 0, indexFaults := 0, failedWrites := 0 } ∧
  State.reset.mirror.dirty = [] ∧ State.reset.mirror.inFlight = [] ∧ State.reset.mirror.cursor = 0 ∧
  (∀ i (h : i < 1281), State.reset.mirror.counts[i] = 0) ∧
  (∀ tag, State.reset.lane tag = { reqs := [], outcome := none }) ∧ State.reset.path.passPath = [] ∧
  State.reset.path.held = [] ∧ State.reset.path.issued = [] ∧ State.reset.path.responses = [] ∧
  State.reset.path.passRun = 0 ∧ State.reset.path.picks = 0 ∧
  State.reset.cmd.unit = .idle ∧ State.reset.cmd.inProgress = [] ∧ State.reset.cmd.deferred = [] ∧
  State.reset.cmd.due = [] ∧
  State.reset.settings =
    { grace := 200, gaspFollow := 1000, tapWindow := 1500, riserWindow := 2500, portWindow := 3500, zoneWindow := 2000,
      holdDown := 5000, tapRaise := 75, riserRaise := 50, portRaise := 50, zoneRaise := 40, tapClear := 25,
      riserClear := 25, portClear := 25, zoneClear := 20, tapMin := 2, zoneMin := 2, flapLimit := 4, flapWindow := 60,
      quietTime := 300, stormOn := 64, stormOff := 16, stormMode := .every, brownoutMode := .every, offReports := false,
      syncInterval := 256 } ∧
  (∀ l, State.reset.line l =
    { pin := false, level := false, deadline := none, actions := [], runPending := false, absorbed := 0 })

/-- The invariants hold in the reset state. -/
def Obligations.InvariantsHoldAtReset : Prop :=
  State.reset.mirrorSound ∧ State.reset.pathSound ∧ State.reset.storesSound ∧ State.reset.ringSound

/-- Every step keeps the dirty set a rising list of record indices and the drain cursor one (R156, R157). -/
def Obligations.StepKeepsMirrorSound : Prop :=
  ∀ s t : State, s.mirrorSound → step s = .next t → t.mirrorSound

/-- Every step keeps the lanes, the held-read list and the pass-run count within their bounds, the count 0 while the dirty
set is empty, and no read waiting in its lane for room or behind its tag without cause (R4, R14, R15, R17). -/
def Obligations.StepKeepsPathSound : Prop :=
  ∀ s t : State, s.pathSound → step s = .next t → t.pathSound

/-- Every step keeps the report ring sound: produced slot, consumed copy and occupancy agree with the sequence numbers,
and the reserved slots stay free until HALTED (R137, R139, R140). -/
def Obligations.StepKeepsRingSound : Prop :=
  ∀ s t : State, s.ringSound → step s = .next t → t.ringSound

/-- R184: the bounds of the stores and the exclusion of a line's list and a deferred entry with that line as trigger hold
after every step, and of the two registrations that would break the exclusion each is refused LINE_IN_USE: nothing but the
write-back and the passing of the slot write comes about. -/
def Obligations.LineExclusion : Prop :=
  (∀ s t : State, s.storesSound → step s = .next t → t.storesSound) ∧
  (∀ (s : State) (tag : Tag) (r : Request) (f : StepFor) (k : Kind) (l : Line),
    s.SlotWrite tag r f k → k.deferrable = true → paramsOk k s.ctl.mode r.bytes = true →
    (slotPlacement r.bytes = some (.line l) ∧ s.lineDeferred l = true ∨
      slotPlacement r.bytes = some .defer ∧ slotTrigger r.bytes = some (.line l) ∧ (s.line l).actions ≠ []) →
    ∃ t, exec (slotRow tag k) s = .next t ∧
      Took t (s.enqueue (.writeBack r.addr (writeBackBytes r.bytes .refused .lineInUse false 0))) tag r)

/-- The assertion of RESET_N (R21, R132, R160): the queue of own writes and the mirror's pending records go, the storm
state is OUT, own and mirror writes under way are absorbed. Every request of a lane and every held read, and nothing else,
enters the pass path behind what it holds, unchanged and not acted upon, those of a tag in their order. That the in-flight
list is emptied at the assertion, where the spec gives it empty at the release, is the model's choice
(notes/assumptions/45.md). -/
def Obligations.ResetAssertion : Prop :=
  (∀ s : State, s.inReset = false → s.pathSound → ∃ t new, exec .resetNAssertion s = .next t ∧
    t = { s with inReset := true, corr := { s.corr with stormIn := false }, rw := { s.rw with queue := [] },
                 mirror := { s.mirror with dirty := [], inFlight := [] }, path := t.path } ∧
    (∀ tag, (t.lane tag).reqs = []) ∧ t.path.held = [] ∧ t.path.passRun = 0 ∧
    t.path.passPath = s.path.passPath ++ new ∧ (∀ e ∈ new, e.acted = false) ∧
    (new.map (fun e => e.req)).Perm (s.path.held.map (fun h => h.req) ++
      (List.finRange 32).flatMap (fun tag => (s.lane tag).reqs)) ∧
    (∀ tag, ofTag tag (new.map (fun e => e.req)) = ofTag tag (s.path.held.map (fun h => h.req)) ++ (s.lane tag).reqs) ∧
    t.path.issued = s.path.issued.map Issued.absorb ∧ t.path.responses = s.path.responses) ∧
  (∀ (i : Nat) (r : Request) (stale absorbed acted : Bool) (given : Option (Resp × List Byte)),
    Issued.absorb (.own r absorbed) = .own r true ∧
    Issued.absorb (.mirror i r stale absorbed) = .mirror i r stale true ∧
    Issued.absorb (.pass r acted given) = .pass r acted given)

/-- The release of RESET_N (R21, R23, R30, R35): every block at its reset values, the mode DETACHED, or HALTED where
HOLDUP_LOW is asserted, the anchor address of the straps (TABLE 1-3), the debounced levels of the pins; what is under way
on the path stays, and the requests in the lanes are classified: those that leave a lane stand in the pass path,
unchanged, not acted upon and in their order. That the dirty set is empty with HOLDUP_LOW asserted too is the model's
choice (notes/assumptions/38.md). -/
def Obligations.ResetRelease : Prop :=
  (∀ (s : State) (straps : Straps), s.inReset = true → ∃ t new, exec (.resetNRelease straps) s = .next t ∧
    t = { State.reset with
          pending := s.pending,
          ctl := { mode := if straps.holdupLow then .halted else .detached,
                   anchorAddr := strapAddress straps.anchorSel, anchor := none, startMark := true,
                   holdupMark := straps.holdupLow },
          cmd := CommandUnit.reset straps.lineA straps.lineB, path := t.path } ∧
    t.path.held = [] ∧ t.path.passRun = 0 ∧ t.path.passPath = s.path.passPath ++ new ∧ (∀ e ∈ new, e.acted = false) ∧
    t.path.issued = s.path.issued ∧ (∀ tag, (t.lane tag).reqs <:+ (s.lane tag).reqs) ∧
    (s.pathSound → ∀ tag, (s.lane tag).reqs = ofTag tag (new.map (fun e => e.req)) ++ (t.lane tag).reqs)) ∧
  strapAddress 0 = 0x0000000400#40 ∧ strapAddress 1 = 0x0000100000#40 ∧ strapAddress 2 = 0x0040000000#40 ∧
  strapAddress 3 = 0x7FFFFFFFC0#40

/-! ## The path unit -/

/-- A request for a lane whose front is classified waits behind it; a lane of 4 accepts none (R4). A step write for which
the engine has no room stays in its lane with no effect on any block (R9, R10): room is 20 of the 48 own-write queue
entries free (R147), and for a slot write a unit not in ACTIONS. When the engine works, and when correlation and its
timers do (R21, R32, R37, R51, R64, R71, R99). -/
def Obligations.RequestWaitsInLane : Prop :=
  (∀ (s : State) (r q : Request) (v : Verdict), r.wf = true → s.Front r.tag q v →
    ((s.lane r.tag).reqs.length < 4 → exec (.upstreamRequest r) s =
      .next (s.setLane r.tag { s.lane r.tag with reqs := (s.lane r.tag).reqs ++ [r] })) ∧
    (4 ≤ (s.lane r.tag).reqs.length → exec (.upstreamRequest r) s = .next s)) ∧
  (∀ (s : State) (tag : Tag) (r : Request) (f : StepFor), s.Front tag r (.step f) → s.admits f = false →
    ∀ c ∈ stepRows tag, exec c s = .next s) ∧
  (∀ (s : State) (f : StepFor),
    let clearing := ∃ job addr since, s.cmd.unit = .busy job addr since ∧
      (job = .restart true ∨ job = .restart false ∨ job = .unmap true ∨ job = .unmap false)
    (s.working = true ↔ s.inReset = false ∧ s.ctl.mode ≠ .halted) ∧
    (s.ready = true ↔ s.working = true ∧ s.rw.queue.length + 20 ≤ 48) ∧
    (s.admits f = true ↔ s.ready = true ∧ ¬(f.command = true ∧ s.cmd.unit = .actions)) ∧
    (s.correlating = true ↔ s.ctl.mode = .running ∧ ¬clearing) ∧
    (s.expiryReady = true ↔ s.ready = true ∧ s.correlating = true))

/-- A request for an empty lane, where nothing else can move, is classified at once: it enters the pass path, or stays
with its outcome; behind a held read of its tag only a mirror read is classified (R4, R8, R15). A write held under an
outcome of another engine mode is classified again when a row examines it: it passes, or the row meets the new outcome
(R9, R22). Nothing else can move where no front is to be classified and no held read may leave. That a mirror read stays
in its lane until HELD_READ examines it is the model's choice (notes/assumptions/8.md), and so is what examines a held
write (notes/assumptions/7.md). -/
def Obligations.RequestIsClassified : Prop :=
  (∀ (s : State) (r : Request), r.wf = true → s.moves = [] → s.lane r.tag = { reqs := [], outcome := none } →
    (s.tagHeld r.tag = false → s.verdict r = .pass → exec (.upstreamRequest r) s =
      .next (s.withPath { s.path with passPath := s.path.passPath ++ [{ req := r, acted := false }] })) ∧
    (s.verdict r ≠ .pass → s.tagHeld r.tag = false ∨ s.verdict r = .mirrorCheck .presented → exec (.upstreamRequest r) s =
      .next (s.setLane r.tag { reqs := [r], outcome := some (s.ctl.mode, s.verdict r) })) ∧
    (s.tagHeld r.tag = true → s.verdict r ≠ .mirrorCheck .presented → exec (.upstreamRequest r) s =
      .next (s.setLane r.tag { reqs := [r], outcome := none }))) ∧
  (∀ (s : State) (tag : Tag) (r : Request) (rest : List Request) (m : Mode) (v : Verdict) (c : Instr),
    c ∈ stepRows tag ∨ c = .consumedIndexWrite tag → s.moves = [] → s.tagHeld tag = false →
    s.lane tag = { reqs := r :: rest, outcome := some (m, v) } → m ≠ s.ctl.mode → (∀ g, v ≠ .mirrorCheck g) →
    (s.verdict r ≠ .pass →
      exec c s = exec c (s.setLane tag { reqs := r :: rest, outcome := some (s.ctl.mode, s.verdict r) })) ∧
    (s.verdict r = .pass → rest = [] → exec c s = .next (s.withPath { s.path with
      lanes := s.path.lanes.set tag.val { reqs := [], outcome := none },
      passPath := s.path.passPath ++ [{ req := r, acted := false }] }))) ∧
  (∀ s : State, s.moves = [] ↔
    (∀ (tag : Tag) (r : Request), (s.lane tag).reqs.head? = some r →
      ((s.lane tag).outcome = none → s.tagHeld tag = true ∧ s.verdict r ≠ .mirrorCheck .presented) ∧
      ∀ m, (s.lane tag).outcome ≠ some (m, .mirrorCheck .again)) ∧
    ∀ older h younger, s.path.held = older ++ h :: younger → h.awaits = [] → ∃ g ∈ older, g.req.tag = h.req.tag) ∧
  (∀ (s : State) (tag : Tag), s.tagHeld tag = true ↔ ∃ h ∈ s.path.held, h.req.tag = tag)

/-- Classification by area and mode (R8, R21, R22, TABLE 1-7, TABLE 1-8), with an anchor block adopted and without. What a
full aligned write is (section 1.6). -/
def Obligations.ClassificationByMode : Prop :=
  (∀ (s : State) (r : Request), s.inReset = true → s.verdict r = .pass) ∧
  (∀ (s : State) (r : Request), r.isWrite = true → s.ctl.mode = .halted → s.verdict r = .pass) ∧
  (∀ (s : State) (r : Request), s.inReset = false → s.ctl.mode = .detached → s.ctl.anchor = none → (∀ p, s.ring p = none) →
    (r.fullAligned 64 = true ∧ r.addr = s.ctl.anchorAddr →
      s.verdict r = .step { anchor := true, intake := false, command := false, window := false, consumed := none }) ∧
    (¬(r.fullAligned 64 = true ∧ r.addr = s.ctl.anchorAddr) → s.verdict r = .pass)) ∧
  (∀ (s : State) (r : Request) (a : Anchor), s.inReset = false → s.ctl.anchor = some a → s.ctl.mode ≠ .detached →
    r.isWrite = false →
    (a.procMask.getLsbD r.tag = true ∧ r.overlaps a.mirrorBase.toNat 20496 = true → s.verdict r = .mirrorCheck .presented) ∧
    (¬(a.procMask.getLsbD r.tag = true ∧ r.overlaps a.mirrorBase.toNat 20496 = true) → s.verdict r = .pass)) ∧
  (∀ (s : State) (r : Request) (a : Anchor), s.inReset = false → s.ctl.anchor = some a →
    s.ctl.mode = .attached ∨ s.ctl.mode = .loading ∨ s.ctl.mode = .running → r.isWrite = true →
    let proc := a.procMask.getLsbD r.tag = true
    let anchor := proc ∧ r.fullAligned 64 = true ∧ r.addr = s.ctl.anchorAddr
    let ring := ∃ p x, s.ring p = some x ∧ x.framer = r.tag ∧ r.overlaps x.base.toNat (16 * x.slots) = true
    let slot := proc ∧ r.fullAligned 32 = true ∧ byteAt r.bytes 0 = 1 ∧ a.cmdBase.toNat ≤ r.addr.toNat ∧
      r.addr.toNat + 32 ≤ a.cmdBase.toNat + 32 * a.cmdSlots
    let window := s.ctl.mode = .loading ∧ proc ∧ r.overlaps a.windowBase.toNat 4096 = true
    let word := proc ∧ ∀ k < 4, r.enables (a.consumedAddr.toNat + k) = true
    let value := leAt r.bytes (a.consumedAddr.toNat - r.addr.toNat) 4
    (anchor ∨ ring ∨ slot ∨ window → ∃ f, s.verdict r = .step f ∧ (f.anchor = true ↔ anchor) ∧ (f.intake = true ↔ ring) ∧
      (f.command = true ↔ slot) ∧ (f.window = true ↔ window) ∧ (word → f.consumed = some value) ∧
      (¬word → f.consumed = none)) ∧
    (¬(anchor ∨ ring ∨ slot ∨ window) → (word → s.verdict r = .consumedIndex value) ∧ (¬word → s.verdict r = .pass))) ∧
  (∀ (r : Request) (n : Nat), (r.isWrite = true ↔ ∃ bs, r.body = .write bs) ∧
    (r.fullAligned n = true ↔
      ∃ bs, r.body = .write bs ∧ 8 * bs.length = n ∧ r.addr.toNat % n = 0 ∧ ∀ b ∈ bs, b.enable = 0xFF#8))

/-- The candidates of the mirror writer: M is the lowest dirty record at or above the cursor, else the lowest; H is the
lowest record that the oldest held read still needing a write awaits; neither while the writer is off (R16, R157, R158,
R160). -/
def Obligations.MirrorCandidates : Prop :=
  (∀ s : State, s.inReset = true ∨ s.ctl.mode = .detached ∨ s.ctl.anchor = none →
    s.drainNext = none ∧ s.heldWrite = none) ∧
  (∀ s : State, s.inReset = false → s.ctl.mode ≠ .detached → s.ctl.anchor ≠ none → s.mirrorSound →
    (s.mirror.dirty = [] → s.drainNext = none) ∧
    (s.mirror.dirty ≠ [] → ∃ i ∈ s.mirror.dirty, s.drainNext = some i ∧
      ((s.mirror.cursor ≤ i ∧ ∀ j ∈ s.mirror.dirty, s.mirror.cursor ≤ j → i ≤ j) ∨
        ((∀ j ∈ s.mirror.dirty, j < s.mirror.cursor) ∧ ∀ j ∈ s.mirror.dirty, i ≤ j)))) ∧
  (∀ s : State, (∀ h ∈ s.path.held, ∀ x ∈ h.awaits, x.2 ≠ .needsWrite) → s.heldWrite = none) ∧
  (∀ (s : State) (older : List HeldRead) (h : HeldRead) (younger : List HeldRead) (i : Nat), s.inReset = false →
    s.ctl.mode ≠ .detached → s.ctl.anchor ≠ none → s.pathSound →
    s.path.held = older ++ h :: younger → (∀ g ∈ older, ∀ x ∈ g.awaits, x.2 ≠ .needsWrite) →
    (i, .needsWrite) ∈ h.awaits → (∀ j, (j, .needsWrite) ∈ h.awaits → i ≤ j) → s.heldWrite = some i)

/-- A mirror write granted, H or M: the record as it stands with its count raised, at mirror base + 16 × i, under the own
tag; off the dirty set, in flight, the pass-run count 0; at an M grant the cursor moves on (R16, R17, R18, R151, R155,
R157). The sixteen bytes: the new count, then the terminal's, group's, port's or engine's fields (R152, R153, R154, R189,
TABLE 13-6). A held read that needs a write of the record then awaits answers of it, whatever else it awaits stays (R15,
R158); that it awaits as many as writes of the record are then in flight is notes/assumptions/17.md. -/
def Obligations.MirrorWriteGranted : Prop :=
  (∀ (s : State) (a : Anchor) (i : Nat) (hi : i < 1281), s.inReset = false → s.ctl.anchor = some a →
    let count := s.mirror.counts[i] + 1
    let m := { s.mirror with dirty := s.mirror.dirty.erase i, counts := s.mirror.counts.set i count,
                             inFlight := s.mirror.inFlight ++ [i] }
    let p := { s.path with
      passRun := 0,
      issued := s.path.issued ++ [.mirror i
        { addr := a.mirrorBase + BitVec.ofNat 40 (16 * i), tag := a.ownTag,
          body := .write (fullBeats (s.recordBytes i count)) } false false],
      held := s.path.held.map (HeldRead.granted i (s.mirror.inFlight.count i + 1)) }
    (s.heldWrite = some i → exec .downstreamGrant s = .next { s with mirror := m, path := p }) ∧
    (s.heldWrite = none → s.drainNext = some i → s.path.passRun = 16 ∨ (s.path.passPath = [] ∧ s.ownNext = none) →
      exec .downstreamGrant s =
        .next { s with mirror := { m with cursor := if i = 1280 then 0 else i + 1 }, path := p })) ∧
  (∀ (s : State) (i : Nat) (count : BitVec 8), i < 1281 →
    let b := s.recordBytes i count
    b.length = 16 ∧ Holds b 0 1 count.toNat ∧
    (∀ n : Fin 1024, i = n.val → TerminalHeld b (s.term n)) ∧
    (∀ n : Fin 128, i = 1024 + n.val → GroupHeld b s (.tap n) ((s.group (.tap n)).pending.map (fun k => k.val))) ∧
    (∀ n : Fin 32, i = 1152 + n.val → GroupHeld b s (.riser n) ((s.group (.riser n)).parked.map GroupId.number)) ∧
    (∀ n : Fin 16, i = 1184 + n.val → GroupHeld b s (.port n) ((s.group (.port n)).parked.map GroupId.number)) ∧
    (∀ n : Fin 64, i = 1200 + n.val → GroupHeld b s (.zone n) ((s.group (.zone n)).pending.map (fun k => k.val))) ∧
    (∀ p : Fin 16, i = 1264 + p.val → TallyHeld b (s.ring p) (s.faultMark p) (s.tally p)) ∧
    (i = 1280 → SummaryHeld b s)) ∧
  (∀ (h : HeldRead) (i j k : Nat) (w : Await), (h.granted i k).req = h.req ∧
    ((j, w) ∈ (h.granted i k).awaits ↔ ((j ≠ i ∨ w ≠ .needsWrite) ∧ (j, w) ∈ h.awaits) ∨
      (j = i ∧ w = .answers k ∧ (i, .needsWrite) ∈ h.awaits))) ∧
  (∀ b : List Byte, b.length = 16 → (fullBeats b).flatMap (fun e => e.data.toList) = b ∧ (fullBeats b).length = 2 ∧
    ∀ e ∈ fullBeats b, e.enable = 0xFF#8)

/-- The other grants of TABLE 1-10: an own write from the front of its queue at 32 entries or with no passing request; a
passing request as it stands otherwise, counted towards the pass run while the dirty set is not empty; nothing where
nothing is ready; while RESET_N is asserted the pass path alone (R6, R16, R17, R21). The form of an own write and its tag
(R18); what a report, a write-back and an acknowledgement hold (R134, R162, R188, R189, TABLES 13-1, 13-3, 13-5). -/
def Obligations.OwnAndPassingGrants : Prop :=
  (∀ s : State,
    let due := s.drainNext ≠ none ∧ s.path.passRun = 16
    let passed (e : PassEntry) (rest : List PassEntry) := s.withPath { s.path with
      passPath := rest, issued := s.path.issued ++ [.pass e.req e.acted none],
      passRun := if s.mirror.dirty = [] then s.path.passRun else min (s.path.passRun + 1) 16 }
    (s.inReset = false → s.heldWrite = none → ¬due → ∀ w rest, s.rw.queue = w :: rest → s.ownNext = some w →
      32 ≤ s.rw.queue.length ∨ s.path.passPath = [] →
      exec .downstreamGrant s = .next { s with
        rw := { s.rw with queue := rest },
        path := { s.path with issued := s.path.issued ++ [.own (s.ownRequest w) false] } }) ∧
    (s.inReset = false → s.heldWrite = none → ¬due → ∀ e rest, s.path.passPath = e :: rest →
      s.ownNext = none ∨ s.rw.queue.length < 32 → exec .downstreamGrant s = .next (passed e rest)) ∧
    (s.inReset = false → s.heldWrite = none → s.drainNext = none → s.ownNext = none → s.path.passPath = [] →
      exec .downstreamGrant s = .next s) ∧
    (s.inReset = true → (∀ e rest, s.path.passPath = e :: rest → exec .downstreamGrant s = .next (passed e rest)) ∧
      (s.path.passPath = [] → exec .downstreamGrant s = .next s))) ∧
  (∀ (s : State) (w : OwnWrite),
    let q := s.ownRequest w
    (∀ a, s.ctl.anchor = some a → q.tag = a.ownTag) ∧
    (∀ addr x t, w = .ack addr x t → s.ctl.anchor = none → q.tag = t) ∧
    (∀ addr r, w = .report addr r → q.addr = addr ∧ q.isWrite = true ∧ q.beats.length = 4 ∧
      (∀ e ∈ q.beats, e.enable = 0xFF#8) ∧ q.bytes = r.bytes) ∧
    (∀ addr b, w = .writeBack addr b → b.length = 32 → q.addr = addr ∧ q.isWrite = true ∧ q.beats.length = 4 ∧
      (∀ e ∈ q.beats, e.enable = 0xFF#8) ∧ q.bytes = b) ∧
    (∀ addr x t, w = .ack addr x t → q.addr = addr ∧ q.isWrite = true ∧ q.beats.map (fun e => e.enable) = [0xF0#8] ∧
      Holds q.bytes 4 1 (if x.adopted = true then 1 else 2) ∧
      Holds q.bytes 5 1 ([AckReason.none, .mark, .version, .check, .align, .size, .tag, .overlap, .busyMode].idxOf
        x.reason) ∧ Holds q.bytes 6 2 x.firstSlot)) ∧
  (∀ r : Report,
    let b := r.bytes
    b.length = 32 ∧ Holds b 0 4 r.seq.toNat ∧
    Holds b 5 1 ([Source.engine, .command, .deferred, .line .a, .line .b].idxOf r.source) ∧
    Holds b 6 2 (r.subject.getD 0xFFFF) ∧ Holds b 8 4 r.time.toNat ∧ Holds b 12 4 r.origin.toNat ∧
    PayloadHeld b r.payload) ∧
  (∀ (slot : List Byte) (st : SlotState) (code : Code) (overwritten : Bool) (data : Nat),
    let b := writeBackBytes slot st code overwritten data
    b.length = 32 ∧ Holds b 0 1 (2 + [SlotState.queued, .done, .refused, .failed].idxOf st) ∧
    (∀ k, 1 ≤ k → k ≤ 27 → byteAt b k = byteAt slot k) ∧ Holds b 28 1 (resultOf code) ∧ Holds b 29 1 (mark01 overwritten) ∧
    Holds b 30 2 data)

/-- The fence (R19): the front own write is no candidate exactly while a write that the engine acted upon, in the pass
path or issued and unanswered, overlaps it. That HEAD_GASP is not held is the model's choice (notes/assumptions/16.md). -/
def Obligations.FenceHoldsOwnWrite : Prop :=
  ∀ (s : State) (w : OwnWrite) (rest : List OwnWrite), s.rw.queue = w :: rest →
    let overlapped := ∃ r : Request, r.overlaps (s.ownRequest w).addr.toNat (s.ownRequest w).size = true ∧
      (({ req := r, acted := true } : PassEntry) ∈ s.path.passPath ∨ .pass r true none ∈ s.path.issued)
    (w.isHeadGasp = false → (overlapped → s.ownNext = none) ∧ (¬overlapped → s.ownNext = some w)) ∧
    (w.isHeadGasp = true → s.ownNext = some w)

/-- Memory's answer to a passing request is returned as it was given, with a read's data, in the order of its tag's
requests (R5). Behind an unanswered request of its tag it waits. An answer to the oldest of its tag is returned, and
behind it every answer that waited for it, up to the next request of the tag that memory has not answered. Nothing else
changes. Which request an answer is for, and the responses shown, are notes/assumptions/19.md. -/
def Obligations.ResponsesInTagOrder : Prop :=
  ∀ (s : State) (before later : List Issued) (r : Request) (acted : Bool) (resp : Resp) (data : List Byte),
    s.path.issued = before ++ .pass r acted none :: later →
    let n := before.countP Issued.unanswered
    let given := if r.isWrite then [] else data
    ((∀ x ∈ before ++ later, x.ofTag r.tag = false) → exec (.memoryResponse n resp data) s =
      .next (s.withPath { s.path with
        issued := before ++ later, responses := [{ tag := r.tag, resp := resp, data := given }] })) ∧
    (∀ x, before.find? (Issued.ofTag r.tag) = some x → x.unanswered = true →
      exec (.memoryResponse n resp data) s =
        .next (s.withPath { s.path with
          issued := before ++ .pass r acted (some (resp, given)) :: later, responses := [] })) ∧
    (∀ ready rest : List Issued, (∀ x ∈ before, x.ofTag r.tag = false) → later = ready ++ rest →
      (∀ x ∈ ready, x.ofTag r.tag = true → x.unanswered = false) →
      (∀ x, rest.find? (Issued.ofTag r.tag) = some x → x.unanswered = true) →
      exec (.memoryResponse n resp data) s = .next (s.withPath { s.path with
        issued := before ++ ready.filter (fun x => !x.ofTag r.tag) ++ rest,
        responses := { tag := r.tag, resp := resp, data := given } ::
          (ready.filter (Issued.ofTag r.tag)).filterMap Issued.response }))

/-- Memory's answer to an own write: OK changes nothing more, ERROR counts one failed own write, saturating, and marks the
engine summary; one issued before a pin reset is absorbed (R20, R21, R149). -/
def Obligations.OwnWriteAnswered : Prop :=
  ∀ (s : State) (before later : List Issued) (r : Request) (absorbed : Bool) (resp : Resp),
    s.path.issued = before ++ .own r absorbed :: later →
    let n := before.countP Issued.isOwn
    let u := s.withPath { s.path with issued := before ++ later }
    (resp = .ok ∨ absorbed = true → exec (.ownWriteError n resp) s = .next u) ∧
    (resp = .error → absorbed = false → s.rw.failedWrites < 65535 → exec (.ownWriteError n resp) s =
      .next ({ u with rw := { u.rw with failedWrites := u.rw.failedWrites + 1 } }.mark 1280)) ∧
    (resp = .error → absorbed = false → s.rw.failedWrites = 65535 → exec (.ownWriteError n resp) s = .next u)

/-- Memory's answer to a mirror write (R15, R20, R159): an absorbed one changes nothing, a stale one only counts an ERROR,
any other leaves the in-flight list and serves the held reads that await it; a read that is served, and before which no
read of its tag is held that is not, enters the pass path, those of its tag in their order; a served read stays only
behind one of its tag that is not; and reads that waited for room or for their tag are examined afresh. That each read
counts the answers to the writes in flight is notes/assumptions/17.md; that its examination afresh is no event is
notes/assumptions/42.md. -/
def Obligations.MirrorWriteAnswered : Prop :=
  (∀ (s : State) (before later : List Issued) (i : Nat) (r : Request) (stale absorbed : Bool) (resp : Resp),
    s.path.issued = before ++ .mirror i r stale absorbed :: later →
    let n := before.countP Issued.isMirror
    let u := s.withPath { s.path with issued := before ++ later }
    let v := if resp = .error then u.countFailedWrite else u
    (absorbed = true → exec (.mirrorWriteResponse n resp) s = .next u) ∧
    (absorbed = false → stale = true → exec (.mirrorWriteResponse n resp) s = .next v) ∧
    (absorbed = false → stale = false → ∃ t, exec (.mirrorWriteResponse n resp) s = .next t ∧
      t = { v with mirror := { v.mirror with inFlight := v.mirror.inFlight.erase i }, path := t.path } ∧
      Moved { u.path with held := s.path.held.map (HeldRead.answered i) } t.path ∧
      (s.pathSound →
        (∃ new, t.path.passPath = s.path.passPath ++ new ∧ (∀ e ∈ new, e.acted = false) ∧
          ∀ older h younger, s.path.held = older ++ h :: younger → (h.answered i).awaits = [] →
            (∀ g ∈ older, g.req.tag = h.req.tag → (g.answered i).awaits = []) →
            ofTag h.req.tag ((older ++ [h]).map (fun g => g.req)) <+: ofTag h.req.tag (new.map (fun e => e.req))) ∧
        (∀ older h younger, t.path.held = older ++ h :: younger → h.awaits = [] →
          ∃ g ∈ older, g.req.tag = h.req.tag ∧ g.awaits ≠ []) ∧
        t.path.waitsSound ∧ ∀ tag m, (t.lane tag).reqs ≠ [] → (t.lane tag).outcome ≠ some (m, .mirrorCheck .again)))) ∧
  (∀ (h : HeldRead) (i j : Nat) (w : Await), (j, w) ∈ (h.answered i).awaits ↔
    ((j ≠ i ∨ w = .needsWrite) ∧ (j, w) ∈ h.awaits) ∨
      ∃ k, j = i ∧ w = .answers (k + 1) ∧ (i, .answers (k + 2)) ∈ h.awaits)

/-- A mirror read examined (R14, R15): current, it passes, or waits behind a held read of its tag; otherwise it enters the
held-read list with the records that make it stale, or waits in its lane for room there. A record is stale while it is
dirty or a write of it is in flight. A read that waits is left as it is. That HELD_READ examines a read is the model's
choice (notes/assumptions/8.md); that a read awaits as many answers as writes of the record are in flight is
notes/assumptions/17.md; that what a read waited for lets it be examined afresh at once is notes/assumptions/42.md. -/
def Obligations.HeldReadExamined : Prop :=
  (∀ (s : State) (tag : Tag) (r : Request) (m : Mode) (a : Anchor), (s.lane tag).reqs.head? = some r →
    (s.lane tag).outcome = some (m, .mirrorCheck .presented) → s.ctl.anchor = some a → r.wf = true →
    r.overlaps a.mirrorBase.toNat 20496 = true →
    let stale (i : Nat) := i < 1281 ∧ r.overlaps (a.mirrorBase.toNat + 16 * i) 16 = true ∧
      (i ∈ s.mirror.dirty ∨ i ∈ s.mirror.inFlight)
    let left : Path := { s.path with lanes := s.path.lanes.set tag.val { reqs := (s.lane tag).reqs.tail, outcome := none } }
    let waits (stage : ReadStage) := ∃ t, exec (.heldRead tag) s = .next t ∧ t = s.withPath t.path ∧ Moved s.path t.path ∧
      (s.moves = [] → t = s.setLane tag { s.lane tag with outcome := some (s.ctl.mode, .mirrorCheck stage) })
    ((∀ i, ¬stale i) → s.tagHeld tag = false → ∃ t, exec (.heldRead tag) s = .next t ∧ t = s.withPath t.path ∧
      Moved { left with passPath := left.passPath ++ [{ req := r, acted := false }] } t.path) ∧
    ((∀ i, ¬stale i) → s.tagHeld tag = true → waits .behind) ∧
    ((∃ i, stale i) → s.path.held.length < 8 → ∃ t awaits, exec (.heldRead tag) s = .next t ∧ t = s.withPath t.path ∧
      Moved { left with held := left.held ++ [{ req := r, awaits := awaits }] } t.path ∧
      ∀ i w, (i, w) ∈ awaits ↔ stale i ∧
        w = if i ∈ s.mirror.dirty then .needsWrite else .answers (s.mirror.inFlight.count i)) ∧
    ((∃ i, stale i) → 8 ≤ s.path.held.length → waits .room)) ∧
  (∀ (s : State) (tag : Tag) (r : Request) (m : Mode) (stage : ReadStage), (s.lane tag).reqs.head? = some r →
    (s.lane tag).outcome = some (m, .mirrorCheck stage) → stage ≠ .presented → exec (.heldRead tag) s = .next s)

/-! ## Engine control -/

/-- The checks of an anchor block are made in the order of TABLE 2-2, and the first that fails is the reason of the
refusal; a refusal is an acknowledgement and nothing else (R24, R27, R28). -/
def Obligations.AnchorChecksInOrder : Prop :=
  (∀ (block : Addr) (rings : List (Nat × Nat)) (b : List Byte),
    let a := anchorOf b
    let areas := a.areas ++ [(block.toNat, 64)]
    let apart (p q : Nat × Nat) := ¬(p.1 < q.1 + q.2 ∧ q.1 < p.1 + p.2)
    let mark := leAt b 0 2 = 0xA5C3
    let version := byteAt b 2 = 1
    let check := leAt b 56 4 = (crc32 (b.take 56)).toNat
    let align := a.ringBase.toNat % 64 = 0 ∧ a.cmdBase.toNat % 64 = 0 ∧ a.mirrorBase.toNat % 64 = 0 ∧
      a.windowBase.toNat % 64 = 0 ∧ a.consumedAddr.toNat % 4 = 0
    let size := (∃ k, 4 ≤ k ∧ k ≤ 12 ∧ a.ringSlots = 2 ^ k) ∧ 8 ≤ a.cmdSlots ∧ a.cmdSlots ≤ 64 ∧
      ∀ p ∈ a.areas, p.1 + p.2 ≤ 2 ^ 40
    let tag := byteAt b 3 ≤ 31 ∧ a.procMask ≠ 0 ∧ a.procMask.getLsbD (byteAt b 3) = false
    let free := areas.Pairwise apart ∧ ∀ p ∈ areas, ∀ q ∈ rings, apart p q
    (¬mark → anchorFault block rings b = some .mark) ∧
    (mark → ¬version → anchorFault block rings b = some .version) ∧
    (mark → version → ¬check → anchorFault block rings b = some .check) ∧
    (mark → version → check → ¬align → anchorFault block rings b = some .align) ∧
    (mark → version → check → align → ¬size → anchorFault block rings b = some .size) ∧
    (mark → version → check → align → size → ¬tag → anchorFault block rings b = some .tag) ∧
    (mark → version → check → align → size → tag → ¬free → anchorFault block rings b = some .overlap) ∧
    (mark → version → check → align → size → tag → free → anchorFault block rings b = none)) ∧
  (∀ (s : State) (tag : Tag) (r : Request) (f : StepFor) (reason : AckReason), s.Admitted tag r f → f.anchor = true →
    s.ctl.mode = .detached ∨ s.ctl.mode = .attached →
    anchorFault s.ctl.anchorAddr s.ringAreas r.bytes = some reason →
    ∃ t, exec (.anchorWrite tag) s = .next t ∧
      Took t (s.enqueue (.ack (s.ctl.anchorAddr + 56) { adopted := false, reason := reason, firstSlot := 0 } r.tag)) tag r)

/-- Adoption (R25, R26, R138, R156, R159): ATTACHED with the block's fields, the acknowledgement, then a SYNC, STARTED
where the start mark stands and RESUMED where reports were stalled, in the slot of its sequence number; the whole mirror
dirty; every held read enters the pass path, and mirror writes under way are stale. Where the fields stand in the block
(R188, TABLE 13-1), the areas they bound (TABLE 1-7), and the areas of the rings in force. That the anchor write enters
the pass path before them is the model's choice (notes/assumptions/35.md). -/
def Obligations.AnchorAdopted : Prop :=
  (∀ (s : State) (tag : Tag) (r : Request) (f : StepFor), s.Admitted tag r f → f.anchor = true →
    s.ctl.mode = .detached ∨ s.ctl.mode = .attached → anchorFault s.ctl.anchorAddr s.ringAreas r.bytes = none →
    let a := anchorOf r.bytes
    let slot := s.rw.nextSeq.toNat % a.ringSlots
    let sync : Report :=
      { seq := s.rw.nextSeq, source := .engine, subject := none, time := s.time, origin := 0,
        payload := .sync { started := s.ctl.startMark, resumed := s.rw.stalled } .attached s.buildingDown s.stateCounts
          s.rw.lost s.rw.indexFaults s.rw.failedWrites }
    ∃ t, exec (.anchorWrite tag) s = .next t ∧
      Took t { s with
        ctl := { s.ctl with mode := .attached, anchor := some a, startMark := false },
        intake := { s.intake with faultMarks := Vector.replicate 16 false },
        rw := { s.rw with
          queue := s.rw.queue ++ [.ack (s.ctl.anchorAddr + 56) { adopted := true, reason := .none, firstSlot := slot } r.tag,
            .report (a.ringBase + BitVec.ofNat 40 (32 * slot)) sync],
          nextSeq := s.rw.nextSeq + 1, produced := (slot + 1) % a.ringSlots, consumed := slot, occupancy := 1,
          stalled := false, sinceSync := 0, lost := if s.rw.stalled then 0 else s.rw.lost },
        mirror := { s.mirror with dirty := List.range 1281, cursor := 0, inFlight := [] },
        path := { s.path with held := s.path.held.map HeldRead.satisfy, issued := s.path.issued.map Issued.outdate } } tag r ∧
      (s.pathSound → (∀ h ∈ s.path.held, ({ req := h.req, acted := false } : PassEntry) ∈ t.path.passPath) ∧
        ∀ h ∈ t.path.held, h.awaits ≠ [])) ∧
  (∀ b : List Byte,
    let a := anchorOf b
    (byteAt b 3 ≤ 31 → a.ownTag.val = byteAt b 3) ∧ a.procMask.toNat = leAt b 4 4 ∧ a.ringBase.toNat = leAt b 8 5 ∧
    a.ringSlots = leAt b 13 2 ∧ (a.completionReports = true ↔ byteAt b 15 % 2 = 1) ∧
    a.consumedAddr.toNat = leAt b 16 5 ∧ a.cmdBase.toNat = leAt b 24 5 ∧ a.cmdSlots = byteAt b 29 ∧
    a.mirrorBase.toNat = leAt b 32 5 ∧ a.windowBase.toNat = leAt b 40 5) ∧
  (∀ a : Anchor, a.areas = [(a.ringBase.toNat, 32 * a.ringSlots), (a.consumedAddr.toNat, 4),
    (a.cmdBase.toNat, 32 * a.cmdSlots), (a.mirrorBase.toNat, 16 * 1281), (a.windowBase.toNat, 4096)]) ∧
  (∀ (s : State) (q : Nat × Nat), q ∈ s.ringAreas ↔ ∃ p x, s.ring p = some x ∧ q = (x.base.toNat, 16 * x.slots)) ∧
  (∀ (h : HeldRead) (i : Nat) (r : Request) (stale absorbed acted : Bool) (given : Option (Resp × List Byte)),
    h.satisfy = { h with awaits := [] } ∧ Issued.outdate (.own r absorbed) = .own r absorbed ∧
    Issued.outdate (.mirror i r stale absorbed) = .mirror i r true absorbed ∧
    Issued.outdate (.pass r acted given) = .pass r acted given)

/-- An anchor write in LOADING or RUNNING is refused BUSY_MODE and reported ANCHOR_IGNORED; it changes nothing else
(R27). -/
def Obligations.AnchorIgnored : Prop :=
  ∀ (s : State) (tag : Tag) (r : Request) (f : StepFor), s.Admitted tag r f → f.anchor = true →
    s.ctl.mode = .loading ∨ s.ctl.mode = .running →
    ∃ t, exec (.anchorWrite tag) s = .next t ∧
      Took t ((s.enqueue (.ack (s.ctl.anchorAddr + 56) { adopted := false, reason := .busyMode, firstSlot := 0 } r.tag)).makeReport
        { origin := { source := .engine, word := 0 }, subject := none, payload := .anchorIgnored }) tag r

/-- HOLDUP_LOW (R35, R36, R37): the HEAD_GASP in front of the own-write queue, in place of the back entry of a full one;
the mode HALTED; the burst timer stopped; a command that made the unit BUSY written back FAILED, HALTED. In DETACHED the
mode and the holdup mark alone; in HALTED and under RESET_N nothing. That HEAD_GASP raises the count since a SYNC (R145,
against R138's table) is the model's choice (notes/assumptions/43.md); that the write-back joins a queue that the
HEAD_GASP has left full, as its 49th entry, is notes/assumptions/27.md. That the engine summary is marked dirty in
DETACHED too is the model's choice (notes/assumptions/37.md). -/
def Obligations.HoldupTaken : Prop :=
  (∀ s : State, s.inReset = true ∨ s.ctl.mode = .halted → exec .holdupLowAssertion s = .next s) ∧
  (∀ s : State, s.inReset = false → s.ctl.mode = .detached → exec .holdupLowAssertion s =
    .next ({ s with ctl := { s.ctl with mode := .halted, holdupMark := true } }.mark 1280)) ∧
  (∀ (s : State) (a : Anchor), s.inReset = false → s.ctl.mode = .attached ∨ s.ctl.mode = .loading ∨ s.ctl.mode = .running →
    s.ctl.anchor = some a → s.rw.occupancy < a.ringSlots →
    let gasp : OwnWrite := .report (a.ringBase + BitVec.ofNat 40 (32 * s.rw.produced))
      { seq := s.rw.nextSeq, source := .engine, subject := none, time := s.time, origin := 0,
        payload := .headGasp s.buildingDown s.stateCounts s.corr.stormIn }
    let v := if s.rw.queue.length < 48 then s else { s with rw := { s.rw with queue := s.rw.queue.dropLast } }.countFailedWrite
    let u := { v with
      ctl := { s.ctl with mode := .halted, holdupMark := true }, loader := { s.loader with burst := none },
      rw := { v.rw with queue := gasp :: v.rw.queue, nextSeq := s.rw.nextSeq + 1,
                        produced := (s.rw.produced + 1) % a.ringSlots, occupancy := s.rw.occupancy + 1,
                        sinceSync := s.rw.sinceSync + 1 } }.mark 1280
    (s.cmd.unit.isBusy = false → exec .holdupLowAssertion s = .next (u.setUnit .idle)) ∧
    (∀ job addr since e, s.cmd.unit = .busy job addr since → s.progress addr = some e →
      exec .holdupLowAssertion s = .next { u with
        rw := { u.rw with queue := u.rw.queue ++ [.writeBack addr (writeBackBytes e.slot .failed .halted e.overwritten 0)] },
        cmd := { u.cmd with unit := .idle, inProgress := s.cmd.inProgress.filter (fun e => e.addr != addr) } }))

/-! ## The report writer -/

/-- A consumed-index value (R11, R142, R143): one that is no slot number or would release more than is occupied is an
index fault; any other moves the consumed copy and frees slots, and with a quarter of the ring free it ends a stall with a
SYNC, RESUMED. With a full own-write queue it waits. A value handed over at the taking of a step (R8) does the same. -/
def Obligations.ConsumedIndexTaken : Prop :=
  (∀ (s : State) (tag : Tag) (r : Request) (v : Nat) (a : Anchor), s.Front tag r (.consumedIndex v) → s.working = true →
    s.ctl.anchor = some a →
    let released := (v + a.ringSlots - s.rw.consumed) % a.ringSlots
    let u := { s with rw := { s.rw with consumed := v, occupancy := s.rw.occupancy - released } }
    (48 ≤ s.rw.queue.length → exec (.consumedIndexWrite tag) s = .next s) ∧
    (s.rw.queue.length < 48 → ∃ t, exec (.consumedIndexWrite tag) s = .next t ∧
      (a.ringSlots ≤ v ∨ s.rw.occupancy < released → s.rw.indexFaults < 65535 →
        Took t ({ s with rw := { s.rw with indexFaults := s.rw.indexFaults + 1 } }.mark 1280) tag r) ∧
      (a.ringSlots ≤ v ∨ s.rw.occupancy < released → s.rw.indexFaults = 65535 → Took t s tag r) ∧
      (v < a.ringSlots → released ≤ s.rw.occupancy →
        s.rw.stalled = false ∨ 4 * (a.ringSlots - u.rw.occupancy) < a.ringSlots → Took t u tag r) ∧
      (v < a.ringSlots → released ≤ s.rw.occupancy → s.rw.stalled = true →
        a.ringSlots ≤ 4 * (a.ringSlots - u.rw.occupancy) →
        Took t (({ u with rw := { u.rw with stalled := false } }.mark 1280).makeSync { resumed := true }
          { source := .engine, word := 0 }).1 tag r))) ∧
  (∀ (s : State) (f : StepFor), f.consumed = none → s.handOver f = s) ∧
  (∀ (s : State) (f : StepFor) (v : Nat) (a : Anchor), f.consumed = some v → s.ctl.anchor = some a →
    let released := (v + a.ringSlots - s.rw.consumed) % a.ringSlots
    let u := { s with rw := { s.rw with consumed := v, occupancy := s.rw.occupancy - released } }
    (a.ringSlots ≤ v ∨ s.rw.occupancy < released → s.rw.indexFaults < 65535 →
      s.handOver f = { s with rw := { s.rw with indexFaults := s.rw.indexFaults + 1 } }.mark 1280) ∧
    (a.ringSlots ≤ v ∨ s.rw.occupancy < released → s.rw.indexFaults = 65535 → s.handOver f = s) ∧
    (v < a.ringSlots → released ≤ s.rw.occupancy →
      (s.rw.stalled = false ∨ 4 * (a.ringSlots - u.rw.occupancy) < a.ringSlots → s.handOver f = u) ∧
      (s.rw.stalled = true → a.ringSlots ≤ 4 * (a.ringSlots - u.rw.occupancy) → s.handOver f =
        (({ u with rw := { u.rw with stalled := false } }.mark 1280).makeSync { resumed := true }
          { source := .engine, word := 0 }).1)))

/-- A report against the reserve of the ring (R136, R137, R139, R140, R141, R145): with 3 slots free it is created, and
followed by a SYNC once the interval is reached; with 2 free it is counted lost, an OVERRUN takes the place, and the stall
begins; during a stall it is counted lost (that the OVERRUN brings no SYNC where the interval is reached is
notes/assumptions/13.md); without a ring nothing is made. ALERT is asserted while the occupancy is above 0, but not under
RESET_N (R150). -/
def Obligations.ReportsAgainstReserve : Prop :=
  (∀ s : State, s.alert = true ↔ s.inReset = false ∧ 0 < s.rw.occupancy) ∧
  (∀ (s : State) (d : Draft), s.ctl.anchor = none → s.makeReport d = s) ∧
  (∀ (s : State) (a : Anchor) (d : Draft), s.ctl.anchor = some a →
    let free := a.ringSlots - s.rw.occupancy
    let made := { s.created a d with rw := { (s.created a d).rw with sinceSync := s.rw.sinceSync + 1 } }
    let counted := { s with rw := { s.rw with lost := plusOne s.rw.lost, lostTotal := plusOne s.rw.lostTotal } }
    let lost := if s.rw.lost < 65535 ∨ s.rw.lostTotal < 65535 then counted.mark 1280 else counted
    let displaced := lost.created a
      { origin := { source := .engine, word := 0 }, subject := none, payload := .overrun (plusOne s.rw.lostTotal) }
    (s.rw.stalled = false → 3 ≤ free → s.rw.sinceSync + 1 < s.settings.syncInterval → s.makeReport d = made) ∧
    (s.rw.stalled = false → 3 ≤ free → s.settings.syncInterval ≤ s.rw.sinceSync + 1 →
      s.makeReport d = (made.makeSync {} { source := .engine, word := 0 }).1) ∧
    (s.rw.stalled = false → free = 2 →
      s.makeReport d = { displaced with rw := { displaced.rw with stalled := true, sinceSync := s.rw.sinceSync + 1 } }.mark 1280) ∧
    (s.rw.stalled = true → s.makeReport d = lost))

/-- A SYNC (R63, R139, R144): created under the same reserve with every value as it stands, it sets the count since a SYNC
to 0 and clears every fault mark; with RESUMED it clears the lost count; displaced, it is counted lost like any report. -/
def Obligations.SyncMade : Prop :=
  ∀ (s : State) (a : Anchor) (flags : SyncFlags) (o : Origin), s.ctl.anchor = some a →
    let free := a.ringSlots - s.rw.occupancy
    let d : Draft :=
      { origin := o, subject := none,
        payload := .sync flags s.ctl.mode s.buildingDown s.stateCounts s.rw.lost s.rw.indexFaults s.rw.failedWrites }
    let u := s.created a d
    (s.rw.stalled = false → 3 ≤ free → ∃ v, s.makeSync flags o = (v, true) ∧
      v = { u with
        rw := { u.rw with sinceSync := 0, lost := if flags.resumed then 0 else s.rw.lost },
        intake := { s.intake with faultMarks := Vector.replicate 16 false },
        mirror := { s.mirror with dirty := v.mirror.dirty } } ∧
      ∀ i, i ∈ v.mirror.dirty ↔ i ∈ s.mirror.dirty ∨ (∃ p, s.faultMark p = true ∧ i = 1264 + p.val) ∨
        (flags.resumed = true ∧ s.rw.lost ≠ 0 ∧ i = 1280)) ∧
    (s.rw.stalled = true ∨ free = 2 → s.makeSync flags o = (s.makeReport d, false))

/-! ## Intake -/

/-- A malformed write and a check failure are counted and reported INTAKE_FAULT where the port's fault mark is clear,
which then is set; the write passes as it is (R60, R61, R62, R68). A message is a full aligned 16-byte write with NEW in
byte 0, which lies in one slot of its ring (R60); its kind and framer time (TABLE 13-2); the write is attributed to the
lowest port whose ring it writes (R59). That the mark is set after the cadence SYNC the report may bring is
notes/assumptions/14.md; that a write for several areas is judged, then captured, then hands its consumed index over is
the model's choice (notes/assumptions/18.md). -/
def Obligations.IntakeFaultsReported : Prop :=
  let fault (s : State) (p : Fin 16) (k : FaultKind) (word : BitVec 32) :=
    if s.faultMark p = true then s
    else (s.makeReport { origin := { source := .engine, word := word }, subject := some (1184 + p.val),
                         payload := .intakeFault p k }).putFaultMark p true
  (∀ (s : State) (tag : Tag) (r : Request) (f : StepFor) (p : Fin 16), s.Admitted tag r f → f.intake = true →
    messageForm r = false → s.portOf r = some p →
    let u := fault (s.putTally p { s.tally p with malformed := sat16 (s.tally p).malformed }) p .malformed 0
    ∃ t, exec (.malformed tag) s = .next t ∧ Took t ((if f.window then u.captureWrite r else u).handOver f) tag r) ∧
  (∀ (s : State) (tag : Tag) (r : Request) (f : StepFor) (p : Fin 16) (x : Ring) (row : MsgKind) (k : FaultKind),
    s.Message tag r f p x → msgKind r.bytes = some row ∨ msgKind r.bytes = none → messageFault p r.bytes = some k →
    ∃ t, exec (messageRow tag row) s = .next t ∧
      Took t (fault (s.putTally p { s.tally p with checkFailures := sat16 (s.tally p).checkFailures }) p k
        (framerTime r.bytes)) tag r) ∧
  (∀ (r : Request) (x : Ring), (messageForm r = true ↔ r.fullAligned 16 = true ∧ byteAt r.bytes 0 = 1) ∧
    (messageForm r = true → x.base.toNat % 16 = 0 → r.overlaps x.base.toNat (16 * x.slots) = true →
      r.size = 16 ∧ ∃ k < x.slots, r.addr.toNat = x.base.toNat + 16 * k)) ∧
  (∀ b : List Byte, (framerTime b).toNat = leAt b 8 4 ∧
    ∀ k, msgKind b = some k ↔ byteAt b 1 = 1 + [MsgKind.gasp, .loss, .restore, .portDark, .portLit].idxOf k) ∧
  (∀ (s : State) (r : Request) (p : Fin 16),
    let writes (q : Fin 16) := r.isWrite = true ∧
      ∃ x, s.ring q = some x ∧ x.framer = r.tag ∧ r.overlaps x.base.toNat (16 * x.slots) = true
    s.portOf r = some p ↔ writes p ∧ ∀ q < p, ¬writes q)

/-- The checks of a message are made in the order of TABLE 4-2 (R2, R61). The CRC-8 and the CRC-32, bit by bit: the CRC-8
takes the bits of a byte from the most significant, the CRC-32 from the least, its polynomial reflected (R2). -/
def Obligations.MessageChecksInOrder : Prop :=
  (∀ (p : Fin 16) (m : List Byte),
    let check := byteAt m 15 = (crc8 ((m.drop 1).take 14)).toNat
    let port := byteAt m 2 = p.val
    let known := 1 ≤ byteAt m 1 ∧ byteAt m 1 ≤ 5
    let cause := if byteAt m 1 = 1 then byteAt m 5 = 1 ∨ byteAt m 5 = 2 else byteAt m 5 = 0
    let rest := leAt m 6 2 = 0 ∧ leAt m 12 3 = 0 ∧ (4 ≤ byteAt m 1 → byteAt m 3 = 0xFF)
    (¬check → messageFault p m = some .check) ∧
    (check → ¬port → messageFault p m = some .portMismatch) ∧
    (check → port → ¬known → messageFault p m = some .unknownKind) ∧
    (check → port → known → ¬cause → messageFault p m = some .unknownCause) ∧
    (check → port → known → cause → ¬rest → messageFault p m = some .reserved) ∧
    (check → port → known → cause → rest → messageFault p m = none)) ∧
  (∀ m : List Byte,
    let bit8 (c : BitVec 8) (d : Bool) := if (c.msb ^^ d) = true then (c <<< 1) ^^^ 0x07#8 else c <<< 1
    let bit32 (c : BitVec 32) (d : Bool) :=
      if (c.getLsbD 0 ^^ d) = true then (c >>> 1) ^^^ (0x04C11DB7#32).reverse else c >>> 1
    crc8 m = m.foldl (fun c b => [7, 6, 5, 4, 3, 2, 1, 0].foldl (fun c k => bit8 c (b.getLsbD k)) c) 0 ∧
    crc32 m = m.foldl (fun c b => (List.range 8).foldl (fun c k => bit32 c (b.getLsbD k)) c) 0xFFFFFFFF#32 ^^^
      0xFFFFFFFF#32)

/-- A sound message outside correlation is left; one whose terminal or port is not mapped is a stray; one that changes
nothing is a DUPLICATE, answered so under CLAIM; each only counts (R64, R65, R66, R67, R68). An answer replaces byte 0
alone (R13); a tally stays at 65,535; the map answers which terminal a pair names, and a pair that none has names none
(R54). A write held while its ring was moved or cleared, so that it overlaps no ring of its tag any more, passes unchanged
and has no effect (R57, R58); that it counts as acted upon for the fence is the model's choice
(notes/assumptions/36.md). -/
def Obligations.MessagesWithoutEffect : Prop :=
  (∀ (s : State) (tag : Tag) (r : Request) (f : StepFor) (p : Fin 16) (x : Ring) (k : MsgKind),
    s.Message tag r f p x → messageFault p r.bytes = none → msgKind r.bytes = some k →
    ∃ t, exec (messageRow tag k) s = .next t ∧
      (s.correlating = false → Took t (s.putTally p { s.tally p with left := sat16 (s.tally p).left }) tag r) ∧
      (s.correlating = true →
        (if k.isPort then s.portMapped p = false else s.terminalOf p (byteAt r.bytes 3) = none) →
        Took t (s.putTally p { s.tally p with strays := sat16 (s.tally p).strays }) tag r) ∧
      (s.correlating = true →
        (k = .portDark ∧ s.portMapped p = true ∧ (s.group (.port p)).dark = true ∨
          k = .portLit ∧ s.portMapped p = true ∧ (s.group (.port p)).dark = false ∨
          ∃ n e, s.terminalOf p (byteAt r.bytes 3) = some n ∧ s.entry? n = some e ∧
            s.Unchanged k (s.term n) (repeatTag r.bytes)) →
        Took t (s.putTally p { s.tally p with duplicates := sat16 (s.tally p).duplicates }) tag
          (if x.treatment = .claim then r.withByte0 3 else r))) ∧
  (∀ (s : State) (tag : Tag) (r : Request) (f : StepFor) (c : Instr), s.Admitted tag r f → f.intake = true →
    f.window = false → f.consumed = none →
    (∀ p x, s.ring p = some x → x.framer = r.tag → r.overlaps x.base.toNat (16 * x.slots) = false) →
    (messageForm r = false ∧ c = .malformed tag ∨
      ∃ k, messageForm r = true ∧ c = messageRow tag k ∧ (msgKind r.bytes = some k ∨ msgKind r.bytes = none)) →
    ∃ t, exec c s = .next t ∧ Took t s tag r) ∧
  (∀ (b : List Byte) (n : Nat), (repeatTag b).toNat = byteAt b 4 ∧ sat16 n = if n < 65535 then n + 1 else n) ∧
  (∀ (addr : Addr) (tag : Tag) (b : Beat) (bs : List Beat) (v : Byte),
    Request.withByte0 { addr := addr, tag := tag, body := .write (b :: bs) } v =
      { addr := addr, tag := tag, body := .write ({ data := b.data.set 0 v, enable := b.enable } :: bs) }) ∧
  (∀ (s : State) (p : Fin 16) (l : Nat) (n : Fin 1024),
    (s.map = none → s.terminalOf p l = none ∧ s.entry? n = none) ∧
    ∀ m, s.map = some m → s.entry? n = m.terminals[n.val]? ∧
      (m.terminals.length ≤ 1024 → (m.terminals.map (fun e => (e.port, e.localId))).Pairwise (· ≠ ·) →
        (s.terminalOf p l = some n ↔ ∃ e, m.terminals[n.val]? = some e ∧ e.port = p ∧ e.localId.val = l)))

/-! ## Terminals -/

/-- A changed record is marked dirty, and only then: a terminal's, with the engine summary and the groups whose measures
its change of state moves; a group's, with its parent's where the parent's down count moves; a port's tally (R68, R70,
R91, R93, R156). Which states count towards which measure (TABLE 6-3). A mark adds its index alone; the record of each
group (TABLE 9-1). -/
def Obligations.RecordChangesMarked : Prop :=
  (∀ (s : State) (n : Fin 1024) (d : Terminal),
    let u := s.putTerm n d
    u = { s with table := { s.table with terms := s.table.terms.set n.val d },
                 mirror := { s.mirror with dirty := u.mirror.dirty } } ∧
    ∀ i, i ∈ u.mirror.dirty ↔ i ∈ s.mirror.dirty ∨ (s.term n ≠ d ∧ i = n.val) ∨
      ((s.term n).state ≠ d.state ∧ (i = 1280 ∨ ∃ e, s.entry? n = some e ∧
        ((((s.term n).state.tapDown ≠ d.state.tapDown ∨ (s.term n).state.tapEligible ≠ d.state.tapEligible) ∧
            i = 1024 + e.tap.val) ∨
          (((s.term n).state.zoneDown ≠ d.state.zoneDown ∨ (s.term n).state.zoneEligible ≠ d.state.zoneEligible) ∧
            i = 1200 + e.zone.val))))) ∧
  (∀ (s : State) (g : GroupId) (x : Group),
    let u := s.putGroup g x
    u = { s with corr := { s.corr with groups := s.corr.groups.set g.index.val x },
                 mirror := { s.mirror with dirty := u.mirror.dirty } } ∧
    ∀ i, i ∈ u.mirror.dirty ↔ i ∈ s.mirror.dirty ∨ (s.group g ≠ x ∧ i = g.record) ∨
      ((s.group g).state.counted ≠ x.state.counted ∧ ∃ p, s.parent? g = some p ∧ i = p.record)) ∧
  (∀ (s : State) (p : Fin 16) (x : Tally),
    let u := s.putTally p x
    u = { s with intake := { s.intake with tallies := s.intake.tallies.set p.val x },
                 mirror := { s.mirror with dirty := u.mirror.dirty } } ∧
    ∀ i, i ∈ u.mirror.dirty ↔ i ∈ s.mirror.dirty ∨ (s.tally p ≠ x ∧ i = 1264 + p.val)) ∧
  (∀ (x : TState) (y : GState),
    (x.tapDown = true ↔ x = .downFibre) ∧ (x.zoneDown = true ↔ x ∈ [TState.gasped, .downPower]) ∧
    (x.tapEligible = true ↔ x ∈ [TState.up, .suspect, .downFibre]) ∧
    (x.zoneEligible = true ↔ x ∈ [TState.up, .gasped, .suspect, .downPower]) ∧
    (y.counted = true ↔ y ∈ [GState.parked, .raised, .clearing])) ∧
  (∀ (s : State) (k : Nat), s.mark k = { s with mirror := { s.mirror with dirty := (s.mark k).mirror.dirty } } ∧
    ∀ i, i ∈ (s.mark k).mirror.dirty ↔ i ∈ s.mirror.dirty ∨ i = k) ∧
  (∀ (k : Fin 128) (r : Fin 32) (p : Fin 16) (z : Fin 64), (GroupId.tap k).record = 1024 + k.val ∧
    (GroupId.riser r).record = 1152 + r.val ∧ (GroupId.port p).record = 1184 + p.val ∧
    (GroupId.zone z).record = 1200 + z.val)

/-- A down-entry counts within its flap window and mutes at the limit, but no PROMPT terminal (R86, R87); MUTED, a PROMPT
terminal's TERMINAL_DOWN and that of DOWN_OFF are reported where they are due (R81, R85, R87). Every change of state sets
the last change time and restarts a muted terminal's quiet deadline (R70, R88). -/
def Obligations.DownEntriesCounted : Prop :=
  (∀ (s : State) (d : Terminal) (st : TState) (deadline : Option Time), s.moveTo d st deadline =
    { d with state := st, deadline := deadline, lastChange := s.time,
             quiet := if d.muted = true then some (s.time + BitVec.ofNat 32 (1000 * s.settings.quietTime)) else d.quiet }) ∧
  (∀ (s : State) (d : Terminal) (isPrompt : Bool) (st : TState) (deadline : Option Time),
    let within := ∃ b, d.flapStart = some b ∧ reached s.time (b + BitVec.ofNat 32 (1000 * s.settings.flapWindow)) = false
    let quietEnd := some (s.time + BitVec.ofNat 32 (1000 * s.settings.quietTime))
    let moved := { d with state := st, deadline := deadline, lastChange := s.time }
    let mutes (k : Nat) := isPrompt = false ∧ d.muted = false ∧ s.settings.flapLimit ≤ k
    let after (u : Terminal) := (¬mutes u.downEntries → d.muted = false → s.downRecord d isPrompt st deadline = u) ∧
      (mutes u.downEntries ∨ d.muted = true →
        s.downRecord d isPrompt st deadline = { u with muted := true, quiet := quietEnd })
    (within → after { moved with downEntries := min (d.downEntries + 1) 15 }) ∧
    (¬within → after { moved with downEntries := 1, flapStart := some s.time })) ∧
  (∀ (s : State) (n : Fin 1024) (o : Origin),
    (∀ was, s.reportMuted n was o = if was = false ∧ (s.term n).muted = true then
      s.makeReport { origin := o, subject := some n.val, payload := .muted (s.term n).downEntries } else s) ∧
    (∀ isPrompt cause, s.reportPrompt n isPrompt cause o = if isPrompt = true then
      s.makeReport { origin := o, subject := some n.val, payload := .terminalDown cause } else s) ∧
    (∀ (e : TermEntry) (d : Terminal),
      let reported := e.prompt = true ∨ (s.settings.offReports = true ∧ d.muted = false)
      let u (disp : Disp) := (s.putTerm n { d with disp := disp }).reportMuted n (s.term n).muted o
      (reported → s.enterOff n e d o = ((u .reported).makeReport
        { origin := o, subject := some n.val, payload := .terminalDown .off }).handDown s.buildingDown o) ∧
      (¬reported → s.enterOff n e d o = (u .none).handDown s.buildingDown o)))

/-- A GASP by TABLE 5-3 (R72, R73, R77, R78, R85): a new outage from UP enters GASPED and the zone, or DOWN_OFF; SUSPECT
enters DOWN_POWER and the zone, or DOWN_OFF; a late gasp reclassifies a PENDING terminal and is counted otherwise. Each is
answered TAKEN. -/
def Obligations.GaspTaken : Prop :=
  ∀ (s : State) (tag : Tag) (r : Request) (f : StepFor) (p : Fin 16) (x : Ring) (n : Fin 1024) (e : TermEntry),
    s.About tag r f p x .gasp n e →
    let d := s.term n
    let gaspTag := repeatTag r.bytes
    let o : Origin := { source := .engine, word := framerTime r.bytes }
    let off := byteAt r.bytes 5 = 2 ∧ e.noOff = false
    let took (t u : State) := Took t (u.putTally p { u.tally p with taken := sat16 (u.tally p).taken }) tag
      (if x.treatment = .claim then r.withByte0 2 else r)
    let power (u : State) := (((u.join (.zone e.zone) n e.prompt).reportMuted n d.muted o).reportPrompt n e.prompt .power
      o).handDown s.buildingDown o
    ∃ t, exec (.gasp tag) s = .next t ∧
      (d.state = .up → ¬s.Repeats d gaspTag → ¬off → took t (power (s.putTerm n
        { s.downRecord d e.prompt .gasped (some (after s.time s.settings.gaspFollow)) with lastTag := some gaspTag }))) ∧
      (d.state = .up → ¬s.Repeats d gaspTag → off → took t (s.enterOff n e
        { s.downRecord d e.prompt .downOff none with lastTag := some gaspTag } o)) ∧
      (d.state = .suspect → ¬off → took t (power (s.putTerm n
        { s.moveTo d .downPower none with lastTag := some gaspTag }))) ∧
      (d.state = .suspect → off → took t (s.enterOff n e
        { s.moveTo d .downOff none with lastTag := some gaspTag } o)) ∧
      (d.state = .downFibre → d.disp = .pending → took t
        (((s.putTerm n { s.moveTo d .downPower none with lastTag := some gaspTag }).unlist (.tap e.tap) n).join
          (.zone e.zone) n e.prompt)) ∧
      (d.state = .downFibre → d.disp ≠ .pending → took t
        ((s.setTerm n { d with lateGasps := min (d.lateGasps + 1) 255, lastTag := some gaspTag }).mark n.val))

/-- A LOSS by TABLE 5-3 (R74, R76, R85): UP enters SUSPECT for the grace time, or DOWN_FIBRE and the tap where the grace
time is 0; GASPED enters DOWN_POWER. Each is answered TAKEN. -/
def Obligations.LossTaken : Prop :=
  ∀ (s : State) (tag : Tag) (r : Request) (f : StepFor) (p : Fin 16) (x : Ring) (n : Fin 1024) (e : TermEntry),
    s.About tag r f p x .loss n e →
    let d := s.term n
    let o : Origin := { source := .engine, word := framerTime r.bytes }
    let took (t u : State) := Took t (u.putTally p { u.tally p with taken := sat16 (u.tally p).taken }) tag
      (if x.treatment = .claim then r.withByte0 2 else r)
    let fibre (u : State) := ((u.reportMuted n d.muted o).reportPrompt n e.prompt .fibre o).handDown s.buildingDown o
    ∃ t, exec (.loss tag) s = .next t ∧
      (d.state = .up → s.settings.grace = 0 → took t
        (fibre ((s.putTerm n (s.downRecord d e.prompt .downFibre none)).join (.tap e.tap) n e.prompt))) ∧
      (d.state = .up → 0 < s.settings.grace → took t (fibre (s.putTerm n
        { s.downRecord d e.prompt .suspect (some (after s.time s.settings.grace)) with
          disp := if e.prompt then .reported else .none }))) ∧
      (d.state = .gasped → took t (s.putTerm n (s.moveTo d .downPower none)))

/-- A RESTORE by TABLE 5-3 (R75, R77, R79, R82, R83, R86): SUSPECT is a blip and withdraws its down-entry; any other
outage returns to UP with a stale-gasp deadline, leaves its group, and reports the return where the outage was reported
and the terminal is not muted: TERMINAL_UP, or after GASPED a brownout. Each is answered TAKEN. That a withdrawn count of
0 stays 0 is the model's choice (notes/assumptions/40.md). -/
def Obligations.RestoreTaken : Prop :=
  (∀ (s : State) (tag : Tag) (r : Request) (f : StepFor) (p : Fin 16) (x : Ring) (n : Fin 1024) (e : TermEntry),
    s.About tag r f p x .restore n e →
    let d := s.term n
    let o : Origin := { source := .engine, word := framerTime r.bytes }
    let pass := if x.treatment = .claim then r.withByte0 2 else r
    let took (t u : State) := Took t (u.putTally p { u.tally p with taken := sat16 (u.tally p).taken }) tag pass
    let up := s.putTerm n { s.moveTo d .up (some (after s.time s.settings.gaspFollow)) with disp := .none }
    let left (g : GroupId) := (if d.disp = .pending then (up.unlist g n).settle g else up).clearingTest g
    let done (u : State) := (u.reportReturn n d.state d.disp o).handDown s.buildingDown o
    ∃ t, exec (.restore tag) s = .next t ∧
      (d.state = .suspect →
        let u := done (s.putTerm n { s.moveTo d .up none with
          disp := .none, downEntries := d.downEntries - 1, flapStart := if d.downEntries ≤ 1 then none else d.flapStart })
        Took t (u.putTally p { u.tally p with taken := sat16 (u.tally p).taken, blips := sat16 (u.tally p).blips }) tag
          pass) ∧
      (d.state = .downFibre → took t (done (left (.tap e.tap)))) ∧
      (d.state = .gasped ∨ d.state = .downPower → took t (done (left (.zone e.zone)))) ∧
      (d.state = .downOff → took t (done up))) ∧
  (∀ (s : State) (n : Fin 1024) (st : TState) (d : Disp) (o : Origin),
    let report (u : State) (p : Payload) := u.makeReport { origin := o, subject := some n.val, payload := p }
    let due := d = .reported ∧ (s.term n).muted = false
    (¬due → s.reportReturn n st d o = s) ∧
    (due → st ≠ .gasped → s.reportReturn n st d o = report s .terminalUp) ∧
    (due → st = .gasped → s.corr.stormIn = false → s.settings.brownoutMode = .every →
      s.reportReturn n st d o = report s .terminalBrownout) ∧
    (due → st = .gasped → s.corr.stormIn = false → s.settings.brownoutMode = .single → s.table.brownoutArmed = true →
      s.reportReturn n st d o =
        report ({ s with table := { s.table with brownoutArmed := false } }.mark 1280) .terminalBrownout) ∧
    (due → st = .gasped → s.corr.stormIn = true ∨ s.settings.brownoutMode = .none ∨
        (s.settings.brownoutMode = .single ∧ s.table.brownoutArmed = false) →
      (s.table.suppressed < 65535 → s.reportReturn n st d o =
        { s with table := { s.table with suppressed := s.table.suppressed + 1 } }.mark 1280) ∧
      (s.table.suppressed = 65535 → s.reportReturn n st d o = s)))

/-- The four timers of a terminal (R71, R75, R76, R77, R88): grace to DOWN_FIBRE and the tap; gasp-follow back to UP with
no deadline; the stale-gasp window's deadline removed; the quiet time's end unmutes a terminal that is UP. None acts
before its instant, or while correlation is not under way, or without room. -/
def Obligations.TerminalTimersExpire : Prop :=
  ∀ (s : State) (n : Fin 1024),
    let d := s.term n
    (s.expiryReady = false → exec (.graceExpiry n) s = .next s ∧ exec (.gaspFollowExpiry n) s = .next s ∧
      exec (.staleGaspWindowEnd n) s = .next s ∧ exec (.quietExpiry n) s = .next s) ∧
    (due s.time d.deadline = false → exec (.graceExpiry n) s = .next s ∧ exec (.gaspFollowExpiry n) s = .next s ∧
      exec (.staleGaspWindowEnd n) s = .next s) ∧
    (due s.time d.quiet = false ∨ d.muted = false ∨ d.state ≠ .up → exec (.quietExpiry n) s = .next s) ∧
    (s.expiryReady = true → due s.time d.deadline = true → ∀ e, s.entry? n = some e →
      (d.state = .suspect → exec (.graceExpiry n) s =
        .next ((s.putTerm n (s.moveTo d .downFibre none)).join (.tap e.tap) n e.prompt)) ∧
      (d.state = .gasped →
        let up := s.putTerm n { s.moveTo d .up none with disp := .none }
        let left := if d.disp = .pending then (up.unlist (.zone e.zone) n).settle (.zone e.zone) else up
        exec (.gaspFollowExpiry n) s = .next (((left.clearingTest (.zone e.zone)).reportReturn n .gasped d.disp
          { source := .engine, word := 0 }).handDown s.buildingDown { source := .engine, word := 0 }))) ∧
    (s.expiryReady = true → due s.time d.deadline = true → d.state = .up → exec (.staleGaspWindowEnd n) s =
      .next (s.putTerm n { d with deadline := none })) ∧
    (s.expiryReady = true → due s.time d.quiet = true → d.muted = true → d.state = .up → d.disp ≠ .quiet →
      exec (.quietExpiry n) s = .next ((s.putTerm n
        { d with muted := false, quiet := none, flapStart := none, downEntries := 0 }).makeReport
          { origin := { source := .engine, word := 0 }, subject := some n.val, payload := .unmuted }))

/-! ## Groups -/

/-- A group's measures and its two conditions (R94, R101, R117, TABLE 6-3): it raises at its minimum and its raise
percentage of the eligible members, a dark port always; it clears below its clear percentage of the members, or with none
down, a dark port never. The members of each kind of group, how many they are, and the parents (R38); the building down
count and the counts of terminals in each state, over the mapped terminals (R91). The percentages and the minimum of each
kind are those of the settings, the minimum of a riser or port 1. -/
def Obligations.GroupConditions : Prop :=
  (∀ (s : State) (m : BuildingMap), s.map = some m → m.taps.length ≤ 128 → m.risers.length ≤ 32 →
    (∀ (r : Fin 32) (c : GroupId), c ∈ s.children (.riser r) ↔ ∃ k : Fin 128, c = .tap k ∧ m.taps[k.val]? = some r) ∧
    (∀ (p : Fin 16) (c : GroupId), c ∈ s.children (.port p) ↔ ∃ k : Fin 32, c = .riser k ∧ m.risers[k.val]? = some p) ∧
    (∀ g, ((s.children g).map GroupId.number).Pairwise (· < ·)) ∧
    (∀ (k : Fin 128) (g : GroupId), s.parent? (.tap k) = some g ↔ ∃ r, g = .riser r ∧ m.taps[k.val]? = some r) ∧
    (∀ (k : Fin 32) (g : GroupId), s.parent? (.riser k) = some g ↔ ∃ p, g = .port p ∧ m.risers[k.val]? = some p) ∧
    (∀ p, s.portMapped p = true ↔ ∃ k : Fin 32, m.risers[k.val]? = some p)) ∧
  (∀ (s : State) (p : Fin 16) (z : Fin 64), s.parent? (.port p) = none ∧ s.parent? (.zone z) = none) ∧
  (∀ s : State, s.map = none → (∀ g, s.children g = [] ∧ s.termMembers g = [] ∧ s.parent? g = none) ∧
    (∀ n, s.entry? n = none) ∧ ∀ p, s.portMapped p = false) ∧
  (∀ s : State, s.entries.length ≤ 1024 →
    let inState (l : List TState) :=
      (List.finRange 1024).countP (fun n => (s.entry? n).isSome && decide ((s.term n).state ∈ l))
    s.buildingDown = inState [.gasped, .suspect, .downFibre, .downPower] ∧
    s.stateCounts =
      { up := inState [.up], gasped := inState [.gasped], suspect := inState [.suspect], downFibre := inState [.downFibre],
        downPower := inState [.downPower], downOff := inState [.downOff] }) ∧
  (∀ (s : State) (k : Fin 128) (z : Fin 64) (n : Fin 1024), s.entries.length ≤ 1024 →
    (n ∈ s.termMembers (.tap k) ↔ ∃ e, s.entry? n = some e ∧ e.tap = k) ∧
    (n ∈ s.termMembers (.zone z) ↔ ∃ e, s.entry? n = some e ∧ e.zone = z) ∧
    ∀ g, (s.termMembers g).Pairwise (· < ·)) ∧
  (∀ (s : State) (k : Fin 128) (z : Fin 64) (r : Fin 32) (p : Fin 16),
    let terms (g : GroupId) (l : List TState) := (s.termMembers g).countP (fun n => decide ((s.term n).state ∈ l))
    let groups (g : GroupId) := (s.children g).countP (fun c => decide ((s.group c).state ∈ [.parked, .raised, .clearing]))
    s.members (.tap k) = (s.termMembers (.tap k)).length ∧ s.members (.zone z) = (s.termMembers (.zone z)).length ∧
    s.members (.riser r) = (s.children (.riser r)).length ∧ s.members (.port p) = (s.children (.port p)).length ∧
    s.down (.tap k) = terms (.tap k) [.downFibre] ∧ s.down (.zone z) = terms (.zone z) [.gasped, .downPower] ∧
    s.eligible (.tap k) = terms (.tap k) [.up, .suspect, .downFibre] ∧
    s.eligible (.zone z) = terms (.zone z) [.up, .gasped, .suspect, .downPower] ∧
    s.down (.riser r) = groups (.riser r) ∧ s.down (.port p) = groups (.port p) ∧
    s.eligible (.riser r) = s.members (.riser r) ∧ s.eligible (.port p) = s.members (.port p)) ∧
  (∀ (s : State) (g : GroupId),
    (s.raiseCondition g = true ↔ (s.group g).dark = true ∨
      (0 < s.eligible g ∧ minMembers s.settings g ≤ s.down g ∧
        raisePercent s.settings g * s.eligible g ≤ 100 * s.down g)) ∧
    (s.clearingCondition g = true ↔ (s.group g).dark = false ∧
      (s.down g = 0 ∨ 100 * s.down g < clearPercent s.settings g * s.members g))) ∧
  (∀ (c : Settings) (k : Fin 128) (r : Fin 32) (p : Fin 16) (z : Fin 64),
    let row (g : GroupId) (raise clear least : Nat) :=
      raisePercent c g = raise ∧ clearPercent c g = clear ∧ minMembers c g = least
    row (.tap k) c.tapRaise c.tapClear c.tapMin ∧ row (.riser r) c.riserRaise c.riserClear 1 ∧
    row (.port p) c.portRaise c.portClear 1 ∧ row (.zone z) c.zoneRaise c.zoneClear c.zoneMin)

/-- A terminal that joins a group (R80, R95, R96, R97): a raised group covers it; a gathering or parked one lists it as
pending; a CLEAR one opens its window first, and a tap's window opens its CLEAR riser's and then its CLEAR port's. A
PROMPT terminal is never listed. The clearing test moves a group between RAISED and CLEARING (R118). Leaving a pending
list keeps the order of the others, and a return while PENDING is counted settled (R82, R98): the settled count stays
within the members (notes/assumptions/11.md), and the records of the others are not marked (the model's choice,
notes/assumptions/41.md). -/
def Obligations.JoinsAndClearingTests : Prop :=
  (∀ (s : State) (g : GroupId) (n : Fin 1024),
    s.unlist g n = s.putGroup g { s.group g with pending := (s.group g).pending.filter (fun k => decide (k ≠ n)) } ∧
    s.settle g = s.putGroup g { s.group g with settled := min ((s.group g).settled + 1) (s.members g) }) ∧
  (∀ (s : State) (g : GroupId) (n : Fin 1024) (isPrompt : Bool),
    let disp (u : State) (x : Disp) := u.putTerm n { u.term n with disp := x }
    let listed (u : State) := if isPrompt = true then disp u .reported
      else disp (u.putGroup g { u.group g with pending := (u.group g).pending ++ [n] }) .pending
    let opened (u : State) (h : GroupId) (ms : Nat) := u.putGroup h { u.group h with
      state := .gathering, settled := 0, deadline := some (s.time + BitVec.ofNat 32 ms) }
    ((s.group g).state = .raised ∨ (s.group g).state = .clearing → s.join g n isPrompt =
      (disp s (if isPrompt then .reported else .covered)).clearingTest g) ∧
    ((s.group g).state = .gathering ∨ (s.group g).state = .parked → s.join g n isPrompt = listed s) ∧
    (∀ z, g = .zone z → (s.group g).state = .clear → s.join g n isPrompt = listed (opened s g s.settings.zoneWindow)) ∧
    (∀ k r, g = .tap k → (s.group g).state = .clear → s.parent? g = some (.riser r) →
      let u := listed (opened s g s.settings.tapWindow)
      ((s.group (.riser r)).state ≠ .clear → s.join g n isPrompt = u) ∧
      (∀ p, (s.group (.riser r)).state = .clear → s.parent? (.riser r) = some (.port p) →
        ((s.group (.port p)).state ≠ .clear → s.join g n isPrompt = opened u (.riser r) s.settings.riserWindow) ∧
        ((s.group (.port p)).state = .clear → s.join g n isPrompt =
          opened (opened u (.riser r) s.settings.riserWindow) (.port p) s.settings.portWindow)))) ∧
  (∀ (s : State) (g : GroupId),
    ((s.group g).state = .raised → s.clearingCondition g = true → s.clearingTest g = s.putGroup g
      { s.group g with state := .clearing, deadline := some (s.time + BitVec.ofNat 32 s.settings.holdDown) }) ∧
    ((s.group g).state = .clearing → s.clearingCondition g = false → s.clearingTest g = s.putGroup g
      { s.group g with state := .raised, deadline := none }) ∧
    ((s.group g).state = .raised ∧ s.clearingCondition g = false ∨ (s.group g).state = .clearing ∧
        s.clearingCondition g = true ∨ (s.group g).state = .clear ∨ (s.group g).state = .gathering ∨
        (s.group g).state = .parked → s.clearingTest g = s))

/-- What raising and releasing do to the members (R84, R98, R103, R111): a group raised covers its pending members and
empties its lists; it covers the children already raised; released members get REPORTED, or QUIET while muted, and those
not muted are named in reports of eight, the last holding the remainder. -/
def Obligations.RaisingAndReleasing : Prop :=
  (∀ (s : State) (g : GroupId) (covered : Bool),
    let u := s.becomeRaised g covered
    u = { s with table := { s.table with terms := u.table.terms }, corr := { s.corr with groups := u.corr.groups },
                 mirror := { s.mirror with dirty := u.mirror.dirty } } ∧
    u.group g = { s.group g with
      state := .raised, deadline := none, covered := covered, pending := [], parked := [] } ∧
    (∀ h, h ≠ g → u.group h = s.group h) ∧
    ∀ n, u.term n = if n ∈ (s.group g).pending then { s.term n with disp := .covered } else s.term n) ∧
  (∀ (s : State) (g : GroupId),
    let u := s.coverChildren g
    u = { s with corr := { s.corr with groups := u.corr.groups }, mirror := { s.mirror with dirty := u.mirror.dirty } } ∧
    ∀ h, u.group h = if h ∈ s.children g ∧ ((s.group h).state = .raised ∨ (s.group h).state = .clearing) then
      { s.group h with covered := true } else s.group h) ∧
  (∀ (s : State) (g : GroupId) (ns : List (Fin 1024)) (cause : OutageCause), ∃ u : State,
    s.release g ns cause = u.makeReports ((batches8 (ns.filter (fun n => !(s.term n).muted))).map (fun l =>
      { origin := { source := .engine, word := 0 }, subject := some g.record, payload := .terminalsDown cause l })) ∧
    u = { s with table := { s.table with terms := u.table.terms }, mirror := { s.mirror with dirty := u.mirror.dirty } } ∧
    ∀ n, u.term n = if n ∈ ns then { s.term n with disp := if (s.term n).muted then .quiet else .reported }
      else s.term n) ∧
  (∀ ns : List (Fin 1024), (ns = [] → batches8 ns = []) ∧ (ns ≠ [] → batches8 ns = ns.take 8 :: batches8 (ns.drop 8))) ∧
  (∀ (s : State) (d : Draft) (ds : List Draft), s.makeReports [] = s ∧
    s.makeReports (d :: ds) = (s.makeReport d).makeReports ds)

/-- The verdict of a tap or zone at its gather deadline (R99, R102, R103, R110): without its raise condition it is CLEAR
and its members are released; with it, it raises and announces, or, a tap, parks under a gathering or parked riser, or is
covered by a raised one. -/
def Obligations.TapAndZoneVerdicts : Prop :=
  ∀ (s : State) (k : Fin 128) (z : Fin 64),
    let engine : Origin := { source := .engine, word := 0 }
    let ready (g : GroupId) := s.expiryReady = true ∧ (s.group g).state = .gathering ∧ due s.time (s.group g).deadline = true
    let alone (g : GroupId) (cause : RaiseCause) :=
      let v := s.becomeRaised g false
      ((v.putGroup g { v.group g with announced := true }).makeReport
        { origin := engine, subject := some g.record,
          payload := .groupRaised cause (v.members g) (v.down g) (v.group g).settled false }).clearingTest g
    let released (g : GroupId) (cause : OutageCause) :=
      let v := s.putGroup g { s.group g with state := .clear, deadline := none, parked := [] }
      (v.putGroup g { v.group g with pending := [] }).release g (s.group g).pending cause
    (¬ready (.tap k) → exec (.tapVerdict k) s = .next s) ∧ (¬ready (.zone z) → exec (.zoneVerdict z) s = .next s) ∧
    (ready (.zone z) → s.raiseCondition (.zone z) = true → exec (.zoneVerdict z) s = .next (alone (.zone z) .power)) ∧
    (ready (.zone z) → s.raiseCondition (.zone z) = false → exec (.zoneVerdict z) s = .next (released (.zone z) .power)) ∧
    (ready (.tap k) → s.raiseCondition (.tap k) = false → exec (.tapVerdict k) s = .next (released (.tap k) .fibre)) ∧
    (ready (.tap k) → s.raiseCondition (.tap k) = true → ∀ r, s.parent? (.tap k) = some (.riser r) →
      let st := (s.group (.riser r)).state
      (st = .clear → exec (.tapVerdict k) s = .next (alone (.tap k) .fibre)) ∧
      (st = .gathering ∨ st = .parked → exec (.tapVerdict k) s = .next
        ((s.putGroup (.tap k) { s.group (.tap k) with state := .parked, deadline := none }).putGroup (.riser r)
          { s.group (.riser r) with parked := (s.group (.riser r)).parked ++ [.tap k] })) ∧
      (st = .raised ∨ st = .clearing → exec (.tapVerdict k) s = .next
        (((s.becomeRaised (.tap k) true).clearingTest (.tap k)).clearingTest (.riser r))))

/-- Risers and ports at their gather deadline (R99, R100, R105–R109): while a child gathers, the deadline moves to the
latest of the gathering children's; otherwise the parked children are tested again, and the group raises, parks (a riser
under a gathering port), is covered (a riser under a raised port), or is CLEAR and its parked children raise on their own.
That the wait needs no room in the own-write queue is notes/assumptions/22.md. -/
def Obligations.RiserAndPortVerdicts : Prop :=
  ∀ s : State,
    let engine : Origin := { source := .engine, word := 0 }
    let due (g : GroupId) := (s.group g).state = .gathering ∧ due s.time (s.group g).deadline = true
    let gathers (g : GroupId) := ∃ c ∈ s.children g, (s.group c).state = .gathering
    let retest (p : GroupId) (u : State) (c : GroupId) : State :=
      if u.raiseCondition c = true then u
      else
        let v := u.putGroup p { u.group p with parked := (u.group p).parked.filter (· != c) }
        v.putGroup c { v.group c with state := .gathering, deadline := some u.time }
    let announced (u : State) (g : GroupId) (cause : RaiseCause) (o : Origin) :=
      (u.putGroup g { u.group g with announced := true }).makeReport
        { origin := o, subject := some g.record,
          payload := .groupRaised cause (u.members g) (u.down g) (u.group g).settled false }
    let raised (u : State) (r : GroupId) (covered : Bool) :=
      (((u.group r).parked.foldl (fun u c => u.becomeRaised c true) u).becomeRaised r covered).coverChildren r
    let alone (u : State) (r : GroupId) :=
      ((u.group r).parked ++ [r]).foldl State.clearingTest (announced (raised u r false) r .fibre engine)
    let cleared (u : State) (g : GroupId) := u.putGroup g { u.group g with state := .clear, deadline := none, parked := [] }
    (∀ p : Parent,
      (s.working = true → s.correlating = true → due p.group → gathers p.group → exec (.parentDeadlineWait p) s =
        .next (s.putGroup p.group { s.group p.group with deadline := s.latestChild p.group })) ∧
      (¬(due p.group ∧ gathers p.group) → exec (.parentDeadlineWait p) s = .next s)) ∧
    (∀ n : Fin 32,
      let g := GroupId.riser n
      let v := (s.group g).parked.foldl (retest g) s
      (¬due g ∨ gathers g ∨ s.expiryReady = false → exec (.riserVerdict n) s = .next s) ∧
      (s.expiryReady = true → due g → ¬gathers g →
        (v.raiseCondition g = false → exec (.riserVerdict n) s = .next ((v.group g).parked.foldl (fun u c =>
          (announced (u.becomeRaised c false) c .fibre engine).clearingTest c) (cleared v g))) ∧
        (v.raiseCondition g = true → ∀ p, v.parent? g = some (.port p) →
          let st := (v.group (.port p)).state
          (st = .clear → exec (.riserVerdict n) s = .next (alone v g)) ∧
          (st = .gathering → exec (.riserVerdict n) s = .next
            ((v.putGroup g { v.group g with state := .parked, deadline := none }).putGroup (.port p)
              { v.group (.port p) with parked := (v.group (.port p)).parked ++ [g] })) ∧
          (st = .raised ∨ st = .clearing → exec (.riserVerdict n) s = .next
            ((((v.group g).parked ++ [g]).foldl State.clearingTest (raised v g true)).clearingTest (.port p)))))) ∧
    (∀ n : Fin 16,
      let g := GroupId.port n
      let v := (s.group g).parked.foldl (fun u r => retest g ((u.group r).parked.foldl (retest r) u) r) s
      (¬due g ∨ gathers g ∨ s.expiryReady = false → exec (.portVerdict n) s = .next s) ∧
      (s.expiryReady = true → due g → ¬gathers g →
        (v.raiseCondition g = true → exec (.portVerdict n) s = .next (v.raisePort g .fibre engine)) ∧
        (v.raiseCondition g = false → exec (.portVerdict n) s = .next ((v.group g).parked.foldl alone (cleared v g))))) ∧
    (∀ (g : GroupId) (cause : RaiseCause) (o : Origin),
      let risers := (s.group g).parked
      let v := ((risers.foldl (fun u r => raised u r true) s).becomeRaised g false).coverChildren g
      s.raisePort g cause o =
        (risers.flatMap (fun r => (s.group r).parked) ++ risers ++ [g]).foldl State.clearingTest (announced v g cause o)) ∧
    (∀ (g : GroupId) (base d : Time),
      let child (x : Time) := ∃ c ∈ s.children g, (s.group c).state = .gathering ∧ (s.group c).deadline = some x
      (∀ x, child x → (x - base).toNat < 2 ^ 31) →
        (s.latestChild g = some d ↔ child d ∧ ∀ x, child x → (x - base).toNat ≤ (d - base).toNat))

/-- A port message taken (R66, R112, R113): PORT_DARK sets the dark mark, and the port raises from CLEAR or GATHERING and
leaves CLEARING for RAISED; PORT_LIT removes it, and the clearing test follows. Each is answered TAKEN. -/
def Obligations.PortMessagesTaken : Prop :=
  ∀ (s : State) (tag : Tag) (r : Request) (f : StepFor) (p : Fin 16) (x : Ring), s.portMapped p = true →
    let g := GroupId.port p
    let took (t u : State) := Took t (u.putTally p { u.tally p with taken := sat16 (u.tally p).taken }) tag
      (if x.treatment = .claim then r.withByte0 2 else r)
    (s.Sound tag r f p x .portDark → (s.group g).dark = false →
      let u := s.putGroup g { s.group g with dark := true }
      ∃ t, exec (.portDark tag) s = .next t ∧
        ((s.group g).state = .clear ∨ (s.group g).state = .gathering →
          took t (u.raisePort g .dark { source := .engine, word := framerTime r.bytes })) ∧
        ((s.group g).state = .raised → took t u) ∧
        ((s.group g).state = .clearing → took t (u.putGroup g
          { s.group g with dark := true, state := .raised, deadline := none }))) ∧
    (s.Sound tag r f p x .portLit → (s.group g).dark = true →
      ∃ t, exec (.portLit tag) s = .next t ∧ took t ((s.putGroup g { s.group g with dark := false }).clearingTest g))

/-- The end of a group's hold-down (R121–R125): where its clearing condition no longer holds it is RAISED again; else it
clears: GROUP_CLEARED where it was announced, its stragglers released and its covered children uncovered, its lists
emptied, and its parent tested. A tap's stragglers are its COVERED members in DOWN_FIBRE, a zone's those in GASPED or
DOWN_POWER (R84, TABLE 7-3), and a tap releases for FIBRE, a zone for POWER. -/
def Obligations.HoldDownEnds : Prop :=
  (∀ (s : State) (g : GroupId),
    let ready := s.expiryReady = true ∧ (s.group g).state = .clearing ∧ due s.time (s.group g).deadline = true
    let ways : List TState := match g with
      | .tap _ => [.downFibre]
      | .zone _ => [.gasped, .downPower]
      | .riser _ => []
      | .port _ => []
    let stragglers := (s.termMembers g).filter
      (fun n => decide ((s.term n).disp = .covered) && decide ((s.term n).state ∈ ways))
    let children := (s.children g).filter (fun c =>
      ((s.group c).state == .raised || (s.group c).state == .clearing) && (s.group c).covered)
    let engine : Origin := { source := .engine, word := 0 }
    let v := if (s.group g).announced = true then
        (s.putGroup g { s.group g with announced := false }).makeReport
          { origin := engine, subject := some g.record,
            payload := .groupCleared (stragglers.length + children.length) }
      else s
    let uncovered (u : State) (c : GroupId) :=
      let w := u.putGroup c { u.group c with covered := false }
      if (u.group c).announced = true then w
      else (w.putGroup c { w.group c with announced := true }).makeReport
        { origin := engine, subject := some c.record,
          payload := .groupRaised .fibre (w.members c) (w.down c) (w.group c).settled true }
    let w := children.foldl uncovered (v.release g stragglers (releaseCause g))
    let u := w.putGroup g { w.group g with state := .clear, deadline := none, covered := false, pending := [], parked := [] }
    (¬ready → exec (.holdDownExpiry g) s = .next s) ∧
    (ready → s.clearingCondition g = false → exec (.holdDownExpiry g) s =
      .next (s.putGroup g { s.group g with state := .raised, deadline := none })) ∧
    (ready → s.clearingCondition g = true →
      (s.parent? g = none → exec (.holdDownExpiry g) s = .next u) ∧
      (∀ p, s.parent? g = some p → exec (.holdDownExpiry g) s = .next (u.clearingTest p)))) ∧
  (∀ (k : Fin 128) (z : Fin 64), releaseCause (.tap k) = .fibre ∧ releaseCause (.zone z) = .power)

/-- The storm state (R91, R128, R129, R130, R133, R178): where a claim has changed the building down count, the storm goes
IN at its upper level and OUT at its lower one; each change is reported by the storm mode and handed to a head entry that
waits for it, and so is the count. The STORM line is asserted while the storm state is IN, but not under RESET_N (R132). A
change to IN meets STORM_IN, one to OUT meets STORM_OUT, and a count meets DOWN_AT_LEAST of it or less (R178, TABLE
11-1). -/
def Obligations.StormFollowsDownCount : Prop :=
  (∀ s : State, s.stormLine = true ↔ s.inReset = false ∧ s.corr.stormIn = true) ∧
  (∀ (s : State) (before : Nat) (o : Origin),
    (s.buildingDown = before → s.handDown before o = s) ∧
    (s.buildingDown ≠ before →
      let watched (u : State) := u.watch (metByDown s.buildingDown)
      (s.corr.stormIn = false → s.settings.stormOn ≤ s.buildingDown →
        s.handDown before o = watched (s.stormChange true o)) ∧
      (s.corr.stormIn = true → s.buildingDown ≤ s.settings.stormOff →
        s.handDown before o = watched (s.stormChange false o)) ∧
      (s.corr.stormIn = false ∧ s.buildingDown < s.settings.stormOn ∨
          s.corr.stormIn = true ∧ s.settings.stormOff < s.buildingDown → s.handDown before o = watched s))) ∧
  (∀ (s : State) (toIn : Bool) (o : Origin), s.corr.stormIn = !toIn →
    let u := { s with corr := { s.corr with stormIn := toIn } }.mark 1280
    let report (v : State) := v.makeReport
      { origin := o, subject := none,
        payload := if toIn then .stormEnter s.buildingDown else .stormLeave s.buildingDown }
    let watched (v : State) := v.watch (metByStorm toIn)
    (s.settings.stormMode = .every → s.stormChange toIn o = watched (report u)) ∧
    (s.settings.stormMode = .single → s.corr.stormArmed = false → s.stormChange toIn o = watched u) ∧
    (s.settings.stormMode = .single → s.corr.stormArmed = true → s.stormChange toIn o =
      watched (report ({ u with corr := { u.corr with stormArmed := false } }.mark 1280)))) ∧
  (∀ (s : State) (met : Trigger → Bool),
    (s.cmd.deferred = [] → s.watch met = s) ∧
    (∀ e rest, s.cmd.deferred = e :: rest →
      (met e.trigger = false ∨ e.due = true → s.watch met = s) ∧
      (met e.trigger = true → e.due = false → s.watch met = { s with cmd := { s.cmd with
        deferred := { e with due := true } :: rest, due := s.cmd.due ++ [.deferred],
        unit := if s.cmd.unit = .idle then .actions else s.cmd.unit } }))) ∧
  (∀ (toIn : Bool) (count : Nat) (tr : Trigger),
    (metByStorm toIn tr = true ↔ tr = if toIn = true then .stormIn else .stormOut) ∧
    (metByDown count tr = true ↔ ∃ n, tr = .downAtLeast n ∧ n ≤ count))

/-! ## Commands -/

/-- The settings commands (R130, R131, R167–R172): each replaces its settings by its parameters and is written back DONE;
SET_STORM then evaluates the storm state with the new levels, its data saying whether it changed; ARM arms both report
marks. Test 7 holds exactly on the ranges and orders of TABLE 10-4. Where a slot's tag stands (TABLE 13-3). -/
def Obligations.SettingsCommands : Prop :=
  (∀ (s : State) (tag : Tag) (r : Request) (f : StepFor),
    let b := r.bytes
    let done (t u : State) (data : Nat) :=
      Took t (u.enqueue (.writeBack r.addr (writeBackBytes b .done .done false data))) tag r
    let sets (k : Kind) (c : Settings) := s.NowWrite tag r f k →
      ∃ t, exec (slotRow tag k) s = .next t ∧ done t { s with cmd := { s.cmd with settings := c } } 0
    sets .setWindows { s.settings with
      grace := leAt b 10 2, gaspFollow := leAt b 12 2, tapWindow := leAt b 14 2, riserWindow := leAt b 16 2,
      portWindow := leAt b 18 2, zoneWindow := leAt b 20 2, holdDown := leAt b 22 2 } ∧
    sets .setThresholds { s.settings with
      tapRaise := byteAt b 10, riserRaise := byteAt b 11, portRaise := byteAt b 12, zoneRaise := byteAt b 13,
      tapClear := byteAt b 14, riserClear := byteAt b 15, portClear := byteAt b 16, zoneClear := byteAt b 17,
      tapMin := byteAt b 18, zoneMin := byteAt b 19 } ∧
    sets .setFlap { s.settings with flapLimit := byteAt b 10, flapWindow := leAt b 12 2, quietTime := leAt b 14 2 } ∧
    sets .setReporting { s.settings with
      stormMode := if byteAt b 10 = 1 then .single else .every,
      brownoutMode := if byteAt b 11 = 0 then .none else if byteAt b 11 = 1 then .single else .every,
      offReports := byteAt b 12 == 1 } ∧
    sets .setSync { s.settings with syncInterval := leAt b 10 2 } ∧
    (s.NowWrite tag r f .setStorm →
      let v := { s with cmd := { s.cmd with settings := { s.settings with stormOn := leAt b 10 2, stormOff := leAt b 12 2 } } }
      let o : Origin := { source := .command, word := (slotTag b).setWidth 32 }
      ∃ t, exec (.setStorm tag) s = .next t ∧
        (s.corr.stormIn = false → leAt b 10 2 ≤ s.buildingDown → done t (v.stormChange true o) 1) ∧
        (s.corr.stormIn = true → s.buildingDown ≤ leAt b 12 2 → done t (v.stormChange false o) 1) ∧
        (s.corr.stormIn = false ∧ s.buildingDown < leAt b 10 2 ∨ s.corr.stormIn = true ∧ leAt b 12 2 < s.buildingDown →
          done t v 0)) ∧
    (s.NowWrite tag r f .arm →
      let v := { s with corr := { s.corr with stormArmed := true }, table := { s.table with brownoutArmed := true } }
      ∃ t, exec (.arm tag) s = .next t ∧
        (s.corr.stormArmed = true ∧ s.table.brownoutArmed = true → done t s 0) ∧
        (s.corr.stormArmed = false ∨ s.table.brownoutArmed = false → done t (v.mark 1280) 0))) ∧
  (∀ (m : Mode) (b : List Byte),
    let v (k lo hi : Nat) := lo ≤ leAt b k 2 ∧ leAt b k 2 ≤ hi
    let w (k lo hi : Nat) := lo ≤ byteAt b k ∧ byteAt b k ≤ hi
    (paramsOk .setWindows m b = true ↔ v 10 0 2000 ∧ v 12 100 10000 ∧ v 14 100 30000 ∧ v 16 100 30000 ∧ v 18 100 30000 ∧
      v 20 100 30000 ∧ v 22 0 60000 ∧ leAt b 14 2 ≤ leAt b 16 2 ∧ leAt b 16 2 ≤ leAt b 18 2) ∧
    (paramsOk .setThresholds m b = true ↔
      (∀ k < 4, w (10 + k) 1 100 ∧ w (14 + k) 0 99 ∧ byteAt b (14 + k) < byteAt b (10 + k)) ∧ w 18 2 32 ∧ w 19 2 32) ∧
    (paramsOk .setFlap m b = true ↔ w 10 2 15 ∧ v 12 1 600 ∧ v 14 10 3600) ∧
    (paramsOk .setStorm m b = true ↔ v 10 1 1024 ∧ leAt b 12 2 < leAt b 10 2) ∧
    (paramsOk .setReporting m b = true ↔ w 10 1 2 ∧ w 11 0 2 ∧ w 12 0 1) ∧
    (paramsOk .setSync m b = true ↔ v 10 16 1024) ∧ paramsOk .arm m b = true) ∧
  (∀ b : List Byte, (slotTag b).toNat = leAt b 4 2)

/-- FORCE_SYNC, MUTE and UNMUTE (R88, R89, R172): the SYNC made and its outcome as data; a terminal muted or unmuted with
its report, a second MUTE restarting the quiet time, an UNMUTE of a terminal down with QUIET reporting it down as well; an
unmapped terminal, and a PROMPT one for MUTE, refused. -/
def Obligations.MuteAndSyncCommands : Prop :=
  ∀ (s : State) (tag : Tag) (r : Request) (f : StepFor),
    let b := r.bytes
    let o : Origin := { source := .command, word := (slotTag b).setWidth 32 }
    let done (t u : State) (data : Nat) :=
      Took t (u.enqueue (.writeBack r.addr (writeBackBytes b .done .done false data))) tag r
    let refused (t : State) (c : Code) := Took t (s.enqueue (.writeBack r.addr (writeBackBytes b .refused c false 0))) tag r
    (s.NowWrite tag r f .forceSync → ∃ t, exec (.forceSync tag) s = .next t ∧
      done t (s.makeSync { forced := true } o).1 (if (s.makeSync { forced := true } o).2 = true then 1 else 0)) ∧
    (∀ n : Fin 1024, n.val = leAt b 10 2 →
      let d := s.term n
      let report (u : State) (p : Payload) := u.makeReport { origin := o, subject := some n.val, payload := p }
      let quiet := some (s.time + BitVec.ofNat 32 (1000 * s.settings.quietTime))
      (s.NowWrite tag r f .mute → ∃ t, exec (.mute tag) s = .next t ∧
        (s.entry? n = none → refused t .noTerminal) ∧
        (∀ e, s.entry? n = some e →
          (e.prompt = true → refused t .badParam) ∧
          (e.prompt = false → d.muted = true → done t (s.putTerm n { d with quiet := quiet }) 0) ∧
          (e.prompt = false → d.muted = false →
            done t (report (s.putTerm n { d with muted := true, quiet := quiet }) (.muted d.downEntries)) 1))) ∧
      (s.NowWrite tag r f .unmute → ∃ t, exec (.unmute tag) s = .next t ∧
        (s.entry? n = none → refused t .noTerminal) ∧
        (∀ e, s.entry? n = some e →
          let free := { d with muted := false, quiet := none, flapStart := none, downEntries := 0 }
          (d.muted = false → done t s 0) ∧
          (d.muted = true → d.disp ≠ .quiet → done t (report (s.putTerm n free) .unmuted) 1) ∧
          (d.muted = true → d.disp = .quiet → done t (report (report (s.putTerm n { free with disp := .reported }) .unmuted)
            (.terminalDown (if d.state = .downFibre then .fibre else .power))) 1))))

/-- SEED (R90): the terminal takes the target state without a report, NONE in UP and REPORTED otherwise, the groups whose
down count moves are tested and the building down count is handed over; the data is the state before, in the code of TABLE
13-6. It is refused for an unmapped terminal, in GASPED or SUSPECT, and while PENDING. That a SEED to the present state
sets the disposition alone is the model's reading (notes/assumptions/12.md). -/
def Obligations.SeedCommand : Prop :=
  (∀ (s : State) (tag : Tag) (r : Request) (f : StepFor) (n : Fin 1024) (target : TState), s.NowWrite tag r f .seed →
    n.val = leAt r.bytes 10 2 → seedTarget r.bytes = some target →
    let d := s.term n
    let o : Origin := { source := .command, word := (slotTag r.bytes).setWidth 32 }
    let disp : Disp := if target = .up then .none else .reported
    let done (t u : State) :=
      Took t (u.enqueue (.writeBack r.addr (writeBackBytes r.bytes .done .done false d.state.code))) tag r
    let refused (t : State) (c : Code) :=
      Took t (s.enqueue (.writeBack r.addr (writeBackBytes r.bytes .refused c false 0))) tag r
    ∃ t, exec (.seed tag) s = .next t ∧
      (s.entry? n = none → refused t .noTerminal) ∧
      (∀ e, s.entry? n = some e →
        let moved := (if d.state.tapDown = target.tapDown then [] else [GroupId.tap e.tap]) ++
          (if d.state.zoneDown = target.zoneDown then [] else [GroupId.zone e.zone])
        (d.state = .gasped ∨ d.state = .suspect → refused t .badParam) ∧
        (d.state ≠ .gasped → d.state ≠ .suspect → d.disp = .pending → refused t .terminalPending) ∧
        (d.state ≠ .gasped → d.state ≠ .suspect → d.disp ≠ .pending → d.state = target →
          done t (s.putTerm n { d with disp := disp })) ∧
        (d.state ≠ .gasped → d.state ≠ .suspect → d.disp ≠ .pending → d.state ≠ target →
          done t ((moved.foldl State.clearingTest
            (s.putTerm n { s.moveTo d target none with disp := disp })).handDown s.buildingDown o)))) ∧
  (∀ x : TState, x.code = [TState.unlisted, .up, .gasped, .suspect, .downFibre, .downPower, .downOff].idxOf x)

/-- SET_INTAKE and CLEAR_INTAKE (R55–R58): a port's ring set or removed, the tally record marked where that changes it,
the data saying whether there was one; a ring that overlaps another port's, an area of the anchor or the anchor block is
refused OVERLAP. -/
def Obligations.IntakeRingCommands : Prop :=
  ∀ (s : State) (tag : Tag) (r : Request) (f : StepFor) (p : Fin 16), p.val = byteAt r.bytes 10 →
    let b := r.bytes
    let was := if (s.ring p).isSome = true then 1 else 0
    let set (x : Option Ring) :=
      let u := { s with intake := { s.intake with rings := s.intake.rings.set p.val x } }
      if s.ring p = x then s else u.mark (1264 + p.val)
    let done (t u : State) :=
      Took t (u.enqueue (.writeBack r.addr (writeBackBytes b .done .done false was))) tag r
    (s.NowWrite tag r f .clearIntake → ∃ t, exec (.clearIntake tag) s = .next t ∧ done t (set none)) ∧
    (∀ a x, s.NowWrite tag r f .setIntake → s.ctl.anchor = some a →
      x = { base := BitVec.ofNat 40 (leAt b 11 5), slots := leAt b 16 2, framer := Fin.ofNat 32 (byteAt b 18),
            treatment := if byteAt b 19 = 1 then .observe else .claim } →
      let meets (base len : Nat) := x.base.toNat < base + len ∧ base < x.base.toNat + 16 * x.slots
      let overlaps := (∃ q y, q ≠ p ∧ s.ring q = some y ∧ meets y.base.toNat (16 * y.slots)) ∨
        (∃ area ∈ a.areas, meets area.1 area.2) ∨ meets s.ctl.anchorAddr.toNat 64
      ∃ t, exec (.setIntake tag) s = .next t ∧
        (overlaps → Took t (s.enqueue (.writeBack r.addr (writeBackBytes b .refused .overlap false 0))) tag r) ∧
        (¬overlaps → done t (set (some x))))

/-- The commands that open and end a load, and those that begin a clearing (R31, R33, R41, R44, R49, R50, R51, R164,
R165): MAP_BEGIN enters LOADING with the burst timer running, or restarts the load; MAP_END begins the check, or in
ATTACHED with length 0 adopts the empty map; MAP_ABORT ends the load, and a check under way fails ABORTED; UNMAP and
RESTART make the unit BUSY. That a MAP_ABORT between the check's end and its completion is refused WRONG_MODE is
notes/assumptions/23.md; that a failed check's reports find the mode ATTACHED is the model's choice
(notes/assumptions/39.md). -/
def Obligations.MapAndRestartCommands : Prop :=
  ∀ (s : State) (tag : Tag) (r : Request) (f : StepFor),
    let b := r.bytes
    let done (t u : State) :=
      Took t (u.enqueue (.writeBack r.addr (writeBackBytes b .done .done false 0))) tag r
    let refused (t : State) (c : Code) := Took t (s.enqueue (.writeBack r.addr (writeBackBytes b .refused c false 0))) tag r
    let opened (declared timeout : Nat) : Loader := { s.loader with
      declared := declared, timeout := timeout, pointer := 0, overlong := false, crc := 0xFFFFFFFF#32, tag := slotTag b,
      burst := some (s.time + BitVec.ofNat 32 (100 * timeout)) }
    let dropped : Loader := { s.loader with capture := [], pointer := 0, overlong := false, burst := none }
    let begun (u : State) (j : Job) := { u with cmd := { u.cmd with
      unit := .busy j r.addr s.time,
      inProgress := u.cmd.inProgress ++ [{ addr := r.addr, slot := b, overwritten := false }] } }
    let moded (u : State) (m : Mode) := { u with ctl := { u.ctl with mode := m } }.mark 1280
    (s.NowWrite tag r f .mapBegin → ∃ t, exec (.mapBegin tag) s = .next t ∧
      (s.ctl.mode = .attached → done t (moded { s with loader := opened (leAt b 10 2) (byteAt b 12) } .loading)) ∧
      (s.ctl.mode = .loading → done t { s with loader := opened s.loader.declared s.loader.timeout })) ∧
    (s.NowWrite tag r f .mapEnd → ∃ t, exec (.mapEnd tag) s = .next t ∧
      (s.ctl.mode = .loading → Took t (begun { s with loader := { s.loader with burst := none } }
        (.mapEnd (leAt b 10 2) none)) tag r) ∧
      (s.ctl.mode = .attached → leAt b 10 2 = 0 →
        done t (((s.activate emptyMap).makeSync { mapActive := true } { source := .engine, word := 0 }).1.reportDone b .mapEnd
          .done 0)) ∧
      (s.ctl.mode = .attached → leAt b 10 2 ≠ 0 → refused t .wrongMode)) ∧
    (s.NowWrite tag r f .mapAbort → ∃ t, exec (.mapAbort tag) s = .next t ∧
      done t (moded { s with loader := dropped } .attached)) ∧
    (∀ (expected : Nat) (check : Option CheckEnd) (addr : Addr) (since : Time) (e : InProgress), s.Admitted tag r f →
      f.command = true → slotKind b = some .mapAbort → s.progress r.addr = none → slotPlacement b = some .now →
      s.ctl.mode = .loading → s.cmd.unit = .busy (.mapEnd expected check) addr since → s.progress addr = some e →
      ∃ t, exec (.mapAbort tag) s = .next t ∧
        (check ≠ none → refused t .wrongMode) ∧
        (check = none →
          let u := (moded { s with loader := dropped } .attached).reportDone e.slot .mapEnd .failed 8
          let v := u.enqueue (.writeBack addr (writeBackBytes e.slot .failed .failed e.overwritten 8))
          done t { v with cmd := { v.cmd with
            unit := if v.cmd.due = [] then .idle else .actions,
            inProgress := v.cmd.inProgress.filter (fun x => x.addr != addr) } })) ∧
    (s.NowWrite tag r f .unmap → ∃ t, exec (.unmap tag) s = .next t ∧ Took t (begun s (.unmap false)) tag r) ∧
    (s.NowWrite tag r f .restart → ∃ t u, exec (.restart tag) s = .next t ∧ Took t (begun u (.restart false)) tag r ∧
      u = { s with intake := { s.intake with tallies := Vector.replicate 16 ⟨0, 0, 0, 0, 0, 0, 0⟩ },
                   mirror := { s.mirror with dirty := u.mirror.dirty } } ∧
      ∀ i, i ∈ u.mirror.dirty ↔ i ∈ s.mirror.dirty ∨ (1264 ≤ i ∧ i < 1280)) ∧
    (∀ m : BuildingMap, ∃ terms : Vector Terminal 1024,
      (∀ n : Fin 1024, terms[n.val] = if n.val < m.terminals.length then
        { Terminal.unlisted with state := .up, lastChange := s.time } else s.term n) ∧
      s.activate m = { s with
        ctl := { s.ctl with mode := .running }, map := some m, loader := dropped, table := { s.table with terms := terms },
        corr := { s.corr with groups := Vector.replicate 240 Group.idle, stormIn := false },
        mirror := { s.mirror with dirty := List.range 1281, cursor := 0 } }) ∧
    emptyMap = { terminals := [], taps := [], risers := [], zones := 0 }

/-- The load window (R40, R42, R43): each beat inside the window is stored at the pointer with disabled bytes zero and
entered in the running CRC (R2), the CRC field as zeros; beyond the declared length it only sets the overlong mark; each
such write restarts the burst timer. At its expiry the load is dropped and reported TIMEOUT. Of a write with beats on both
sides of the window's edge only those inside are captured (R8), and none once MAP_END has closed the capture (R44). -/
def Obligations.LoadWindowCaptured : Prop :=
  (∀ (s : State) (tag : Tag) (r : Request) (f : StepFor) (a : Anchor), s.Admitted tag r f → f.window = true →
    f.intake = false → s.ctl.anchor = some a → s.ctl.mode = .loading →
    let inside (k : Nat) := a.windowBase.toNat ≤ r.addr.toNat + 8 * k ∧ r.addr.toNat + 8 * k + 8 ≤ a.windowBase.toNat + 4096
    ∃ t, exec (.loadWindowWrite tag) s = .next t ∧
      (s.cmd.unit.isBusy = true → s.cmd.unit.clearing = false → Took t (s.handOver f) tag r) ∧
      (s.cmd.unit.isBusy = false →
        Took t ({ s with loader := { (windowBeats a r).foldl Loader.captureBeat s.loader with
          burst := some (s.time + BitVec.ofNat 32 (100 * s.loader.timeout)) } }.handOver f) tag r) ∧
      (∀ outer inner after, r.beats = outer ++ inner ++ after → (∀ k < outer.length, ¬inside k) →
        (∀ k < inner.length, inside (outer.length + k)) →
        (∀ k < after.length, ¬inside (outer.length + inner.length + k)) → windowBeats a r = inner) ∧
      ((∀ k < r.body.beatCount, inside k) → windowBeats a r = r.beats) ∧
      ((∀ k < r.body.beatCount, ¬inside k) → windowBeats a r = [])) ∧
  (∀ (l : Loader) (b : Beat),
    let stored := (List.finRange 8).map (fun j => if b.enable.getLsbD j.val then b.data[j.val] else 0)
    (l.pointer < l.declared → l.captureBeat b = { l with
      capture := l.capture.take l.pointer ++ stored ++ l.capture.drop (l.pointer + 8), crc := crcRun l.crc l.pointer stored,
      pointer := l.pointer + 8 }) ∧
    (l.declared ≤ l.pointer → l.captureBeat b = { l with overlong := true })) ∧
  (∀ s : State,
    let expired := s.ready = true ∧ s.ctl.mode = .loading ∧ due s.time s.loader.burst = true
    (expired → exec .burstTimerExpiry s = .next (({ s with
      ctl := { s.ctl with mode := .attached },
      loader := { s.loader with capture := [], pointer := 0, overlong := false, burst := none } }.mark 1280).makeReport
        { origin := { source := .command, word := s.loader.tag.setWidth 32 }, subject := none,
          payload := .commandDone .mapBegin .timeout 0 })) ∧
    (¬expired → exec .burstTimerExpiry s = .next s)) ∧
  (∀ (c : BitVec 32) (k : Nat) (b : Byte) (bs : List Byte),
    let bit (c : BitVec 32) := if c.getLsbD 0 = true then (c >>> 1) ^^^ 0xEDB88320#32 else c >>> 1
    let byte (c : BitVec 32) (b : Byte) := bit (bit (bit (bit (bit (bit (bit (bit (c ^^^ b.setWidth 32))))))))
    crcRun c k [] = c ∧ crcRun c k (b :: bs) = crcRun (byte c (if 16 ≤ k ∧ k < 20 then 0 else b)) (k + 1) bs) ∧
  (∀ (s : State) (r : Request) (a : Anchor),
    let closed := s.ctl.mode ≠ .loading ∨ ∃ expected check addr since, s.cmd.unit = .busy (.mapEnd expected check) addr since
    (s.ctl.anchor = none → s.captureWrite r = s) ∧
    (s.ctl.anchor = some a → (closed → s.captureWrite r = s) ∧
      (¬closed → s.captureWrite r = { s with loader := { (windowBeats a r).foldl Loader.captureBeat s.loader with
        burst := some (s.time + BitVec.ofNat 32 (100 * s.loader.timeout)) } })))

/-- The check of a load and its completion (R44–R48): after at least 1 ms its outcome is decided by the tests of TABLE 3-4
in order; a pass activates the map (terminals UP, groups CLEAR, RUNNING, the whole mirror dirty) with a SYNC, MAP_ACTIVE;
a failure drops the load; either reports, if completion reports are on, writes back and leaves BUSY. What the map reads
from the image (R40, section 13.6). That a failed check's reports find the mode ATTACHED is the model's choice
(notes/assumptions/39.md). -/
def Obligations.MapChecksComplete : Prop :=
  (∀ (s : State) (expected : Nat) (addr : Addr) (since : Time),
    (s.cmd.unit = .busy (.mapEnd expected none) addr since →
      (s.working = true → reached s.time (since + 1) = true → exec .mapCheckEnd s = .next { s with cmd := { s.cmd with
        unit := .busy (.mapEnd expected (some (checkImage s.loader expected))) addr since } }) ∧
      (s.working = false ∨ reached s.time (since + 1) = false → exec .mapCheckEnd s = .next s) ∧
      exec .mapEndCompletion s = .next s) ∧
    (∀ (e : InProgress) (ended : CheckEnd), s.cmd.unit = .busy (.mapEnd expected (some ended)) addr since →
      s.progress addr = some e →
      let finish (u : State) (st : SlotState) (c : Code) (data : Nat) :=
        let v := (u.reportDone e.slot .mapEnd c data).enqueue (.writeBack addr (writeBackBytes e.slot st c e.overwritten data))
        { v with cmd := { v.cmd with unit := if v.cmd.due = [] then .idle else .actions,
                                     inProgress := v.cmd.inProgress.filter (fun x => x.addr != addr) } }
      let dropped : Loader := { s.loader with capture := [], pointer := 0, overlong := false, burst := none }
      (s.ready = false → exec .mapEndCompletion s = .next s) ∧
      (∀ m, s.ready = true → ended = .passed m → ∃ terms : Vector Terminal 1024,
        (∀ n : Fin 1024, terms[n.val] = if n.val < m.terminals.length then
          { Terminal.unlisted with state := .up, lastChange := s.time } else s.term n) ∧
        exec .mapEndCompletion s = .next (finish ({ s with
          ctl := { s.ctl with mode := .running }, map := some m, loader := dropped, table := { s.table with terms := terms },
          corr := { s.corr with groups := Vector.replicate 240 Group.idle, stormIn := false },
          mirror := { s.mirror with dirty := List.range Config.mirrorRecords, cursor := 0 } }.makeSync { mapActive := true }
            { source := .engine, word := 0 }).1 .done .done m.terminals.length)) ∧
      (∀ c, s.ready = true → ended = .failed c → s.ctl.mode = .loading → exec .mapEndCompletion s = .next
        (finish ({ s with ctl := { s.ctl with mode := .attached }, loader := dropped }.mark 1280) .failed .failed c.code)))) ∧
  (∀ (l : Loader) (expected : Nat),
    let b := l.capture.take l.pointer
    let m := mapOf b
    let length := l.pointer = l.declared ∧ l.overlong = false ∧ expected = l.declared
    let version := leAt b 0 2 = 1
    let check := (crc32Final l.crc).toNat = leAt b 16 4
    let counts := leAt b 2 2 ≤ 1024 ∧ leAt b 4 2 ≤ 128 ∧ leAt b 6 2 ≤ 32 ∧ leAt b 8 2 ≤ 64 ∧
      32 + (2 * leAt b 4 2 + 7) / 8 * 8 + (2 * leAt b 6 2 + 7) / 8 * 8 + (4 * leAt b 2 2 + 7) / 8 * 8 = l.declared
    let round8 (n : Nat) := (n + 7) / 8 * 8
    let riserAt (k : Nat) := 32 + round8 (2 * leAt b 4 2) + 2 * k
    let termAt (k : Nat) := 32 + round8 (2 * leAt b 4 2) + round8 (2 * leAt b 6 2) + 4 * k
    let reference := (∀ k < leAt b 4 2, byteAt b (32 + 2 * k) < leAt b 6 2) ∧
      (∀ k < leAt b 6 2, byteAt b (riserAt k) ≤ 15) ∧
      ∀ k < leAt b 2 2, byteAt b (termAt k + 2) < leAt b 4 2 ∧ byteAt b (termAt k + 3) < leAt b 8 2 ∧
        byteAt b (termAt k) % 64 ≤ 15 ∧ byteAt b (termAt k + 1) ≤ 127
    let unique := (m.terminals.map (fun e => (e.port, e.localId))).Pairwise (· ≠ ·)
    let tree := (∀ e ∈ m.terminals, ∃ r, m.taps[e.tap.val]? = some r ∧ m.risers[r.val]? = some e.port) ∧
      (∀ k, m.terminals.countP (fun e => decide (e.tap = k)) ≤ 32) ∧
      (∀ k, m.taps.countP (fun r => decide (r = k)) ≤ 16) ∧ (∀ k, m.risers.countP (fun p => decide (p = k)) ≤ 8) ∧
      ∀ k, m.terminals.countP (fun e => decide (e.zone = k)) ≤ 64
    let fails (p : Prop) (c : MapFail) := ¬p → checkImage l expected = .failed c
    fails length .length ∧ (length → fails version .version) ∧ (length → version → fails check .check) ∧
    (length → version → check → fails counts .counts) ∧ (length → version → check → counts → fails reference .reference) ∧
    (length → version → check → counts → reference → fails unique .duplicate) ∧
    (length → version → check → counts → reference → unique → fails tree .tree) ∧
    (length → version → check → counts → reference → unique → tree → checkImage l expected = .passed m) ∧
    m.terminals.length = leAt b 2 2 ∧ m.taps.length = leAt b 4 2 ∧ m.risers.length = leAt b 6 2 ∧ m.zones = leAt b 8 2 ∧
    (counts → reference →
      (∀ k r, m.taps[k]? = some r → r.val = byteAt b (32 + 2 * k)) ∧
      (∀ k p, m.risers[k]? = some p → p.val = byteAt b (riserAt k)) ∧
      ∀ k e, m.terminals[k]? = some e →
        e.port.val = byteAt b (termAt k) % 64 ∧ (e.prompt = true ↔ byteAt b (termAt k) / 64 % 2 = 1) ∧
        (e.noOff = true ↔ byteAt b (termAt k) / 128 % 2 = 1) ∧ e.localId.val = byteAt b (termAt k + 1) ∧
        e.tap.val = byteAt b (termAt k + 2) ∧ e.zone.val = byteAt b (termAt k + 3))) ∧
  (∀ (s : State) (slot : List Byte) (k : Kind) (c : Code) (data : Nat),
    (s.ctl.anchor = none → s.reportDone slot k c data = s) ∧
    ∀ a, s.ctl.anchor = some a → s.reportDone slot k c data = if a.completionReports = true then s.makeReport
      { origin := { source := .command, word := (slotTag slot).setWidth 32 }, subject := none,
        payload := .commandDone k c data } else s) ∧
  (∀ c : BitVec 32, crc32Final c = ~~~c) ∧
  (∀ c : MapFail, c.code =
    1 + [MapFail.length, .version, .check, .counts, .reference, .duplicate, .tree, .aborted].idxOf c)

/-- The clearings and completions of UNMAP and RESTART (R33, R34, R51, R52): after at least 1 ms the records are cleared,
the stores of spec/11 emptied; at completion UNMAP enters ATTACHED, RESTART makes a SYNC, RESTARTED, and each is reported
and written back. Nothing happens earlier. UNMAP's clearing marks the terminal and group records that then differ, the
group records that then show something else, and the engine summary (R70, R93, R156): that it marks them there, and no
others, is notes/assumptions/24.md. -/
def Obligations.UnmapAndRestartComplete : Prop :=
  (∀ (s : State) (addr : Addr) (since : Time),
    let early := s.working = false ∨ reached s.time (since + 1) = false
    let ready := s.working = true ∧ reached s.time (since + 1) = true
    let finish (u : State) (e : InProgress) (k : Kind) :=
      let v := (u.reportDone e.slot k .done 0).enqueue (.writeBack addr (writeBackBytes e.slot .done .done e.overwritten 0))
      { v with cmd := { v.cmd with unit := if v.cmd.due = [] then .idle else .actions,
                                   inProgress := v.cmd.inProgress.filter (fun x => x.addr != addr) } }
    let flushed (u : CommandUnit) := { u with
      inProgress := u.inProgress.filter (fun e => !u.deferred.any (fun d => d.addr == e.addr)),
      deferred := [], due := u.due.filter (fun a => a != DueAction.deferred) }
    let all : Mirror := { s.mirror with dirty := List.range Config.mirrorRecords, cursor := 0 }
    (s.cmd.unit = .busy (.unmap false) addr since →
      (early → exec .unmapClearing s = .next s) ∧ exec .unmapCompletion s = .next s ∧
      (ready → ∃ t terms, exec .unmapClearing s = .next t ∧
        (∀ n : Fin 1024, terms[n.val] = { Terminal.unlisted with lastChange := (s.term n).lastChange }) ∧
        t = { s with
          map := none, table := { s.table with terms := terms },
          corr := { s.corr with groups := Vector.replicate 240 Group.idle, stormIn := false },
          mirror := { s.mirror with dirty := t.mirror.dirty },
          cmd := { flushed s.cmd with
            unit := .busy (.unmap true) addr since, lineA := s.cmd.lineA.emptied, lineB := s.cmd.lineB.emptied, due := [] } } ∧
        ∀ i, i ∈ t.mirror.dirty ↔ i ∈ s.mirror.dirty ∨ i = 1280 ∨ (∃ n : Fin 1024, i = n.val ∧ t.term n ≠ s.term n) ∨
          ∃ g : GroupId, i = g.record ∧ (t.group g ≠ s.group g ∨ t.recordBytes i 0 ≠ s.recordBytes i 0))) ∧
    (s.cmd.unit = .busy (.restart false) addr since →
      (early → exec .restartClearing s = .next s) ∧ exec .restartCompletion s = .next s ∧
      (ready → s.ctl.mode ≠ .running → exec .restartClearing s =
        .next { s with cmd := { s.cmd with unit := .busy (.restart true) addr since } }) ∧
      (ready → s.ctl.mode = .running → ∃ terms : Vector Terminal 1024,
        (∀ n : Fin 1024, terms[n.val] = if n.val < s.entries.length then
          { Terminal.unlisted with state := .up, lastChange := s.time } else s.term n) ∧
        exec .restartClearing s = .next { s with
          table := { s.table with terms := terms },
          corr := { s.corr with groups := Vector.replicate 240 Group.idle, stormIn := false }, mirror := all,
          cmd := { flushed s.cmd with unit := .busy (.restart true) addr since } })) ∧
    (∀ e, s.progress addr = some e →
      (s.cmd.unit = .busy (.unmap true) addr since →
        (s.ready = false → exec .unmapCompletion s = .next s) ∧
        (s.ready = true → exec .unmapCompletion s =
          .next (finish { s with ctl := { s.ctl with mode := .attached }, mirror := all } e .unmap))) ∧
      (s.cmd.unit = .busy (.restart true) addr since →
        (s.ready = false → exec .restartCompletion s = .next s) ∧
        (s.ready = true → exec .restartCompletion s = .next (finish (s.makeSync { restarted := true }
          { source := .engine, word := 0 }).1 e .restart))))) ∧
  (∀ u : LineUnit, u.emptied = { u with actions := [], runPending := false, absorbed := 0 })

/-- The tests of TABLE 10-2 in order (R161, R163, R165, R166): a slot in progress is refused SLOT_BUSY and its entry
marked overwritten; then BAD_KIND; a BUSY unit refuses all but MAP_ABORT; then BAD_PARAM for a placement that is none,
WRONG_MODE or NOT_DEFERRABLE, and BAD_PARAM for the parameters. A refusal is its write-back and nothing else. The modes
and the deferring of each kind are those of TABLE 10-3; the parameters in range are those of R41, R56, R58, R90, R173 and
R174, the settings commands' those of SettingsCommands. -/
def Obligations.CommandsRefusedInOrder : Prop :=
  (∀ (s : State) (tag : Tag) (r : Request) (f : StepFor), s.Admitted tag r f → f.command = true →
    let refused (t : State) (c : Code) :=
      Took t (s.enqueue (.writeBack r.addr (writeBackBytes r.bytes .refused c false 0))) tag r
    let slotBusy (t : State) := Took t (State.enqueue
      { s with cmd := { s.cmd with inProgress := s.cmd.inProgress.map (fun e =>
          if e.addr == r.addr then { e with overwritten := true } else e) } }
      (.writeBack r.addr (writeBackBytes r.bytes .refused .slotBusy false 0))) tag r
    (slotKind r.bytes = none → ∃ t, exec (.badKind tag) s = .next t ∧
      (s.progress r.addr ≠ none → slotBusy t) ∧ (s.progress r.addr = none → refused t .badKind)) ∧
    (∀ k, slotKind r.bytes = some k → ∃ t, exec (slotRow tag k) s = .next t ∧
      (s.progress r.addr ≠ none → slotBusy t) ∧
      (s.progress r.addr = none →
        (s.cmd.unit.isBusy = true → k ≠ .mapAbort → refused t .busy) ∧
        (s.cmd.unit.isBusy = false ∨ k = .mapAbort →
          (slotPlacement r.bytes = none → refused t .badParam) ∧
          (slotPlacement r.bytes = some .now → k.inMode s.ctl.mode = false → refused t .wrongMode) ∧
          (slotPlacement r.bytes = some .now → k.inMode s.ctl.mode = true → paramsOk k s.ctl.mode r.bytes = false →
            refused t .badParam) ∧
          (∀ p, slotPlacement r.bytes = some p → p ≠ .now →
            (k.deferrable = false → refused t .notDeferrable) ∧
            (k.deferrable = true → paramsOk k s.ctl.mode r.bytes = false → refused t .badParam)))))) ∧
  (
    let row (k : Kind) (modes : List Mode) (deferrable : Bool) :=
      (∀ m, k.inMode m = true ↔ m ∈ modes) ∧ k.deferrable = deferrable
    row .setIntake [.attached, .running] false ∧ row .clearIntake [.attached, .running] false ∧
    row .setWindows [.attached, .loading, .running] true ∧ row .setThresholds [.attached, .loading, .running] true ∧
    row .setFlap [.attached, .loading, .running] true ∧ row .setStorm [.attached, .loading, .running] true ∧
    row .setReporting [.attached, .loading, .running] true ∧ row .arm [.attached, .loading, .running] true ∧
    row .setSync [.attached, .loading, .running] true ∧ row .forceSync [.attached, .running] true ∧
    row .mute [.running] true ∧ row .unmute [.running] true ∧ row .seed [.running] false ∧
    row .mapBegin [.attached, .loading] false ∧ row .mapEnd [.attached, .loading] false ∧ row .mapAbort [.loading] false ∧
    row .unmap [.running] false ∧ row .restart [.attached, .running] false ∧
    row .dropAction [.attached, .loading, .running] false ∧ row .queueFlush [.attached, .loading, .running] false) ∧
  (∀ (m : Mode) (b : List Byte),
    (paramsOk .setIntake m b = true ↔ byteAt b 10 ≤ 15 ∧ leAt b 11 5 % 64 = 0 ∧
      (∃ e, 2 ≤ e ∧ e ≤ 12 ∧ leAt b 16 2 = 2 ^ e) ∧ byteAt b 18 ≤ 31 ∧ (byteAt b 19 = 1 ∨ byteAt b 19 = 2) ∧
      leAt b 11 5 + 16 * leAt b 16 2 ≤ 2 ^ 40) ∧
    (paramsOk .clearIntake m b = true ↔ byteAt b 10 ≤ 15) ∧
    (paramsOk .mute m b = true ↔ leAt b 10 2 ≤ 1023) ∧ (paramsOk .unmute m b = true ↔ leAt b 10 2 ≤ 1023) ∧
    (paramsOk .seed m b = true ↔ leAt b 10 2 ≤ 1023 ∧ ∃ target, seedTarget b = some target) ∧
    (paramsOk .mapBegin m b = true ↔ m = .loading ∨
      (leAt b 10 2 % 8 = 0 ∧ 32 ≤ leAt b 10 2 ∧ leAt b 10 2 ≤ 4448 ∧ 1 ≤ byteAt b 12 ∧ byteAt b 12 ≤ 63)) ∧
    (paramsOk .dropAction m b = true ↔ byteAt b 10 = 0 ∨ byteAt b 10 = 1) ∧
    ∀ k ∈ [Kind.forceSync, .mapEnd, .mapAbort, .unmap, .restart, .queueFlush], paramsOk k m b = true) ∧
  (∀ b : List Byte,
    (∀ target, seedTarget b = some target ↔ target ∈ [TState.up, .downFibre, .downPower, .downOff] ∧
      byteAt b 12 = [TState.unlisted, .up, .gasped, .suspect, .downFibre, .downPower, .downOff].idxOf target) ∧
    (∀ k, slotKind b = some k ↔ byteAt b 1 = codeOf k) ∧
    ∀ p, slotPlacement b = some p ↔ byteAt b 2 = [Placement.now, .defer, .line .a, .line .b].idxOf p) ∧
  (∀ (s : State) (addr : Addr), (s.progress addr = none ↔ ∀ e ∈ s.cmd.inProgress, e.addr ≠ addr) ∧
    ∀ e, s.progress addr = some e → e ∈ s.cmd.inProgress ∧ e.addr = addr)

/-! ## Deferred entries and contact lines -/

/-- Commands stored for later, and the commands that remove them (R166, R174, R176, R177, R178, R183): a deferred entry
joins its queue of 8 and is written back QUEUED, the head of an empty queue being examined at once; an action joins its
line's list of 4; DROP_ACTION removes a line's last action; QUEUE_FLUSH discards every deferred entry and reports how
many. The trigger a slot names, a count from 1 to 1,024 (R177, TABLE 13-3). -/
def Obligations.StoringCommands : Prop :=
  (∀ (s : State) (tag : Tag) (r : Request) (f : StepFor) (k : Kind), s.SlotWrite tag r f k →
    let b := r.bytes
    let wrote (t u : State) (st : SlotState) (c : Code) (data : Nat) :=
      Took t (u.enqueue (.writeBack r.addr (writeBackBytes b st c false data))) tag r
    let entry (tr : Trigger) : DeferredEntry := { kind := k, slot := b, trigger := tr, addr := r.addr, due := false }
    let queued (tr : Trigger) := State.enqueue
      { s with cmd := { s.cmd with
          deferred := s.cmd.deferred ++ [entry tr],
          inProgress := s.cmd.inProgress ++ [{ addr := r.addr, slot := b, overwritten := false }] } }
      (.writeBack r.addr (writeBackBytes b .queued .done false (s.cmd.deferred.length + 1)))
    (k.deferrable = true → paramsOk k s.ctl.mode b = true → ∃ t, exec (slotRow tag k) s = .next t ∧
      (slotPlacement b = some .defer → slotTrigger b = none → wrote t s .refused .badParam 0) ∧
      (∀ tr, slotPlacement b = some .defer → slotTrigger b = some tr → (∀ l, tr = .line l → (s.line l).actions = []) →
        (8 ≤ s.cmd.deferred.length → wrote t s .refused .queueFull 0) ∧
        (s.cmd.deferred.length < 8 → s.cmd.deferred ≠ [] → Took t (queued tr) tag r) ∧
        (s.cmd.deferred = [] →
          ((∃ n, tr = .downAtLeast n ∧ n ≤ s.buildingDown) ∨ (∃ x, tr = .atTime x ∧ reached s.time x = true) →
            Took t { queued tr with cmd := { (queued tr).cmd with
              deferred := [{ entry tr with due := true }], due := s.cmd.due ++ [.deferred], unit := .actions } } tag r) ∧
          (¬((∃ n, tr = .downAtLeast n ∧ n ≤ s.buildingDown) ∨ ∃ x, tr = .atTime x ∧ reached s.time x = true) →
            Took t (queued tr) tag r))) ∧
      (∀ l, slotPlacement b = some (.line l) → s.lineDeferred l = false →
        (4 ≤ (s.line l).actions.length → wrote t s .refused .listFull 0) ∧
        ((s.line l).actions.length < 4 → wrote t
          (s.setLine l { s.line l with actions := (s.line l).actions ++ [{ kind := k, slot := b }] }) .done .done
          (s.line l).actions.length))) ∧
    (k = .dropAction → s.NowWrite tag r f k → ∃ t, exec (.dropAction tag) s = .next t ∧ ∀ l, byteAt b 10 = lineCode l →
      ((s.line l).actions = [] → wrote t s .done .done 0) ∧
      ((s.line l).actions ≠ [] → wrote t (s.setLine l { s.line l with
        actions := (s.line l).actions.dropLast,
        absorbed := if (s.line l).actions.length = 1 then 0 else (s.line l).absorbed }) .done .done 1)) ∧
    (k = .queueFlush → s.NowWrite tag r f k → ∃ t, exec (.queueFlush tag) s = .next t ∧
      (s.cmd.deferred = [] → wrote t s .done .done 0) ∧
      (s.cmd.deferred ≠ [] → wrote t (State.makeReport
        { s with cmd := { s.cmd with
            inProgress := s.cmd.inProgress.filter (fun e => !s.cmd.deferred.any (fun d => d.addr == e.addr)),
            deferred := [], due := s.cmd.due.filter (fun a => a != DueAction.deferred) } }
        { origin := { source := .command, word := (slotTag b).setWidth 32 }, subject := none,
          payload := .deferredFlushed s.cmd.deferred.length }) .done .done s.cmd.deferred.length))) ∧
  (∀ b : List Byte,
    (slotTrigger b = some .stormIn ↔ byteAt b 3 = 1) ∧ (slotTrigger b = some .stormOut ↔ byteAt b 3 = 2) ∧
    (slotTrigger b = some (.line .a) ↔ byteAt b 3 = 3) ∧ (slotTrigger b = some (.line .b) ↔ byteAt b 3 = 4) ∧
    (∀ n, slotTrigger b = some (.downAtLeast n) ↔ byteAt b 3 = 5 ∧ n = leAt b 6 4 ∧ 1 ≤ n ∧ n ≤ 1024) ∧
    ∀ x : Time, slotTrigger b = some (.atTime x) ↔ byteAt b 3 = 6 ∧ x.toNat = leAt b 6 4) ∧
  (∀ (s : State) (l : Line), s.lineDeferred l = true ↔ ∃ e ∈ s.cmd.deferred, e.trigger = .line l) ∧
  lineCode .a = 0 ∧ lineCode .b = 1

/-- The instant of a head entry, the pins and their debouncing (R178, R181, R182): a changed pin starts 20 ms again; at
their end the pin is compared with the debounced level; a changed level is reported with the absorbed count, and on an
assertion the head entry may fall due first and the line's list is set to run, or absorbed where a run waits. A debounced
assertion meets the trigger of its line, and engine time an AT_TIME instant it has reached (R1, TABLE 11-1). That a pin
moves with no deadline in HALTED and under RESET_N is the model's choice (notes/assumptions/32.md). -/
def Obligations.LinesAreDebounced : Prop :=
  ∀ (s : State) (l : Line),
    let u := s.line l
    (s.working = true → exec .atTimeReached s = .next (s.watch (metByTime s.time))) ∧
    (s.working = false → exec .atTimeReached s = .next s) ∧
    (∀ level, exec (.linePinChange l level) s = .next (
      if u.pin = level then s
      else if s.working = true then s.setLine l { u with pin := level, deadline := some (s.time + 20) }
      else s.setLine l { u with pin := level })) ∧
    (s.ready = false ∨ due s.time u.deadline = false → exec (.debounceExpiry l) s = .next s) ∧
    (s.ready = true → due s.time u.deadline = true →
      let settled := s.setLine l { u with deadline := none }
      let changed := s.setLine l { u with deadline := none, level := u.pin }
      let report (v : State) := v.makeReport
        { origin := { source := .line l, word := 0 }, subject := none,
          payload := .lineChange l u.pin (v.line l).absorbed }
      let watched := changed.watch (metByLine l)
      (u.pin = u.level → exec (.debounceExpiry l) s = .next settled) ∧
      (u.pin ≠ u.level → s.ctl.mode = .detached → exec (.debounceExpiry l) s = .next changed) ∧
      (u.pin ≠ u.level → s.ctl.mode ≠ .detached →
        (u.pin = false ∨ u.actions = [] →
          exec (.debounceExpiry l) s = .next (report (if u.pin = true then watched else changed))) ∧
        (u.pin = true → u.actions ≠ [] → u.runPending = true → exec (.debounceExpiry l) s =
          .next (report (watched.setLine l { watched.line l with
            absorbed := if u.absorbed < 255 then u.absorbed + 1 else u.absorbed }))) ∧
        (u.pin = true → u.actions ≠ [] → u.runPending = false → exec (.debounceExpiry l) s =
          .next (report ((watched.setLine l { watched.line l with runPending := true }).appendDue (.line l)))))) ∧
    (∀ tr : Trigger, (metByLine l tr = true ↔ tr = .line l) ∧
      (metByTime s.time tr = true ↔ ∃ x, tr = .atTime x ∧ (s.time - x).toNat < 2 ^ 31)) ∧
    (∀ a : DueAction, s.appendDue a = { s with cmd := { s.cmd with
      due := s.cmd.due ++ [a], unit := if s.cmd.unit = .idle then .actions else s.cmd.unit } })

/-- The runs of stored commands (R179, R180, R185, R186): the first due action is taken in ACTIONS. A deferred entry that
runs is reported ACTION_DONE and written back, and the next becomes head; one that fails takes the whole queue with it. A
line's list runs in order until an action fails, which empties it. A stored command outside its modes fails WRONG_MODE;
inside them it does what it does as a command taken (R166). The next head is examined (R178), a final write-back takes its
entry off the in-progress list (R165), and a flush discards what is queued (R165, R180). -/
def Obligations.StoredCommandsRun : Prop :=
  (∀ (s : State) (e : DeferredEntry) (rest : List DeferredEntry) (due : List DueAction),
    s.cmd.due = .deferred :: due → s.cmd.deferred = e :: rest →
    let v := { s with cmd := { s.cmd with due := due, deferred := [] } }
    let report (u : State) (p : Payload) := u.makeReport
      { origin := { source := .deferred, word := (slotTag e.slot).setWidth 32 }, subject := none, payload := p }
    let idle (u : State) := if u.cmd.due = [] then { u with cmd := { u.cmd with unit := .idle } } else u
    let stored (u : State) := { u with cmd := { u.cmd with deferred := rest } }
    (s.ready = false ∨ s.cmd.unit ≠ .actions → exec .deferredEntryRun s = .next s) ∧
    (s.ready = true → s.cmd.unit = .actions →
      (∀ u data, v.runStored e.kind e.slot .deferred = .ok (u, data) → exec .deferredEntryRun s = .next (idle
        (stored ((report u (.actionDone e.kind .done)).finalWriteBack e.addr .done .done data)).examineHead)) ∧
      (∀ c, v.runStored e.kind e.slot .deferred = .error c →
        let w := report v (.actionFailed e.kind c)
        let x := if rest = [] then w else report w (.deferredFlushed rest.length)
        exec .deferredEntryRun s = .next (idle (stored (x.finalWriteBack e.addr .failed c 0)).flushDeferred)))) ∧
  (∀ (s : State) (l : Line) (due : List DueAction), s.cmd.due = .line l :: due →
    let v := { s with cmd := { s.cmd with due := due } }
    let idle (u : State) := if u.cmd.due = [] then { u with cmd := { u.cmd with unit := .idle } } else u
    (s.ready = false ∨ s.cmd.unit ≠ .actions → exec (.lineActionRun l) s = .next s) ∧
    (s.ready = true → s.cmd.unit = .actions → exec (.lineActionRun l) s = .next (idle
      (State.runEntries l (s.line l).actions (v.setLine l { s.line l with runPending := false, absorbed := 0 }))))) ∧
  (∀ (s : State) (l : Line) (e : LineEntry) (rest : List LineEntry),
    let report (u : State) (p : Payload) := u.makeReport
      { origin := { source := .line l, word := (slotTag e.slot).setWidth 32 }, subject := none, payload := p }
    State.runEntries l [] s = s ∧
    (∀ u data, s.runStored e.kind e.slot (.line l) = .ok (u, data) →
      State.runEntries l (e :: rest) s = State.runEntries l rest (report u (.actionDone e.kind .done))) ∧
    (∀ c, s.runStored e.kind e.slot (.line l) = .error c →
      let u := report s (.actionFailed e.kind c)
      State.runEntries l (e :: rest) s = u.setLine l { u.line l with actions := [], runPending := false, absorbed := 0 })) ∧
  (∀ (s : State) (k : Kind) (b : List Byte) (src : Source), k.inMode s.ctl.mode = false →
    s.runStored k b src = .error .wrongMode) ∧
  (∀ (s : State) (b : List Byte) (src : Source),
    let c := s.settings
    let o : Origin := { source := src, word := (slotTag b).setWidth 32 }
    let v := { s with cmd := { s.cmd with settings := { c with stormOn := leAt b 10 2, stormOff := leAt b 12 2 } } }
    let sets (k : Kind) (c : Settings) :=
      s.runStored k b src = .ok ({ s with cmd := { s.cmd with settings := c } }, 0)
    (s.ctl.mode = .attached ∨ s.ctl.mode = .loading ∨ s.ctl.mode = .running →
      sets .setWindows { c with
        grace := leAt b 10 2, gaspFollow := leAt b 12 2, tapWindow := leAt b 14 2, riserWindow := leAt b 16 2,
        portWindow := leAt b 18 2, zoneWindow := leAt b 20 2, holdDown := leAt b 22 2 } ∧
      sets .setThresholds { c with
        tapRaise := byteAt b 10, riserRaise := byteAt b 11, portRaise := byteAt b 12, zoneRaise := byteAt b 13,
        tapClear := byteAt b 14, riserClear := byteAt b 15, portClear := byteAt b 16, zoneClear := byteAt b 17,
        tapMin := byteAt b 18, zoneMin := byteAt b 19 } ∧
      sets .setFlap { c with flapLimit := byteAt b 10, flapWindow := leAt b 12 2, quietTime := leAt b 14 2 } ∧
      sets .setSync { c with syncInterval := leAt b 10 2 } ∧
      (paramsOk .setReporting s.ctl.mode b = true → sets .setReporting { c with
        stormMode := if byteAt b 10 = 1 then .single else .every,
        brownoutMode := if byteAt b 11 = 0 then .none else if byteAt b 11 = 1 then .single else .every,
        offReports := byteAt b 12 == 1 }) ∧
      ((s.corr.stormIn = false → leAt b 10 2 ≤ s.buildingDown →
          s.runStored .setStorm b src = .ok (v.stormChange true o, 1)) ∧
        (s.corr.stormIn = true → s.buildingDown ≤ leAt b 12 2 →
          s.runStored .setStorm b src = .ok (v.stormChange false o, 1)) ∧
        (s.corr.stormIn = false ∧ s.buildingDown < leAt b 10 2 ∨ s.corr.stormIn = true ∧ leAt b 12 2 < s.buildingDown →
          s.runStored .setStorm b src = .ok (v, 0))) ∧
      (s.corr.stormArmed = true ∧ s.table.brownoutArmed = true → s.runStored .arm b src = .ok (s, 0)) ∧
      (s.corr.stormArmed = false ∨ s.table.brownoutArmed = false → s.runStored .arm b src = .ok
        ({ s with corr := { s.corr with stormArmed := true }, table := { s.table with brownoutArmed := true } }.mark 1280,
          0))) ∧
    (s.ctl.mode = .attached ∨ s.ctl.mode = .running → s.runStored .forceSync b src =
      .ok ((s.makeSync { forced := true } o).1, if (s.makeSync { forced := true } o).2 = true then 1 else 0)) ∧
    (s.ctl.mode = .running → ∀ n : Fin 1024, n.val = leAt b 10 2 →
      let d := s.term n
      let report (u : State) (p : Payload) := u.makeReport { origin := o, subject := some n.val, payload := p }
      let quiet := some (s.time + BitVec.ofNat 32 (1000 * c.quietTime))
      let free := { d with muted := false, quiet := none, flapStart := none, downEntries := 0 }
      (s.entry? n = none → s.runStored .mute b src = .error .noTerminal ∧ s.runStored .unmute b src = .error .noTerminal) ∧
      (∀ e, s.entry? n = some e →
        (e.prompt = true → s.runStored .mute b src = .error .badParam) ∧
        (e.prompt = false → d.muted = true →
          s.runStored .mute b src = .ok (s.putTerm n { d with quiet := quiet }, 0)) ∧
        (e.prompt = false → d.muted = false → s.runStored .mute b src =
          .ok (report (s.putTerm n { d with muted := true, quiet := quiet }) (.muted d.downEntries), 1)) ∧
        (d.muted = false → s.runStored .unmute b src = .ok (s, 0)) ∧
        (d.muted = true → d.disp ≠ .quiet → s.runStored .unmute b src = .ok (report (s.putTerm n free) .unmuted, 1)) ∧
        (d.muted = true → d.disp = .quiet → s.runStored .unmute b src =
          .ok (report (report (s.putTerm n { free with disp := .reported }) .unmuted)
            (.terminalDown (if d.state = .downFibre then .fibre else .power)), 1))))) ∧
  (∀ s : State,
    (s.cmd.deferred = [] → s.examineHead = s) ∧
    (∀ e rest, s.cmd.deferred = e :: rest →
      let met := (∃ n, e.trigger = .downAtLeast n ∧ n ≤ s.buildingDown) ∨
        ∃ x, e.trigger = .atTime x ∧ reached s.time x = true
      (¬met ∨ e.due = true → s.examineHead = s) ∧
      (met → e.due = false → s.examineHead = { s with cmd := { s.cmd with
        deferred := { e with due := true } :: rest, due := s.cmd.due ++ [.deferred],
        unit := if s.cmd.unit = .idle then .actions else s.cmd.unit } })) ∧
    s.flushDeferred = { s with cmd := { s.cmd with
      inProgress := s.cmd.inProgress.filter (fun x => !s.cmd.deferred.any (fun d => d.addr == x.addr)),
      deferred := [], due := s.cmd.due.filter (fun a => a != DueAction.deferred) } }) ∧
  (∀ (s : State) (addr : Addr) (st : SlotState) (c : Code) (data : Nat),
    (s.progress addr = none → s.finalWriteBack addr st c data = s) ∧
    (∀ e, s.progress addr = some e → s.finalWriteBack addr st c data =
      let v := s.enqueue (.writeBack addr (writeBackBytes e.slot st c e.overwritten data))
      { v with cmd := { v.cmd with inProgress := s.cmd.inProgress.filter (fun x => x.addr != addr) } }))
end

