-- ==== Sys2Proof/Laws/State.lean ====
section
/-! SUPPORT. What each elementary update of the state changes, field by field: one lemma for each field of each update. -/

namespace Sys2Proof.Machine

variable (s : State)

/-! ## withPath -/

@[simp] theorem withPath_pending (p : Path) : (s.withPath p).pending = s.pending := rfl
@[simp] theorem withPath_inReset (p : Path) : (s.withPath p).inReset = s.inReset := rfl
@[simp] theorem withPath_time (p : Path) : (s.withPath p).time = s.time := rfl
@[simp] theorem withPath_ctl (p : Path) : (s.withPath p).ctl = s.ctl := rfl
@[simp] theorem withPath_map (p : Path) : (s.withPath p).map = s.map := rfl
@[simp] theorem withPath_loader (p : Path) : (s.withPath p).loader = s.loader := rfl
@[simp] theorem withPath_intake (p : Path) : (s.withPath p).intake = s.intake := rfl
@[simp] theorem withPath_table (p : Path) : (s.withPath p).table = s.table := rfl
@[simp] theorem withPath_corr (p : Path) : (s.withPath p).corr = s.corr := rfl
@[simp] theorem withPath_rw (p : Path) : (s.withPath p).rw = s.rw := rfl
@[simp] theorem withPath_mirror (p : Path) : (s.withPath p).mirror = s.mirror := rfl
@[simp] theorem withPath_path (p : Path) : (s.withPath p).path = p := rfl
@[simp] theorem withPath_cmd (p : Path) : (s.withPath p).cmd = s.cmd := rfl

/-! ## setTerm -/

@[simp] theorem setTerm_pending (n : Fin 1024) (x : Terminal) : (s.setTerm n x).pending = s.pending := rfl
@[simp] theorem setTerm_inReset (n : Fin 1024) (x : Terminal) : (s.setTerm n x).inReset = s.inReset := rfl
@[simp] theorem setTerm_time (n : Fin 1024) (x : Terminal) : (s.setTerm n x).time = s.time := rfl
@[simp] theorem setTerm_ctl (n : Fin 1024) (x : Terminal) : (s.setTerm n x).ctl = s.ctl := rfl
@[simp] theorem setTerm_map (n : Fin 1024) (x : Terminal) : (s.setTerm n x).map = s.map := rfl
@[simp] theorem setTerm_loader (n : Fin 1024) (x : Terminal) : (s.setTerm n x).loader = s.loader := rfl
@[simp] theorem setTerm_intake (n : Fin 1024) (x : Terminal) : (s.setTerm n x).intake = s.intake := rfl
@[simp] theorem setTerm_table (n : Fin 1024) (x : Terminal) :
    (s.setTerm n x).table = { s.table with terms := s.table.terms.set n.val x } := rfl
@[simp] theorem setTerm_corr (n : Fin 1024) (x : Terminal) : (s.setTerm n x).corr = s.corr := rfl
@[simp] theorem setTerm_rw (n : Fin 1024) (x : Terminal) : (s.setTerm n x).rw = s.rw := rfl
@[simp] theorem setTerm_mirror (n : Fin 1024) (x : Terminal) : (s.setTerm n x).mirror = s.mirror := rfl
@[simp] theorem setTerm_path (n : Fin 1024) (x : Terminal) : (s.setTerm n x).path = s.path := rfl
@[simp] theorem setTerm_cmd (n : Fin 1024) (x : Terminal) : (s.setTerm n x).cmd = s.cmd := rfl

/-! ## setGroup -/

@[simp] theorem setGroup_pending (g : GroupId) (x : Group) : (s.setGroup g x).pending = s.pending := rfl
@[simp] theorem setGroup_inReset (g : GroupId) (x : Group) : (s.setGroup g x).inReset = s.inReset := rfl
@[simp] theorem setGroup_time (g : GroupId) (x : Group) : (s.setGroup g x).time = s.time := rfl
@[simp] theorem setGroup_ctl (g : GroupId) (x : Group) : (s.setGroup g x).ctl = s.ctl := rfl
@[simp] theorem setGroup_map (g : GroupId) (x : Group) : (s.setGroup g x).map = s.map := rfl
@[simp] theorem setGroup_loader (g : GroupId) (x : Group) : (s.setGroup g x).loader = s.loader := rfl
@[simp] theorem setGroup_intake (g : GroupId) (x : Group) : (s.setGroup g x).intake = s.intake := rfl
@[simp] theorem setGroup_table (g : GroupId) (x : Group) : (s.setGroup g x).table = s.table := rfl
@[simp] theorem setGroup_corr (g : GroupId) (x : Group) :
    (s.setGroup g x).corr = { s.corr with groups := s.corr.groups.set g.index.val x } := rfl
@[simp] theorem setGroup_rw (g : GroupId) (x : Group) : (s.setGroup g x).rw = s.rw := rfl
@[simp] theorem setGroup_mirror (g : GroupId) (x : Group) : (s.setGroup g x).mirror = s.mirror := rfl
@[simp] theorem setGroup_path (g : GroupId) (x : Group) : (s.setGroup g x).path = s.path := rfl
@[simp] theorem setGroup_cmd (g : GroupId) (x : Group) : (s.setGroup g x).cmd = s.cmd := rfl

/-! ## setTally -/

@[simp] theorem setTally_pending (p : Fin 16) (x : Tally) : (s.setTally p x).pending = s.pending := rfl
@[simp] theorem setTally_inReset (p : Fin 16) (x : Tally) : (s.setTally p x).inReset = s.inReset := rfl
@[simp] theorem setTally_time (p : Fin 16) (x : Tally) : (s.setTally p x).time = s.time := rfl
@[simp] theorem setTally_ctl (p : Fin 16) (x : Tally) : (s.setTally p x).ctl = s.ctl := rfl
@[simp] theorem setTally_map (p : Fin 16) (x : Tally) : (s.setTally p x).map = s.map := rfl
@[simp] theorem setTally_loader (p : Fin 16) (x : Tally) : (s.setTally p x).loader = s.loader := rfl
@[simp] theorem setTally_intake (p : Fin 16) (x : Tally) :
    (s.setTally p x).intake = { s.intake with tallies := s.intake.tallies.set p.val x } := rfl
@[simp] theorem setTally_table (p : Fin 16) (x : Tally) : (s.setTally p x).table = s.table := rfl
@[simp] theorem setTally_corr (p : Fin 16) (x : Tally) : (s.setTally p x).corr = s.corr := rfl
@[simp] theorem setTally_rw (p : Fin 16) (x : Tally) : (s.setTally p x).rw = s.rw := rfl
@[simp] theorem setTally_mirror (p : Fin 16) (x : Tally) : (s.setTally p x).mirror = s.mirror := rfl
@[simp] theorem setTally_path (p : Fin 16) (x : Tally) : (s.setTally p x).path = s.path := rfl
@[simp] theorem setTally_cmd (p : Fin 16) (x : Tally) : (s.setTally p x).cmd = s.cmd := rfl

/-! ## setFaultMark -/

@[simp] theorem setFaultMark_pending (p : Fin 16) (v : Bool) : (s.setFaultMark p v).pending = s.pending := rfl
@[simp] theorem setFaultMark_inReset (p : Fin 16) (v : Bool) : (s.setFaultMark p v).inReset = s.inReset := rfl
@[simp] theorem setFaultMark_time (p : Fin 16) (v : Bool) : (s.setFaultMark p v).time = s.time := rfl
@[simp] theorem setFaultMark_ctl (p : Fin 16) (v : Bool) : (s.setFaultMark p v).ctl = s.ctl := rfl
@[simp] theorem setFaultMark_map (p : Fin 16) (v : Bool) : (s.setFaultMark p v).map = s.map := rfl
@[simp] theorem setFaultMark_loader (p : Fin 16) (v : Bool) : (s.setFaultMark p v).loader = s.loader := rfl
@[simp] theorem setFaultMark_intake (p : Fin 16) (v : Bool) :
    (s.setFaultMark p v).intake = { s.intake with faultMarks := s.intake.faultMarks.set p.val v } := rfl
@[simp] theorem setFaultMark_table (p : Fin 16) (v : Bool) : (s.setFaultMark p v).table = s.table := rfl
@[simp] theorem setFaultMark_corr (p : Fin 16) (v : Bool) : (s.setFaultMark p v).corr = s.corr := rfl
@[simp] theorem setFaultMark_rw (p : Fin 16) (v : Bool) : (s.setFaultMark p v).rw = s.rw := rfl
@[simp] theorem setFaultMark_mirror (p : Fin 16) (v : Bool) : (s.setFaultMark p v).mirror = s.mirror := rfl
@[simp] theorem setFaultMark_path (p : Fin 16) (v : Bool) : (s.setFaultMark p v).path = s.path := rfl
@[simp] theorem setFaultMark_cmd (p : Fin 16) (v : Bool) : (s.setFaultMark p v).cmd = s.cmd := rfl

/-! ## setLane -/

@[simp] theorem setLane_pending (t : Tag) (l : Lane) : (s.setLane t l).pending = s.pending := rfl
@[simp] theorem setLane_inReset (t : Tag) (l : Lane) : (s.setLane t l).inReset = s.inReset := rfl
@[simp] theorem setLane_time (t : Tag) (l : Lane) : (s.setLane t l).time = s.time := rfl
@[simp] theorem setLane_ctl (t : Tag) (l : Lane) : (s.setLane t l).ctl = s.ctl := rfl
@[simp] theorem setLane_map (t : Tag) (l : Lane) : (s.setLane t l).map = s.map := rfl
@[simp] theorem setLane_loader (t : Tag) (l : Lane) : (s.setLane t l).loader = s.loader := rfl
@[simp] theorem setLane_intake (t : Tag) (l : Lane) : (s.setLane t l).intake = s.intake := rfl
@[simp] theorem setLane_table (t : Tag) (l : Lane) : (s.setLane t l).table = s.table := rfl
@[simp] theorem setLane_corr (t : Tag) (l : Lane) : (s.setLane t l).corr = s.corr := rfl
@[simp] theorem setLane_rw (t : Tag) (l : Lane) : (s.setLane t l).rw = s.rw := rfl
@[simp] theorem setLane_mirror (t : Tag) (l : Lane) : (s.setLane t l).mirror = s.mirror := rfl
@[simp] theorem setLane_path (t : Tag) (l : Lane) :
    (s.setLane t l).path = { s.path with lanes := s.path.lanes.set t.val l } := rfl
@[simp] theorem setLane_cmd (t : Tag) (l : Lane) : (s.setLane t l).cmd = s.cmd := rfl

/-! ## setMode -/

@[simp] theorem setMode_pending (m : Mode) : (s.setMode m).pending = s.pending := rfl
@[simp] theorem setMode_inReset (m : Mode) : (s.setMode m).inReset = s.inReset := rfl
@[simp] theorem setMode_time (m : Mode) : (s.setMode m).time = s.time := rfl
@[simp] theorem setMode_ctl (m : Mode) : (s.setMode m).ctl = { s.ctl with mode := m } := rfl
@[simp] theorem setMode_map (m : Mode) : (s.setMode m).map = s.map := rfl
@[simp] theorem setMode_loader (m : Mode) : (s.setMode m).loader = s.loader := rfl
@[simp] theorem setMode_intake (m : Mode) : (s.setMode m).intake = s.intake := rfl
@[simp] theorem setMode_table (m : Mode) : (s.setMode m).table = s.table := rfl
@[simp] theorem setMode_corr (m : Mode) : (s.setMode m).corr = s.corr := rfl
@[simp] theorem setMode_rw (m : Mode) : (s.setMode m).rw = s.rw := rfl
@[simp] theorem setMode_mirror (m : Mode) : (s.setMode m).mirror = s.mirror := rfl
@[simp] theorem setMode_path (m : Mode) : (s.setMode m).path = s.path := rfl
@[simp] theorem setMode_cmd (m : Mode) : (s.setMode m).cmd = s.cmd := rfl

/-! ## setUnit -/

@[simp] theorem setUnit_pending (u : UnitState) : (s.setUnit u).pending = s.pending := rfl
@[simp] theorem setUnit_inReset (u : UnitState) : (s.setUnit u).inReset = s.inReset := rfl
@[simp] theorem setUnit_time (u : UnitState) : (s.setUnit u).time = s.time := rfl
@[simp] theorem setUnit_ctl (u : UnitState) : (s.setUnit u).ctl = s.ctl := rfl
@[simp] theorem setUnit_map (u : UnitState) : (s.setUnit u).map = s.map := rfl
@[simp] theorem setUnit_loader (u : UnitState) : (s.setUnit u).loader = s.loader := rfl
@[simp] theorem setUnit_intake (u : UnitState) : (s.setUnit u).intake = s.intake := rfl
@[simp] theorem setUnit_table (u : UnitState) : (s.setUnit u).table = s.table := rfl
@[simp] theorem setUnit_corr (u : UnitState) : (s.setUnit u).corr = s.corr := rfl
@[simp] theorem setUnit_rw (u : UnitState) : (s.setUnit u).rw = s.rw := rfl
@[simp] theorem setUnit_mirror (u : UnitState) : (s.setUnit u).mirror = s.mirror := rfl
@[simp] theorem setUnit_path (u : UnitState) : (s.setUnit u).path = s.path := rfl
@[simp] theorem setUnit_cmd (u : UnitState) : (s.setUnit u).cmd = { s.cmd with unit := u } := rfl

/-! ## mark -/

@[simp] theorem mark_pending (i : Nat) : (s.mark i).pending = s.pending := rfl
@[simp] theorem mark_inReset (i : Nat) : (s.mark i).inReset = s.inReset := rfl
@[simp] theorem mark_time (i : Nat) : (s.mark i).time = s.time := rfl
@[simp] theorem mark_ctl (i : Nat) : (s.mark i).ctl = s.ctl := rfl
@[simp] theorem mark_map (i : Nat) : (s.mark i).map = s.map := rfl
@[simp] theorem mark_loader (i : Nat) : (s.mark i).loader = s.loader := rfl
@[simp] theorem mark_intake (i : Nat) : (s.mark i).intake = s.intake := rfl
@[simp] theorem mark_table (i : Nat) : (s.mark i).table = s.table := rfl
@[simp] theorem mark_corr (i : Nat) : (s.mark i).corr = s.corr := rfl
@[simp] theorem mark_rw (i : Nat) : (s.mark i).rw = s.rw := rfl
@[simp] theorem mark_mirror (i : Nat) :
    (s.mark i).mirror = { s.mirror with dirty := insertIndex i s.mirror.dirty } := rfl
@[simp] theorem mark_path (i : Nat) : (s.mark i).path = s.path := rfl
@[simp] theorem mark_cmd (i : Nat) : (s.mark i).cmd = s.cmd := rfl

/-! ## markAll -/

@[simp] theorem markAll_pending : s.markAll.pending = s.pending := by simp only [State.markAll]
@[simp] theorem markAll_inReset : s.markAll.inReset = s.inReset := by simp only [State.markAll]
@[simp] theorem markAll_time : s.markAll.time = s.time := by simp only [State.markAll]
@[simp] theorem markAll_ctl : s.markAll.ctl = s.ctl := by simp only [State.markAll]
@[simp] theorem markAll_map : s.markAll.map = s.map := by simp only [State.markAll]
@[simp] theorem markAll_loader : s.markAll.loader = s.loader := by simp only [State.markAll]
@[simp] theorem markAll_intake : s.markAll.intake = s.intake := by simp only [State.markAll]
@[simp] theorem markAll_table : s.markAll.table = s.table := by simp only [State.markAll]
@[simp] theorem markAll_corr : s.markAll.corr = s.corr := by simp only [State.markAll]
@[simp] theorem markAll_rw : s.markAll.rw = s.rw := by simp only [State.markAll]
@[simp] theorem markAll_mirror :
    s.markAll.mirror = { s.mirror with dirty := List.range Config.mirrorRecords, cursor := 0 } := by simp only [State.markAll]
@[simp] theorem markAll_path : s.markAll.path = s.path := by simp only [State.markAll]
@[simp] theorem markAll_cmd : s.markAll.cmd = s.cmd := by simp only [State.markAll]

/-! ## enqueue -/

@[simp] theorem enqueue_pending (w : OwnWrite) : (s.enqueue w).pending = s.pending := rfl
@[simp] theorem enqueue_inReset (w : OwnWrite) : (s.enqueue w).inReset = s.inReset := rfl
@[simp] theorem enqueue_time (w : OwnWrite) : (s.enqueue w).time = s.time := rfl
@[simp] theorem enqueue_ctl (w : OwnWrite) : (s.enqueue w).ctl = s.ctl := rfl
@[simp] theorem enqueue_map (w : OwnWrite) : (s.enqueue w).map = s.map := rfl
@[simp] theorem enqueue_loader (w : OwnWrite) : (s.enqueue w).loader = s.loader := rfl
@[simp] theorem enqueue_intake (w : OwnWrite) : (s.enqueue w).intake = s.intake := rfl
@[simp] theorem enqueue_table (w : OwnWrite) : (s.enqueue w).table = s.table := rfl
@[simp] theorem enqueue_corr (w : OwnWrite) : (s.enqueue w).corr = s.corr := rfl
@[simp] theorem enqueue_rw (w : OwnWrite) : (s.enqueue w).rw = { s.rw with queue := s.rw.queue ++ [w] } := rfl
@[simp] theorem enqueue_mirror (w : OwnWrite) : (s.enqueue w).mirror = s.mirror := rfl
@[simp] theorem enqueue_path (w : OwnWrite) : (s.enqueue w).path = s.path := rfl
@[simp] theorem enqueue_cmd (w : OwnWrite) : (s.enqueue w).cmd = s.cmd := rfl

/-! ## putSettings -/

@[simp] theorem putSettings_pending (c : Settings) : (s.putSettings c).pending = s.pending := rfl
@[simp] theorem putSettings_inReset (c : Settings) : (s.putSettings c).inReset = s.inReset := rfl
@[simp] theorem putSettings_time (c : Settings) : (s.putSettings c).time = s.time := rfl
@[simp] theorem putSettings_ctl (c : Settings) : (s.putSettings c).ctl = s.ctl := rfl
@[simp] theorem putSettings_map (c : Settings) : (s.putSettings c).map = s.map := rfl
@[simp] theorem putSettings_loader (c : Settings) : (s.putSettings c).loader = s.loader := rfl
@[simp] theorem putSettings_intake (c : Settings) : (s.putSettings c).intake = s.intake := rfl
@[simp] theorem putSettings_table (c : Settings) : (s.putSettings c).table = s.table := rfl
@[simp] theorem putSettings_corr (c : Settings) : (s.putSettings c).corr = s.corr := rfl
@[simp] theorem putSettings_rw (c : Settings) : (s.putSettings c).rw = s.rw := rfl
@[simp] theorem putSettings_mirror (c : Settings) : (s.putSettings c).mirror = s.mirror := rfl
@[simp] theorem putSettings_path (c : Settings) : (s.putSettings c).path = s.path := rfl
@[simp] theorem putSettings_cmd (c : Settings) : (s.putSettings c).cmd = { s.cmd with settings := c } := rfl

/-! ## setDeferred -/

@[simp] theorem setDeferred_pending (q : List DeferredEntry) : (s.setDeferred q).pending = s.pending := rfl
@[simp] theorem setDeferred_inReset (q : List DeferredEntry) : (s.setDeferred q).inReset = s.inReset := rfl
@[simp] theorem setDeferred_time (q : List DeferredEntry) : (s.setDeferred q).time = s.time := rfl
@[simp] theorem setDeferred_ctl (q : List DeferredEntry) : (s.setDeferred q).ctl = s.ctl := rfl
@[simp] theorem setDeferred_map (q : List DeferredEntry) : (s.setDeferred q).map = s.map := rfl
@[simp] theorem setDeferred_loader (q : List DeferredEntry) : (s.setDeferred q).loader = s.loader := rfl
@[simp] theorem setDeferred_intake (q : List DeferredEntry) : (s.setDeferred q).intake = s.intake := rfl
@[simp] theorem setDeferred_table (q : List DeferredEntry) : (s.setDeferred q).table = s.table := rfl
@[simp] theorem setDeferred_corr (q : List DeferredEntry) : (s.setDeferred q).corr = s.corr := rfl
@[simp] theorem setDeferred_rw (q : List DeferredEntry) : (s.setDeferred q).rw = s.rw := rfl
@[simp] theorem setDeferred_mirror (q : List DeferredEntry) : (s.setDeferred q).mirror = s.mirror := rfl
@[simp] theorem setDeferred_path (q : List DeferredEntry) : (s.setDeferred q).path = s.path := rfl
@[simp] theorem setDeferred_cmd (q : List DeferredEntry) : (s.setDeferred q).cmd = { s.cmd with deferred := q } := rfl

/-! ## takeDue -/

@[simp] theorem takeDue_pending : s.takeDue.pending = s.pending := rfl
@[simp] theorem takeDue_inReset : s.takeDue.inReset = s.inReset := rfl
@[simp] theorem takeDue_time : s.takeDue.time = s.time := rfl
@[simp] theorem takeDue_ctl : s.takeDue.ctl = s.ctl := rfl
@[simp] theorem takeDue_map : s.takeDue.map = s.map := rfl
@[simp] theorem takeDue_loader : s.takeDue.loader = s.loader := rfl
@[simp] theorem takeDue_intake : s.takeDue.intake = s.intake := rfl
@[simp] theorem takeDue_table : s.takeDue.table = s.table := rfl
@[simp] theorem takeDue_corr : s.takeDue.corr = s.corr := rfl
@[simp] theorem takeDue_rw : s.takeDue.rw = s.rw := rfl
@[simp] theorem takeDue_mirror : s.takeDue.mirror = s.mirror := rfl
@[simp] theorem takeDue_path : s.takeDue.path = s.path := rfl
@[simp] theorem takeDue_cmd : s.takeDue.cmd = { s.cmd with due := s.cmd.due.tail } := rfl

/-! ## stopBurst -/

@[simp] theorem stopBurst_pending : s.stopBurst.pending = s.pending := rfl
@[simp] theorem stopBurst_inReset : s.stopBurst.inReset = s.inReset := rfl
@[simp] theorem stopBurst_time : s.stopBurst.time = s.time := rfl
@[simp] theorem stopBurst_ctl : s.stopBurst.ctl = s.ctl := rfl
@[simp] theorem stopBurst_map : s.stopBurst.map = s.map := rfl
@[simp] theorem stopBurst_loader : s.stopBurst.loader = { s.loader with burst := none } := rfl
@[simp] theorem stopBurst_intake : s.stopBurst.intake = s.intake := rfl
@[simp] theorem stopBurst_table : s.stopBurst.table = s.table := rfl
@[simp] theorem stopBurst_corr : s.stopBurst.corr = s.corr := rfl
@[simp] theorem stopBurst_rw : s.stopBurst.rw = s.rw := rfl
@[simp] theorem stopBurst_mirror : s.stopBurst.mirror = s.mirror := rfl
@[simp] theorem stopBurst_path : s.stopBurst.path = s.path := rfl
@[simp] theorem stopBurst_cmd : s.stopBurst.cmd = s.cmd := rfl

/-! ## dropLoad -/

@[simp] theorem dropLoad_pending : s.dropLoad.pending = s.pending := rfl
@[simp] theorem dropLoad_inReset : s.dropLoad.inReset = s.inReset := rfl
@[simp] theorem dropLoad_time : s.dropLoad.time = s.time := rfl
@[simp] theorem dropLoad_ctl : s.dropLoad.ctl = s.ctl := rfl
@[simp] theorem dropLoad_map : s.dropLoad.map = s.map := rfl
@[simp] theorem dropLoad_loader :
    s.dropLoad.loader = { s.loader with capture := [], pointer := 0, overlong := false, burst := none } := rfl
@[simp] theorem dropLoad_intake : s.dropLoad.intake = s.intake := rfl
@[simp] theorem dropLoad_table : s.dropLoad.table = s.table := rfl
@[simp] theorem dropLoad_corr : s.dropLoad.corr = s.corr := rfl
@[simp] theorem dropLoad_rw : s.dropLoad.rw = s.rw := rfl
@[simp] theorem dropLoad_mirror : s.dropLoad.mirror = s.mirror := rfl
@[simp] theorem dropLoad_path : s.dropLoad.path = s.path := rfl
@[simp] theorem dropLoad_cmd : s.dropLoad.cmd = s.cmd := rfl

/-! ## enterPass -/

@[simp] theorem enterPass_pending (r : Request) (a : Bool) : (s.enterPass r a).pending = s.pending := rfl
@[simp] theorem enterPass_inReset (r : Request) (a : Bool) : (s.enterPass r a).inReset = s.inReset := rfl
@[simp] theorem enterPass_time (r : Request) (a : Bool) : (s.enterPass r a).time = s.time := rfl
@[simp] theorem enterPass_ctl (r : Request) (a : Bool) : (s.enterPass r a).ctl = s.ctl := rfl
@[simp] theorem enterPass_map (r : Request) (a : Bool) : (s.enterPass r a).map = s.map := rfl
@[simp] theorem enterPass_loader (r : Request) (a : Bool) : (s.enterPass r a).loader = s.loader := rfl
@[simp] theorem enterPass_intake (r : Request) (a : Bool) : (s.enterPass r a).intake = s.intake := rfl
@[simp] theorem enterPass_table (r : Request) (a : Bool) : (s.enterPass r a).table = s.table := rfl
@[simp] theorem enterPass_corr (r : Request) (a : Bool) : (s.enterPass r a).corr = s.corr := rfl
@[simp] theorem enterPass_rw (r : Request) (a : Bool) : (s.enterPass r a).rw = s.rw := rfl
@[simp] theorem enterPass_mirror (r : Request) (a : Bool) : (s.enterPass r a).mirror = s.mirror := rfl
@[simp] theorem enterPass_path (r : Request) (a : Bool) :
    (s.enterPass r a).path = { s.path with passPath := s.path.passPath ++ [{ req := r, acted := a }] } := rfl
@[simp] theorem enterPass_cmd (r : Request) (a : Bool) : (s.enterPass r a).cmd = s.cmd := rfl

/-! ## enterHeld -/

@[simp] theorem enterHeld_pending (h : HeldRead) : (s.enterHeld h).pending = s.pending := rfl
@[simp] theorem enterHeld_inReset (h : HeldRead) : (s.enterHeld h).inReset = s.inReset := rfl
@[simp] theorem enterHeld_time (h : HeldRead) : (s.enterHeld h).time = s.time := rfl
@[simp] theorem enterHeld_ctl (h : HeldRead) : (s.enterHeld h).ctl = s.ctl := rfl
@[simp] theorem enterHeld_map (h : HeldRead) : (s.enterHeld h).map = s.map := rfl
@[simp] theorem enterHeld_loader (h : HeldRead) : (s.enterHeld h).loader = s.loader := rfl
@[simp] theorem enterHeld_intake (h : HeldRead) : (s.enterHeld h).intake = s.intake := rfl
@[simp] theorem enterHeld_table (h : HeldRead) : (s.enterHeld h).table = s.table := rfl
@[simp] theorem enterHeld_corr (h : HeldRead) : (s.enterHeld h).corr = s.corr := rfl
@[simp] theorem enterHeld_rw (h : HeldRead) : (s.enterHeld h).rw = s.rw := rfl
@[simp] theorem enterHeld_mirror (h : HeldRead) : (s.enterHeld h).mirror = s.mirror := rfl
@[simp] theorem enterHeld_path (h : HeldRead) :
    (s.enterHeld h).path = { s.path with held := s.path.held ++ [h] } := rfl
@[simp] theorem enterHeld_cmd (h : HeldRead) : (s.enterHeld h).cmd = s.cmd := rfl

/-! ## dropStartMark -/

@[simp] theorem dropStartMark_pending : s.dropStartMark.pending = s.pending := rfl
@[simp] theorem dropStartMark_inReset : s.dropStartMark.inReset = s.inReset := rfl
@[simp] theorem dropStartMark_time : s.dropStartMark.time = s.time := rfl
@[simp] theorem dropStartMark_ctl : s.dropStartMark.ctl = { s.ctl with startMark := false } := rfl
@[simp] theorem dropStartMark_map : s.dropStartMark.map = s.map := rfl
@[simp] theorem dropStartMark_loader : s.dropStartMark.loader = s.loader := rfl
@[simp] theorem dropStartMark_intake : s.dropStartMark.intake = s.intake := rfl
@[simp] theorem dropStartMark_table : s.dropStartMark.table = s.table := rfl
@[simp] theorem dropStartMark_corr : s.dropStartMark.corr = s.corr := rfl
@[simp] theorem dropStartMark_rw : s.dropStartMark.rw = s.rw := rfl
@[simp] theorem dropStartMark_mirror : s.dropStartMark.mirror = s.mirror := rfl
@[simp] theorem dropStartMark_path : s.dropStartMark.path = s.path := rfl
@[simp] theorem dropStartMark_cmd : s.dropStartMark.cmd = s.cmd := rfl

/-! ## bumpSync -/

@[simp] theorem bumpSync_pending : s.bumpSync.pending = s.pending := rfl
@[simp] theorem bumpSync_inReset : s.bumpSync.inReset = s.inReset := rfl
@[simp] theorem bumpSync_time : s.bumpSync.time = s.time := rfl
@[simp] theorem bumpSync_ctl : s.bumpSync.ctl = s.ctl := rfl
@[simp] theorem bumpSync_map : s.bumpSync.map = s.map := rfl
@[simp] theorem bumpSync_loader : s.bumpSync.loader = s.loader := rfl
@[simp] theorem bumpSync_intake : s.bumpSync.intake = s.intake := rfl
@[simp] theorem bumpSync_table : s.bumpSync.table = s.table := rfl
@[simp] theorem bumpSync_corr : s.bumpSync.corr = s.corr := rfl
@[simp] theorem bumpSync_rw : s.bumpSync.rw = { s.rw with sinceSync := s.rw.sinceSync + 1 } := rfl
@[simp] theorem bumpSync_mirror : s.bumpSync.mirror = s.mirror := rfl
@[simp] theorem bumpSync_path : s.bumpSync.path = s.path := rfl
@[simp] theorem bumpSync_cmd : s.bumpSync.cmd = s.cmd := rfl

/-! ## appendDue -/

@[simp] theorem appendDue_pending (a : DueAction) : (s.appendDue a).pending = s.pending := rfl
@[simp] theorem appendDue_inReset (a : DueAction) : (s.appendDue a).inReset = s.inReset := rfl
@[simp] theorem appendDue_time (a : DueAction) : (s.appendDue a).time = s.time := rfl
@[simp] theorem appendDue_ctl (a : DueAction) : (s.appendDue a).ctl = s.ctl := rfl
@[simp] theorem appendDue_map (a : DueAction) : (s.appendDue a).map = s.map := rfl
@[simp] theorem appendDue_loader (a : DueAction) : (s.appendDue a).loader = s.loader := rfl
@[simp] theorem appendDue_intake (a : DueAction) : (s.appendDue a).intake = s.intake := rfl
@[simp] theorem appendDue_table (a : DueAction) : (s.appendDue a).table = s.table := rfl
@[simp] theorem appendDue_corr (a : DueAction) : (s.appendDue a).corr = s.corr := rfl
@[simp] theorem appendDue_rw (a : DueAction) : (s.appendDue a).rw = s.rw := rfl
@[simp] theorem appendDue_mirror (a : DueAction) : (s.appendDue a).mirror = s.mirror := rfl
@[simp] theorem appendDue_path (a : DueAction) : (s.appendDue a).path = s.path := rfl
@[simp] theorem appendDue_cmd (a : DueAction) :
    (s.appendDue a).cmd = { s.cmd with due := s.cmd.due ++ [a], unit := s.cmd.unit.wake } := rfl

/-! ## setLine -/

@[simp] theorem setLine_pending (l : Line) (u : LineUnit) : (s.setLine l u).pending = s.pending := by cases l <;> rfl
@[simp] theorem setLine_inReset (l : Line) (u : LineUnit) : (s.setLine l u).inReset = s.inReset := by cases l <;> rfl
@[simp] theorem setLine_time (l : Line) (u : LineUnit) : (s.setLine l u).time = s.time := by cases l <;> rfl
@[simp] theorem setLine_ctl (l : Line) (u : LineUnit) : (s.setLine l u).ctl = s.ctl := by cases l <;> rfl
@[simp] theorem setLine_map (l : Line) (u : LineUnit) : (s.setLine l u).map = s.map := by cases l <;> rfl
@[simp] theorem setLine_loader (l : Line) (u : LineUnit) : (s.setLine l u).loader = s.loader := by cases l <;> rfl
@[simp] theorem setLine_intake (l : Line) (u : LineUnit) : (s.setLine l u).intake = s.intake := by cases l <;> rfl
@[simp] theorem setLine_table (l : Line) (u : LineUnit) : (s.setLine l u).table = s.table := by cases l <;> rfl
@[simp] theorem setLine_corr (l : Line) (u : LineUnit) : (s.setLine l u).corr = s.corr := by cases l <;> rfl
@[simp] theorem setLine_rw (l : Line) (u : LineUnit) : (s.setLine l u).rw = s.rw := by cases l <;> rfl
@[simp] theorem setLine_mirror (l : Line) (u : LineUnit) : (s.setLine l u).mirror = s.mirror := by cases l <;> rfl
@[simp] theorem setLine_path (l : Line) (u : LineUnit) : (s.setLine l u).path = s.path := by cases l <;> rfl
@[simp] theorem setLine_cmd_unit (l : Line) (u : LineUnit) : (s.setLine l u).cmd.unit = s.cmd.unit := by cases l <;> rfl
@[simp] theorem setLine_cmd_inProgress (l : Line) (u : LineUnit) : (s.setLine l u).cmd.inProgress = s.cmd.inProgress := by cases l <;> rfl
@[simp] theorem setLine_cmd_settings (l : Line) (u : LineUnit) : (s.setLine l u).cmd.settings = s.cmd.settings := by cases l <;> rfl
@[simp] theorem setLine_cmd_deferred (l : Line) (u : LineUnit) : (s.setLine l u).cmd.deferred = s.cmd.deferred := by cases l <;> rfl
@[simp] theorem setLine_cmd_due (l : Line) (u : LineUnit) : (s.setLine l u).cmd.due = s.cmd.due := by cases l <;> rfl

/-! ## Reading back -/

@[simp] theorem line_setLine_self (l : Line) (u : LineUnit) : (s.setLine l u).line l = u := by cases l <;> rfl
theorem line_setLine_ne (l m : Line) (u : LineUnit) (h : m ≠ l) : (s.setLine l u).line m = s.line m := by
  cases l <;> cases m <;> first | rfl | exact absurd rfl h
@[simp] theorem term_setTerm_self (n : Fin 1024) (x : Terminal) : (s.setTerm n x).term n = x :=
  Vector.getElem_set_self ..
theorem term_setTerm_ne (n m : Fin 1024) (x : Terminal) (h : m ≠ n) : (s.setTerm n x).term m = s.term m :=
  Vector.getElem_set_ne (hi := by omega) (hj := by omega) (h := fun e => h (Fin.ext e.symm))
@[simp] theorem group_setGroup_self (g : GroupId) (x : Group) : (s.setGroup g x).group g = x :=
  Vector.getElem_set_self ..
theorem index_injective {g h : GroupId} (e : g.index = h.index) : g = h := by
  have e' := congrArg Fin.val e
  cases g <;> cases h <;> simp only [GroupId.index] at e' <;> first | (congr 1; omega) | omega
theorem group_setGroup_ne (g h : GroupId) (x : Group) (hne : h ≠ g) : (s.setGroup g x).group h = s.group h :=
  Vector.getElem_set_ne (hi := by omega) (hj := by omega) (h := fun e => hne (index_injective (Fin.ext e.symm)))
@[simp] theorem tally_setTally_self (p : Fin 16) (x : Tally) : (s.setTally p x).tally p = x :=
  Vector.getElem_set_self ..
theorem tally_setTally_ne (p q : Fin 16) (x : Tally) (h : q ≠ p) : (s.setTally p x).tally q = s.tally q :=
  Vector.getElem_set_ne (hi := by omega) (hj := by omega) (h := fun e => h (Fin.ext e.symm))
@[simp] theorem lane_setLane_self (t : Tag) (l : Lane) : (s.setLane t l).lane t = l :=
  Vector.getElem_set_self ..
theorem lane_setLane_ne (t u : Tag) (l : Lane) (h : u ≠ t) : (s.setLane t l).lane u = s.lane u :=
  Vector.getElem_set_ne (hi := by omega) (hj := by omega) (h := fun e => h (Fin.ext e.symm))

end Sys2Proof.Machine
end

