-- ==== Sys2Proof/Laws/Mirror.lean ====
section
/-! SUPPORT. Inserting in the dirty set: what it holds, that it stays rising, and that record indices are in range. -/

namespace Sys2Proof.Machine

theorem mem_insertIndex {i j : Nat} {l : List Nat} : j ∈ insertIndex i l ↔ j = i ∨ j ∈ l := by
  induction l with
  | nil => simp [insertIndex]
  | cons k rest ih =>
    unfold insertIndex
    split
    · simp
    · split
      · next h => subst h; simp
      · simp only [List.mem_cons, ih]; grind

theorem pairwise_insertIndex {i : Nat} {l : List Nat} (h : l.Pairwise (· < ·)) :
    (insertIndex i l).Pairwise (· < ·) := by
  induction l with
  | nil => simp [insertIndex]
  | cons k rest ih =>
    rw [List.pairwise_cons] at h
    unfold insertIndex
    split
    · next hk =>
      refine List.pairwise_cons.mpr ⟨fun a ha => ?_, List.pairwise_cons.mpr h⟩
      rcases List.mem_cons.mp ha with rfl | ha
      · exact hk
      · exact Nat.lt_trans hk (h.1 a ha)
    · split
      · exact List.pairwise_cons.mpr h
      · refine List.pairwise_cons.mpr ⟨fun a ha => ?_, ih h.2⟩
        rcases mem_insertIndex.mp ha with rfl | ha
        · omega
        · exact h.1 a ha

theorem record_lt (g : GroupId) : g.record < Config.mirrorRecords := by
  cases g <;> simp only [GroupId.record, GroupId.index, Config.groupBase, Config.mirrorRecords] <;> omega

theorem tally_lt (p : Fin 16) : Config.tallyBase + p.val < Config.mirrorRecords := by
  simp only [Config.tallyBase, Config.mirrorRecords]; omega

theorem summary_lt : Config.summaryRecord < Config.mirrorRecords := by decide

theorem term_lt (n : Fin 1024) : n.val < Config.mirrorRecords := by
  simp only [Config.mirrorRecords]; omega

theorem mark_sound {s : State} {i : Nat} (h : i < Config.mirrorRecords) (hs : s.mirrorSound) : (s.mark i).mirrorSound := by
  refine ⟨pairwise_insertIndex hs.1, fun j hj => ?_, hs.2.2⟩
  rcases mem_insertIndex.mp hj with rfl | hj
  · exact h
  · exact hs.2.1 j hj

theorem range_sound (n : Nat) : (List.range n).Pairwise (· < ·) ∧ ∀ i ∈ List.range n, i < n :=
  ⟨List.pairwise_lt_range, fun _ h => List.mem_range.mp h⟩

theorem sound_of_mirror {s : State} {n : Nat} (h : s.mirror.dirty = List.range n) (hn : n = Config.mirrorRecords)
    (hc : s.mirror.cursor = 0) : s.mirrorSound := by
  unfold State.mirrorSound
  rw [h, hc, ← hn]
  refine ⟨(range_sound n).1, (range_sound n).2, ?_⟩
  rw [hn]; exact Nat.zero_lt_succ _

theorem range_ne_nil {n : Nat} (h : n ≠ 0) : List.range n ≠ [] := by
  rw [ne_eq, List.range_eq_nil]; exact h

theorem ne_nil_of_range {l : List Nat} {n : Nat} (h : l = List.range n) (hn : n ≠ 0) : l ≠ [] := h ▸ range_ne_nil hn

theorem markAll_ne_nil (s : State) : s.markAll.mirror.dirty ≠ [] :=
  ne_nil_of_range (n := Config.mirrorRecords) (by simp only [State.markAll]) (by decide)

theorem markAll_sound (s : State) : s.markAll.mirrorSound :=
  sound_of_mirror (n := Config.mirrorRecords) (by simp only [State.markAll]) rfl (by simp only [State.markAll])

end Sys2Proof.Machine
end

