-- ==== Sys2Proof/Laws/Works.lean ====
section
/-! SUPPORT. What the report writer, the storm state, the correlation unit and the terminal table can do at all: the
relation `Works`, and that each of their operations is one. -/

namespace Sys2Proof.Machine

/-- A deferred entry but for its due mark. -/
def DeferredEntry.undue (e : DeferredEntry) : DeferredEntry := { e with due := false }

/-- t is s after work on reports, groups and terminals: everything else is as it was, the own-write queue only grows at
its back, marks are only added, and the mirror and the ring stay sound. -/
structure Works (s t : State) : Prop where
  pending     : t.pending = s.pending
  inReset     : t.inReset = s.inReset
  time        : t.time = s.time
  ctl         : t.ctl = s.ctl
  map         : t.map = s.map
  loader      : t.loader = s.loader
  path        : t.path = s.path
  settings    : t.cmd.settings = s.cmd.settings
  lineA       : t.cmd.lineA = s.cmd.lineA
  lineB       : t.cmd.lineB = s.cmd.lineB
  inProgress  : t.cmd.inProgress = s.cmd.inProgress
  unit        : t.cmd.unit = s.cmd.unit ∨ (s.cmd.unit = .idle ∧ t.cmd.unit = .actions)
  deferred    : t.cmd.deferred.map DeferredEntry.undue = s.cmd.deferred.map DeferredEntry.undue
  rings       : t.intake.rings = s.intake.rings
  tallies     : t.intake.tallies = s.intake.tallies
  queue       : s.rw.queue <+: t.rw.queue
  cursor      : t.mirror.cursor = s.mirror.cursor
  counts      : t.mirror.counts = s.mirror.counts
  inFlight    : t.mirror.inFlight = s.mirror.inFlight
  dirty       : ∀ i ∈ s.mirror.dirty, i ∈ t.mirror.dirty
  keepsMirror : s.mirrorSound → t.mirrorSound
  keepsRing   : s.ringSound → t.ringSound

namespace Works

theorem refl (s : State) : Works s s :=
  ⟨rfl, rfl, rfl, rfl, rfl, rfl, rfl, rfl, rfl, rfl, rfl, .inl rfl, rfl, rfl, rfl, List.prefix_refl _, rfl, rfl, rfl,
    fun _ h => h, id, id⟩

theorem trans {s t u : State} (a : Works s t) (b : Works t u) : Works s u where
  pending := b.pending.trans a.pending
  inReset := b.inReset.trans a.inReset
  time := b.time.trans a.time
  ctl := b.ctl.trans a.ctl
  map := b.map.trans a.map
  loader := b.loader.trans a.loader
  path := b.path.trans a.path
  settings := b.settings.trans a.settings
  lineA := b.lineA.trans a.lineA
  lineB := b.lineB.trans a.lineB
  inProgress := b.inProgress.trans a.inProgress
  unit := by
    rcases a.unit with h | ⟨h, h'⟩ <;> rcases b.unit with k | ⟨k, k'⟩
    · exact .inl (k.trans h)
    · exact .inr ⟨h ▸ k, k'⟩
    · exact .inr ⟨h, k.trans h'⟩
    · rw [h'] at k; cases k
  deferred := b.deferred.trans a.deferred
  rings := b.rings.trans a.rings
  tallies := b.tallies.trans a.tallies
  queue := a.queue.trans b.queue
  cursor := b.cursor.trans a.cursor
  counts := b.counts.trans a.counts
  inFlight := b.inFlight.trans a.inFlight
  dirty := fun i h => b.dirty i (a.dirty i h)
  keepsMirror := b.keepsMirror ∘ a.keepsMirror
  keepsRing := b.keepsRing ∘ a.keepsRing

/-- Work over a list, one element after another. -/
theorem foldl {α : Type} (f : State → α → State) (h : ∀ s a, Works s (f s a)) (l : List α) (s : State) :
    Works s (l.foldl f s) := by
  induction l generalizing s with
  | nil => exact .refl s
  | cons a l ih => exact (h s a).trans (ih (f s a))

theorem ite {c : Prop} [Decidable c] {s t u : State} (h : c → Works s t) (k : ¬c → Works s u) :
    Works s (if c then t else u) := by
  split
  · next hc => exact h hc
  · next hc => exact k hc

/-! ## Elementary work -/

theorem table (s : State) (x : Table) : Works s { s with table := x } :=
  ⟨rfl, rfl, rfl, rfl, rfl, rfl, rfl, rfl, rfl, rfl, rfl, .inl rfl, rfl, rfl, rfl, List.prefix_refl _, rfl, rfl, rfl,
    fun _ h => h, id, id⟩

theorem corr (s : State) (x : Correlation) : Works s { s with corr := x } :=
  ⟨rfl, rfl, rfl, rfl, rfl, rfl, rfl, rfl, rfl, rfl, rfl, .inl rfl, rfl, rfl, rfl, List.prefix_refl _, rfl, rfl, rfl,
    fun _ h => h, id, id⟩

theorem faultMarks (s : State) (x : Vector Bool 16) : Works s { s with intake := { s.intake with faultMarks := x } } :=
  ⟨rfl, rfl, rfl, rfl, rfl, rfl, rfl, rfl, rfl, rfl, rfl, .inl rfl, rfl, rfl, rfl, List.prefix_refl _, rfl, rfl, rfl,
    fun _ h => h, id, id⟩

theorem mark (s : State) {i : Nat} (hi : i < Config.mirrorRecords) : Works s (s.mark i) :=
  ⟨rfl, rfl, rfl, rfl, rfl, rfl, rfl, rfl, rfl, rfl, rfl, .inl rfl, rfl, rfl, rfl, List.prefix_refl _, rfl, rfl, rfl,
    fun _ h => mem_insertIndex.mpr (.inr h), mark_sound hi, id⟩

/-- The counters of the report writer that the ring does not depend on. -/
theorem counters (s : State) (sinceSync lost lostTotal indexFaults failedWrites : Nat) :
    Works s { s with rw := { s.rw with sinceSync := sinceSync, lost := lost, lostTotal := lostTotal,
                                       indexFaults := indexFaults, failedWrites := failedWrites } } :=
  ⟨rfl, rfl, rfl, rfl, rfl, rfl, rfl, rfl, rfl, rfl, rfl, .inl rfl, rfl, rfl, rfl, List.prefix_refl _, rfl, rfl, rfl,
    fun _ h => h, id, id⟩

theorem enqueue (s : State) (w : OwnWrite) : Works s (s.enqueue w) :=
  ⟨rfl, rfl, rfl, rfl, rfl, rfl, rfl, rfl, rfl, rfl, rfl, .inl rfl, rfl, rfl, rfl, List.prefix_append _ _, rfl, rfl, rfl,
    fun _ h => h, id, id⟩

theorem markIf (s : State) (c : Bool) {i : Nat} (hi : i < Config.mirrorRecords) : Works s (s.markIf c i) := by
  unfold State.markIf
  exact ite (fun _ => mark s hi) (fun _ => refl s)

theorem markSummary (s : State) : Works s s.markSummary := mark s summary_lt

theorem markTally (s : State) (p : Fin 16) : Works s (s.markTally p) := mark s (tally_lt p)

/-! ## The ring (R137) -/

theorem produced_next {n : BitVec 32} {slots p c o : Nat} (hd : slots ∣ 2 ^ 32)
    (hp : p = n.toNat % slots) (hc : p = (c + o) % slots) :
    (p + 1) % slots = (n + 1).toNat % slots ∧ (p + 1) % slots = (c + (o + 1)) % slots := by
  constructor
  · rw [BitVec.toNat_add, Nat.mod_mod_of_dvd _ hd, hp, Nat.mod_add_mod]
    rfl
  · rw [hc, Nat.mod_add_mod, Nat.add_assoc]

theorem place (s : State) (d : Draft) (hst : s.rw.stalled = false) (h3 : 3 ≤ s.freeSlots) : Works s (s.place d) := by
  unfold State.place
  unfold State.freeSlots at h3
  split
  · exact refl s
  · next a ha =>
    rw [ha] at h3
    refine ⟨rfl, rfl, rfl, rfl, rfl, rfl, rfl, rfl, rfl, rfl, rfl, .inl rfl, rfl, rfl, rfl, List.prefix_append _ _, rfl,
      rfl, rfl, fun _ h => h, id, fun hr => ?_⟩
    unfold State.ringSound at hr ⊢
    simp only [ha] at hr ⊢
    obtain ⟨h16, hd, hp, hc, hpc, ho, hm⟩ := hr
    have := produced_next hd hp hpc
    refine ⟨h16, hd, this.1, hc, this.2, ?_, ?_⟩
    · show s.rw.occupancy + 1 ≤ _
      simp only at h3; omega
    · refine .inr ?_
      show s.rw.occupancy + 1 + (if s.rw.stalled then 1 else 2) ≤ _
      simp only [hst] at h3 ⊢
      simp; omega

theorem countLost (s : State) : Works s s.countLost :=
  (counters s s.rw.sinceSync (sat16 s.rw.lost) (sat16 s.rw.lostTotal) s.rw.indexFaults s.rw.failedWrites).trans
    (markIf _ _ summary_lt)

theorem bumpSync (s : State) : Works s s.bumpSync :=
  counters s (s.rw.sinceSync + 1) s.rw.lost s.rw.lostTotal s.rw.indexFaults s.rw.failedWrites

theorem countFailedWrite (s : State) : Works s s.countFailedWrite :=
  (counters s s.rw.sinceSync s.rw.lost s.rw.lostTotal s.rw.indexFaults (sat16 s.rw.failedWrites)).trans
    (markIf _ _ summary_lt)

theorem overrun (s : State) (h2 : s.freeSlots = 2) : Works s s.overrun := by
  unfold State.overrun
  refine trans ?_ (markSummary _)
  unfold State.place State.bumpSync
  unfold State.freeSlots at h2
  split
  · next ha => rw [ha] at h2; cases h2
  · next a ha =>
    rw [ha] at h2
    refine ⟨rfl, rfl, rfl, rfl, rfl, rfl, rfl, rfl, rfl, rfl, rfl, .inl rfl, rfl, rfl, rfl, List.prefix_append _ _, rfl,
      rfl, rfl, fun _ h => h, id, fun hr => ?_⟩
    unfold State.ringSound at hr ⊢
    simp only [ha] at hr ⊢
    obtain ⟨h16, hd, hp, hc, hpc, ho, hm⟩ := hr
    have := produced_next hd hp hpc
    refine ⟨h16, hd, this.1, hc, this.2, ?_, ?_⟩
    · show s.rw.occupancy + 1 ≤ _
      simp only at h2; omega
    · refine .inr ?_
      show s.rw.occupancy + 1 + 1 ≤ _
      simp only at h2; omega

theorem freeSlots_countLost (s : State) : s.countLost.freeSlots = s.freeSlots := by
  unfold State.freeSlots
  rw [(countLost s).ctl]
  have h : s.countLost.rw.occupancy = s.rw.occupancy := by
    unfold State.countLost State.markIf
    split
    · rw [mark_rw]
    · rfl
  rw [h]

theorem attempt (s : State) (d : Draft) : Works s (s.attempt d).1 := by
  unfold State.attempt
  split
  · exact refl s
  · split
    · exact countLost s
    · next h =>
      split
      · next h3 => exact place s d (by simpa using h) h3
      · split
        · next h2 =>
          exact (countLost s).trans (overrun _ ((freeSlots_countLost s).trans h2))
        · exact countLost s

/-! ## Reports -/

theorem putFaultMark (s : State) (p : Fin 16) (v : Bool) : Works s (s.putFaultMark p v) := by
  unfold State.putFaultMark
  exact ite (fun _ => refl s) (fun _ => (faultMarks s _).trans (markTally _ p))

theorem clearFaultMarks (s : State) : Works s s.clearFaultMarks :=
  foldl _ (fun s p => putFaultMark s p false) _ s

theorem afterSync (s : State) (flags : SyncFlags) : Works s (s.afterSync flags) := by
  have h : Works s ({ s with rw := { s.rw with sinceSync := 0 } }.clearFaultMarks) :=
    (counters s 0 s.rw.lost s.rw.lostTotal s.rw.indexFaults s.rw.failedWrites).trans (clearFaultMarks _)
  unfold State.afterSync
  dsimp only
  generalize State.clearFaultMarks _ = k at h ⊢
  split
  · exact h.trans ((counters k k.rw.sinceSync 0 k.rw.lostTotal k.rw.indexFaults k.rw.failedWrites).trans
      (markIf _ _ summary_lt))
  · exact h

theorem makeSync (s : State) (flags : SyncFlags) (o : Origin) : Works s (s.makeSync flags o).1 := by
  unfold State.makeSync
  dsimp only
  split
  · exact (attempt s _).trans (afterSync _ flags)
  · exact attempt s _

theorem cadence (s : State) : Works s s.cadence := by
  unfold State.cadence
  exact ite (fun _ => makeSync s _ _) (fun _ => refl s)

theorem makeReport (s : State) (d : Draft) : Works s (s.makeReport d) := by
  unfold State.makeReport
  dsimp only
  refine ite (fun _ => ?_) (fun _ => attempt s d)
  exact (attempt s d).trans ((bumpSync _).trans (cadence _))

theorem makeReports (s : State) (ds : List Draft) : Works s (s.makeReports ds) := foldl _ makeReport ds s

theorem indexFault (s : State) : Works s s.indexFault :=
  (counters s s.rw.sinceSync s.rw.lost s.rw.lostTotal (sat16 s.rw.indexFaults) s.rw.failedWrites).trans
    (markIf _ _ summary_lt)

theorem releases_lt {slots c v o p : Nat} (hc : c < slots) (hv : v < slots) (hp : p = (c + o) % slots)
    (hr : (v + slots - c) % slots ≤ o) : p = (v + (o - (v + slots - c) % slots)) % slots := by
  rw [hp]
  rcases Nat.lt_or_ge v c with h | h
  · rw [Nat.mod_eq_of_lt (by omega : v + slots - c < slots)] at hr ⊢
    have : c + o = (v + (o - (v + slots - c))) + slots := by omega
    rw [this, Nat.add_mod_right]
  · have e : v + slots - c = (v - c) + slots := by omega
    rw [e, Nat.add_mod_right, Nat.mod_eq_of_lt (by omega : v - c < slots)] at hr ⊢
    have : c + o = v + (o - (v - c)) := by omega
    rw [this]

theorem endStall (s : State) (a : Anchor) (ha : s.ctl.anchor = some a) (h : a.ringSlots ≤ 4 * s.freeSlots) :
    Works s s.endStall := by
  unfold State.endStall
  refine trans ?_ ((markSummary _).trans (makeSync _ _ _))
  refine ⟨rfl, rfl, rfl, rfl, rfl, rfl, rfl, rfl, rfl, rfl, rfl, .inl rfl, rfl, rfl, rfl, List.prefix_refl _, rfl,
      rfl, rfl, fun _ h => h, id, fun hr => ?_⟩
  unfold State.freeSlots at h
  unfold State.ringSound at hr ⊢
  simp only [ha] at hr h ⊢
  obtain ⟨h16, hd, hp, hc, hpc, ho, hm⟩ := hr
  refine ⟨h16, hd, hp, hc, hpc, ho, ?_⟩
  simp
  omega

theorem takeConsumed (s : State) (a : Anchor) (ha : s.ctl.anchor = some a) (v : Nat) (hv : v < a.ringSlots)
    (hr : s.releases a.ringSlots v ≤ s.rw.occupancy) : Works s (s.takeConsumed a.ringSlots v) := by
  have h : Works s { s with rw := { s.rw with consumed := v, occupancy := s.rw.occupancy - s.releases a.ringSlots v } } := by
    refine ⟨rfl, rfl, rfl, rfl, rfl, rfl, rfl, rfl, rfl, rfl, rfl, .inl rfl, rfl, rfl, rfl, List.prefix_refl _, rfl,
      rfl, rfl, fun _ h => h, id, fun hs => ?_⟩
    unfold State.ringSound at hs ⊢
    simp only [ha] at hs ⊢
    obtain ⟨h16, hd, hp, hc, hpc, ho, hm⟩ := hs
    refine ⟨h16, hd, hp, hv, releases_lt hc hv hpc hr, ?_, ?_⟩
    · omega
    · rcases hm with hm | hm
      · exact .inl hm
      · exact .inr (by omega)
  unfold State.takeConsumed
  refine ite (fun hc => h.trans ?_) (fun _ => h)
  simp only [Bool.and_eq_true, decide_eq_true_eq] at hc
  exact endStall _ a ha hc.2

theorem handConsumed (s : State) (v : Nat) : Works s (s.handConsumed v) := by
  unfold State.handConsumed
  split
  · exact refl s
  · next a ha =>
    split
    · exact indexFault s
    · split
      · exact indexFault s
      · exact takeConsumed s a ha v (by omega) (by omega)

/-! ## Falling due and the storm state -/

theorem appendDue (s : State) (a : DueAction) : Works s (s.appendDue a) := by
  refine ⟨rfl, rfl, rfl, rfl, rfl, rfl, rfl, rfl, rfl, rfl, rfl, ?_, rfl, rfl, rfl, List.prefix_refl _, rfl, rfl, rfl,
    fun _ h => h, id, fun h => ?_⟩
  · show s.cmd.unit.wake = _ ∨ _ ∧ s.cmd.unit.wake = _
    cases s.cmd.unit <;> simp [UnitState.wake]
  · unfold State.ringSound at h ⊢
    rw [appendDue_ctl, appendDue_rw]
    cases ha : s.ctl.anchor with
    | none =>
      simp only [ha] at h ⊢
      refine ⟨h.1, h.2.1, h.2.2.1, ?_⟩
      have := h.2.2.2
      show s.cmd.unit.wake.isBusy = false
      cases hu : s.cmd.unit <;> simp_all [UnitState.wake, UnitState.isBusy]
    | some a => simp only [ha] at h ⊢; exact h

theorem headDue (s : State) (e : DeferredEntry) (rest : List DeferredEntry) (h : s.cmd.deferred = e :: rest) (v : Bool) :
    Works s { s with cmd := { s.cmd with deferred := { e with due := v } :: rest } } := by
  refine ⟨rfl, rfl, rfl, rfl, rfl, rfl, rfl, rfl, rfl, rfl, rfl, .inl rfl, ?_, rfl, rfl, List.prefix_refl _, rfl, rfl,
    rfl, fun _ h => h, id, id⟩
  simp only [h, List.map_cons, DeferredEntry.undue]

theorem fallDue (s : State) : Works s s.fallDue := by
  unfold State.fallDue
  split
  · exact refl s
  · next e rest h =>
    exact ite (fun _ => refl s) (fun _ => (headDue s e rest h true).trans (appendDue _ _))

theorem watch (s : State) (met : Trigger → Bool) : Works s (s.watch met) := by
  unfold State.watch
  split
  · exact refl s
  · exact ite (fun _ => fallDue s) (fun _ => refl s)

theorem examineHead (s : State) : Works s s.examineHead := watch s _

theorem putStorm (s : State) (v : Bool) : Works s (s.putStorm v) := by
  unfold State.putStorm
  exact ite (fun _ => refl s) (fun _ => (corr s _).trans (markSummary _))

theorem putStormArmed (s : State) (v : Bool) : Works s (s.putStormArmed v) := by
  unfold State.putStormArmed
  exact ite (fun _ => refl s) (fun _ => (corr s _).trans (markSummary _))

theorem reportStorm (s : State) (v : Bool) (o : Origin) : Works s (s.reportStorm v o) := by
  unfold State.reportStorm
  split
  · exact makeReport s _
  · exact ite (fun _ => (putStormArmed s false).trans (makeReport _ _)) (fun _ => refl s)

theorem stormChange (s : State) (v : Bool) (o : Origin) : Works s (s.stormChange v o) :=
  ((putStorm s v).trans (reportStorm _ v o)).trans (watch _ _)

theorem evaluateStorm (s : State) (o : Origin) : Works s (s.evaluateStorm o) := by
  unfold State.evaluateStorm
  exact ite (fun _ => stormChange s _ o) (fun _ => ite (fun _ => stormChange s _ o) (fun _ => refl s))

theorem handDown (s : State) (before : Nat) (o : Origin) : Works s (s.handDown before o) := by
  unfold State.handDown
  exact ite (fun _ => refl s) (fun _ => (evaluateStorm s o).trans (watch _ _))

/-! ## Records -/

theorem setTerm (s : State) (n : Fin 1024) (t : Terminal) : Works s (s.setTerm n t) := table s _

theorem setGroup (s : State) (g : GroupId) (x : Group) : Works s (s.setGroup g x) := corr s _

theorem markMeasures (s : State) (n : Fin 1024) (a b : TState) : Works s (s.markMeasures n a b) := by
  unfold State.markMeasures
  split
  · exact refl s
  · exact (markIf s _ (record_lt _)).trans (markIf _ _ (record_lt _))

theorem putTerm (s : State) (n : Fin 1024) (t : Terminal) : Works s (s.putTerm n t) := by
  unfold State.putTerm
  refine ite (fun _ => refl s) (fun _ => ite (fun _ => (setTerm s n t).trans (mark _ (term_lt n))) (fun _ => ?_))
  exact (((setTerm s n t).trans (mark _ (term_lt n))).trans (markSummary _)).trans (markMeasures _ _ _ _)

theorem markParent (s : State) (g : GroupId) (a b : GState) : Works s (s.markParent g a b) := by
  unfold State.markParent
  refine ite (fun _ => refl s) (fun _ => ?_)
  split
  · exact refl s
  · exact mark s (record_lt _)

theorem putGroup (s : State) (g : GroupId) (x : Group) : Works s (s.putGroup g x) := by
  unfold State.putGroup
  refine ite (fun _ => refl s) (fun _ => ?_)
  exact ((setGroup s g x).trans (mark _ (record_lt g))).trans (markParent _ _ _ _)

/-! ## The correlation unit -/

theorem clearingTest (s : State) (g : GroupId) : Works s (s.clearingTest g) := by
  unfold State.clearingTest
  split
  · exact ite (fun _ => putGroup s g _) (fun _ => refl s)
  · exact ite (fun _ => refl s) (fun _ => putGroup s g _)
  all_goals exact refl s

theorem clearingTests (s : State) (gs : List GroupId) : Works s (s.clearingTests gs) := foldl _ clearingTest gs s

theorem parentTest (s : State) (g : GroupId) : Works s (s.parentTest g) := by
  unfold State.parentTest
  split
  · exact refl s
  · exact clearingTest s _

theorem openWindow (s : State) (g : GroupId) : Works s (s.openWindow g) := putGroup s g _

theorem propagate (s : State) (g : GroupId) : Works s (s.propagate g) := by
  unfold State.propagate
  split
  · exact refl s
  · next r _ =>
    refine ite (fun _ => (openWindow s r).trans ?_) (fun _ => refl s)
    dsimp only
    split
    · exact refl _
    · exact ite (fun _ => openWindow _ _) (fun _ => refl _)

theorem putDisp (s : State) (n : Fin 1024) (d : Disp) : Works s (s.putDisp n d) := putTerm s n _

theorem listPending (s : State) (g : GroupId) (n : Fin 1024) : Works s (s.listPending g n) :=
  (putGroup s g _).trans (putDisp _ n _)

theorem listUnlessPrompt (s : State) (g : GroupId) (n : Fin 1024) (b : Bool) : Works s (s.listUnlessPrompt g n b) := by
  unfold State.listUnlessPrompt
  exact ite (fun _ => putDisp s n _) (fun _ => listPending s g n)

theorem join (s : State) (g : GroupId) (n : Fin 1024) (b : Bool) : Works s (s.join g n b) := by
  unfold State.join
  split
  · exact ((openWindow s g).trans (listUnlessPrompt _ g n b)).trans (propagate _ g)
  · exact listUnlessPrompt s g n b
  · exact listUnlessPrompt s g n b
  · exact (putDisp s n _).trans (clearingTest _ g)
  · exact (putDisp s n _).trans (clearingTest _ g)

theorem unlist (s : State) (g : GroupId) (n : Fin 1024) : Works s (s.unlist g n) := putGroup s g _

theorem settle (s : State) (g : GroupId) : Works s (s.settle g) := putGroup s g _

theorem announce (s : State) (g : GroupId) (c : RaiseCause) (b : Bool) (o : Origin) : Works s (s.announce g c b o) :=
  (putGroup s g _).trans (makeReport _ _)

theorem releaseOne (s : State) (n : Fin 1024) : Works s (s.releaseOne n) := putDisp s n _

theorem release (s : State) (g : GroupId) (ns : List (Fin 1024)) (c : OutageCause) : Works s (s.release g ns c) :=
  (foldl _ releaseOne ns s).trans (makeReports _ _)

theorem coverPending (s : State) (g : GroupId) : Works s (s.coverPending g) :=
  (foldl _ (fun s n => putDisp s n .covered) _ s).trans (putGroup _ g _)

theorem becomeRaised (s : State) (g : GroupId) (b : Bool) : Works s (s.becomeRaised g b) :=
  (coverPending s g).trans (putGroup _ g _)

theorem coverIfRaised (s : State) (c : GroupId) : Works s (s.coverIfRaised c) := by
  unfold State.coverIfRaised
  exact ite (fun _ => putGroup s c _) (fun _ => refl s)

theorem coverChildren (s : State) (g : GroupId) : Works s (s.coverChildren g) := foldl _ coverIfRaised _ s

theorem raiseRiser (s : State) (r : GroupId) (b : Bool) : Works s (s.raiseRiser r b) :=
  ((foldl _ (fun s t => becomeRaised s t true) _ s).trans (becomeRaised _ r b)).trans (coverChildren _ r)

theorem becomeClear (s : State) (g : GroupId) : Works s (s.becomeClear g) := putGroup s g _

theorem releaseGroup (s : State) (g : GroupId) (c : OutageCause) : Works s (s.releaseGroup g c) :=
  ((becomeClear s g).trans (putGroup _ g _)).trans (release _ g _ c)

theorem park (s : State) (g p : GroupId) : Works s (s.park g p) := (putGroup s g _).trans (putGroup _ p _)

theorem raiseAlone (s : State) (g : GroupId) (c : RaiseCause) : Works s (s.raiseAlone g c) :=
  ((becomeRaised s g false).trans (announce _ g c false _)).trans (clearingTest _ g)

theorem parkUnder (s : State) (g : GroupId) : Works s (s.parkUnder g) := by
  unfold State.parkUnder
  split
  · exact refl s
  · exact park s g _

theorem tapVerdict (s : State) (t : GroupId) : Works s (s.tapVerdict t) := by
  unfold State.tapVerdict
  refine ite (fun _ => ?_) (fun _ => releaseGroup s t _)
  split
  · exact parkUnder s t
  · exact parkUnder s t
  · exact ((becomeRaised s t true).trans (clearingTest _ t)).trans (parentTest _ t)
  · exact ((becomeRaised s t true).trans (clearingTest _ t)).trans (parentTest _ t)
  · exact raiseAlone s t _

theorem zoneVerdict (s : State) (z : GroupId) : Works s (s.zoneVerdict z) := by
  unfold State.zoneVerdict
  exact ite (fun _ => raiseAlone s z _) (fun _ => releaseGroup s z _)

theorem reopen (s : State) (p c : GroupId) : Works s (s.reopen p c) := (putGroup s p _).trans (putGroup _ c _)

theorem retestOne (p : GroupId) (s : State) (c : GroupId) : Works s (s.retestOne p c) := by
  unfold State.retestOne
  exact ite (fun _ => refl s) (fun _ => reopen s p c)

theorem retestTaps (s : State) (r : GroupId) : Works s (s.retestTaps r) := foldl _ (retestOne r) _ s

theorem retestRiser (p : GroupId) (s : State) (r : GroupId) : Works s (s.retestRiser p r) :=
  (retestTaps s r).trans (retestOne p _ r)

theorem raiseRiserAlone (s : State) (r : GroupId) : Works s (s.raiseRiserAlone r) :=
  ((raiseRiser s r false).trans (announce _ r _ _ _)).trans (clearingTests _ _)

theorem raiseRiserCovered (s : State) (r : GroupId) : Works s (s.raiseRiserCovered r) :=
  (raiseRiser s r true).trans (clearingTests _ _)

theorem releaseRiser (s : State) (r : GroupId) : Works s (s.releaseRiser r) :=
  (becomeClear s r).trans (foldl _ (fun s t => raiseAlone s t _) _ _)

theorem riserVerdict (s : State) (r : GroupId) : Works s (s.riserVerdict r) := by
  unfold State.riserVerdict
  refine (retestTaps s r).trans ?_
  refine ite (fun _ => ?_) (fun _ => releaseRiser _ r)
  split
  · exact parkUnder _ r
  · exact (raiseRiserCovered _ r).trans (parentTest _ r)
  · exact (raiseRiserCovered _ r).trans (parentTest _ r)
  · exact raiseRiserAlone _ r
  · exact raiseRiserAlone _ r

theorem raisePort (s : State) (p : GroupId) (c : RaiseCause) (o : Origin) : Works s (s.raisePort p c o) := by
  unfold State.raisePort
  refine trans ?_ (clearingTests _ _)
  exact (((foldl _ (fun s r => raiseRiser s r true) _ s).trans (becomeRaised _ p false)).trans
    (coverChildren _ p)).trans (announce _ p c false o)

theorem releasePort (s : State) (p : GroupId) : Works s (s.releasePort p) :=
  (becomeClear s p).trans (foldl _ raiseRiserAlone _ _)

theorem portVerdict (s : State) (p : GroupId) : Works s (s.portVerdict p) := by
  unfold State.portVerdict
  dsimp only
  refine (foldl _ (retestRiser p) (s.group p).parked s).trans ?_
  exact ite (fun _ => raisePort _ p _ _) (fun _ => releasePort _ p)

theorem portDark (s : State) (p : GroupId) (o : Origin) : Works s (s.portDark p o) := by
  unfold State.portDark
  dsimp only
  split
  · exact (putGroup s p _).trans (raisePort _ p _ o)
  · exact (putGroup s p _).trans (raisePort _ p _ o)
  · exact putGroup s p _
  · exact (putGroup s p _).trans (putGroup _ p _)
  · exact putGroup s p _

theorem portLit (s : State) (p : GroupId) : Works s (s.portLit p) := (putGroup s p _).trans (clearingTest _ p)

theorem uncover (s : State) (c : GroupId) : Works s (s.uncover c) := by
  unfold State.uncover
  exact ite (fun _ => putGroup s c _) (fun _ => (putGroup s c _).trans (announce _ c _ _ _))

theorem reportCleared (s : State) (g : GroupId) : Works s (s.reportCleared g) := by
  unfold State.reportCleared
  exact ite (fun _ => (putGroup s g _).trans (makeReport _ _)) (fun _ => refl s)

theorem clearGroup (s : State) (g : GroupId) : Works s (s.clearGroup g) :=
  ((((reportCleared s g).trans (release _ g _ _)).trans (foldl _ uncover _ _)).trans (putGroup _ g _)).trans
    (parentTest _ g)

theorem holdDownEnd (s : State) (g : GroupId) : Works s (s.holdDownEnd g) := by
  unfold State.holdDownEnd
  exact ite (fun _ => clearGroup s g) (fun _ => putGroup s g _)

theorem waitForChildren (s : State) (g : GroupId) : Works s (s.waitForChildren g) := by
  unfold State.waitForChildren
  exact ite (fun _ => putGroup s g _) (fun _ => refl s)

/-! ## The terminal table -/

theorem reportMuted (s : State) (n : Fin 1024) (b : Bool) (o : Origin) : Works s (s.reportMuted n b o) := by
  unfold State.reportMuted
  exact ite (fun _ => makeReport s _) (fun _ => refl s)

theorem reportPrompt (s : State) (n : Fin 1024) (b : Bool) (c : OutageCause) (o : Origin) :
    Works s (s.reportPrompt n b c o) := by
  unfold State.reportPrompt
  exact ite (fun _ => makeReport s _) (fun _ => refl s)

theorem putBrownoutArmed (s : State) (v : Bool) : Works s (s.putBrownoutArmed v) := by
  unfold State.putBrownoutArmed
  exact ite (fun _ => refl s) (fun _ => (table s _).trans (markSummary _))

theorem suppressBrownout (s : State) : Works s s.suppressBrownout := (table s _).trans (markIf _ _ summary_lt)

theorem brownout (s : State) (n : Fin 1024) (o : Origin) : Works s (s.brownout n o) := by
  unfold State.brownout
  refine ite (fun _ => ?_) (fun _ => suppressBrownout s)
  split
  · exact (putBrownoutArmed s false).trans (makeReport _ _)
  · exact makeReport s _
  · exact makeReport s _

theorem reportReturn (s : State) (n : Fin 1024) (st : TState) (d : Disp) (o : Origin) :
    Works s (s.reportReturn n st d o) := by
  unfold State.reportReturn
  exact ite (fun _ => ite (fun _ => brownout s n o) (fun _ => makeReport s _)) (fun _ => refl s)

theorem leaveGroup (s : State) (g : Option GroupId) (n : Fin 1024) (d : Disp) : Works s (s.leaveGroup g n d) := by
  unfold State.leaveGroup
  split
  · exact refl s
  · next g =>
    exact (ite (fun _ => (unlist s g n).trans (settle _ g)) (fun _ => refl s)).trans (clearingTest _ g)

theorem returnUp (s : State) (n : Fin 1024) (e : TermEntry) (d : Option Time) (o : Origin) : Works s (s.returnUp n e d o) :=
  (((putTerm s n _).trans (leaveGroup _ _ n _)).trans (reportReturn _ n _ _ o)).trans (handDown _ _ o)

theorem enterOff (s : State) (n : Fin 1024) (e : TermEntry) (t : Terminal) (o : Origin) : Works s (s.enterOff n e t o) := by
  unfold State.enterOff
  dsimp only
  refine trans ?_ (handDown _ _ o)
  refine ite (fun _ => ?_) (fun _ => (putTerm s n _).trans (reportMuted _ n _ o))
  exact ((putTerm s n _).trans (reportMuted _ n _ o)).trans (makeReport _ _)

theorem enterGroup (s : State) (n : Fin 1024) (e : TermEntry) (g : GroupId) (t : Terminal) (c : OutageCause) (o : Origin) :
    Works s (s.enterGroup n e g t c o) :=
  ((((putTerm s n t).trans (join _ g n _)).trans (reportMuted _ n _ o)).trans (reportPrompt _ n _ c o)).trans
    (handDown _ _ o)

theorem enterSuspect (s : State) (n : Fin 1024) (e : TermEntry) (o : Origin) : Works s (s.enterSuspect n e o) :=
  (((putTerm s n _).trans (reportMuted _ n _ o)).trans (reportPrompt _ n _ _ o)).trans (handDown _ _ o)

theorem gaspUp (s : State) (n : Fin 1024) (e : TermEntry) (off : Bool) (tag : Byte) (o : Origin) :
    Works s (s.gaspUp n e off tag o) := by
  unfold State.gaspUp
  exact ite (fun _ => enterOff s n e _ o) (fun _ => enterGroup s n e _ _ _ o)

theorem gaspSuspect (s : State) (n : Fin 1024) (e : TermEntry) (off : Bool) (tag : Byte) (o : Origin) :
    Works s (s.gaspSuspect n e off tag o) := by
  unfold State.gaspSuspect
  exact ite (fun _ => enterOff s n e _ o) (fun _ => enterGroup s n e _ _ _ o)

theorem lateGasp (s : State) (n : Fin 1024) (e : TermEntry) (tag : Byte) : Works s (s.lateGasp n e tag) := by
  unfold State.lateGasp
  refine ite (fun _ => ?_) (fun _ => (setTerm s n _).trans (mark _ (term_lt n)))
  exact ((putTerm s n _).trans (unlist _ _ n)).trans (join _ _ n _)

theorem claimGasp (s : State) (n : Fin 1024) (e : TermEntry) (off : Bool) (tag : Byte) (o : Origin) :
    Works s (s.claimGasp n e off tag o).state := by
  unfold State.claimGasp
  split
  · split
    · exact refl s
    · exact gaspUp s n e _ tag o
  · exact gaspSuspect s n e _ tag o
  · exact lateGasp s n e tag
  all_goals exact refl s

theorem lossUp (s : State) (n : Fin 1024) (e : TermEntry) (o : Origin) : Works s (s.lossUp n e o) := by
  unfold State.lossUp
  exact ite (fun _ => enterGroup s n e _ _ _ o) (fun _ => enterSuspect s n e o)

theorem claimLoss (s : State) (n : Fin 1024) (e : TermEntry) (o : Origin) : Works s (s.claimLoss n e o).state := by
  unfold State.claimLoss
  split
  · exact lossUp s n e o
  · exact putTerm s n _
  all_goals exact refl s

theorem blip (s : State) (n : Fin 1024) (o : Origin) : Works s (s.blip n o) :=
  ((putTerm s n _).trans (reportReturn _ n _ _ o)).trans (handDown _ _ o)

theorem claimRestore (s : State) (n : Fin 1024) (e : TermEntry) (o : Origin) : Works s (s.claimRestore n e o).state := by
  unfold State.claimRestore
  split
  · exact refl s
  · exact blip s n o
  · exact returnUp s n e _ o
  · exact returnUp s n e _ o
  · exact returnUp s n e _ o
  · exact returnUp s n e _ o
  · exact refl s

theorem muteCommand (s : State) (n : Fin 1024) (o : Origin) : Works s (s.mute n o).1 := by
  unfold State.mute
  split
  · exact putTerm s n _
  · exact (putTerm s n _).trans (makeReport _ _)

theorem unmuteCommand (s : State) (n : Fin 1024) (o : Origin) : Works s (s.unmute n o).1 := by
  unfold State.unmute
  dsimp only
  split
  · exact refl s
  · split
    · exact ((putTerm s n _).trans (makeReport _ _)).trans (makeReport _ _)
    · exact (putTerm s n _).trans (makeReport _ _)

theorem seed (s : State) (n : Fin 1024) (e : TermEntry) (target : TState) (o : Origin) : Works s (s.seed n e target o) := by
  unfold State.seed
  exact ite (fun _ => putTerm s n _)
    (fun _ => ((putTerm s n _).trans (clearingTests _ _)).trans (handDown _ _ o))

theorem graceEnd (s : State) (n : Fin 1024) (e : TermEntry) : Works s (s.graceEnd n e) :=
  (putTerm s n _).trans (join _ _ n _)

theorem claimDark (s : State) (p : Fin 16) (o : Origin) : Works s (s.claimDark p o).state := by
  unfold State.claimDark
  split
  · exact refl s
  · exact portDark s _ o

theorem claimLit (s : State) (p : Fin 16) : Works s (s.claimLit p).state := by
  unfold State.claimLit
  split
  · exact portLit s _
  · exact refl s

theorem reportFault (s : State) (p : Fin 16) (k : FaultKind) (w : BitVec 32) : Works s (s.reportFault p k w) := by
  unfold State.reportFault
  exact ite (fun _ => refl s) (fun _ => (makeReport s _).trans (putFaultMark _ p true))

end Works

end Sys2Proof.Machine
end

