-- ==== Sys2Proof/Laws/Flow.lean ====
section
/-! SUPPORT. What the movement of requests inside the path unit can do: the state but for the path stays, and the path
changes by `Moved`. -/

namespace Sys2Proof.Machine

/-! ## Requests of one tag -/

@[simp] theorem ofTag_nil (t : Tag) : ofTag t [] = [] := rfl

@[simp] theorem ofTag_append (t : Tag) (a b : List Request) : ofTag t (a ++ b) = ofTag t a ++ ofTag t b :=
  List.filter_append ..

theorem ofTag_one (t : Tag) (r : Request) : ofTag t [r] = if r.tag = t then [r] else [] := by
  unfold ofTag
  by_cases h : r.tag = t <;> simp [h]

theorem ofTag_eq_nil {t : Tag} {l : List Request} : ofTag t l = [] ↔ ∀ r ∈ l, r.tag ≠ t := by
  unfold ofTag; simp [List.filter_eq_nil_iff]

theorem ofTag_eq_self {t : Tag} {l : List Request} (h : ∀ r ∈ l, r.tag = t) : ofTag t l = l := by
  unfold ofTag
  exact List.filter_eq_self.mpr fun r hr => beq_iff_eq.mpr (h r hr)

theorem ofTag_held_nil {s : State} {t : Tag} (h : s.tagHeld t = false) :
    ofTag t (s.path.held.map (fun h => h.req)) = [] := by
  unfold State.tagHeld at h
  rw [ofTag_eq_nil]
  intro r hr e
  obtain ⟨g, hg, rfl⟩ := List.mem_map.mp hr
  exact List.any_eq_false.mp h g hg (beq_iff_eq.mpr e)

namespace Moved

theorem refl (p : Path) : Moved p p :=
  ⟨fun _ => List.suffix_refl _, ⟨[], by simp, by simp, fun _ _ => by simp⟩,
    ⟨p.held, [], by simp, List.Sublist.refl _, by simp, by simp⟩, fun _ h _ => h, rfl, rfl, rfl⟩

theorem passPath {p q : Path} (h : Moved p q) : p.passPath <+: q.passPath := by
  obtain ⟨new, e, _⟩ := h.entered
  exact ⟨new, e.symm⟩

/-- Lanes that hold requests of their own tag still do. -/
theorem tags {p q : Path} (h : Moved p q) (k : ∀ t : Tag, ∀ r ∈ p.lanes[t.val].reqs, r.tag = t) :
    ∀ t : Tag, ∀ r ∈ q.lanes[t.val].reqs, r.tag = t :=
  fun t r hr => k t r ((h.lanes t).subset hr)

theorem trans {p q r : Path} (a : Moved p q) (b : Moved q r) : Moved p r where
  lanes t := (b.lanes t).trans (a.lanes t)
  entered := by
    obtain ⟨x, ex, ax, cx⟩ := a.entered
    obtain ⟨y, ey, ay, cy⟩ := b.entered
    refine ⟨x ++ y, by rw [ey, ex, List.append_assoc], fun e he => ?_, fun k t => ?_⟩
    · rcases List.mem_append.mp he with h | h
      · exact ax e h
      · exact ay e h
    · rw [cx k t, cy (a.tags k) t, List.map_append, ofTag_append, List.append_assoc]
  held := by
    obtain ⟨s1, j1, e1, h1, k1, l1⟩ := a.held
    obtain ⟨s2, j2, e2, h2, k2, l2⟩ := b.held
    rw [e1, List.sublist_append_iff] at h2
    obtain ⟨x, y, rfl, hx, hy⟩ := h2
    refine ⟨x, y ++ j2, by rw [e2, List.append_assoc], hx.trans h1, fun h hm => ?_, fun hn => ?_⟩
    · rcases List.mem_append.mp hm with h' | h'
      · exact k1 h (hy.subset h')
      · exact k2 h h'
    · by_cases hj : j2 = []
      · subst hj
        have hy' : y ≠ [] := by simpa using hn
        have hj1 : j1 ≠ [] := fun e => by subst e; exact hy' (List.sublist_nil.mp hy)
        refine Nat.le_trans ?_ (l1 hj1)
        rw [e2, e1]
        simp only [List.append_nil, List.length_append]
        exact Nat.add_le_add hx.length_le hy.length_le
      · exact l2 hj
  awaiting h hm ha := b.awaiting h (a.awaiting h hm ha) ha
  issued := b.issued.trans a.issued
  responses := b.responses.trans a.responses
  passRun := b.passRun.trans a.passRun

/-- The outcomes of lanes change, and the count of free choices. -/
theorem outcomes (p q : Path) (hl : ∀ t : Tag, q.lanes[t.val].reqs = p.lanes[t.val].reqs) (hp : q.passPath = p.passPath)
    (hh : q.held = p.held) (hi : q.issued = p.issued) (hr : q.responses = p.responses) (hn : q.passRun = p.passRun) :
    Moved p q := by
  refine ⟨fun t => by rw [hl], ⟨[], by simp [hp], by simp, fun _ t => ?_⟩,
    ⟨p.held, [], by simp [hh], List.Sublist.refl _, by simp, by simp⟩, fun h hm _ => by rw [hh]; exact hm, hi, hr, hn⟩
  unfold Path.waiting
  rw [hh, hl]; simp

end Moved

/-- t is s after moves in the path unit. -/
def Flowed (s t : State) : Prop :=
  t = { s with path := t.path } ∧ Moved s.path t.path ∧ (s.path.waitsSound → t.path.waitsSound)

theorem Path.waitsSound_of {p q : Path} (hl : ∀ (t : Tag) m g, q.lanes[t.val].outcome = some (m, .mirrorCheck g) →
      g = .room ∨ g = .behind → p.lanes[t.val].outcome = some (m, .mirrorCheck g))
    (hh : p.held.map (fun h => h.req) <+: q.held.map (fun h => h.req)) (h : p.waitsSound) : q.waitsSound := by
  refine fun t m => ⟨fun e => ?_, fun e => ?_⟩
  · have := hh.length_le
    simp only [List.length_map] at this
    exact Nat.le_trans ((h t m).1 (hl t m _ e (.inl rfl))) this
  · obtain ⟨g, hg, rfl⟩ := (h t m).2 (hl t m _ e (.inr rfl))
    obtain ⟨k, hk, e⟩ := List.mem_map.mp (hh.subset (List.mem_map_of_mem (f := fun h => h.req) hg))
    exact ⟨k, hk, by rw [e]⟩

/-- A lane takes another outcome. -/
theorem Path.waitsSound_setLane {s : State} {t : Tag} {l : Lane} (h : s.path.waitsSound)
    (hr : ∀ m, l.outcome = some (m, .mirrorCheck .room) → Config.heldReads ≤ s.path.held.length)
    (hb : ∀ m, l.outcome = some (m, .mirrorCheck .behind) → ∃ g ∈ s.path.held, g.req.tag = t) :
    (s.setLane t l).path.waitsSound := by
  intro u m
  show (((s.setLane t l).lane u).outcome = _ → _) ∧ (((s.setLane t l).lane u).outcome = _ → _)
  by_cases e : u = t
  · subst e; rw [lane_setLane_self]; exact ⟨hr m, hb m⟩
  · rw [lane_setLane_ne _ _ _ _ e]; exact h u m

theorem Path.waitsSound_popLane {s : State} {t : Tag} (h : s.path.waitsSound) : (s.popLane t).path.waitsSound :=
  waitsSound_setLane h (fun _ e => by cases e) (fun _ e => by cases e)

namespace Flowed

theorem refl (s : State) : Flowed s s := ⟨rfl, .refl _, id⟩

theorem trans {s t u : State} (a : Flowed s t) (b : Flowed t u) : Flowed s u := by
  refine ⟨?_, a.2.1.trans b.2.1, b.2.2 ∘ a.2.2⟩
  have ha := a.1
  have hb := b.1
  rw [ha] at hb
  exact hb

/-- A lane keeps its requests. -/
theorem setLane (s : State) (t : Tag) (l : Lane) (h : l.reqs = (s.lane t).reqs)
    (hr : ∀ m, l.outcome = some (m, .mirrorCheck .room) → Config.heldReads ≤ s.path.held.length)
    (hb : ∀ m, l.outcome = some (m, .mirrorCheck .behind) → ∃ g ∈ s.path.held, g.req.tag = t) :
    Flowed s (s.setLane t l) := by
  refine ⟨rfl, .outcomes _ _ (fun u => ?_) rfl rfl rfl rfl rfl, fun hw => Path.waitsSound_setLane hw hr hb⟩
  show ((s.setLane t l).lane u).reqs = (s.lane u).reqs
  by_cases e : u = t
  · subst e; rw [lane_setLane_self]; exact h
  · rw [lane_setLane_ne _ _ _ _ e]

theorem reopenLane (s : State) (t : Tag) : Flowed s (s.reopenLane t) :=
  setLane s t _ rfl (fun _ e => by cases e) (fun _ e => by cases e)

theorem waitRead (s : State) (t : Tag) (g : ReadStage) (hr : g = .room → Config.heldReads ≤ s.path.held.length)
    (hb : g = .behind → ∃ h ∈ s.path.held, h.req.tag = t) : Flowed s (s.waitRead t g) :=
  setLane s t _ rfl (fun _ e => hr (by cases e; rfl)) (fun _ e => hb (by cases e; rfl))

theorem reqs_popLane (s : State) (t u : Tag) :
    ((s.popLane t).lane u).reqs = if u = t then (s.lane t).reqs.tail else (s.lane u).reqs := by
  unfold State.popLane
  by_cases e : u = t
  · subst e; rw [lane_setLane_self]; simp
  · rw [lane_setLane_ne _ _ _ _ e]; simp [e]

theorem lanes_popLane (s : State) (t u : Tag) : ((s.popLane t).lane u).reqs <:+ (s.lane u).reqs := by
  rw [reqs_popLane]
  split
  · next e => subst e; exact List.tail_suffix _
  · exact List.suffix_refl _

/-- The front of a lane passes while no read of its tag is held. -/
theorem pass (s : State) (t : Tag) (r : Request) (rest : List Request) (hr : (s.lane t).reqs = r :: rest)
    (hh : s.tagHeld t = false) : Flowed s ((s.popLane t).enterPass r false) := by
  refine ⟨rfl, ⟨fun u => lanes_popLane s t u, ⟨[{ req := r, acted := false }], rfl, by simp, fun k u => ?_⟩,
    ⟨s.path.held, [], by simp; rfl, List.Sublist.refl _, by simp, by simp⟩, fun _ h _ => h, rfl, rfl, rfl⟩,
    fun h => Path.waitsSound_popLane h⟩
  have hr' : r.tag = t := k t r (by show r ∈ (s.lane t).reqs; rw [hr]; simp)
  show ofTag u (s.path.held.map _) ++ (s.lane u).reqs = ofTag u [r] ++ (ofTag u (s.path.held.map _) ++ ((s.popLane t).lane u).reqs)
  rw [reqs_popLane, ofTag_one]
  by_cases e : u = t
  · subst e
    rw [ofTag_held_nil hh, if_pos hr', if_pos rfl, hr]; rfl
  · rw [if_neg (by rw [hr']; exact fun h => e h.symm), if_neg e]; rfl

/-- The front of a lane enters the held-read list. -/
theorem hold (s : State) (t : Tag) (r : Request) (rest : List Request) (a : List (Nat × Await))
    (hr : (s.lane t).reqs = r :: rest) (ha : a ≠ []) (hs : a.Pairwise (fun x y => x.1 < y.1))
    (hl : s.path.held.length < Config.heldReads) :
    Flowed s ((s.popLane t).enterHeld { req := r, awaits := a }) := by
  refine ⟨rfl, ⟨fun u => lanes_popLane s t u, ⟨[], by simp; rfl, by simp, fun k u => ?_⟩,
    ⟨s.path.held, [({ req := r, awaits := a } : HeldRead)], rfl, List.Sublist.refl _, by simpa using ⟨ha, hs⟩, fun _ => ?_⟩,
    fun h hm _ => List.mem_append_left _ hm, rfl, rfl, rfl⟩, fun h => ?_⟩
  · have hr' : r.tag = t := k t r (by show r ∈ (s.lane t).reqs; rw [hr]; simp)
    show ofTag u (s.path.held.map _) ++ (s.lane u).reqs =
      [] ++ (ofTag u ((s.path.held ++ [({ req := r, awaits := a } : HeldRead)]).map _) ++ ((s.popLane t).lane u).reqs)
    rw [reqs_popLane, List.map_append, ofTag_append]
    simp only [List.map_cons, List.map_nil, ofTag_one, List.nil_append]
    by_cases e : u = t
    · subst e
      rw [if_pos hr', if_pos rfl, hr]; simp
    · rw [if_neg (by rw [hr']; exact fun h => e h.symm), if_neg e]; simp
  · show (s.path.held ++ [_]).length ≤ _
    simpa using Nat.succ_le_of_lt hl
  · refine Path.waitsSound_of (p := (s.popLane t).path) (fun _ _ _ e _ => e) ?_ (Path.waitsSound_popLane h)
    show s.path.held.map _ <+: (s.path.held ++ [_]).map _
    rw [List.map_append]; exact List.prefix_append ..

theorem lane_readLeft (s : State) (u : Tag) : s.readLeft.lane u = (s.lane u).afterLeaving (s.tagHeld u) := by
  unfold State.readLeft State.lane
  simp only [Vector.getElem_ofFn]

theorem reqs_readLeft (s : State) (u : Tag) : (s.readLeft.lane u).reqs = (s.lane u).reqs := by
  rw [lane_readLeft]
  unfold Lane.afterLeaving
  split <;> rfl

theorem moved_readLeft (s : State) : s.readLeft = { s with path := s.readLeft.path } ∧ Moved s.path s.readLeft.path := by
  have h := fun t => reqs_readLeft s t
  unfold State.lane at h
  generalize he : s.readLeft = u at h ⊢
  unfold State.readLeft at he
  subst he
  exact ⟨rfl, .outcomes _ _ h rfl rfl rfl rfl rfl⟩

/-- After a read has left the list none waits for room, and none behind its tag unless that is still held. -/
theorem afterLeaving_outcome (held : Bool) (l : Lane) (m : Mode) :
    (l.afterLeaving held).outcome ≠ some (m, .mirrorCheck .room) ∧
      ((l.afterLeaving held).outcome = some (m, .mirrorCheck .behind) → held = true) := by
  obtain ⟨reqs, o⟩ := l
  rcases o with _ | ⟨m', v⟩
  · simp [Lane.afterLeaving]
  · rcases v with _ | _ | _ | g
    · simp [Lane.afterLeaving]
    · simp [Lane.afterLeaving]
    · simp [Lane.afterLeaving]
    · cases g <;> cases held <;> simp [Lane.afterLeaving, ReadStage.afterLeaving]

theorem tagHeld_iff (s : State) (t : Tag) : s.tagHeld t = true ↔ ∃ h ∈ s.path.held, h.req.tag = t := by
  unfold State.tagHeld; simp

theorem waits_readLeft (s : State) : s.readLeft.path.waitsSound := by
  intro t m
  have e : s.readLeft.path.lanes[t.val] = (s.lane t).afterLeaving (s.tagHeld t) := lane_readLeft s t
  have k := afterLeaving_outcome (s.tagHeld t) (s.lane t) m
  have hh : s.readLeft.path.held = s.path.held := by unfold State.readLeft; rfl
  rw [e, hh]
  exact ⟨fun h => absurd h k.1, fun h => (tagHeld_iff s t).mp (k.2 h)⟩

theorem filter_eraseIdx {α : Type} (p : α → Bool) {l : List α} {i : Nat} {x : α} (hx : l[i]? = some x) :
    (p x = true → (∀ y ∈ l.take i, p y = false) → l.filter p = x :: (l.eraseIdx i).filter p) ∧
    (p x = false → l.filter p = (l.eraseIdx i).filter p) := by
  obtain ⟨hi, e⟩ := List.getElem?_eq_some_iff.mp hx
  have hl : l = l.take i ++ x :: l.drop (i + 1) := by
    rw [← e, ← List.drop_eq_getElem_cons hi, List.take_append_drop]
  have he : l.eraseIdx i = l.take i ++ l.drop (i + 1) := List.eraseIdx_eq_take_drop_succ ..
  constructor
  · intro h k
    have hn : (l.take i).filter p = [] := List.filter_eq_nil_iff.mpr fun y hy => by rw [k y hy]; simp
    rw [he]
    conv => lhs; rw [hl]
    simp [List.filter_append, hn, h]
  · intro h
    rw [he]
    conv => lhs; rw [hl]
    simp [List.filter_append, h]

/-- A held read that may leave enters the pass path. -/
theorem leave (s : State) (i : Nat) (h : HeldRead) (hi : s.path.held[i]? = some h) (hr : s.releasable i = true) :
    Moved s.path ({ s with path := { s.path with held := s.path.held.eraseIdx i } }.enterPass h.req false).path := by
  unfold State.releasable at hr
  rw [hi] at hr
  simp only [Bool.and_eq_true, List.isEmpty_iff, Bool.not_eq_true'] at hr
  refine ⟨fun _ => List.suffix_refl _, ⟨[{ req := h.req, acted := false }], rfl, by simp, fun _ u => ?_⟩,
    ⟨s.path.held.eraseIdx i, [], by simp [State.enterPass], List.eraseIdx_sublist .., by simp, by simp⟩, fun g hg hn => ?_, rfl, rfl, rfl⟩
  · show ofTag u (s.path.held.map _) ++ _ = ofTag u [h.req] ++ (ofTag u ((s.path.held.eraseIdx i).map _) ++ _)
    rw [← List.append_assoc]
    congr 1
    unfold ofTag
    rw [List.filter_map, List.filter_map]
    have k := filter_eraseIdx ((fun r : Request => r.tag == u) ∘ fun h : HeldRead => h.req) hi
    by_cases e : h.req.tag = u
    · rw [k.1 (by simpa using e) (fun y hy => by
        have := List.any_eq_false.mp hr.2 y hy
        rw [e] at this; simpa using this)]
      simp [e]
    · rw [k.2 (by simpa using e)]
      simp [e]
  · obtain ⟨hlt, he⟩ := List.getElem?_eq_some_iff.mp hi
    obtain ⟨j, hj, rfl⟩ := List.getElem_of_mem hg
    refine List.mem_eraseIdx_iff_getElem.mpr ⟨j, hj, ?_, rfl⟩
    rintro rfl
    exact hn (he ▸ hr.1)

theorem present (s : State) (t : Tag) (h : s.presentable t = true) : Flowed s (s.present t) := by
  unfold State.presentable at h
  unfold State.present
  split at h
  · next r rest hr ho =>
    rw [hr]
    dsimp only
    split
    · next hv =>
      refine pass s t r rest hr ?_
      simpa [hv] using h
    · have hv : ∀ m g, some (s.ctl.mode, s.verdict r) = some (m, .mirrorCheck g) → g = .presented := by
        intro m g e
        have e := (Prod.mk.inj (Option.some.inj e)).2
        unfold State.verdict StepFor.verdict at e
        repeat' split at e
        all_goals first | (cases e; done) | (cases e; rfl)
      exact setLane s t _ hr.symm (fun m e => by cases hv m _ e) (fun m e => by cases hv m _ e)
  · cases h
  · cases h

theorem passRead (s : State) (t : Tag) (r : Request) (rest : List Request) (hr : (s.lane t).reqs = r :: rest) :
    Flowed s (s.passRead t r) := by
  unfold State.passRead
  split
  · next h =>
    refine waitRead s t _ (fun e => by cases e) (fun _ => ?_)
    exact (tagHeld_iff s t).mp h
  · next h => exact pass s t r rest hr (by simpa using h)

/-- The records a read would await rise. -/
theorem awaited_rising (s : State) (r : Request) : (s.awaited r).Pairwise (fun x y => x.1 < y.1) := by
  unfold State.awaited
  split
  · exact .nil
  · split
    · refine List.Pairwise.filterMap _ ?_ List.pairwise_lt_range'
      intro a b hab x hx y hy
      cases ha : s.condition a <;> rw [ha] at hx <;> cases hx
      cases hb : s.condition b <;> rw [hb] at hy <;> cases hy
      exact hab
    · exact .nil

theorem examineRead (s : State) (t : Tag) (r : Request) (rest : List Request) (hr : (s.lane t).reqs = r :: rest) :
    Flowed s (s.examineRead t r) := by
  unfold State.examineRead
  split
  · exact passRead s t r rest hr
  · next h =>
    split
    · next hl => exact hold s t r rest _ hr (by simpa using h) (awaited_rising s r) hl
    · next hl => exact waitRead s t _ (fun _ => Nat.le_of_not_lt hl) (fun e => by cases e)

theorem recheck (s : State) (t : Tag) : Flowed s (s.recheck t) := by
  unfold State.recheck
  split
  · exact refl s
  · next r rest hr =>
    split
    · exact examineRead s t r rest hr
    · exact passRead s t r rest hr

theorem release1 (s : State) (i : Nat) (hi : s.releasable i = true) : Flowed s (s.release1 i) := by
  unfold State.release1
  split
  · exact refl s
  · next h hh =>
    generalize hu : State.enterPass { s with path := { s.path with held := s.path.held.eraseIdx i } } h.req false = u
    have hl := leave s i h hh hi
    have hr := moved_readLeft u
    rw [hu] at hl
    have hw := waits_readLeft u
    refine ⟨?_, hl.trans hr.2, fun _ => hw⟩
    rw [hr.1, ← hu]; rfl

theorem move (s : State) (m : Move) (h : m ∈ s.moves) : Flowed s (s.move m) := by
  unfold State.moves at h
  simp only [List.mem_append, List.mem_map, List.mem_filter] at h
  rcases h with ⟨t, ht, rfl⟩ | ⟨t, _, rfl⟩ | ⟨i, hi, rfl⟩
  · exact present s t ht.2
  · exact recheck s t
  · exact release1 s i hi.2

theorem picks (s : State) (n : Nat) : Flowed s { s with path := { s.path with picks := n } } :=
  ⟨rfl, .outcomes _ _ (fun _ => rfl) rfl rfl rfl rfl rfl, id⟩

theorem pickMove (s : State) : Flowed s s.pickMove := by
  unfold State.pickMove
  split
  · exact refl s
  · next m h => exact move s m (by rw [h]; simp)
  · next m ms _ h =>
    refine (picks s _).trans (move _ _ ?_)
    show _ ∈ s.moves
    rw [h]
    generalize Config.freePick s.path.picks % (ms.length + 1) = k
    rw [List.getD_eq_getElem?_getD]
    cases hk : (m :: ms)[k]? with
    | none => simp
    | some x => exact List.mem_of_getElem? hk

theorem flowN (n : Nat) (s : State) : Flowed s (State.flowN n s) := by
  induction n generalizing s with
  | zero => exact refl s
  | succ n ih =>
    unfold State.flowN
    split
    · exact refl s
    · exact (pickMove s).trans (ih _)

theorem flow (s : State) : Flowed s s.flow := flowN _ s

theorem examine (s : State) (t : Tag) : Flowed s (s.examine t) := by
  unfold State.examine
  split
  · exact flow s
  · split
    · exact refl s
    · exact (reopenLane s t).trans (flow _)

end Flowed

/-! ## Taking the front write of a lane -/

@[simp] theorem popLane_pending (s : State) (t : Tag) : (s.popLane t).pending = s.pending := rfl
@[simp] theorem popLane_inReset (s : State) (t : Tag) : (s.popLane t).inReset = s.inReset := rfl
@[simp] theorem popLane_time (s : State) (t : Tag) : (s.popLane t).time = s.time := rfl
@[simp] theorem popLane_ctl (s : State) (t : Tag) : (s.popLane t).ctl = s.ctl := rfl
@[simp] theorem popLane_map (s : State) (t : Tag) : (s.popLane t).map = s.map := rfl
@[simp] theorem popLane_loader (s : State) (t : Tag) : (s.popLane t).loader = s.loader := rfl
@[simp] theorem popLane_intake (s : State) (t : Tag) : (s.popLane t).intake = s.intake := rfl
@[simp] theorem popLane_table (s : State) (t : Tag) : (s.popLane t).table = s.table := rfl
@[simp] theorem popLane_corr (s : State) (t : Tag) : (s.popLane t).corr = s.corr := rfl
@[simp] theorem popLane_rw (s : State) (t : Tag) : (s.popLane t).rw = s.rw := rfl
@[simp] theorem popLane_mirror (s : State) (t : Tag) : (s.popLane t).mirror = s.mirror := rfl
@[simp] theorem popLane_cmd (s : State) (t : Tag) : (s.popLane t).cmd = s.cmd := rfl

/-- A front already classified in the present mode needs no examination. -/
theorem examine_front {s : State} {t : Tag} {r : Request} {v : Verdict} (h : s.Front t r v) : s.examine t = s := by
  unfold State.examine
  rw [h.2]
  simp

theorem front_eq {s : State} {t : Tag} {r : Request} {v : Verdict} (h : s.Front t r v) : s.front t = some (r, v) := by
  obtain ⟨h1, h2⟩ := h
  unfold State.front
  cases hr : (s.lane t).reqs with
  | nil => rw [hr] at h1; cases h1
  | cons a l => rw [hr] at h1; cases h1; rw [h2]

/-- A write taken: the engine's work, done on the state with the front gone, is all that happens beside the path. -/
theorem takeWrite_took (s : State) (t : Tag) (r : Request) (act : State → Request → State × Request)
    (hp : (act (s.popLane t) r).1.path = (s.popLane t).path) :
    Took (s.takeWrite t r act) ((act (s.popLane t) r).1.withPath s.path) t (act (s.popLane t) r).2 := by
  unfold State.takeWrite
  dsimp only
  generalize act (s.popLane t) r = x at hp ⊢
  have h := Flowed.flow (x.1.enterPass x.2 true)
  refine ⟨?_, ?_⟩
  · rw [h.1]; rfl
  · have e : s.path.taken t x.2 = (x.1.enterPass x.2 true).path := by
      show _ = ({ x.1.path with passPath := x.1.path.passPath ++ [{ req := x.2, acted := true }] } : Path)
      rw [hp]; rfl
    show Moved (s.path.taken t x.2) _
    rw [e]; exact h.2.1

/-- A step write taken (R9, R12). -/
theorem takeStep_took {s : State} {t : Tag} {r : Request} {f : StepFor} {fits : StepFor → Request → Bool}
    {act : StepFor → State → Request → State × Request} (h : s.Admitted t r f) (hf : fits f r = true)
    (hp : (act f (s.popLane t) r).1.path = (s.popLane t).path) :
    Took (s.takeStep t fits act) ((act f (s.popLane t) r).1.withPath s.path) t (act f (s.popLane t) r).2 := by
  unfold State.takeStep
  simp only [examine_front h.1, front_eq h.1, hf, h.2, Bool.and_self, if_true]
  exact takeWrite_took s t r (act f) hp

end Sys2Proof.Machine
end

