-- ==== Sys2Proof/Laws/Keeps.lean ====
section
/-! SUPPORT. What every command but the release of RESET_N keeps: the queue, engine time, and the invariants of
Safety.lean; and that each of their operations keeps it. -/

namespace Sys2Proof.Machine

/-- t keeps what every command keeps of s. -/
structure Keeps (s t : State) : Prop where
  pending : t.pending = s.pending
  time    : t.time = s.time
  mirror  : s.mirrorSound → t.mirrorSound
  path    : s.pathSound → t.pathSound
  stores  : s.storesSound → t.storesSound
  ring    : s.ringSound → t.ringSound

namespace Keeps

theorem refl (s : State) : Keeps s s := ⟨rfl, rfl, id, id, id, id⟩

theorem trans {s t u : State} (a : Keeps s t) (b : Keeps t u) : Keeps s u :=
  ⟨b.pending.trans a.pending, b.time.trans a.time, b.mirror ∘ a.mirror, b.path ∘ a.path, b.stores ∘ a.stores,
    b.ring ∘ a.ring⟩

theorem ite {c : Prop} [Decidable c] {s t u : State} (h : c → Keeps s t) (k : ¬c → Keeps s u) :
    Keeps s (if c then t else u) := by
  split
  · next hc => exact h hc
  · next hc => exact k hc

/-! ## From the other relations -/

theorem stores_of_cmd {s t : State} (ha : t.cmd.lineA.actions = s.cmd.lineA.actions)
    (hb : t.cmd.lineB.actions = s.cmd.lineB.actions)
    (hd : t.cmd.deferred.map DeferredEntry.undue = s.cmd.deferred.map DeferredEntry.undue) :
    s.storesSound → t.storesSound := by
  have hl : ∀ l, (t.line l).actions = (s.line l).actions := fun l => by cases l <;> assumption
  have hlen : t.cmd.deferred.length = s.cmd.deferred.length := by
    have := congrArg List.length hd; simpa using this
  have hany : ∀ l, t.lineDeferred l = s.lineDeferred l := by
    intro l
    have key : ∀ q : List DeferredEntry,
        q.any (fun d => d.trigger == .line l) = (q.map DeferredEntry.undue).any (fun d => d.trigger == .line l) := by
      intro q; rw [List.any_map]; rfl
    unfold State.lineDeferred
    rw [key s.cmd.deferred, key t.cmd.deferred, hd]
  rintro ⟨h1, h2, h3⟩
  exact ⟨by rw [hlen]; exact h1, fun l => by rw [hl]; exact h2 l, fun l h => by rw [hany]; exact h3 l (by rwa [hl] at h)⟩

theorem of_works {s t : State} (h : Works s t) : Keeps s t :=
  ⟨h.pending, h.time, h.keepsMirror,
    fun hp => by
      unfold State.pathSound State.lane at hp ⊢
      rw [h.path]
      refine ⟨hp.1, hp.2.1, hp.2.2.1, fun hd => hp.2.2.2.1 (List.eq_nil_iff_forall_not_mem.mpr fun i hi => ?_), hp.2.2.2.2⟩
      have := h.dirty i hi
      rw [hd] at this
      exact absurd this (List.not_mem_nil),
    stores_of_cmd (by rw [h.lineA]) (by rw [h.lineB]) h.deferred, h.keepsRing⟩

theorem path_of_moved {s t : State} (h : Moved s.path t.path) (hw : s.path.waitsSound → t.path.waitsSound)
    (hm : t.mirror = s.mirror) (hs : s.pathSound) : t.pathSound := by
  obtain ⟨stay, joined, e, hst, hj, hl⟩ := h.held
  refine ⟨fun u => Nat.le_trans (h.lanes u).length_le (hs.1 u), ?_, h.passRun ▸ hs.2.2.1,
    fun hd => h.passRun ▸ hs.2.2.2.1 (hm ▸ hd), h.tags hs.2.2.2.2.1, fun g hg => ?_, hw hs.2.2.2.2.2.2⟩
  · by_cases hn : joined = []
    · rw [e, hn, List.append_nil]; exact Nat.le_trans hst.length_le hs.2.1
    · exact hl hn
  · rw [e] at hg
    rcases List.mem_append.mp hg with hg | hg
    · exact hs.2.2.2.2.2.1 g (hst.subset hg)
    · exact (hj g hg).2

theorem of_flowed {s t : State} (h : Flowed s t) : Keeps s t := by
  have e := h.1
  refine ⟨by rw [e], by rw [e], ?_, path_of_moved h.2.1 h.2.2 (by rw [e]), ?_, ?_⟩
  · rw [e]; exact id
  · rw [e]; exact id
  · rw [e]; exact id

theorem enqueue (s : State) (w : OwnWrite) : Keeps s (s.enqueue w) := of_works (.enqueue s w)

theorem writeBack (s : State) (a : Addr) (b : List Byte) (st : SlotState) (c : Code) (o : Bool) (d : Nat) :
    Keeps s (s.writeBack a b st c o d) := enqueue s _

theorem flow (s : State) : Keeps s s.flow := of_flowed (.flow s)

theorem examine (s : State) (t : Tag) : Keeps s (s.examine t) := of_flowed (.examine s t)

theorem enterPass (s : State) (r : Request) (b : Bool) : Keeps s (s.enterPass r b) := ⟨rfl, rfl, id, id, id, id⟩

theorem popLane (s : State) (t : Tag) : Keeps s (s.popLane t) :=
  ⟨rfl, rfl, id,
    fun hs => ⟨fun u => Nat.le_trans (Flowed.lanes_popLane s t u).length_le (hs.1 u), hs.2.1, hs.2.2.1, hs.2.2.2.1,
      fun u r hr => hs.2.2.2.2.1 u r ((Flowed.lanes_popLane s t u).subset hr), hs.2.2.2.2.2.1,
      Path.waitsSound_popLane hs.2.2.2.2.2.2⟩, id, id⟩

theorem makeReport (s : State) (d : Draft) : Keeps s (s.makeReport d) := of_works (.makeReport s d)

/-! ## Elementary updates -/

theorem intake (s : State) (x : Intake) : Keeps s { s with intake := x } := ⟨rfl, rfl, id, id, id, id⟩
theorem loader (s : State) (x : Loader) : Keeps s { s with loader := x } := ⟨rfl, rfl, id, id, id, id⟩
theorem map (s : State) (x : Option BuildingMap) : Keeps s { s with map := x } := ⟨rfl, rfl, id, id, id, id⟩
theorem table (s : State) (x : Table) : Keeps s { s with table := x } := ⟨rfl, rfl, id, id, id, id⟩
theorem corr (s : State) (x : Correlation) : Keeps s { s with corr := x } := ⟨rfl, rfl, id, id, id, id⟩
theorem markAll (s : State) : Keeps s s.markAll := by
  refine ⟨markAll_pending s, markAll_time s, fun _ => markAll_sound s, ?_, ?_, ?_⟩
  · unfold State.pathSound State.lane; rw [markAll_path]
    exact fun h => ⟨h.1, h.2.1, h.2.2.1, fun hd => absurd hd (markAll_ne_nil s), h.2.2.2.2⟩
  · exact stores_of_cmd (by rw [markAll_cmd]) (by rw [markAll_cmd]) (by rw [markAll_cmd])
  · unfold State.ringSound; rw [markAll_ctl, markAll_rw, markAll_cmd]; exact id

/-- Settings, in-progress list and due list: nothing depends on them. -/
theorem cmd (s : State) (settings : Settings) (inProgress : List InProgress) (due : List DueAction) :
    Keeps s { s with cmd := { s.cmd with settings := settings, inProgress := inProgress, due := due } } :=
  ⟨rfl, rfl, id, id, id, id⟩

/-- The unit may leave BUSY at any time. -/
theorem setUnit (s : State) (u : UnitState) (h : u.isBusy = true → s.cmd.unit.isBusy = true) : Keeps s (s.setUnit u) := by
  refine ⟨rfl, rfl, id, id, id, fun hr => ?_⟩
  unfold State.ringSound at hr ⊢
  rw [setUnit_ctl, setUnit_rw]
  cases ha : s.ctl.anchor with
  | some a => simp only [ha] at hr ⊢; exact hr
  | none =>
    simp only [ha] at hr ⊢
    refine ⟨hr.1, hr.2.1, hr.2.2.1, ?_⟩
    show u.isBusy = false
    cases hu : u.isBusy with
    | false => rfl
    | true => rw [h hu] at hr; cases hr.2.2.2

/-- A change of mode between modes in which an anchor block is adopted. -/
theorem setMode (s : State) (m : Mode)
    (h : (s.ctl.mode ≠ .detached ∨ s.cmd.unit.isBusy = true) ∧ s.ctl.mode ≠ .halted) : Keeps s (s.setMode m) := by
  refine ⟨rfl, rfl, id, id, id, fun hr => ?_⟩
  unfold State.ringSound at hr ⊢
  rw [setMode_rw, setMode_cmd]
  show match s.ctl.anchor with | none => _ | some a => _
  cases ha : s.ctl.anchor with
  | none =>
    simp only [ha] at hr
    rcases hr.2.2.1 with e | e
    · rcases h.1 with k | k
      · exact absurd e k
      · rw [k] at hr; cases hr.2.2.2
    · exact absurd e h.2
  | some a =>
    simp only [ha] at hr ⊢
    obtain ⟨h16, hd, hp, hc, hpc, ho, hm⟩ := hr
    exact ⟨h16, hd, hp, hc, hpc, ho, .inr (hm.resolve_left h.2)⟩

theorem putMode (s : State) (m : Mode)
    (h : (s.ctl.mode ≠ .detached ∨ s.cmd.unit.isBusy = true) ∧ s.ctl.mode ≠ .halted) : Keeps s (s.putMode m) := by
  unfold State.putMode
  exact ite (fun _ => refl s) (fun _ => (setMode s m h).trans (of_works (.markSummary _)))

/-- A change of a line's unit that leaves its list, or makes it shorter. -/
theorem setLine (s : State) (l : Line) (u : LineUnit) (h : u.actions <+: (s.line l).actions) : Keeps s (s.setLine l u) := by
  refine ⟨setLine_pending .., setLine_time .., ?_, ?_, ?_, ?_⟩
  · unfold State.mirrorSound; rw [setLine_mirror]; exact id
  · unfold State.pathSound State.lane; rw [setLine_path, setLine_mirror]; exact id
  · rintro ⟨h1, h2, h3⟩
    refine ⟨by rw [setLine_cmd_deferred]; exact h1, fun m => ?_, fun m hm => ?_⟩
    · by_cases e : m = l
      · subst e; rw [line_setLine_self]; exact Nat.le_trans h.length_le (h2 m)
      · rw [line_setLine_ne _ _ _ _ e]; exact h2 m
    · unfold State.lineDeferred; rw [setLine_cmd_deferred]
      refine h3 m ?_
      by_cases e : m = l
      · subst e; rw [line_setLine_self] at hm
        intro h0; rw [h0] at h; exact hm (List.prefix_nil.mp h)
      · rwa [line_setLine_ne _ _ _ _ e] at hm
  · unfold State.ringSound; rw [setLine_ctl, setLine_rw, setLine_cmd_unit]; exact id

/-- The own-write queue alone. -/
theorem queue (s : State) (q : List OwnWrite) : Keeps s { s with rw := { s.rw with queue := q } } :=
  ⟨rfl, rfl, id, id, id, id⟩

/-- Every read awaits its records in rising order. -/
def RisingReads (l : List HeldRead) : Prop := ∀ h ∈ l, h.awaits.Pairwise (fun x y => x.1 < y.1)

theorem risingReads_map (f : HeldRead → HeldRead) (l : List HeldRead)
    (hf : ∀ h, h.awaits.Pairwise (fun x y => x.1 < y.1) → (f h).awaits.Pairwise (fun x y => x.1 < y.1))
    (h : RisingReads l) : RisingReads (l.map f) := by
  intro g hg
  obtain ⟨k, hk, rfl⟩ := List.mem_map.mp hg
  exact hf k (h k hk)

theorem rising_granted (i k : Nat) (h : HeldRead) (hs : h.awaits.Pairwise (fun x y => x.1 < y.1)) :
    (h.granted i k).awaits.Pairwise (fun x y => x.1 < y.1) := by
  refine List.Pairwise.map _ ?_ hs
  intro a b hab
  split <;> split <;> simp_all

theorem rising_answered (i : Nat) (h : HeldRead) (hs : h.awaits.Pairwise (fun x y => x.1 < y.1)) :
    (h.answered i).awaits.Pairwise (fun x y => x.1 < y.1) := by
  have key : ∀ x y, awaitAnswered i x = some y → y.1 = x.1 := by
    intro x y hxy
    unfold awaitAnswered at hxy
    split at hxy
    · cases hxy; rfl
    · split at hxy
      · next e =>
        split at hxy
        · cases hxy
        · cases hxy; exact e.symm
      · cases hxy; rfl
  refine List.Pairwise.filterMap _ ?_ hs
  intro a b hab x hx y hy
  rw [key a x hx, key b y hy]; exact hab

/-- Reads keep their requests, so that what waits for the list to change still does. -/
theorem waits_map (p : Path) (f : HeldRead → HeldRead) (hf : ∀ h, (f h).req = h.req) (h : p.waitsSound) :
    Path.waitsSound { p with held := p.held.map f } :=
  Path.waitsSound_of (p := p) (fun _ _ _ e _ => e) (by simp [Function.comp_def, hf]) h

theorem rising_satisfy (h : HeldRead) : h.satisfy.awaits.Pairwise (fun x y => x.1 < y.1) := .nil

/-- The path but for its lanes. -/
theorem pathRest (s : State) (p : Path) (hl : p.lanes = s.path.lanes)
    (hh : p.held.map (fun h => h.req) = s.path.held.map (fun h => h.req) ∧ (RisingReads s.path.held → RisingReads p.held))
    (hr : p.passRun = s.path.passRun ∨ p.passRun = 0 ∨ (p.passRun ≤ Config.passRunMax ∧ s.mirror.dirty ≠ [])) :
    Keeps s { s with path := p } := by
  have hlen : p.held.length = s.path.held.length := by
    have := congrArg List.length hh.1; simpa using this
  refine ⟨rfl, rfl, id, fun hs => ⟨fun t => ?_, Nat.le_trans (Nat.le_of_eq hlen) hs.2.1, ?_, fun hd => ?_, fun t => ?_,
    hh.2 hs.2.2.2.2.2.1, Path.waitsSound_of (fun t m g e _ => hl ▸ e) (hh.1 ▸ List.prefix_refl _) hs.2.2.2.2.2.2⟩, id, id⟩
  · show (p.lanes[t.val]).reqs.length ≤ _
    have := hs.1 t
    unfold State.lane at this
    simpa [hl] using this
  · rcases hr with h | h | h
    · exact h ▸ hs.2.2.1
    · exact h ▸ Nat.zero_le _
    · exact h.1
  · rcases hr with h | h | h
    · exact h ▸ hs.2.2.2.1 hd
    · exact h
    · exact absurd hd h.2
  · show ∀ r ∈ (p.lanes[t.val]).reqs, _
    have := hs.2.2.2.2.1 t
    unfold State.lane at this
    simpa [hl] using this

/-! ## Taking writes -/

theorem takeWrite (s : State) (t : Tag) (r : Request) (act : State → Request → State × Request)
    (h : ∀ s, Keeps s (act s r).1) : Keeps s (s.takeWrite t r act) :=
  (((popLane s t).trans (h _)).trans (enterPass _ _ true)).trans (flow _)

theorem takeStep (s : State) (t : Tag) (fits : StepFor → Request → Bool)
    (act : StepFor → State → Request → State × Request) (h : ∀ f s r, Keeps s (act f s r).1) :
    Keeps s (s.takeStep t fits act) := by
  unfold State.takeStep
  refine (examine s t).trans ?_
  dsimp only
  split
  · exact ite (fun _ => takeWrite _ t _ _ (fun s => h _ s _)) (fun _ => refl _)
  all_goals exact refl _

theorem handOver (s : State) (f : StepFor) : Works s (s.handOver f) := by
  unfold State.handOver
  split
  · exact .refl s
  · exact .handConsumed s _

/-! ## Judged writes -/

theorem putTally (s : State) (p : Fin 16) (t : Tally) : Keeps s (s.putTally p t) := by
  unfold State.putTally
  exact ite (fun _ => refl s) (fun _ => (intake s _).trans (of_works (.markTally _ p)))

theorem malformedAt (s : State) (p : Fin 16) : Keeps s (s.malformedAt p) :=
  (putTally s p _).trans (of_works (.reportFault _ p _ _))

theorem tallied (s : State) (c : Claimed) (h : Works s c.state) (p : Fin 16) : Keeps s (c.tallied p) := by
  unfold Claimed.tallied
  split
  · exact (of_works h).trans (putTally _ p _)
  · exact (of_works h).trans (putTally _ p _)
  · exact (of_works h).trans (putTally _ p _)

/-- A route that hands a message on only to work of the terminal table or the correlation unit. -/
def SoundRoute (s : State) (route : Option Claimed) : Prop := ∀ c ∈ route, Works s c.state

theorem judgeSound (s : State) (p : Fin 16) (t : Treatment) (r : Request) (route : Option Claimed)
    (h : SoundRoute s route) : Keeps s (s.judgeSound p t r route).1 := by
  unfold State.judgeSound
  split
  · exact putTally s p _
  · split
    · exact putTally s p _
    · next c => exact tallied s c (h c rfl) p

theorem judgeMessage (s : State) (p : Fin 16) (t : Treatment) (r : Request) (route : Option Claimed)
    (h : SoundRoute s route) : Keeps s (s.judgeMessage p t r route).1 := by
  unfold State.judgeMessage
  split
  · exact (putTally s p _).trans (of_works (.reportFault _ p _ _))
  · exact judgeSound s p t r route h

theorem judgeForm (s : State) (r : Request) (route : Fin 16 → Option Claimed) (h : ∀ p, SoundRoute s (route p)) :
    Keeps s (s.judgeForm r route).1 := by
  unfold State.judgeForm
  split
  · exact refl s
  · split
    · exact refl s
    · exact judgeMessage s _ _ r _ (h _)

theorem judgeMalformed (s : State) (r : Request) : Keeps s (s.judgeMalformed r) := by
  unfold State.judgeMalformed
  split
  · exact refl s
  · exact malformedAt s _

theorem routeTerminal (s : State) (p : Fin 16) (m : List Byte) (claim : Fin 1024 → TermEntry → Claimed)
    (h : ∀ n e, Works s (claim n e).state) : SoundRoute s (s.routeTerminal p m claim) := by
  intro c hc
  unfold State.routeTerminal at hc
  split at hc
  · cases hc
  · simp only [Option.mem_def, Option.map_eq_some_iff] at hc
    obtain ⟨e, _, rfl⟩ := hc
    exact h _ _

theorem routePort (s : State) (p : Fin 16) (claim : Claimed) (h : Works s claim.state) :
    SoundRoute s (s.routePort p claim) := by
  intro c hc
  unfold State.routePort at hc
  split at hc
  · cases hc; exact h
  · cases hc

theorem routeMessage (s : State) (p : Fin 16) (m : List Byte) : SoundRoute s (s.routeMessage p m) := by
  unfold State.routeMessage
  split
  · exact routeTerminal s p m _ (fun n e => .claimGasp s n e _ _ _)
  · exact routeTerminal s p m _ (fun n e => .claimLoss s n e _)
  · exact routeTerminal s p m _ (fun n e => .claimRestore s n e _)
  · exact routePort s p _ (.claimDark s p _)
  · exact routePort s p _ (.claimLit s p)
  · intro c hc; cases hc

theorem judgeWrite (s : State) (r : Request) : Keeps s (s.judgeWrite r).1 := by
  unfold State.judgeWrite
  split
  · exact judgeForm s r _ (fun p => routeMessage s p _)
  · exact judgeMalformed s r

theorem takeMessage (s : State) (t : Tag) (k : MsgKind) (route : State → Fin 16 → List Byte → Option Claimed)
    (h : ∀ s p m, SoundRoute s (route s p m)) : Keeps s (s.takeStep t (fitsMessage k) (actMessage route)) :=
  takeStep s t _ _ (fun _ s _ => (judgeForm s _ _ (fun p => h s p _)).trans (of_works (handOver _ _)))

/-! ## The path unit -/

theorem accept (s : State) (r : Request) : Keeps s (s.accept r) := by
  unfold State.accept
  refine ite (fun h => ⟨rfl, rfl, id, fun hs => ⟨fun t => ?_, hs.2.1, hs.2.2.1, hs.2.2.2.1, fun t q hq => ?_,
    hs.2.2.2.2.2.1, Path.waitsSound_setLane hs.2.2.2.2.2.2 (fun m e => (hs.2.2.2.2.2.2 _ m).1 e)
      (fun m e => (hs.2.2.2.2.2.2 _ m).2 e)⟩, id, id⟩) (fun _ => refl s)
  · by_cases e : t = r.tag
    · subst e
      rw [lane_setLane_self]
      simp only [List.length_append, List.length_singleton]
      exact h
    · rw [lane_setLane_ne _ _ _ _ e]; exact hs.1 t
  · by_cases e : t = r.tag
    · subst e
      rw [lane_setLane_self] at hq
      rcases List.mem_append.mp hq with hq | hq
      · exact hs.2.2.2.2.1 _ q hq
      · rw [List.mem_singleton.mp hq]
    · rw [lane_setLane_ne _ _ _ _ e] at hq; exact hs.2.2.2.2.1 t q hq

theorem examineRead (s : State) (t : Tag) (r : Request) (v : Verdict) (h : s.front t = some (r, v)) :
    Keeps s (s.examineRead t r) := by
  unfold State.front at h
  split at h
  · rename_i hr _
    cases h
    exact of_flowed (.examineRead s t _ _ hr)
  · cases h
  · cases h

theorem erase_rising {l : List Nat} (i : Nat) (h : l.Pairwise (· < ·)) : (l.erase i).Pairwise (· < ·) :=
  h.sublist List.erase_sublist

theorem grantMirror (s : State) (a : Anchor) (i : Nat) : Keeps s (s.grantMirror a i) :=
  ⟨rfl, rfl, fun hs => ⟨erase_rising i hs.1, fun j hj => hs.2.1 j (List.mem_of_mem_erase hj), hs.2.2⟩,
    fun hs => ⟨hs.1, by show (List.map _ _).length ≤ _; rw [List.length_map]; exact hs.2.1, Nat.zero_le _, fun _ => rfl,
      hs.2.2.2.2.1, risingReads_map _ _ (rising_granted i _) hs.2.2.2.2.2.1, waits_map _ _ (fun _ => rfl) hs.2.2.2.2.2.2⟩, id, id⟩

theorem grantRecord (s : State) (i : Nat) : Keeps s (s.grantRecord i) := by
  unfold State.grantRecord
  split
  · exact refl s
  · exact grantMirror s _ i

theorem cursor (s : State) (c : Nat) (h : c < Config.mirrorRecords) :
    Keeps s { s with mirror := { s.mirror with cursor := c } } :=
  ⟨rfl, rfl, fun hs => ⟨hs.1, hs.2.1, h⟩, id, id, id⟩

theorem grantDrain (s : State) (i : Nat) : Keeps s (s.grantDrain i) := by
  refine (grantRecord s i).trans (cursor _ _ ?_)
  split
  · assumption
  · decide

theorem grantOwn (s : State) (w : OwnWrite) : Keeps s (s.grantOwn w) :=
  (queue s s.rw.queue.tail).trans (pathRest _ (s.grantOwn w).path rfl ⟨rfl, id⟩ (.inl rfl))

theorem grantPass (s : State) (e : PassEntry) : Keeps s (s.grantPass e) := by
  refine pathRest s _ rfl ⟨rfl, id⟩ ?_
  show (if _ then _ else _) = _ ∨ (if _ then _ else _) = 0 ∨ ((if _ then _ else _) ≤ _ ∧ _)
  split
  · exact .inl rfl
  · next h => exact .inr (.inr ⟨Nat.min_le_right _ _, fun hd => h (by rw [hd]; rfl)⟩)

theorem grantRest (s : State) : Keeps s s.grantRest := by
  unfold State.grantRest
  split
  · exact grantOwn s _
  · exact grantDrain s _
  · exact refl s

theorem grantPassFirst (s : State) : Keeps s s.grantPassFirst := by
  unfold State.grantPassFirst
  split
  · exact grantPass s _
  · exact grantRest s

theorem grantOwnFirst (s : State) : Keeps s s.grantOwnFirst := by
  unfold State.grantOwnFirst
  split
  · exact ite (fun _ => grantOwn s _) (fun _ => grantPassFirst s)
  · exact grantPassFirst s

theorem grant (s : State) : Keeps s s.grant := by
  unfold State.grant
  split
  · split
    · exact grantPass s _
    · exact refl s
  · split
    · exact grantRecord s _
    · exact ite (fun _ => grantDrain s _) (fun _ => grantOwnFirst s)
    · exact grantOwnFirst s

theorem issued (s : State) (l : List Issued) (r : List Response) :
    Keeps s { s with path := { s.path with issued := l, responses := r } } :=
  pathRest s _ rfl ⟨rfl, id⟩ (.inl rfl)

theorem memoryAnswer (s : State) (n : Nat) (resp : Resp) (data : List Byte) : Keeps s (s.memoryAnswer n resp data) := by
  unfold State.memoryAnswer
  split
  · exact refl s
  · exact issued s _ _

theorem countIfError (s : State) (resp : Resp) : Works s (s.countIfError resp) := by
  cases resp
  · exact .refl s
  · exact .countFailedWrite s

theorem ownAnswer (s : State) (n : Nat) (resp : Resp) : Keeps s (s.ownAnswer n resp) := by
  unfold State.ownAnswer
  split
  · exact refl s
  · next l _ =>
    refine (issued s l s.path.responses).trans ?_
    dsimp only
    exact ite (fun _ => refl _) (fun _ => of_works (countIfError _ resp))

theorem recordAnswered (s : State) (i : Nat) : Keeps s (s.recordAnswered i) := by
  have h1 : Keeps s { s with mirror := { s.mirror with inFlight := s.mirror.inFlight.erase i } } :=
    ⟨rfl, rfl, id, id, id, id⟩
  exact h1.trans (pathRest _ _ rfl ⟨by simp [HeldRead.answered, Function.comp_def],
    risingReads_map _ _ (rising_answered i)⟩ (.inl rfl))

theorem mirrorAnswer (s : State) (n : Nat) (resp : Resp) : Keeps s (s.mirrorAnswer n resp) := by
  unfold State.mirrorAnswer
  split
  · exact refl s
  · next i st a l _ =>
    refine (issued s l s.path.responses).trans ?_
    dsimp only
    refine ite (fun _ => refl _) (fun _ => ite (fun _ => of_works (countIfError _ resp)) (fun _ => ?_))
    exact ((of_works (countIfError _ resp)).trans (recordAnswered _ i)).trans (flow _)

end Keeps

end Sys2Proof.Machine
end

