-- ==== Sys2Proof/Laws/Exec.lean ====
section
/-! SUPPORT. Engine control, the loader, the command unit and the actions keep what every command keeps; and so does
`exec`, the release of RESET_N apart. -/

namespace Sys2Proof.Machine

namespace Keeps

/-! ## Engine control -/

theorem slots_of_powerOfTwo {n : Nat} (h : powerOfTwoIn n 4 12 = true) : 16 ≤ n ∧ n ∣ 2 ^ 32 := by
  unfold powerOfTwoIn at h
  obtain ⟨k, hk, e⟩ := List.any_eq_true.mp h
  have e : n = 2 ^ k := by simpa using e
  have hk := List.mem_range'_1.mp hk
  subst e
  exact ⟨Nat.pow_le_pow_right (n := 2) (by decide) hk.1, Nat.pow_dvd_pow 2 (by omega)⟩

theorem anchorFault_none {x : Addr} {rings : List (Nat × Nat)} {b : List Byte} (h : anchorFault x rings b = none) :
    powerOfTwoIn (anchorOf b).ringSlots 4 12 = true := by
  unfold anchorFault at h
  dsimp only at h
  repeat' split at h
  all_goals first
    | (cases h; done)
    | (next h5 _ _ =>
        simp only [Bool.or_eq_true, not_or, Bool.not_eq_true', Bool.not_eq_false] at h5
        exact h5.1.1.1)

theorem adoptFields (s : State) (a : Anchor) (h : powerOfTwoIn a.ringSlots 4 12 = true) : Keeps s (s.adoptFields a) := by
  unfold State.adoptFields
  refine trans ?_ (markAll _)
  obtain ⟨h16, hd⟩ := slots_of_powerOfTwo h
  refine ⟨rfl, rfl, id, ?_, id, fun _ => ?_⟩
  · rintro ⟨h1, h2, h3, h4, h5, h6⟩
    exact ⟨h1, by simpa using h2, h3, h4, h5, risingReads_map _ _ (fun h _ => rising_satisfy h) h6.1,
      waits_map _ _ (fun _ => rfl) h6.2⟩
  · have hlt : s.rw.nextSeq.toNat % a.ringSlots < a.ringSlots := Nat.mod_lt _ (by omega)
    refine ⟨h16, hd, rfl, hlt, ?_, Nat.zero_le _, .inr ?_⟩
    · show _ = (s.rw.nextSeq.toNat % a.ringSlots + 0) % a.ringSlots
      rw [Nat.add_zero, Nat.mod_mod]; rfl
    · show 0 + 2 ≤ _
      omega

theorem adopt (s : State) (a : Anchor) (t : Tag) (h : powerOfTwoIn a.ringSlots 4 12 = true) : Keeps s (s.adopt a t) := by
  have hd : ∀ s : State, Keeps s s.dropStartMark := fun s => ⟨rfl, rfl, id, id, id, id⟩
  exact (((adoptFields s a h).trans (enqueue _ _)).trans (of_works (.makeSync _ _ _))).trans (hd _)

theorem examineAnchor (s : State) (r : Request) : Keeps s (s.examineAnchor r) := by
  have hc : Keeps s (s.checkAnchor r) := by
    unfold State.checkAnchor
    split
    · exact enqueue s _
    · next h => exact adopt s _ _ (anchorFault_none h)
  have hi : Keeps s (s.ignoreAnchor r) := (enqueue s _).trans (makeReport _ _)
  unfold State.examineAnchor
  split
  · exact hc
  · exact hc
  · exact hi
  · exact hi
  · exact refl s

theorem endProgress (s : State) (a : Addr) : Keeps s (s.endProgress a) := cmd s _ _ _

theorem finalWriteBack (s : State) (a : Addr) (st : SlotState) (c : Code) (d : Nat) : Keeps s (s.finalWriteBack a st c d) := by
  unfold State.finalWriteBack
  split
  · exact refl s
  · exact (writeBack s _ _ _ _ _ _).trans (endProgress _ a)

theorem abandonBusy (s : State) : Keeps s s.abandonBusy := by
  unfold State.abandonBusy
  split
  · exact (finalWriteBack s _ _ _ _).trans (setUnit _ _ (fun h => by cases h))
  · exact setUnit s _ (fun h => by cases h)
  · exact refl s

theorem halted_mirror (s : State) (h : s.mirrorSound) : s.halt.mirrorSound := by
  unfold State.halt State.putMode
  split
  · exact h
  · exact mark_sound summary_lt h

theorem halted_dirty (s : State) (h : s.halt.mirror.dirty = []) : s.mirror.dirty = [] := by
  unfold State.halt State.putMode at h
  split at h
  · exact h
  · refine List.eq_nil_iff_forall_not_mem.mpr fun i hi => ?_
    have : i ∈ insertIndex Config.summaryRecord s.mirror.dirty := mem_insertIndex.mpr (.inr hi)
    change insertIndex Config.summaryRecord s.mirror.dirty = [] at h
    rw [h] at this; cases this

theorem halt_fields (s : State) : s.halt.pending = s.pending ∧ s.halt.time = s.time ∧ s.halt.path = s.path ∧
    s.halt.cmd = s.cmd ∧ s.halt.rw = s.rw ∧ s.halt.ctl.anchor = s.ctl.anchor ∧ s.halt.ctl.mode = .halted := by
  unfold State.halt State.putMode
  split
  · next h => exact ⟨rfl, rfl, rfl, rfl, rfl, rfl, h⟩
  · exact ⟨rfl, rfl, rfl, rfl, rfl, rfl, rfl⟩

theorem halt (s : State) : Keeps s s.halt := by
  obtain ⟨h1, h2, h3, h4, h5, h6, h7⟩ := halt_fields s
  refine ⟨h1, h2, halted_mirror s, ?_, ?_, ?_⟩
  · unfold State.pathSound State.lane; rw [h3]
    exact fun h => ⟨h.1, h.2.1, h.2.2.1, fun hd => h.2.2.2.1 (halted_dirty s hd), h.2.2.2.2⟩
  · exact stores_of_cmd (by rw [h4]) (by rw [h4]) (by rw [h4])
  · intro hr
    unfold State.ringSound at hr ⊢
    rw [h4, h5, h6, h7]
    cases ha : s.ctl.anchor with
    | none => simp only [ha] at hr ⊢; exact ⟨hr.1, hr.2.1, .inr trivial, hr.2.2.2⟩
    | some a =>
      simp only [ha] at hr ⊢
      obtain ⟨h16, hd, hp, hc, hpc, ho, _⟩ := hr
      exact ⟨h16, hd, hp, hc, hpc, ho, .inl trivial⟩

theorem stopBurst (s : State) : Keeps s s.stopBurst := loader s _

theorem makeRoomForGasp (s : State) : Keeps s s.makeRoomForGasp := by
  unfold State.makeRoomForGasp
  exact ite (fun _ => refl s) (fun _ => (queue s _).trans (of_works (.countFailedWrite _)))

theorem makeRoomForGasp_fields (s : State) : s.makeRoomForGasp.ctl = s.ctl ∧
    s.makeRoomForGasp.rw.occupancy = s.rw.occupancy := by
  unfold State.makeRoomForGasp State.countFailedWrite State.markIf
  split
  · exact ⟨rfl, rfl⟩
  · split
    · exact ⟨rfl, rfl⟩
    · exact ⟨rfl, rfl⟩

/-- HEAD_GASP may take the last free slot, and the mode is HALTED after it (R35, R139). -/
theorem gaspAndHalt (s : State) : Keeps s s.placeHeadGasp.halt := by
  unfold State.placeHeadGasp
  split
  · exact halt s
  · next a ha =>
    split
    · exact halt s
    · next hf =>
      refine (makeRoomForGasp s).trans ?_
      have hctl := (makeRoomForGasp_fields s).1
      have hocc := (makeRoomForGasp_fields s).2
      unfold State.freeSlots at hf
      simp only [ha, ← hocc] at hf
      rw [← hctl] at ha
      dsimp only
      generalize State.makeRoomForGasp s = k at ha hf ⊢
      generalize OwnWrite.report _ _ :: k.rw.queue = q
      obtain ⟨h1, h2, h3, h4, h5, h6, h7⟩ := halt_fields { k with rw := { k.rw with queue := q }.advance a.ringSlots }.bumpSync
      refine ⟨h1, h2, fun h => halted_mirror _ h, ?_, ?_, ?_⟩
      · unfold State.pathSound State.lane; rw [h3]
        exact fun h => ⟨h.1, h.2.1, h.2.2.1, fun hd => by
          have e := halted_dirty _ hd
          exact h.2.2.2.1 e, h.2.2.2.2⟩
      · exact stores_of_cmd (by rw [h4]; rfl) (by rw [h4]; rfl) (by rw [h4]; rfl)
      · intro hr
        unfold State.ringSound at hr ⊢
        rw [h4, h5, h6, h7]
        show match k.ctl.anchor with | none => _ | some a => _
        simp only [ha] at hr ⊢
        obtain ⟨h16, hd, hp, hc, hpc, ho, _⟩ := hr
        have := Works.produced_next hd hp hpc
        refine ⟨h16, hd, this.1, hc, this.2, ?_, .inl trivial⟩
        show k.rw.occupancy + 1 ≤ _
        omega

theorem takeHoldup (s : State) : Keeps s s.takeHoldup := ((gaspAndHalt s).trans (stopBurst _)).trans (abandonBusy _)

theorem enterReset (s : State) : Keeps s s.enterReset := by
  refine ⟨rfl, rfl, fun h => ⟨List.Pairwise.nil, fun _ h => (by cases h), h.2.2⟩,
    fun hs => ⟨fun t => ?_, ?_, Nat.zero_le _, fun _ => rfl, fun t => ?_,
      risingReads_map _ _ (fun h _ => rising_satisfy h) hs.2.2.2.2.2.1, fun t m => ?_⟩, id, id⟩
  · show ((s.path.lanes.map Lane.reopen)[t.val]).reqs.length ≤ _
    rw [Vector.getElem_map]
    exact hs.1 t
  · show (s.path.held.map _).length ≤ _
    rw [List.length_map]; exact hs.2.1
  · show ∀ r ∈ ((s.path.lanes.map Lane.reopen)[t.val]).reqs, _
    rw [Vector.getElem_map]
    exact hs.2.2.2.2.1 t
  · show (((s.path.lanes.map Lane.reopen)[t.val]).outcome = _ → _) ∧ (((s.path.lanes.map Lane.reopen)[t.val]).outcome = _ → _)
    rw [Vector.getElem_map]
    exact ⟨fun e => (by cases e), fun e => (by cases e)⟩

/-! ## The loader and the clearings -/

theorem captureWrite (s : State) (r : Request) : Keeps s (s.captureWrite r) := by
  unfold State.captureWrite
  split
  · exact refl s
  · exact ite (fun _ => refl s) (fun _ => loader s _)

theorem dropLoad (s : State) : Keeps s s.dropLoad := loader s _

theorem reportDone (s : State) (b : List Byte) (k : Kind) (c : Code) (d : Nat) : Works s (s.reportDone b k c d) := by
  unfold State.reportDone
  split
  · exact .refl s
  · exact .ite (fun _ => .makeReport s _) (fun _ => .refl s)

theorem leaveBusy (s : State) : Keeps s s.leaveBusy := by
  unfold State.leaveBusy
  exact setUnit s _ (fun h => by split at h <;> cases h)

theorem setRecords (s : State) (x : Vector Terminal 1024) : Keeps s (s.setRecords x) :=
  ⟨rfl, rfl, id, id, id, id⟩

theorem activate (s : State) (m : BuildingMap)
    (h : (s.ctl.mode ≠ .detached ∨ s.cmd.unit.isBusy = true) ∧ s.ctl.mode ≠ .halted) : Keeps s (s.activate m) :=
  ((((map s _).trans (setRecords _ _)).trans (dropLoad _)).trans (setMode _ _ h)).trans (markAll _)

theorem reportActivation (s : State) (b : List Byte) (n : Nat) : Works s (s.reportActivation b n) :=
  (Works.makeSync s _ _).trans (reportDone _ b _ _ n)

theorem completeLoad (s : State) (a : Addr) (m : BuildingMap)
    (h : (s.ctl.mode ≠ .detached ∨ s.cmd.unit.isBusy = true) ∧ s.ctl.mode ≠ .halted) : Keeps s (s.completeLoad a m) :=
  (((activate s m h).trans (of_works (reportActivation _ _ _))).trans (finalWriteBack _ a _ _ _)).trans (leaveBusy _)

theorem failLoad (s : State) (a : Addr) (c : MapFail)
    (h : (s.ctl.mode ≠ .detached ∨ s.cmd.unit.isBusy = true) ∧ s.ctl.mode ≠ .halted) : Keeps s (s.failLoad a c) :=
  ((((dropLoad s).trans (putMode _ _ h)).trans (of_works (reportDone _ _ _ _ _))).trans (finalWriteBack _ a _ _ _)).trans
    (leaveBusy _)

theorem flushDeferred (s : State) : Keeps s s.flushDeferred := by
  refine ⟨rfl, rfl, id, id, fun hs => ⟨Nat.zero_le _, hs.2.1, fun _ _ => rfl⟩, id⟩

theorem emptyLines (s : State) : Keeps s s.emptyLines := by
  refine ⟨rfl, rfl, id, id, fun hs => ⟨hs.1, fun l => ?_, fun l h => ?_⟩, id⟩
  · cases l <;> exact Nat.zero_le _
  · cases l <;> exact absurd rfl h

theorem markChanged (new old : State) : Works new (new.markChanged old) := by
  unfold State.markChanged
  have key : ∀ (l : List Nat) (s : State), (∀ i ∈ l, i < Config.mirrorRecords) → Works s (l.foldl State.mark s) := by
    intro l
    induction l with
    | nil => exact fun s _ => .refl s
    | cons i l ih =>
      exact fun s h => (Works.mark s (h i (by simp))).trans (ih _ (fun j hj => h j (by simp [hj])))
  exact key _ _ (fun i h => List.mem_range.mp (List.mem_filter.mp h).1)

theorem clearMap (s : State) : Keeps s s.clearMap :=
  ((((map s _).trans (setRecords _ _)).trans (flushDeferred _)).trans (emptyLines _)).trans (of_works (markChanged _ s))

theorem completeUnmap (s : State) (a : Addr)
    (h : (s.ctl.mode ≠ .detached ∨ s.cmd.unit.isBusy = true) ∧ s.ctl.mode ≠ .halted) : Keeps s (s.completeUnmap a) :=
  ((((setMode s _ h).trans (markAll _)).trans (of_works (reportDone _ _ _ _ _))).trans (finalWriteBack _ a _ _ _)).trans
    (leaveBusy _)

theorem clearRecords (s : State) : Keeps s s.clearRecords := by
  unfold State.clearRecords
  exact ite (fun _ => ((setRecords s _).trans (flushDeferred _)).trans (markAll _)) (fun _ => refl s)

theorem completeRestart (s : State) (a : Addr) : Keeps s (s.completeRestart a) :=
  ((of_works ((Works.makeSync s _ _).trans (reportDone _ _ _ _ _))).trans (finalWriteBack _ a _ _ _)).trans (leaveBusy _)

theorem mode_of_working {s : State} (h : s.working = true) : s.ctl.mode ≠ .halted := by
  unfold State.working at h
  intro e; rw [e] at h; simp at h

theorem mode_of_ready {s : State} (h : s.ready = true) : s.ctl.mode ≠ .halted := by
  unfold State.ready at h
  exact mode_of_working (by simp only [Bool.and_eq_true] at h; exact h.1)

/-! ## The command unit -/

theorem putSettings (s : State) (c : Settings) : Keeps s (s.putSettings c) := cmd s c _ _

theorem putRing (s : State) (p : Fin 16) (x : Option Ring) : Keeps s (s.putRing p x) := by
  unfold State.putRing
  exact ite (fun _ => refl s) (fun _ => (intake s _).trans (of_works (.markTally _ p)))

theorem carrySetIntake (s : State) (b : List Byte) : Keeps s (s.carrySetIntake b).1 := by
  unfold State.carrySetIntake
  dsimp only
  split
  · exact refl s
  · exact putRing s _ _

theorem carryMute (s : State) (b : List Byte) (o : Origin) : Keeps s (s.carryMute b o).1 := by
  unfold State.carryMute
  split
  · exact refl s
  · split
    · exact refl s
    · exact of_works (.muteCommand s _ o)

theorem carryUnmute (s : State) (b : List Byte) (o : Origin) : Keeps s (s.carryUnmute b o).1 := by
  unfold State.carryUnmute
  split
  · exact refl s
  · exact of_works (.unmuteCommand s _ o)

theorem carrySeed (s : State) (b : List Byte) (o : Origin) : Keeps s (s.carrySeed b o).1 := by
  unfold State.carrySeed
  dsimp only
  repeat' split
  all_goals first
    | exact refl s
    | exact of_works (.seed s _ _ _ o)

theorem carryArm (s : State) : Keeps s s.carryArm.1 :=
  of_works ((Works.putStormArmed s true).trans (.putBrownoutArmed _ true))

theorem carrySetStorm (s : State) (b : List Byte) (o : Origin) : Keeps s (s.carrySetStorm b o).1 :=
  (putSettings s _).trans (of_works (.evaluateStorm _ o))

theorem restartLoad (s : State) (t : BitVec 16) : Keeps s (s.restartLoad t) := (loader s _).trans (loader _ _)

theorem openLoad (s : State) (n k : Nat) (t : BitVec 16) : Keeps s (s.openLoad n k t) := (loader s _).trans (loader _ _)

theorem carryMapBegin (s : State) (b : List Byte) (h : s.ctl.mode.takesCommands = true) : Keeps s (s.carryMapBegin b).1 := by
  unfold State.carryMapBegin
  split
  · exact restartLoad s _
  · refine (openLoad s _ _ _).trans (putMode _ _ ⟨.inl fun e => ?_, fun e => ?_⟩)
    · change s.ctl.mode = _ at e; rw [e] at h; cases h
    · change s.ctl.mode = _ at e; rw [e] at h; cases h

theorem beginJob (s : State) (j : Job) (a : Addr) (b : List Byte) (h : s.ctl.mode.takesCommands = true) :
    Keeps s (s.beginJob j a b) := by
  refine ⟨rfl, rfl, id, id, id, fun hr => ?_⟩
  unfold State.ringSound at hr ⊢
  show match s.ctl.anchor with | none => _ | some a => _
  cases ha : s.ctl.anchor with
  | none =>
    simp only [ha] at hr
    rcases hr.2.2.1 with e | e
    · rw [e] at h; cases h
    · rw [e] at h; cases h
  | some a => simp only [ha] at hr ⊢; exact hr

theorem modeGuard {s : State} (h : s.ctl.mode.takesCommands = true) :
    (s.ctl.mode ≠ .detached ∨ s.cmd.unit.isBusy = true) ∧ s.ctl.mode ≠ .halted := by
  refine ⟨.inl fun e => ?_, fun e => ?_⟩
  · rw [e] at h; cases h
  · rw [e] at h; cases h

theorem carryMapEnd (s : State) (b : List Byte) (a : Addr) (h : s.ctl.mode.takesCommands = true) :
    Keeps s (s.carryMapEnd b a).1 := by
  unfold State.carryMapEnd
  split
  · exact (stopBurst s).trans (beginJob _ _ a b h)
  · split
    · exact (activate s _ (modeGuard h)).trans (of_works (reportActivation _ b 0))
    · exact refl s

theorem abortLoad (s : State) (h : s.ctl.mode.takesCommands = true) : Keeps s s.abortLoad :=
  (dropLoad s).trans (putMode _ _ (modeGuard h))

theorem carryMapAbort (s : State) (h : s.ctl.mode.takesCommands = true) : Keeps s s.carryMapAbort.1 := by
  unfold State.carryMapAbort
  split
  · exact abortLoad s h
  · exact abortLoad s h
  · exact (((abortLoad s h).trans (of_works (reportDone _ _ _ _ _))).trans (finalWriteBack _ _ _ _ _)).trans (leaveBusy _)
  all_goals exact refl s

theorem zeroTallies (s : State) : Keeps s s.zeroTallies :=
  (intake s _).trans (of_works (Works.foldl _ Works.markTally _ _))

theorem carryRestart (s : State) (b : List Byte) (a : Addr) (h : s.ctl.mode.takesCommands = true) :
    Keeps s (s.carryRestart b a).1 := by
  have hz : s.zeroTallies.ctl = s.ctl :=
    (Works.foldl (f := State.markTally) Works.markTally (List.finRange 16) _).ctl
  exact (zeroTallies s).trans (beginJob _ _ a b (by rw [hz]; exact h))

theorem dropLast_prefix (u : LineUnit) : u.dropLast.actions <+: u.actions := List.dropLast_prefix _

theorem carryDropAction (s : State) (b : List Byte) : Keeps s (s.carryDropAction b).1 := by
  unfold State.carryDropAction
  split
  · exact refl s
  · split
    · exact refl s
    · exact setLine s _ _ (dropLast_prefix _)

theorem carryQueueFlush (s : State) (o : Origin) : Keeps s (s.carryQueueFlush o).1 := by
  unfold State.carryQueueFlush
  dsimp only
  split
  · exact refl s
  · exact (flushDeferred s).trans (makeReport _ _)

/-! ### Judging -/

theorem refuse (s : State) (a : Addr) (b : List Byte) (c : Code) : Keeps s (s.refuse a b c) := writeBack s _ _ _ _ _ _

theorem queueEntry (s : State) (k : Kind) (t : Trigger) (a : Addr) (b : List Byte) (ht : s.triggerInUse t = false)
    (hl : s.cmd.deferred.length < Config.deferredSize) : Keeps s (s.queueEntry k t a b) := by
  unfold State.queueEntry
  refine trans ?_ (writeBack _ _ _ _ _ _ _)
  refine ⟨rfl, rfl, id, id, fun hs => ⟨?_, hs.2.1, fun l h => ?_⟩, id⟩
  · show (s.cmd.deferred ++ [_]).length ≤ _
    rw [List.length_append, List.length_singleton]; exact hl
  · show (s.cmd.deferred ++ [_]).any _ = false
    have hn : (s.line l).actions ≠ [] := h
    have h1 := hs.2.2 l hn
    unfold State.lineDeferred at h1
    rw [List.any_append, h1, Bool.false_or, List.any_cons, List.any_nil, Bool.or_false]
    show (t == .line l) = false
    cases t with
    | line m =>
      have : (s.line m).actions = [] := by simpa [State.triggerInUse] using ht
      refine beq_eq_false_iff_ne.mpr ?_
      intro e; cases e; exact hn this
    | stormIn => rfl
    | stormOut => rfl
    | downAtLeast _ => rfl
    | atTime _ => rfl

theorem deferCommand (s : State) (k : Kind) (a : Addr) (b : List Byte) : Keeps s (s.deferCommand k a b) := by
  unfold State.deferCommand
  split
  · exact refuse s a b _
  · next t _ =>
    refine ite (fun _ => refuse s a b _) (fun ht => ite (fun _ => refuse s a b _) (fun hl => ?_))
    have hq := queueEntry s k t a b (by simpa using ht) (by simpa using hl)
    exact ite (fun _ => hq.trans (of_works (.examineHead _))) (fun _ => hq)

theorem registerLine (s : State) (l : Line) (k : Kind) (a : Addr) (b : List Byte) : Keeps s (s.registerLine l k a b) := by
  unfold State.registerLine
  dsimp only
  refine ite (fun _ => refuse s a b _) (fun hd => ite (fun _ => refuse s a b _) (fun hl => trans ?_ (writeBack _ _ _ _ _ _ _)))
  refine ⟨setLine_pending .., setLine_time .., ?_, ?_, ?_, ?_⟩
  · unfold State.mirrorSound; rw [setLine_mirror]; exact id
  · unfold State.pathSound State.lane; rw [setLine_path, setLine_mirror]; exact id
  · rintro ⟨h1, h2, h3⟩
    refine ⟨by rw [setLine_cmd_deferred]; exact h1, fun m => ?_, fun m hm => ?_⟩
    · by_cases e : m = l
      · subst e; rw [line_setLine_self]
        show ((s.line m).actions ++ [_]).length ≤ _
        rw [List.length_append, List.length_singleton]; omega
      · rw [line_setLine_ne _ _ _ _ e]; exact h2 m
    · unfold State.lineDeferred at hd h3 ⊢; rw [setLine_cmd_deferred]
      by_cases e : m = l
      · subst e; simpa using hd
      · rw [line_setLine_ne _ _ _ _ e] at hm; exact h3 m hm
  · unfold State.ringSound; rw [setLine_ctl, setLine_rw, setLine_cmd_unit]; exact id

theorem takes_of_inMode {k : Kind} {m : Mode} (h : k.inMode m = true) : m.takesCommands = true := by
  cases k <;> cases m <;> first | rfl | (exact absurd h (by decide))

theorem judgePlaced (s : State) (k : Kind) (carry : State → State × Result) (a : Addr) (b : List Byte)
    (h : s.ctl.mode.takesCommands = true → Keeps s (carry s).1) : Keeps s (s.judgePlaced k carry a b) := by
  unfold State.judgePlaced
  split
  · exact refuse s a b _
  · refine ite (fun _ => refuse s a b _) (fun hm => ite (fun _ => refuse s a b _) (fun _ => ?_))
    have hk := h (takes_of_inMode (by simpa using hm))
    unfold State.carryNow
    split
    · exact hk.trans (writeBack _ _ _ _ _ _ _)
    · exact refuse s a b _
    · exact hk
  · exact ite (fun _ => refuse s a b _) (fun _ => ite (fun _ => refuse s a b _) (fun _ => deferCommand s k a b))
  · exact ite (fun _ => refuse s a b _) (fun _ => ite (fun _ => refuse s a b _) (fun _ => registerLine s _ k a b))

theorem markOverwritten (s : State) (a : Addr) : Keeps s (s.markOverwritten a) := cmd s _ _ _

theorem unlessSlotBusy (s : State) (a : Addr) (b : List Byte) (t : State) (h : Keeps s t) :
    Keeps s (s.unlessSlotBusy a b t) := by
  unfold State.unlessSlotBusy
  exact ite (fun _ => (markOverwritten s a).trans (refuse _ a b _)) (fun _ => h)

theorem judge (s : State) (k : Kind) (carry : State → State × Result) (a : Addr) (b : List Byte)
    (h : s.ctl.mode.takesCommands = true → Keeps s (carry s).1) : Keeps s (s.judge k carry a b) := by
  unfold State.judge
  exact unlessSlotBusy s a b _ (ite (fun _ => refuse s a b _) (fun _ => judgePlaced s k carry a b h))

theorem takeCommand (s : State) (t : Tag) (k : Kind) (carry : State → List Byte → Addr → Origin → State × Result)
    (h : ∀ s b a o, s.ctl.mode.takesCommands = true → Keeps s (carry s b a o).1) : Keeps s (s.takeCommand t k carry) :=
  takeStep s t _ _ (fun _ s _ => judge s k _ _ _ (fun hm => h s _ _ _ hm))

/-! ## The actions -/

theorem appendDue (s : State) (a : DueAction) : Keeps s (s.appendDue a) := of_works (.appendDue s a)

theorem assertLine (s : State) (l : Line) : Keeps s (s.assertLine l) := by
  unfold State.assertLine
  dsimp only
  refine ite (fun _ => refl s) (fun _ => ite (fun _ => setLine s l _ (List.prefix_refl _)) (fun _ => ?_))
  exact (setLine s l { s.line l with runPending := true } (List.prefix_refl _)).trans (appendDue _ _)

theorem debounced (s : State) (l : Line) (v : Bool) : Keeps s (s.debounced l v) := by
  have h : Keeps s (s.setLine l { s.line l with level := v }) := setLine s l _ (List.prefix_refl _)
  unfold State.debounced
  dsimp only
  refine ite (fun _ => h) (fun _ => ite (fun _ => ?_) (fun _ => h.trans (makeReport _ _)))
  exact ((h.trans (of_works (.watch _ _))).trans (assertLine _ l)).trans (makeReport _ _)

theorem debounceEnd (s : State) (l : Line) : Keeps s (s.debounceEnd l) := by
  have h : Keeps s (s.setLine l { s.line l with deadline := none }) := setLine s l _ (List.prefix_refl _)
  unfold State.debounceEnd
  dsimp only
  exact ite (fun _ => h) (fun _ => h.trans (debounced _ l _))

/-- What carrying a stored command out leaves alone besides: both lines and the deferred queue but for due marks. -/
structure Stored (s t : State) : Prop where
  keeps    : Keeps s t
  lineA    : t.cmd.lineA = s.cmd.lineA
  lineB    : t.cmd.lineB = s.cmd.lineB
  deferred : t.cmd.deferred.map DeferredEntry.undue = s.cmd.deferred.map DeferredEntry.undue

theorem Stored.refl (s : State) : Stored s s := ⟨.refl s, rfl, rfl, rfl⟩

theorem Stored.of_works {s t : State} (h : Works s t) : Stored s t := ⟨Keeps.of_works h, h.lineA, h.lineB, h.deferred⟩

theorem Stored.trans {s t u : State} (a : Stored s t) (b : Stored t u) : Stored s u :=
  ⟨a.keeps.trans b.keeps, b.lineA.trans a.lineA, b.lineB.trans a.lineB, b.deferred.trans a.deferred⟩

theorem Stored.putSettings (s : State) (c : Settings) : Stored s (s.putSettings c) :=
  ⟨Keeps.putSettings s c, rfl, rfl, rfl⟩

theorem carryStored (s : State) (k : Kind) (b : List Byte) (o : Origin) : Stored s (s.carryStored k b o).1 := by
  unfold State.carryStored
  split
  · exact .putSettings s _
  · exact .putSettings s _
  · exact .putSettings s _
  · exact (Stored.putSettings s _).trans (.of_works (.evaluateStorm _ o))
  · exact .putSettings s _
  · exact .of_works ((Works.putStormArmed s true).trans (.putBrownoutArmed _ true))
  · exact .putSettings s _
  · exact .of_works (.makeSync s _ o)
  · unfold State.carryMute
    split
    · exact .refl s
    · split
      · exact .refl s
      · exact .of_works (.muteCommand s _ o)
  · unfold State.carryUnmute
    split
    · exact .refl s
    · exact .of_works (.unmuteCommand s _ o)
  all_goals exact .refl s

theorem runStored (s : State) (k : Kind) (b : List Byte) (src : Source) (t : State) (d : Nat)
    (h : s.runStored k b src = .ok (t, d)) : Stored s t := by
  unfold State.runStored at h
  have hc := carryStored s k b (commandOrigin src b)
  split at h
  · cases h
  · split at h
    · next e => rw [e] at hc; cases h; exact hc
    · cases h
    · next e => rw [e] at hc; cases h; exact hc

theorem endActions (s : State) : Keeps s s.endActions := by
  unfold State.endActions
  exact ite (fun _ => setUnit s _ (fun h => by cases h)) (fun _ => refl s)

theorem takeDue (s : State) : Keeps s s.takeDue := cmd s _ _ _

theorem finalWriteBack_cmd (s : State) (a : Addr) (st : SlotState) (c : Code) (d : Nat) :
    (s.finalWriteBack a st c d).cmd.lineA = s.cmd.lineA ∧ (s.finalWriteBack a st c d).cmd.lineB = s.cmd.lineB ∧
      (s.finalWriteBack a st c d).cmd.deferred = s.cmd.deferred := by
  unfold State.finalWriteBack
  split
  · exact ⟨rfl, rfl, rfl⟩
  · exact ⟨rfl, rfl, rfl⟩

theorem reportFlushed (s : State) (e : DeferredEntry) (n : Nat) : Works s (s.reportFlushed e n) := by
  unfold State.reportFlushed
  exact .ite (fun _ => .refl s) (fun _ => .makeReport s _)

/-- The run of the head entry: the entries behind it come back as they were, unless it failed (R179, R180). -/
theorem runHead (s : State) (e : DeferredEntry) (rest : List DeferredEntry) (h : s.cmd.deferred = e :: rest) :
    Keeps s (s.runHead e rest) := by
  have hs1 : Keeps s (s.takeDue.setDeferred []) :=
    (takeDue s).trans ⟨rfl, rfl, id, id, fun hs => ⟨Nat.zero_le _, hs.2.1, fun _ _ => rfl⟩, id⟩
  unfold State.runHead
  dsimp only
  split
  · next s2 data hr =>
    have hst := runStored _ _ _ _ _ _ hr
    refine trans ?_ (endActions _)
    have hrep := Works.makeReport s2 (actionDraft .deferred e.slot (.actionDone e.kind .done))
    have hfin := finalWriteBack (s2.makeReport (actionDraft .deferred e.slot (.actionDone e.kind .done))) e.addr .done .done data
    have hcmd := finalWriteBack_cmd (s2.makeReport (actionDraft .deferred e.slot (.actionDone e.kind .done))) e.addr .done .done data
    have k : Keeps s ((s2.makeReport (actionDraft .deferred e.slot (.actionDone e.kind .done))).finalWriteBack e.addr .done
        .done data) := ((hs1.trans hst.keeps).trans (of_works hrep)).trans hfin
    unfold State.entryDone
    refine trans ?_ (of_works (.examineHead _))
    refine ⟨k.pending, k.time, k.mirror, k.path, fun hs => ?_, k.ring⟩
    have ha : ∀ l, (State.line (((s2.makeReport (actionDraft .deferred e.slot (.actionDone e.kind .done))).finalWriteBack e.addr
        .done .done data).setDeferred rest) l).actions = (s.line l).actions := by
      intro l
      cases l
      · show LineUnit.actions (CommandUnit.lineA _) = _
        rw [setDeferred_cmd]
        show LineUnit.actions (CommandUnit.lineA _) = _
        rw [hcmd.1, hrep.lineA, hst.lineA]; rfl
      · show LineUnit.actions (CommandUnit.lineB _) = _
        rw [setDeferred_cmd]
        show LineUnit.actions (CommandUnit.lineB _) = _
        rw [hcmd.2.1, hrep.lineB, hst.lineB]; rfl
    obtain ⟨h1, h2, h3⟩ := hs
    refine ⟨?_, fun l => by rw [ha]; exact h2 l, fun l hl => ?_⟩
    · show rest.length ≤ _
      rw [h, List.length_cons] at h1; omega
    · rw [ha] at hl
      have h3 := h3 l hl
      unfold State.lineDeferred at h3 ⊢
      rw [h, List.any_cons, Bool.or_eq_false_iff] at h3
      exact h3.2
  · next c _ =>
    refine trans ?_ (endActions _)
    unfold State.entryFailed
    have hf : ∀ u : State, Keeps s u → Keeps s (u.setDeferred rest).flushDeferred := by
      intro u hu
      exact ⟨hu.pending, hu.time, hu.mirror, hu.path,
        fun hs => ⟨Nat.zero_le _, (hu.stores hs).2.1, fun _ _ => rfl⟩, hu.ring⟩
    refine hf _ ((hs1.trans (of_works ?_)).trans (finalWriteBack _ _ _ _ _))
    exact (Works.makeReport _ _).trans (reportFlushed _ e _)

theorem runEntries (l : Line) (es : List LineEntry) (s : State) : Keeps s (State.runEntries l es s) := by
  induction es generalizing s with
  | nil => exact refl s
  | cons e es ih =>
    unfold State.runEntries
    split
    · next hr => exact ((runStored s _ _ _ _ _ hr).keeps.trans (makeReport _ _)).trans (ih _)
    · exact (makeReport s _).trans (setLine _ l _ (List.nil_prefix))

theorem runLine (s : State) (l : Line) : Keeps s (s.runLine l) := by
  unfold State.runLine
  refine trans ?_ (endActions _)
  dsimp only
  have h := setLine s.takeDue l { s.takeDue.line l with runPending := false, absorbed := 0 } (List.prefix_refl _)
  exact ((takeDue s).trans h).trans (runEntries l _ _)

/-! ## The rows -/

theorem command {s t : State} (tag : Tag) (k : Kind) (carry : State → List Byte → Addr → Origin → State × Result)
    (h : ∀ s b a o, s.ctl.mode.takesCommands = true → Keeps s (carry s b a o).1)
    (e : Host.Outcome.next (s.takeCommand tag k carry) = (.next t : Host.Outcome State Fault Refusal)) : Keeps s t := by
  cases e; exact takeCommand s tag k carry h

end Keeps

/-- What every command but the release of RESET_N keeps. -/
theorem exec_keeps (c : Instr) (s t : State) (h : exec c s = .next t) (hc : ∀ straps, c ≠ .resetNRelease straps) :
    Keeps s t := by
  cases c with
  | upstreamRequest r =>
    change execUpstreamRequest r s = _ at h
    unfold execUpstreamRequest at h
    split at h
    · cases h; exact (Keeps.accept s r).trans (.examine _ _)
    · cases h
  | downstreamGrant => cases h; exact .grant s
  | memoryResponse n resp data => cases h; exact .memoryAnswer s n resp data
  | ownWriteError n resp => cases h; exact .ownAnswer s n resp
  | mirrorWriteResponse n resp => cases h; exact .mirrorAnswer s n resp
  | heldRead tag =>
    cases h
    refine (Keeps.examine s tag).trans ?_
    split
    · next hf => exact (Keeps.examineRead _ tag _ _ hf).trans (.flow _)
    all_goals exact .refl _
  | resetNAssertion => cases h; exact .ite (fun _ => .refl s) (fun _ => (Keeps.enterReset s).trans (.flow _))
  | resetNRelease straps => exact absurd rfl (hc straps)
  | anchorWrite tag => cases h; exact .takeStep s tag _ _ (fun _ s r => .examineAnchor s r)
  | holdupLowAssertion =>
    cases h
    refine .ite (fun _ => .refl s) (fun _ => ?_)
    split
    · exact .refl s
    · exact .halt s
    all_goals exact .takeHoldup s
  | gasp tag => cases h; exact .takeMessage s tag _ _ (fun s p m => Keeps.routeTerminal s p m _ (fun n e => Works.claimGasp s n e _ _ _))
  | loss tag => cases h; exact .takeMessage s tag _ _ (fun s p m => Keeps.routeTerminal s p m _ (fun n e => Works.claimLoss s n e _))
  | restore tag =>
    cases h; exact .takeMessage s tag _ _ (fun s p m => Keeps.routeTerminal s p m _ (fun n e => Works.claimRestore s n e _))
  | portDark tag => cases h; exact .takeMessage s tag _ _ (fun s p m => Keeps.routePort s p _ (Works.claimDark s p _))
  | portLit tag => cases h; exact .takeMessage s tag _ _ (fun s p m => Keeps.routePort s p _ (Works.claimLit s p))
  | malformed tag =>
    cases h
    refine .takeStep s tag _ _ (fun f s r => ?_)
    dsimp only
    exact (Keeps.trans (Keeps.judgeMalformed s r) (.ite (fun _ => .captureWrite _ r) (fun _ => .refl _))).trans
      (.of_works (Keeps.handOver _ f))
  | graceExpiry n =>
    cases h
    split
    · exact .refl s
    · exact .ite (fun _ => .of_works (.graceEnd s n _)) (fun _ => .refl s)
  | gaspFollowExpiry n =>
    cases h
    split
    · exact .refl s
    · exact .ite (fun _ => .of_works (.returnUp s n _ _ _)) (fun _ => .refl s)
  | staleGaspWindowEnd n => cases h; exact .ite (fun _ => .of_works (.putTerm s n _)) (fun _ => .refl s)
  | quietExpiry n => cases h; exact .ite (fun _ => .of_works (.unmuteCommand s n _)) (fun _ => .refl s)
  | tapVerdict n => cases h; exact .ite (fun _ => .of_works (.tapVerdict s _)) (fun _ => .refl s)
  | parentDeadlineWait p => cases h; exact .ite (fun _ => .of_works (.waitForChildren s _)) (fun _ => .refl s)
  | riserVerdict n => cases h; exact .ite (fun _ => .of_works (.riserVerdict s _)) (fun _ => .refl s)
  | portVerdict n => cases h; exact .ite (fun _ => .of_works (.portVerdict s _)) (fun _ => .refl s)
  | zoneVerdict n => cases h; exact .ite (fun _ => .of_works (.zoneVerdict s _)) (fun _ => .refl s)
  | holdDownExpiry g => cases h; exact .ite (fun _ => .of_works (.holdDownEnd s g)) (fun _ => .refl s)
  | consumedIndexWrite tag =>
    cases h
    refine (Keeps.examine s tag).trans ?_
    split
    · exact .ite (fun _ => .takeWrite _ tag _ _ (fun s => .of_works (.handConsumed s _))) (fun _ => .refl _)
    all_goals exact .refl _
  | loadWindowWrite tag =>
    cases h
    refine .takeStep s tag _ _ (fun f s r => ?_)
    dsimp only
    refine Keeps.trans ?_ (.of_works (Keeps.handOver _ f))
    split
    · exact (Keeps.judgeWrite s r).trans (.captureWrite _ r)
    · exact .captureWrite s r
  | burstTimerExpiry =>
    cases h
    refine .ite (fun hc => ?_) (fun _ => .refl s)
    simp only [Bool.and_eq_true, beq_iff_eq] at hc
    have hm := hc.1.2
    have hg : s.ctl.mode.takesCommands = true := by rw [hm]; rfl
    exact ((Keeps.dropLoad s).trans (Keeps.putMode s.dropLoad _ (Keeps.modeGuard hg))).trans (.makeReport _ _)
  | setIntake tag => exact .command tag _ _ (fun s b _ _ _ => .carrySetIntake s b) h
  | clearIntake tag => exact .command tag _ _ (fun s b _ _ _ => .putRing s _ _) h
  | setWindows tag => exact .command tag _ _ (fun s b _ _ _ => .putSettings s _) h
  | setThresholds tag => exact .command tag _ _ (fun s b _ _ _ => .putSettings s _) h
  | setFlap tag => exact .command tag _ _ (fun s b _ _ _ => .putSettings s _) h
  | setStorm tag => exact .command tag _ _ (fun s b _ o _ => .carrySetStorm s b o) h
  | setReporting tag => exact .command tag _ _ (fun s b _ _ _ => .putSettings s _) h
  | arm tag => exact .command tag _ _ (fun s _ _ _ _ => .carryArm s) h
  | setSync tag => exact .command tag _ _ (fun s b _ _ _ => .putSettings s _) h
  | forceSync tag => exact .command tag _ _ (fun s _ _ o _ => .of_works (.makeSync s _ o)) h
  | mute tag => exact .command tag _ _ (fun s b _ o _ => .carryMute s b o) h
  | unmute tag => exact .command tag _ _ (fun s b _ o _ => .carryUnmute s b o) h
  | seed tag => exact .command tag _ _ (fun s b _ o _ => .carrySeed s b o) h
  | mapBegin tag => exact .command tag _ _ (fun s b _ _ hm => .carryMapBegin s b hm) h
  | mapEnd tag => exact .command tag _ _ (fun s b a _ hm => .carryMapEnd s b a hm) h
  | mapCheckEnd =>
    cases h
    split
    · next hu => exact .ite (fun _ => .setUnit s _ (fun _ => by rw [hu]; rfl)) (fun _ => .refl s)
    all_goals exact .refl s
  | mapEndCompletion =>
    cases h
    split
    · next hu => exact .ite (fun hr => .completeLoad s _ _ ⟨.inr (by rw [hu]; rfl), Keeps.mode_of_ready hr⟩) (fun _ => .refl s)
    · next hu => exact .ite (fun hr => .failLoad s _ _ ⟨.inr (by rw [hu]; rfl), Keeps.mode_of_ready hr⟩) (fun _ => .refl s)
    all_goals exact .refl s
  | mapAbort tag => exact .command tag _ _ (fun s _ _ _ hm => .carryMapAbort s hm) h
  | unmap tag => exact .command tag _ _ (fun s b a _ hm => .beginJob s _ a b hm) h
  | unmapClearing =>
    cases h
    split
    · next hu =>
      refine .ite (fun _ => ?_) (fun _ => .refl s)
      refine (Keeps.clearMap s).trans (.setUnit _ _ (fun _ => ?_))
      have : s.clearMap.cmd.unit = s.cmd.unit := by
        unfold State.clearMap
        have k := Keeps.markChanged
          (((({ s with map := none }.setRecords (s.table.terms.map Terminal.unmapped)).flushDeferred).emptyLines)) s
        rcases k.unit with e | ⟨e, _⟩
        · rw [e]; rfl
        · change s.cmd.unit = _ at e; rw [hu] at e; cases e
      rw [this, hu]; rfl
    all_goals exact .refl s
  | unmapCompletion =>
    cases h
    split
    · next hu => exact .ite (fun hr => .completeUnmap s _ ⟨.inr (by rw [hu]; rfl), Keeps.mode_of_ready hr⟩) (fun _ => .refl s)
    all_goals exact .refl s
  | restart tag => exact .command tag _ _ (fun s b a _ hm => .carryRestart s b a hm) h
  | restartClearing =>
    cases h
    split
    · next hu =>
      refine .ite (fun _ => ?_) (fun _ => .refl s)
      refine (Keeps.clearRecords s).trans (.setUnit _ _ (fun _ => ?_))
      have : s.clearRecords.cmd.unit = s.cmd.unit := by
        unfold State.clearRecords
        split
        · rw [markAll_cmd]; rfl
        · rfl
      rw [this, hu]; rfl
    all_goals exact .refl s
  | restartCompletion =>
    cases h
    split
    · exact .ite (fun _ => .completeRestart s _) (fun _ => .refl s)
    all_goals exact .refl s
  | dropAction tag => exact .command tag _ _ (fun s b _ _ _ => .carryDropAction s b) h
  | queueFlush tag => exact .command tag _ _ (fun s _ _ o _ => .carryQueueFlush s o) h
  | badKind tag =>
    cases h
    exact .takeStep s tag _ _ (fun _ s r => .unlessSlotBusy s _ _ _ (.refuse s _ _ _))
  | atTimeReached => cases h; exact .ite (fun _ => .of_works (.watch s _)) (fun _ => .refl s)
  | linePinChange l level =>
    cases h
    refine .ite (fun _ => .refl s) (fun _ => .ite (fun _ => ?_) (fun _ => ?_))
    · exact .setLine s l _ (List.prefix_refl _)
    · exact .setLine s l _ (List.prefix_refl _)
  | debounceExpiry l => cases h; exact .ite (fun _ => .debounceEnd s l) (fun _ => .refl s)
  | deferredEntryRun =>
    cases h
    split
    · next hd => exact .ite (fun _ => .runHead s _ _ hd) (fun _ => .refl s)
    all_goals exact .refl s
  | lineActionRun l =>
    cases h
    split
    · exact .ite (fun _ => .runLine s l) (fun _ => .refl s)
    all_goals exact .refl s

end Sys2Proof.Machine
end

