-- ==== Sys2Proof/Laws/Settle.lean ====
section
/-! SUPPORT. The movement in the path unit comes to rest: after `flow` from a sound path no move is left. -/

namespace Sys2Proof.Machine

/-- The front of a lane is still to be classified, or to be examined afresh. -/
def Lane.restless (l : Lane) : Bool :=
  match l.outcome with
  | none => true
  | some (_, v) => v == .mirrorCheck .again

/-- Requests of a lane, and one more for a restless front. -/
def Lane.weight (l : Lane) : Nat := l.reqs.length + if l.reqs.isEmpty then 0 else if l.restless then 1 else 0

/-- A held read that may leave can make 32 fronts restless. -/
def HeldRead.weight (h : HeldRead) : Nat := if h.awaits.isEmpty then 34 else 0

/-- What every move makes smaller. -/
def State.weight (s : State) : Nat := (s.path.lanes.toList.map Lane.weight).sum + (s.path.held.map HeldRead.weight).sum

theorem sum_set {α : Type} (f : α → Nat) (l : List α) (i : Nat) (x : α) (h : i < l.length) :
    ((l.set i x).map f).sum + f l[i] = (l.map f).sum + f x := by
  induction l generalizing i with
  | nil => cases h
  | cons a l ih =>
    cases i with
    | zero => simp; omega
    | succ i =>
      have := ih i (by simpa using h)
      simp only [List.set_cons_succ, List.map_cons, List.sum_cons, List.getElem_cons_succ]
      omega

theorem sum_le {α : Type} (f : α → Nat) (n : Nat) (l : List α) (h : ∀ a ∈ l, f a ≤ n) : (l.map f).sum ≤ l.length * n := by
  induction l with
  | nil => simp
  | cons a l ih =>
    have h1 := h a (by simp)
    have h2 := ih (fun b hb => h b (by simp [hb]))
    simp only [List.map_cons, List.sum_cons, List.length_cons, Nat.add_mul, Nat.one_mul]
    omega

theorem weight_setLane (s : State) (t : Tag) (l : Lane) :
    (s.setLane t l).weight + (s.lane t).weight = s.weight + l.weight := by
  have h : t.val < s.path.lanes.toList.length := by simp
  have k := sum_set Lane.weight s.path.lanes.toList t.val l h
  have e : s.path.lanes.toList[t.val] = s.lane t := by simp [State.lane]
  unfold State.weight
  rw [setLane_path]
  simp only [Vector.toList_set]
  rw [e] at k
  omega

theorem weight_enterPass (s : State) (r : Request) (b : Bool) : (s.enterPass r b).weight = s.weight := rfl

theorem weight_le (s : State) (h : s.pathSound) : s.weight ≤ flowMoves := by
  have h1 : (s.path.lanes.toList.map Lane.weight).sum ≤ s.path.lanes.toList.length * 5 := by
    refine sum_le _ _ _ (fun l hl => ?_)
    obtain ⟨i, hi, e⟩ := List.getElem_of_mem hl
    have hi' : i < 32 := by simpa using hi
    have := h.1 ⟨i, hi'⟩
    have e' : s.lane ⟨i, hi'⟩ = l := by rw [← e]; simp [State.lane]
    rw [e'] at this
    simp only [Config.laneDepth] at this
    unfold Lane.weight
    split
    · omega
    · split <;> omega
  have h2 := h.2.1
  have h3 : (s.path.held.map HeldRead.weight).sum ≤ s.path.held.length * 34 :=
    sum_le _ _ _ (fun g _ => by unfold HeldRead.weight; split <;> omega)
  simp only [Vector.length_toList] at h1
  simp only [Config.heldReads] at h2
  unfold State.weight flowMoves
  omega

theorem lane_weight_le (l : Lane) : l.weight ≤ l.reqs.length + 1 := by
  unfold Lane.weight
  split
  · omega
  · split <;> omega

/-- A restless lane that is not empty. -/
theorem lane_weight_restless {l : Lane} {r : Request} {rest : List Request} (hr : l.reqs = r :: rest) (h : l.restless = true) :
    l.weight = rest.length + 2 := by
  unfold Lane.weight; rw [hr, h]; simp

/-- The front of a restless lane leaves it, or waits with an outcome that is not restless. -/
theorem weight_popLane {s : State} {t : Tag} {r : Request} {rest : List Request} (hr : (s.lane t).reqs = r :: rest)
    (h : (s.lane t).restless = true) : (s.popLane t).weight < s.weight := by
  have k := weight_setLane s t { reqs := (s.lane t).reqs.tail, outcome := none }
  have hw := lane_weight_restless hr h
  have : Lane.weight { reqs := (s.lane t).reqs.tail, outcome := none } ≤ rest.length + 1 := by
    rw [hr]; exact lane_weight_le _
  unfold State.popLane
  omega

theorem weight_wait {s : State} {t : Tag} {r : Request} {rest : List Request} {l : Lane} (hr : (s.lane t).reqs = r :: rest)
    (h : (s.lane t).restless = true) (hl : l.reqs = r :: rest) (hn : l.restless = false) :
    (s.setLane t l).weight < s.weight := by
  have k := weight_setLane s t l
  have hw := lane_weight_restless hr h
  have : l.weight = rest.length + 1 := by unfold Lane.weight; rw [hl, hn]; simp
  omega

theorem weight_present (s : State) (t : Tag) (h : s.presentable t = true) : (s.present t).weight < s.weight := by
  unfold State.presentable at h
  unfold State.present
  split at h
  · next r rest hr ho =>
    rw [hr]
    dsimp only
    have hs : (s.lane t).restless = true := by unfold Lane.restless; rw [ho]
    split
    · rw [weight_enterPass]; exact weight_popLane hr hs
    · next v hv =>
      refine weight_wait hr hs rfl ?_
      unfold Lane.restless State.verdict StepFor.verdict
      dsimp only
      repeat' split
      all_goals rfl
  · cases h
  · cases h

theorem weight_passRead {s : State} {t : Tag} {r : Request} {rest : List Request} (hr : (s.lane t).reqs = r :: rest)
    (h : (s.lane t).restless = true) : (s.passRead t r).weight < s.weight := by
  unfold State.passRead
  split
  · exact weight_wait hr h hr rfl
  · rw [weight_enterPass]; exact weight_popLane hr h

theorem weight_enterHeld (s : State) (h : HeldRead) (ha : h.awaits ≠ []) : (s.enterHeld h).weight = s.weight := by
  unfold State.weight State.enterHeld
  have : h.weight = 0 := by unfold HeldRead.weight; simp [ha]
  simp [this]

theorem weight_examineRead {s : State} {t : Tag} {r : Request} {rest : List Request} (hr : (s.lane t).reqs = r :: rest)
    (h : (s.lane t).restless = true) : (s.examineRead t r).weight < s.weight := by
  unfold State.examineRead
  split
  · exact weight_passRead hr h
  · next ha =>
    split
    · rw [weight_enterHeld _ _ (by simpa using ha)]; exact weight_popLane hr h
    · exact weight_wait hr h hr rfl

theorem weight_recheck (s : State) (t : Tag) (h : s.recheckable t = true) : (s.recheck t).weight < s.weight := by
  unfold State.recheckable at h
  split at h
  · next r rest m v hr ho =>
    have hs : (s.lane t).restless = true := by unfold Lane.restless; rw [ho]; exact h
    unfold State.recheck
    rw [hr]
    dsimp only
    split
    · exact weight_examineRead hr hs
    · exact weight_passRead hr hs
  · cases h
  · cases h

theorem reqs_afterLeaving (b : Bool) (l : Lane) : (l.afterLeaving b).reqs = l.reqs := by
  unfold Lane.afterLeaving; split <;> rfl

/-- A read that leaves the list makes each of the 32 fronts restless at most once. -/
theorem weight_readLeft (s : State) : s.readLeft.weight ≤ s.weight + 32 := by
  have key : ∀ t : Tag, ((s.lane t).afterLeaving (s.tagHeld t)).weight ≤ (s.lane t).weight + 1 := by
    intro t
    refine Nat.le_trans (lane_weight_le _) ?_
    rw [reqs_afterLeaving]
    unfold Lane.weight
    omega
  have hsum : ∀ (l : List (Tag)) (f g : Tag → Lane), (∀ t, (f t).weight ≤ (g t).weight + 1) →
      ((l.map f).map Lane.weight).sum ≤ ((l.map g).map Lane.weight).sum + l.length := by
    intro l f g hf
    induction l with
    | nil => simp
    | cons a l ih =>
      have := hf a
      simp only [List.map_cons, List.sum_cons, List.length_cons]
      omega
  have e1 : s.readLeft.path.lanes.toList = (List.finRange 32).map (fun t => (s.lane t).afterLeaving (s.tagHeld t)) := by
    unfold State.readLeft
    exact Vector.toList_ofFn.trans (List.ofFn_eq_map ..)
  have e2 : s.path.lanes.toList = (List.finRange 32).map s.lane := by
    apply List.ext_getElem
    · simp
    · intro i h1 h2
      simp [State.lane]
  have := hsum (List.finRange 32) (fun t => (s.lane t).afterLeaving (s.tagHeld t)) s.lane key
  unfold State.weight
  have eh : s.readLeft.path.held = s.path.held := by unfold State.readLeft; rfl
  rw [eh, e1, e2]
  rw [List.length_finRange] at this
  omega

theorem weight_release1 (s : State) (i : Nat) (h : s.releasable i = true) : (s.release1 i).weight < s.weight := by
  unfold State.releasable at h
  unfold State.release1
  split
  · next hn => rw [hn] at h; cases h
  · next g hg =>
    rw [hg] at h
    simp only [Bool.and_eq_true] at h
    have hi : i < s.path.held.length := (List.getElem?_eq_some_iff.mp hg).1
    have he := (List.getElem?_eq_some_iff.mp hg).2
    have hw : State.weight { s with path := { s.path with held := s.path.held.eraseIdx i } } + 34 = s.weight := by
      unfold State.weight
      dsimp only
      have hl : s.path.held = s.path.held.take i ++ g :: s.path.held.drop (i + 1) := by
        rw [← he, ← List.drop_eq_getElem_cons hi, List.take_append_drop]
      have hg34 : g.weight = 34 := by unfold HeldRead.weight; rw [if_pos h.1]
      rw [List.eraseIdx_eq_take_drop_succ]
      conv => rhs; rw [hl]
      simp only [List.map_append, List.map_cons, List.sum_append, List.sum_cons, hg34]
      omega
    have hp := weight_enterPass { s with path := { s.path with held := s.path.held.eraseIdx i } } g.req false
    have hq := weight_readLeft (State.enterPass { s with path := { s.path with held := s.path.held.eraseIdx i } } g.req false)
    exact Nat.lt_of_le_of_lt hq (by omega)

theorem weight_move (s : State) (m : Move) (h : m ∈ s.moves) : (s.move m).weight < s.weight := by
  unfold State.moves at h
  simp only [List.mem_append, List.mem_map, List.mem_filter] at h
  rcases h with ⟨t, ht, rfl⟩ | ⟨t, ht, rfl⟩ | ⟨i, hi, rfl⟩
  · exact weight_present s t ht.2
  · exact weight_recheck s t ht.2
  · exact weight_release1 s i hi.2

/-- What every move keeps or makes, the free choice among them does too. -/
theorem pickMove_of {P Q : State → Prop} (hn : ∀ s n, P s → P { s with path := { s.path with picks := n } })
    (hm : ∀ s m, P s → m ∈ s.moves → Q (s.move m)) (s : State) (h : P s) (hs : s.moves ≠ []) : Q s.pickMove := by
  unfold State.pickMove
  split
  · next h0 => exact absurd h0 hs
  · next m hk => exact hm s m h (by rw [hk]; simp)
  · next m ms _ hk =>
    refine hm { s with path := { s.path with picks := s.path.picks + 1 } } _ (hn s _ h) ?_
    show _ ∈ s.moves
    rw [hk]
    generalize Config.freePick s.path.picks % (ms.length + 1) = k
    rw [List.getD_eq_getElem?_getD]
    cases hk : (m :: ms)[k]? with
    | none => simp
    | some x => exact List.mem_of_getElem? hk

theorem weight_pickMove (s : State) (h : s.moves ≠ []) : s.pickMove.weight < s.weight :=
  pickMove_of (P := fun u => u.weight = s.weight) (Q := fun u => u.weight < s.weight) (fun _ _ h => h) (fun u m hu hm => hu ▸ weight_move u m hm) s rfl h

theorem moves_flowN (n : Nat) (s : State) (h : s.weight ≤ n) : (State.flowN n s).moves = [] := by
  induction n generalizing s with
  | zero =>
    by_cases hm : s.moves = []
    · exact hm
    · have := weight_pickMove s hm; omega
  | succ n ih =>
    unfold State.flowN
    split
    · next hm => exact List.isEmpty_iff.mp hm
    · next hm =>
      have hm' : s.moves ≠ [] := fun e => hm (by rw [e]; rfl)
      have := weight_pickMove s hm'
      exact ih _ (by omega)

/-- After the movement no move is left. -/
theorem flow_settles (s : State) (h : s.pathSound) : s.flow.moves = [] := moves_flowN _ s (weight_le s h)

theorem flow_of_settled (s : State) (h : s.moves = []) : s.flow = s := by
  unfold State.flow flowMoves State.flowN
  rw [h]; rfl

/-- Where nothing can move, no front is to be classified or examined afresh and no held read may leave. -/
theorem settled_iff (s : State) : s.moves = [] ↔
    (∀ t : Tag, s.presentable t = false) ∧ (∀ t : Tag, s.recheckable t = false) ∧
      ∀ i < s.path.held.length, s.releasable i = false := by
  unfold State.moves
  rw [List.append_eq_nil_iff, List.append_eq_nil_iff, List.map_eq_nil_iff, List.map_eq_nil_iff, List.map_eq_nil_iff,
    List.filter_eq_nil_iff, List.filter_eq_nil_iff, List.filter_eq_nil_iff]
  constructor
  · rintro ⟨h1, h3, h2⟩
    exact ⟨fun t => by simpa using h1 t (List.mem_finRange t), fun t => by simpa using h3 t (List.mem_finRange t),
      fun i hi => by simpa using h2 i (List.mem_range.mpr hi)⟩
  · rintro ⟨h1, h3, h2⟩
    exact ⟨fun t _ => by rw [h1 t]; decide, fun t _ => by rw [h3 t]; decide,
      fun i hi => by rw [h2 i (List.mem_range.mp hi)]; decide⟩

/-- What every move keeps, the movement keeps. -/
theorem flow_of {P : State → Prop} (hn : ∀ s n, P s → P { s with path := { s.path with picks := n } })
    (hm : ∀ s m, P s → m ∈ s.moves → P (s.move m)) (s : State) (h : P s) : P s.flow := by
  have : ∀ n s, P s → P (State.flowN n s) := by
    intro n
    induction n with
    | zero => exact fun s h => h
    | succ n ih =>
      intro s h
      unfold State.flowN
      split
      · exact h
      · next he => exact ih _ (pickMove_of hn hm s h (fun e => he (by rw [e]; rfl)))
  exact this _ s h

end Sys2Proof.Machine
end

