-- ==== Sys2Proof/Laws/Commands.lean ====
section
/-! SUPPORT. How a slot command row takes its slot write: the tests of TABLE 10-2 one by one, and what a command carried
out leaves. -/

namespace Sys2Proof.Machine

/-- What carrying out a command of each kind does. -/
def carryOf (k : Kind) (s : State) (b : List Byte) (addr : Addr) (o : Origin) : State × Result :=
  match k with
  | .setIntake => s.carrySetIntake b
  | .clearIntake => s.carryClearIntake b
  | .setWindows => s.carrySetWindows b
  | .setThresholds => s.carrySetThresholds b
  | .setFlap => s.carrySetFlap b
  | .setStorm => s.carrySetStorm b o
  | .setReporting => s.carrySetReporting b
  | .arm => s.carryArm
  | .setSync => s.carrySetSync b
  | .forceSync => s.carryForceSync o
  | .mute => s.carryMute b o
  | .unmute => s.carryUnmute b o
  | .seed => s.carrySeed b o
  | .mapBegin => s.carryMapBegin b
  | .mapEnd => s.carryMapEnd b addr
  | .mapAbort => s.carryMapAbort
  | .unmap => s.carryUnmap b addr
  | .restart => s.carryRestart b addr
  | .dropAction => s.carryDropAction b
  | .queueFlush => s.carryQueueFlush o

theorem exec_slotRow (tag : Tag) (k : Kind) (s : State) :
    exec (slotRow tag k) s = .next (s.takeCommand tag k (carryOf k)) := by cases k <;> rfl

theorem slot_fits {r : Request} {f : StepFor} {k : Kind} (hc : f.command = true) (hk : slotKind r.bytes = some k) :
    fitsCommand k f r = true := by unfold fitsCommand; rw [hc, hk]; simp

/-- A slot write taken: what is judged is all that happens beside the path. -/
theorem takeCommand_took {s : State} {tag : Tag} {r : Request} {f : StepFor} {k : Kind}
    {carry : State → List Byte → Addr → Origin → State × Result} (h : s.Admitted tag r f) (hc : f.command = true)
    (hk : slotKind r.bytes = some k) {u : State}
    (hu : (s.popLane tag).judge k (fun s => carry s r.bytes r.addr (commandOrigin .command r.bytes)) r.addr r.bytes =
      u.withPath (s.popLane tag).path) (hp : u.path = s.path) :
    Took (s.takeCommand tag k carry) u tag r := by
  have e := takeStep_took (fits := fitsCommand k)
    (act := fun _ s r => (s.judge k (fun s => carry s r.bytes r.addr (commandOrigin .command r.bytes)) r.addr r.bytes, r))
    h (slot_fits hc hk) (by dsimp only; rw [hu]; rfl)
  dsimp only at e
  rw [hu, show (u.withPath (s.popLane tag).path).withPath s.path = u by rw [← hp]; rfl] at e
  exact e

/-- The judgment of a slot write in a free slot of an IDLE unit is that of tests 4 to 9. -/
theorem judge_of_idle {s : State} {k : Kind} {carry : State → State × Result} {addr : Addr} {b : List Byte}
    (hp : s.progress addr = none) (hu : s.cmd.unit = .idle) : s.judge k carry addr b = s.judgePlaced k carry addr b := by
  unfold State.judge State.unlessSlotBusy
  rw [hp, hu]; rfl

/-- A NOW command carried out with result data (R166). -/
theorem judgePlaced_done {s : State} {k : Kind} {carry : State → State × Result} {addr : Addr} {b : List Byte} {u : State}
    {data : Nat} (hpl : slotPlacement b = some .now) (hm : k.inMode s.ctl.mode = true)
    (hpar : paramsOk k s.ctl.mode b = true) (hc : carry s = (u, .done data)) :
    s.judgePlaced k carry addr b = u.writeBack addr b .done .done false data := by
  unfold State.judgePlaced
  rw [hpl]
  simp only [hm, hpar, Bool.not_true, Bool.false_eq_true, if_false]
  unfold State.carryNow
  rw [hc]

/-- A NOW command refused under test 8 (R163). -/
theorem judgePlaced_refused {s : State} {k : Kind} {carry : State → State × Result} {addr : Addr} {b : List Byte}
    {u : State} {c : Code} (hpl : slotPlacement b = some .now) (hm : k.inMode s.ctl.mode = true)
    (hpar : paramsOk k s.ctl.mode b = true) (hc : carry s = (u, .refused c)) :
    s.judgePlaced k carry addr b = s.refuse addr b c := by
  unfold State.judgePlaced
  rw [hpl]
  simp only [hm, hpar, Bool.not_true, Bool.false_eq_true, if_false]
  unfold State.carryNow
  rw [hc]

/-- A NOW command begun, with no write-back yet (R162). -/
theorem judgePlaced_begun {s : State} {k : Kind} {carry : State → State × Result} {addr : Addr} {b : List Byte}
    {u : State} (hpl : slotPlacement b = some .now) (hm : k.inMode s.ctl.mode = true)
    (hpar : paramsOk k s.ctl.mode b = true) (hc : carry s = (u, .begun)) : s.judgePlaced k carry addr b = u := by
  unfold State.judgePlaced
  rw [hpl]
  simp only [hm, hpar, Bool.not_true, Bool.false_eq_true, if_false]
  unfold State.carryNow
  rw [hc]

/-- A NOW command whose front is in place and that is carried out with result data: the row's next state. -/
theorem exec_now_done {s : State} {tag : Tag} {r : Request} {f : StepFor} {k : Kind} (h : s.NowWrite tag r f k) {u : State}
    {data : Nat} (hc : carryOf k (s.popLane tag) r.bytes r.addr (commandOrigin .command r.bytes) =
      (u.withPath (s.popLane tag).path, .done data)) (hp : u.path = s.path) :
    ∃ t, exec (slotRow tag k) s = .next t ∧
      Took t (u.enqueue (.writeBack r.addr (writeBackBytes r.bytes .done .done false data))) tag r := by
  refine ⟨_, exec_slotRow tag k s, ?_⟩
  obtain ⟨⟨ha, hcm, hk, hpr, hun⟩, hpl, hm, hpar⟩ := h
  refine takeCommand_took ha hcm hk (u := u.enqueue _) ?_ hp
  rw [judge_of_idle (s := s.popLane tag) hpr hun, judgePlaced_done (s := s.popLane tag) hpl hm hpar hc]
  rfl

/-- A NOW command whose front is in place and that is refused under test 8: the row's next state. -/
theorem exec_now_refused {s : State} {tag : Tag} {r : Request} {f : StepFor} {k : Kind} (h : s.NowWrite tag r f k)
    {u : State} {c : Code} (hc : carryOf k (s.popLane tag) r.bytes r.addr (commandOrigin .command r.bytes) =
      (u, .refused c)) :
    ∃ t, exec (slotRow tag k) s = .next t ∧
      Took t (s.enqueue (.writeBack r.addr (writeBackBytes r.bytes .refused c false 0))) tag r := by
  refine ⟨_, exec_slotRow tag k s, ?_⟩
  obtain ⟨⟨ha, hcm, hk, hpr, hun⟩, hpl, hm, hpar⟩ := h
  refine takeCommand_took ha hcm hk (u := s.enqueue _) ?_ rfl
  rw [judge_of_idle (s := s.popLane tag) hpr hun, judgePlaced_refused (s := s.popLane tag) hpl hm hpar hc]
  rfl

/-- A NOW command whose front is in place and that begins: the row's next state. -/
theorem exec_now_begun {s : State} {tag : Tag} {r : Request} {f : StepFor} {k : Kind} (h : s.NowWrite tag r f k)
    {u : State} (hc : carryOf k (s.popLane tag) r.bytes r.addr (commandOrigin .command r.bytes) =
      (u.withPath (s.popLane tag).path, .begun)) (hp : u.path = s.path) :
    ∃ t, exec (slotRow tag k) s = .next t ∧ Took t u tag r := by
  refine ⟨_, exec_slotRow tag k s, ?_⟩
  obtain ⟨⟨ha, hcm, hk, hpr, hun⟩, hpl, hm, hpar⟩ := h
  refine takeCommand_took ha hcm hk (u := u) ?_ hp
  rw [judge_of_idle (s := s.popLane tag) hpr hun, judgePlaced_begun (s := s.popLane tag) hpl hm hpar hc]

end Sys2Proof.Machine
end

