-- ==== Sys2Proof/Laws/Paths.lean ====
section
/-! SUPPORT. Nothing the engine does reads or writes the path unit: what each operation does on a state with another path is
what it does on the state, with that path. One lemma for each view and each operation. -/

namespace Sys2Proof.Machine

variable (s : State) (p : Path)

/-! ## Views -/

@[simp] theorem term_withPath (n : Fin 1024) : (s.withPath p).term n = s.term n := rfl
@[simp] theorem group_withPath (g : GroupId) : (s.withPath p).group g = s.group g := rfl
@[simp] theorem tally_withPath (q : Fin 16) : (s.withPath p).tally q = s.tally q := rfl
@[simp] theorem ring_withPath (q : Fin 16) : (s.withPath p).ring q = s.ring q := rfl
@[simp] theorem faultMark_withPath (q : Fin 16) : (s.withPath p).faultMark q = s.faultMark q := rfl
@[simp] theorem line_withPath (l : Line) : (s.withPath p).line l = s.line l := rfl
@[simp] theorem settings_withPath : (s.withPath p).settings = s.settings := rfl
@[simp] theorem entries_withPath : (s.withPath p).entries = s.entries := rfl
@[simp] theorem entry_withPath (n : Fin 1024) : (s.withPath p).entry? n = s.entry? n := rfl
@[simp] theorem terminalOf_withPath (q : Fin 16) (k : Nat) : (s.withPath p).terminalOf q k = s.terminalOf q k := rfl
@[simp] theorem portMapped_withPath (q : Fin 16) : (s.withPath p).portMapped q = s.portMapped q := rfl
@[simp] theorem parent_withPath (g : GroupId) : (s.withPath p).parent? g = s.parent? g := rfl
@[simp] theorem termMembers_withPath (g : GroupId) : (s.withPath p).termMembers g = s.termMembers g := rfl
@[simp] theorem children_withPath (g : GroupId) : (s.withPath p).children g = s.children g := rfl
@[simp] theorem buildingDown_withPath : (s.withPath p).buildingDown = s.buildingDown := rfl
@[simp] theorem stateCounts_withPath : (s.withPath p).stateCounts = s.stateCounts := rfl
@[simp] theorem members_withPath (g : GroupId) : (s.withPath p).members g = s.members g := rfl
@[simp] theorem down_withPath (g : GroupId) : (s.withPath p).down g = s.down g := rfl
@[simp] theorem eligible_withPath (g : GroupId) : (s.withPath p).eligible g = s.eligible g := rfl
@[simp] theorem raiseCondition_withPath (g : GroupId) : (s.withPath p).raiseCondition g = s.raiseCondition g := rfl
@[simp] theorem clearingCondition_withPath (g : GroupId) : (s.withPath p).clearingCondition g = s.clearingCondition g := rfl
@[simp] theorem childGathering_withPath (g : GroupId) : (s.withPath p).childGathering g = s.childGathering g := rfl
@[simp] theorem freeSlots_withPath : (s.withPath p).freeSlots = s.freeSlots := rfl
@[simp] theorem reportOf_withPath (d : Draft) : (s.withPath p).reportOf d = s.reportOf d := rfl
@[simp] theorem slotAddr_withPath (a : Anchor) : (s.withPath p).slotAddr a = s.slotAddr a := rfl
@[simp] theorem correlating_withPath : (s.withPath p).correlating = s.correlating := rfl
@[simp] theorem syncPayload_withPath (f : SyncFlags) : (s.withPath p).syncPayload f = s.syncPayload f := rfl
@[simp] theorem brownoutReported_withPath : (s.withPath p).brownoutReported = s.brownoutReported := rfl
@[simp] theorem stormDraft_withPath (b : Bool) (o : Origin) : (s.withPath p).stormDraft b o = s.stormDraft b o := rfl
@[simp] theorem raisedDraft_withPath (g : GroupId) (c : RaiseCause) (b : Bool) (o : Origin) : (s.withPath p).raisedDraft g c b o = s.raisedDraft g c b o := rfl
@[simp] theorem parentState_withPath (g : GroupId) : (s.withPath p).parentState g = s.parentState g := rfl
@[simp] theorem downRecord_withPath (t : Terminal) (b : Bool) (st : TState) (d : Option Time) : (s.withPath p).downRecord t b st d = s.downRecord t b st d := rfl
@[simp] theorem moveTo_withPath (t : Terminal) (st : TState) (d : Option Time) : (s.withPath p).moveTo t st d = s.moveTo t st d := rfl
@[simp] theorem muteTerm_withPath (t : Terminal) : (s.withPath p).muteTerm t = s.muteTerm t := rfl
@[simp] theorem quietEnd_withPath : (s.withPath p).quietEnd = s.quietEnd := rfl
@[simp] theorem followEnd_withPath : (s.withPath p).followEnd = s.followEnd := rfl
@[simp] theorem offDisp_withPath (b : Bool) (t : Terminal) : (s.withPath p).offDisp b t = s.offDisp b t := rfl
@[simp] theorem repeatGasp_withPath (t : Terminal) (b : Byte) : (s.withPath p).repeatGasp t b = s.repeatGasp t b := rfl
@[simp] theorem portOf_withPath (r : Request) : (s.withPath p).portOf r = s.portOf r := rfl
@[simp] theorem progress_withPath (a : Addr) : (s.withPath p).progress a = s.progress a := rfl
@[simp] theorem progressSlot_withPath (a : Addr) : (s.withPath p).progressSlot a = s.progressSlot a := rfl
@[simp] theorem stragglers_withPath (g : GroupId) : (s.withPath p).stragglers g = s.stragglers g := rfl
@[simp] theorem coveredChildren_withPath (g : GroupId) : (s.withPath p).coveredChildren g = s.coveredChildren g := rfl
@[simp] theorem releases_withPath (n v : Nat) : (s.withPath p).releases n v = s.releases n v := rfl
@[simp] theorem burstEnd_withPath : (s.withPath p).burstEnd = s.burstEnd := rfl
@[simp] theorem expiryReady_withPath : (s.withPath p).expiryReady = s.expiryReady := rfl
@[simp] theorem takenAreas_withPath (q : Fin 16) : (s.withPath p).takenAreas q = s.takenAreas q := rfl
@[simp] theorem lineDeferred_withPath (l : Line) : (s.withPath p).lineDeferred l = s.lineDeferred l := rfl
@[simp] theorem triggerInUse_withPath (t : Trigger) : (s.withPath p).triggerInUse t = s.triggerInUse t := rfl
@[simp] theorem headGaspDraft_withPath : (s.withPath p).headGaspDraft = s.headGaspDraft := rfl
@[simp] theorem latestChild_withPath (g : GroupId) : (s.withPath p).latestChild g = s.latestChild g := rfl
@[simp] theorem verdictDue_withPath (g : GroupId) : (s.withPath p).verdictDue g = s.verdictDue g := rfl

/-! ## Updates -/

theorem ite_withPath {c : Prop} [Decidable c] (a b : State) :
    (if c then a else b).withPath p = if c then a.withPath p else b.withPath p := by split <;> rfl

theorem ite_eq {c : Prop} [h1 : Decidable c] [h2 : Decidable c] {a b x y : State} (h : a = x) (k : b = y) :
    @ite State c h1 a b = @ite State c h2 x y := by
  subst h; subst k
  congr

/-- Where an operation commutes with a change of the path, so does its repetition. -/
theorem foldl_withPath {α : Type} (f : State → α → State) (h : ∀ s a, f (s.withPath p) a = (f s a).withPath p)
    (l : List α) (s : State) : l.foldl f (s.withPath p) = (l.foldl f s).withPath p := by
  induction l generalizing s with
  | nil => rfl
  | cons a l ih => rw [List.foldl_cons, List.foldl_cons, h, ih]

@[simp] theorem setTerm_withPath (n : Fin 1024) (t : Terminal) : (s.withPath p).setTerm n t = (s.setTerm n t).withPath p := rfl
@[simp] theorem setGroup_withPath (g : GroupId) (x : Group) : (s.withPath p).setGroup g x = (s.setGroup g x).withPath p := rfl
@[simp] theorem setTally_withPath (q : Fin 16) (t : Tally) : (s.withPath p).setTally q t = (s.setTally q t).withPath p := rfl
@[simp] theorem setFaultMark_withPath (q : Fin 16) (b : Bool) : (s.withPath p).setFaultMark q b = (s.setFaultMark q b).withPath p := rfl
@[simp] theorem setMode_withPath (m : Mode) : (s.withPath p).setMode m = (s.setMode m).withPath p := rfl
@[simp] theorem setUnit_withPath (u : UnitState) : (s.withPath p).setUnit u = (s.setUnit u).withPath p := rfl
@[simp] theorem mark_withPath (i : Nat) : (s.withPath p).mark i = (s.mark i).withPath p := rfl
@[simp] theorem markSummary_withPath : (s.withPath p).markSummary = (s.markSummary).withPath p := rfl
@[simp] theorem markTally_withPath (q : Fin 16) : (s.withPath p).markTally q = (s.markTally q).withPath p := rfl
@[simp] theorem markAll_withPath : (s.withPath p).markAll = (s.markAll).withPath p := rfl
@[simp] theorem enqueue_withPath (w : OwnWrite) : (s.withPath p).enqueue w = (s.enqueue w).withPath p := rfl
@[simp] theorem bumpSync_withPath : (s.withPath p).bumpSync = (s.bumpSync).withPath p := rfl
@[simp] theorem dropStartMark_withPath : (s.withPath p).dropStartMark = (s.dropStartMark).withPath p := rfl
@[simp] theorem stopBurst_withPath : (s.withPath p).stopBurst = (s.stopBurst).withPath p := rfl
@[simp] theorem dropLoad_withPath : (s.withPath p).dropLoad = (s.dropLoad).withPath p := rfl
@[simp] theorem setDeferred_withPath (q : List DeferredEntry) : (s.withPath p).setDeferred q = (s.setDeferred q).withPath p := rfl
@[simp] theorem takeDue_withPath : (s.withPath p).takeDue = (s.takeDue).withPath p := rfl
@[simp] theorem flushDeferred_withPath : (s.withPath p).flushDeferred = (s.flushDeferred).withPath p := rfl
@[simp] theorem emptyLines_withPath : (s.withPath p).emptyLines = (s.emptyLines).withPath p := rfl
@[simp] theorem appendDue_withPath (a : DueAction) : (s.withPath p).appendDue a = (s.appendDue a).withPath p := rfl
@[simp] theorem writeBack_withPath (a : Addr) (b : List Byte) (st : SlotState) (c : Code) (o : Bool) (d : Nat) : (s.withPath p).writeBack a b st c o d = (s.writeBack a b st c o d).withPath p := rfl
@[simp] theorem refuse_withPath (a : Addr) (b : List Byte) (c : Code) : (s.withPath p).refuse a b c = (s.refuse a b c).withPath p := rfl
@[simp] theorem acknowledge_withPath (t : Tag) (w : AckWord) : (s.withPath p).acknowledge t w = (s.acknowledge t w).withPath p := rfl
@[simp] theorem endProgress_withPath (a : Addr) : (s.withPath p).endProgress a = (s.endProgress a).withPath p := rfl
@[simp] theorem putSettings_withPath (c : Settings) : (s.withPath p).putSettings c = (s.putSettings c).withPath p := rfl
@[simp] theorem markOverwritten_withPath (a : Addr) : (s.withPath p).markOverwritten a = (s.markOverwritten a).withPath p := rfl
@[simp] theorem activate_withPath (m : BuildingMap) : (s.withPath p).activate m = (s.activate m).withPath p := rfl
@[simp] theorem beginJob_withPath (j : Job) (a : Addr) (b : List Byte) : (s.withPath p).beginJob j a b = (s.beginJob j a b).withPath p := rfl
@[simp] theorem leaveBusy_withPath : (s.withPath p).leaveBusy = (s.leaveBusy).withPath p := rfl
@[simp] theorem setRecords_withPath (t : Vector Terminal 1024) : (s.withPath p).setRecords t = (s.setRecords t).withPath p := rfl

@[simp] theorem setLine_withPath (l : Line) (u : LineUnit) :
    (s.withPath p).setLine l u = (s.setLine l u).withPath p := by
  cases l <;> rfl

@[simp] theorem markIf_withPath (b : Bool) (i : Nat) :
    (s.withPath p).markIf b i = (s.markIf b i).withPath p := by
  unfold State.markIf
  first | (simp; done) | simp [ite_withPath] | (simp only [ite_withPath]; simp; done) | rfl

@[simp] theorem markMeasures_withPath (n : Fin 1024) (a b : TState) :
    (s.withPath p).markMeasures n a b = (s.markMeasures n a b).withPath p := by
  unfold State.markMeasures
  rw [entry_withPath]
  cases s.entry? n <;> simp

@[simp] theorem putTerm_withPath (n : Fin 1024) (t : Terminal) :
    (s.withPath p).putTerm n t = (s.putTerm n t).withPath p := by
  unfold State.putTerm
  first | (simp; done) | simp [ite_withPath] | (simp only [ite_withPath]; simp; done) | rfl

@[simp] theorem markParent_withPath (g : GroupId) (a b : GState) :
    (s.withPath p).markParent g a b = (s.markParent g a b).withPath p := by
  unfold State.markParent
  rw [parent_withPath]
  cases s.parent? g <;> simp [ite_withPath]

@[simp] theorem putGroup_withPath (g : GroupId) (x : Group) :
    (s.withPath p).putGroup g x = (s.putGroup g x).withPath p := by
  unfold State.putGroup
  first | (simp; done) | simp [ite_withPath] | (simp only [ite_withPath]; simp; done) | rfl

@[simp] theorem putTally_withPath (q : Fin 16) (t : Tally) :
    (s.withPath p).putTally q t = (s.putTally q t).withPath p := by
  unfold State.putTally
  rw [ite_withPath]
  rfl

@[simp] theorem putFaultMark_withPath (q : Fin 16) (b : Bool) :
    (s.withPath p).putFaultMark q b = (s.putFaultMark q b).withPath p := by
  unfold State.putFaultMark
  rw [ite_withPath]
  rfl

@[simp] theorem putMode_withPath (m : Mode) :
    (s.withPath p).putMode m = (s.putMode m).withPath p := by
  unfold State.putMode
  rw [ite_withPath]
  rfl

@[simp] theorem countFailedWrite_withPath :
    (s.withPath p).countFailedWrite = (s.countFailedWrite).withPath p := by
  exact markIf_withPath ({ s with rw := { s.rw with failedWrites := sat16 s.rw.failedWrites } }) p _ _

@[simp] theorem place_withPath (d : Draft) :
    (s.withPath p).place d = (s.place d).withPath p := by
  unfold State.place
  rw [withPath_ctl]
  cases s.ctl.anchor <;> rfl

@[simp] theorem countLost_withPath :
    (s.withPath p).countLost = (s.countLost).withPath p := by
  exact markIf_withPath ({ s with rw := { s.rw with lost := sat16 s.rw.lost, lostTotal := sat16 s.rw.lostTotal } }) p _ _

@[simp] theorem overrun_withPath :
    (s.withPath p).overrun = (s.overrun).withPath p := by
  unfold State.overrun
  rw [withPath_rw, place_withPath, bumpSync_withPath]
  rfl

theorem attempt_withPath (d : Draft) :
    (s.withPath p).attempt d = ((s.attempt d).1.withPath p, (s.attempt d).2) := by
  unfold State.attempt
  rw [withPath_ctl, withPath_rw, freeSlots_withPath, countLost_withPath, overrun_withPath, place_withPath]
  cases s.ctl.anchor.isNone <;> cases s.rw.stalled <;> simp only [Bool.false_eq_true, if_false, if_true] <;> (repeat' split) <;> rfl

@[simp] theorem clearFaultMarks_withPath :
    (s.withPath p).clearFaultMarks = (s.clearFaultMarks).withPath p := by
  exact foldl_withPath p _ (fun s q => putFaultMark_withPath s p q false) _ s

@[simp] theorem afterSync_withPath (f : SyncFlags) :
    (s.withPath p).afterSync f = (s.afterSync f).withPath p := by
  unfold State.afterSync
  have h : ({ s.withPath p with rw := { (s.withPath p).rw with sinceSync := 0 } } : State).clearFaultMarks =
      ({ s with rw := { s.rw with sinceSync := 0 } } : State).clearFaultMarks.withPath p :=
    clearFaultMarks_withPath ({ s with rw := { s.rw with sinceSync := 0 } }) p
  dsimp only
  rw [h]
  generalize ({ s with rw := { s.rw with sinceSync := 0 } } : State).clearFaultMarks = u
  rw [ite_withPath]
  exact ite_eq (markIf_withPath ({ u with rw := { u.rw with lost := 0 } }) p _ _) rfl

theorem makeSync_withPath (f : SyncFlags) (o : Origin) :
    (s.withPath p).makeSync f o = ((s.makeSync f o).1.withPath p, (s.makeSync f o).2) := by
  unfold State.makeSync
  dsimp only
  rw [syncPayload_withPath, attempt_withPath]
  dsimp only
  rw [afterSync_withPath]
  split <;> rfl

@[simp] theorem cadence_withPath :
    (s.withPath p).cadence = (s.cadence).withPath p := by
  unfold State.cadence
  rw [makeSync_withPath, ite_withPath]
  rfl

@[simp] theorem makeReport_withPath (d : Draft) :
    (s.withPath p).makeReport d = (s.makeReport d).withPath p := by
  unfold State.makeReport
  dsimp only
  rw [attempt_withPath, ite_withPath]
  simp

@[simp] theorem makeReports_withPath (l : List Draft) :
    (s.withPath p).makeReports l = (s.makeReports l).withPath p := by
  exact foldl_withPath p _ (fun s d => makeReport_withPath s p d) l s

@[simp] theorem indexFault_withPath :
    (s.withPath p).indexFault = (s.indexFault).withPath p := by
  exact markIf_withPath ({ s with rw := { s.rw with indexFaults := sat16 s.rw.indexFaults } }) p _ _

@[simp] theorem endStall_withPath :
    (s.withPath p).endStall = (s.endStall).withPath p := by
  unfold State.endStall
  have h := makeSync_withPath ({ s with rw := { s.rw with stalled := false } } : State).markSummary p { resumed := true } engineOrigin
  exact congrArg Prod.fst h

@[simp] theorem takeConsumed_withPath (n v : Nat) :
    (s.withPath p).takeConsumed n v = (s.takeConsumed n v).withPath p := by
  unfold State.takeConsumed
  dsimp only
  have h := endStall_withPath ({ s with rw := { s.rw with consumed := v, occupancy := s.rw.occupancy - s.releases n v } } : State) p
  rw [ite_withPath]
  exact ite_eq h rfl

@[simp] theorem handConsumed_withPath (v : Nat) :
    (s.withPath p).handConsumed v = (s.handConsumed v).withPath p := by
  unfold State.handConsumed
  rw [withPath_ctl]
  cases s.ctl.anchor <;> simp [ite_withPath]

@[simp] theorem fallDue_withPath :
    (s.withPath p).fallDue = (s.fallDue).withPath p := by
  unfold State.fallDue
  rw [withPath_cmd]
  cases s.cmd.deferred <;> simp [ite_withPath] <;> rfl

@[simp] theorem watch_withPath (f : Trigger → Bool) :
    (s.withPath p).watch f = (s.watch f).withPath p := by
  unfold State.watch
  rw [withPath_cmd]
  cases s.cmd.deferred <;> simp [ite_withPath]

@[simp] theorem examineHead_withPath :
    (s.withPath p).examineHead = (s.examineHead).withPath p := by
  exact watch_withPath s p _

@[simp] theorem putStorm_withPath (b : Bool) :
    (s.withPath p).putStorm b = (s.putStorm b).withPath p := by
  unfold State.putStorm
  rw [ite_withPath]
  rfl

@[simp] theorem putStormArmed_withPath (b : Bool) :
    (s.withPath p).putStormArmed b = (s.putStormArmed b).withPath p := by
  unfold State.putStormArmed
  rw [ite_withPath]
  rfl

@[simp] theorem reportStorm_withPath (b : Bool) (o : Origin) :
    (s.withPath p).reportStorm b o = (s.reportStorm b o).withPath p := by
  unfold State.reportStorm
  rw [settings_withPath]
  cases s.settings.stormMode <;> simp [ite_withPath]

@[simp] theorem stormChange_withPath (b : Bool) (o : Origin) :
    (s.withPath p).stormChange b o = (s.stormChange b o).withPath p := by
  unfold State.stormChange
  first | (simp; done) | simp [ite_withPath] | (simp only [ite_withPath]; simp; done) | rfl

@[simp] theorem evaluateStorm_withPath (o : Origin) :
    (s.withPath p).evaluateStorm o = (s.evaluateStorm o).withPath p := by
  unfold State.evaluateStorm
  rw [ite_withPath, ite_withPath, stormChange_withPath, stormChange_withPath]
  rfl

@[simp] theorem handDown_withPath (n : Nat) (o : Origin) :
    (s.withPath p).handDown n o = (s.handDown n o).withPath p := by
  unfold State.handDown
  first | (simp; done) | simp [ite_withPath] | (simp only [ite_withPath]; simp; done) | rfl

@[simp] theorem clearingTest_withPath (g : GroupId) :
    (s.withPath p).clearingTest g = (s.clearingTest g).withPath p := by
  unfold State.clearingTest
  rw [group_withPath]
  cases (s.group g).state <;> simp [ite_withPath]

@[simp] theorem clearingTests_withPath (l : List GroupId) :
    (s.withPath p).clearingTests l = (s.clearingTests l).withPath p := by
  exact foldl_withPath p _ (fun s g => clearingTest_withPath s p g) l s

@[simp] theorem parentTest_withPath (g : GroupId) :
    (s.withPath p).parentTest g = (s.parentTest g).withPath p := by
  unfold State.parentTest
  rw [parent_withPath]
  cases s.parent? g <;> simp

@[simp] theorem openWindow_withPath (g : GroupId) :
    (s.withPath p).openWindow g = (s.openWindow g).withPath p := by
  unfold State.openWindow
  first | (simp; done) | simp [ite_withPath] | (simp only [ite_withPath]; simp; done) | rfl

@[simp] theorem propagate_withPath (g : GroupId) :
    (s.withPath p).propagate g = (s.propagate g).withPath p := by
  unfold State.propagate
  rw [parent_withPath]
  cases s.parent? g with
  | none => rfl
  | some r =>
    dsimp only
    rw [group_withPath, openWindow_withPath, parent_withPath, ite_withPath]
    cases (s.openWindow r).parent? r <;> simp [ite_withPath]

@[simp] theorem putDisp_withPath (n : Fin 1024) (d : Disp) :
    (s.withPath p).putDisp n d = (s.putDisp n d).withPath p := by
  unfold State.putDisp
  first | (simp; done) | simp [ite_withPath] | (simp only [ite_withPath]; simp; done) | rfl

@[simp] theorem listPending_withPath (g : GroupId) (n : Fin 1024) :
    (s.withPath p).listPending g n = (s.listPending g n).withPath p := by
  unfold State.listPending
  first | (simp; done) | simp [ite_withPath] | (simp only [ite_withPath]; simp; done) | rfl

@[simp] theorem listUnlessPrompt_withPath (g : GroupId) (n : Fin 1024) (b : Bool) :
    (s.withPath p).listUnlessPrompt g n b = (s.listUnlessPrompt g n b).withPath p := by
  unfold State.listUnlessPrompt
  first | (simp; done) | simp [ite_withPath] | (simp only [ite_withPath]; simp; done) | rfl

@[simp] theorem join_withPath (g : GroupId) (n : Fin 1024) (b : Bool) :
    (s.withPath p).join g n b = (s.join g n b).withPath p := by
  unfold State.join
  rw [group_withPath]
  cases (s.group g).state <;> simp

@[simp] theorem unlist_withPath (g : GroupId) (n : Fin 1024) :
    (s.withPath p).unlist g n = (s.unlist g n).withPath p := by
  unfold State.unlist
  first | (simp; done) | simp [ite_withPath] | (simp only [ite_withPath]; simp; done) | rfl

@[simp] theorem settle_withPath (g : GroupId) :
    (s.withPath p).settle g = (s.settle g).withPath p := by
  unfold State.settle
  first | (simp; done) | simp [ite_withPath] | (simp only [ite_withPath]; simp; done) | rfl

@[simp] theorem announce_withPath (g : GroupId) (c : RaiseCause) (b : Bool) (o : Origin) :
    (s.withPath p).announce g c b o = (s.announce g c b o).withPath p := by
  unfold State.announce
  first | (simp; done) | simp [ite_withPath] | (simp only [ite_withPath]; simp; done) | rfl

@[simp] theorem releaseOne_withPath (n : Fin 1024) :
    (s.withPath p).releaseOne n = (s.releaseOne n).withPath p := by
  exact putDisp_withPath s p n _

@[simp] theorem release_withPath (g : GroupId) (l : List (Fin 1024)) (c : OutageCause) :
    (s.withPath p).release g l c = (s.release g l c).withPath p := by
  unfold State.release
  rw [foldl_withPath p State.releaseOne (fun s n => releaseOne_withPath s p n) l s]
  exact makeReports_withPath _ p _

@[simp] theorem coverPending_withPath (g : GroupId) :
    (s.withPath p).coverPending g = (s.coverPending g).withPath p := by
  unfold State.coverPending
  dsimp only
  rw [group_withPath, foldl_withPath p _ (fun s n => putDisp_withPath s p n .covered), group_withPath, putGroup_withPath]

@[simp] theorem becomeRaised_withPath (g : GroupId) (b : Bool) :
    (s.withPath p).becomeRaised g b = (s.becomeRaised g b).withPath p := by
  unfold State.becomeRaised
  first | (simp; done) | simp [ite_withPath] | (simp only [ite_withPath]; simp; done) | rfl

@[simp] theorem coverIfRaised_withPath (c : GroupId) :
    (s.withPath p).coverIfRaised c = (s.coverIfRaised c).withPath p := by
  unfold State.coverIfRaised
  first | (simp; done) | simp [ite_withPath] | (simp only [ite_withPath]; simp; done) | rfl

@[simp] theorem coverChildren_withPath (g : GroupId) :
    (s.withPath p).coverChildren g = (s.coverChildren g).withPath p := by
  exact foldl_withPath p _ (fun s g => coverIfRaised_withPath s p g) _ s

@[simp] theorem raiseRiser_withPath (r : GroupId) (b : Bool) :
    (s.withPath p).raiseRiser r b = (s.raiseRiser r b).withPath p := by
  unfold State.raiseRiser
  dsimp only
  rw [group_withPath, foldl_withPath p _ (fun s t => becomeRaised_withPath s p t true), becomeRaised_withPath,
    coverChildren_withPath]

@[simp] theorem becomeClear_withPath (g : GroupId) :
    (s.withPath p).becomeClear g = (s.becomeClear g).withPath p := by
  unfold State.becomeClear
  first | (simp; done) | simp [ite_withPath] | (simp only [ite_withPath]; simp; done) | rfl

@[simp] theorem releaseGroup_withPath (g : GroupId) (c : OutageCause) :
    (s.withPath p).releaseGroup g c = (s.releaseGroup g c).withPath p := by
  unfold State.releaseGroup
  first | (simp; done) | simp [ite_withPath] | (simp only [ite_withPath]; simp; done) | rfl

@[simp] theorem park_withPath (g q : GroupId) :
    (s.withPath p).park g q = (s.park g q).withPath p := by
  unfold State.park
  first | (simp; done) | simp [ite_withPath] | (simp only [ite_withPath]; simp; done) | rfl

@[simp] theorem raiseAlone_withPath (g : GroupId) (c : RaiseCause) :
    (s.withPath p).raiseAlone g c = (s.raiseAlone g c).withPath p := by
  unfold State.raiseAlone
  first | (simp; done) | simp [ite_withPath] | (simp only [ite_withPath]; simp; done) | rfl

@[simp] theorem raiseRiserAlone_withPath (r : GroupId) :
    (s.withPath p).raiseRiserAlone r = (s.raiseRiserAlone r).withPath p := by
  unfold State.raiseRiserAlone
  first | (simp; done) | simp [ite_withPath] | (simp only [ite_withPath]; simp; done) | rfl

@[simp] theorem raisePort_withPath (g : GroupId) (c : RaiseCause) (o : Origin) :
    (s.withPath p).raisePort g c o = (s.raisePort g c o).withPath p := by
  unfold State.raisePort
  dsimp only
  simp only [group_withPath]
  rw [foldl_withPath p (fun s r => s.raiseRiser r true) (fun s r => raiseRiser_withPath s p r true)]
  simp only [becomeRaised_withPath, coverChildren_withPath, announce_withPath, clearingTests_withPath]

@[simp] theorem portDark_withPath (g : GroupId) (o : Origin) :
    (s.withPath p).portDark g o = (s.portDark g o).withPath p := by
  unfold State.portDark
  rw [group_withPath]
  cases (s.group g).state <;> simp

@[simp] theorem portLit_withPath (g : GroupId) :
    (s.withPath p).portLit g = (s.portLit g).withPath p := by
  unfold State.portLit
  first | (simp; done) | simp [ite_withPath] | (simp only [ite_withPath]; simp; done) | rfl

@[simp] theorem reportMuted_withPath (n : Fin 1024) (b : Bool) (o : Origin) :
    (s.withPath p).reportMuted n b o = (s.reportMuted n b o).withPath p := by
  unfold State.reportMuted
  first | (simp; done) | simp [ite_withPath] | (simp only [ite_withPath]; simp; done) | rfl

@[simp] theorem reportPrompt_withPath (n : Fin 1024) (b : Bool) (c : OutageCause) (o : Origin) :
    (s.withPath p).reportPrompt n b c o = (s.reportPrompt n b c o).withPath p := by
  unfold State.reportPrompt
  first | (simp; done) | simp [ite_withPath] | (simp only [ite_withPath]; simp; done) | rfl

@[simp] theorem putBrownoutArmed_withPath (b : Bool) :
    (s.withPath p).putBrownoutArmed b = (s.putBrownoutArmed b).withPath p := by
  unfold State.putBrownoutArmed
  rw [ite_withPath]
  rfl

@[simp] theorem suppressBrownout_withPath :
    (s.withPath p).suppressBrownout = (s.suppressBrownout).withPath p := by
  exact markIf_withPath ({ s with table := { s.table with suppressed := sat16 s.table.suppressed } }) p _ _

@[simp] theorem brownout_withPath (n : Fin 1024) (o : Origin) :
    (s.withPath p).brownout n o = (s.brownout n o).withPath p := by
  unfold State.brownout
  rw [settings_withPath]
  cases s.settings.brownoutMode <;> simp [ite_withPath]

@[simp] theorem reportReturn_withPath (n : Fin 1024) (st : TState) (d : Disp) (o : Origin) :
    (s.withPath p).reportReturn n st d o = (s.reportReturn n st d o).withPath p := by
  unfold State.reportReturn
  first | (simp; done) | simp [ite_withPath] | (simp only [ite_withPath]; simp; done) | rfl

@[simp] theorem leaveGroup_withPath (g : Option GroupId) (n : Fin 1024) (d : Disp) :
    (s.withPath p).leaveGroup g n d = (s.leaveGroup g n d).withPath p := by
  unfold State.leaveGroup
  cases g with
  | none => rfl
  | some g =>
    dsimp only
    by_cases h : d = .pending
    · simp [h]
    · simp [h]

@[simp] theorem returnUp_withPath (n : Fin 1024) (e : TermEntry) (d : Option Time) (o : Origin) :
    (s.withPath p).returnUp n e d o = (s.returnUp n e d o).withPath p := by
  unfold State.returnUp
  first | (simp; done) | simp [ite_withPath] | (simp only [ite_withPath]; simp; done) | rfl

@[simp] theorem enterOff_withPath (n : Fin 1024) (e : TermEntry) (t : Terminal) (o : Origin) :
    (s.withPath p).enterOff n e t o = (s.enterOff n e t o).withPath p := by
  unfold State.enterOff
  dsimp only
  rw [term_withPath, offDisp_withPath, putTerm_withPath, reportMuted_withPath, makeReport_withPath, buildingDown_withPath,
    ← handDown_withPath, ite_withPath]

@[simp] theorem enterGroup_withPath (n : Fin 1024) (e : TermEntry) (g : GroupId) (t : Terminal) (c : OutageCause) (o : Origin) :
    (s.withPath p).enterGroup n e g t c o = (s.enterGroup n e g t c o).withPath p := by
  unfold State.enterGroup
  first | (simp; done) | simp [ite_withPath] | (simp only [ite_withPath]; simp; done) | rfl

@[simp] theorem enterSuspect_withPath (n : Fin 1024) (e : TermEntry) (o : Origin) :
    (s.withPath p).enterSuspect n e o = (s.enterSuspect n e o).withPath p := by
  unfold State.enterSuspect
  first | (simp; done) | simp [ite_withPath] | (simp only [ite_withPath]; simp; done) | rfl

@[simp] theorem gaspUp_withPath (n : Fin 1024) (e : TermEntry) (b : Bool) (t : Byte) (o : Origin) :
    (s.withPath p).gaspUp n e b t o = (s.gaspUp n e b t o).withPath p := by
  unfold State.gaspUp
  first | (simp; done) | simp [ite_withPath] | (simp only [ite_withPath]; simp; done) | rfl

@[simp] theorem gaspSuspect_withPath (n : Fin 1024) (e : TermEntry) (b : Bool) (t : Byte) (o : Origin) :
    (s.withPath p).gaspSuspect n e b t o = (s.gaspSuspect n e b t o).withPath p := by
  unfold State.gaspSuspect
  first | (simp; done) | simp [ite_withPath] | (simp only [ite_withPath]; simp; done) | rfl

@[simp] theorem reclassify_withPath (n : Fin 1024) (e : TermEntry) (t : Byte) :
    (s.withPath p).reclassify n e t = (s.reclassify n e t).withPath p := by
  unfold State.reclassify
  first | (simp; done) | simp [ite_withPath] | (simp only [ite_withPath]; simp; done) | rfl

@[simp] theorem countLate_withPath (n : Fin 1024) (t : Byte) :
    (s.withPath p).countLate n t = (s.countLate n t).withPath p := by
  unfold State.countLate
  first | (simp; done) | simp [ite_withPath] | (simp only [ite_withPath]; simp; done) | rfl

@[simp] theorem lateGasp_withPath (n : Fin 1024) (e : TermEntry) (t : Byte) :
    (s.withPath p).lateGasp n e t = (s.lateGasp n e t).withPath p := by
  unfold State.lateGasp
  first | (simp; done) | simp [ite_withPath] | (simp only [ite_withPath]; simp; done) | rfl

@[simp] theorem lossUp_withPath (n : Fin 1024) (e : TermEntry) (o : Origin) :
    (s.withPath p).lossUp n e o = (s.lossUp n e o).withPath p := by
  unfold State.lossUp
  first | (simp; done) | simp [ite_withPath] | (simp only [ite_withPath]; simp; done) | rfl

@[simp] theorem blip_withPath (n : Fin 1024) (o : Origin) :
    (s.withPath p).blip n o = (s.blip n o).withPath p := by
  unfold State.blip
  first | (simp; done) | simp [ite_withPath] | (simp only [ite_withPath]; simp; done) | rfl

theorem mute_withPath (n : Fin 1024) (o : Origin) :
    (s.withPath p).mute n o = ((s.mute n o).1.withPath p, (s.mute n o).2) := by
  unfold State.mute
  simp only [term_withPath, quietEnd_withPath, muteTerm_withPath, putTerm_withPath, makeReport_withPath]
  split <;> rfl

theorem unmute_withPath (n : Fin 1024) (o : Origin) :
    (s.withPath p).unmute n o = ((s.unmute n o).1.withPath p, (s.unmute n o).2) := by
  unfold State.unmute
  simp only [term_withPath, putTerm_withPath, makeReport_withPath]
  (repeat' split) <;> rfl

@[simp] theorem seed_withPath (n : Fin 1024) (e : TermEntry) (st : TState) (o : Origin) :
    (s.withPath p).seed n e st o = (s.seed n e st o).withPath p := by
  unfold State.seed
  first | (simp; done) | simp [ite_withPath] | (simp only [ite_withPath]; simp; done) | rfl

@[simp] theorem reportFault_withPath (q : Fin 16) (k : FaultKind) (w : BitVec 32) :
    (s.withPath p).reportFault q k w = (s.reportFault q k w).withPath p := by
  unfold State.reportFault
  first | (simp; done) | simp [ite_withPath] | (simp only [ite_withPath]; simp; done) | rfl

@[simp] theorem malformedAt_withPath (q : Fin 16) :
    (s.withPath p).malformedAt q = (s.malformedAt q).withPath p := by
  unfold State.malformedAt
  first | (simp; done) | simp [ite_withPath] | (simp only [ite_withPath]; simp; done) | rfl

@[simp] theorem checkFailedAt_withPath (q : Fin 16) (k : FaultKind) (w : BitVec 32) :
    (s.withPath p).checkFailedAt q k w = (s.checkFailedAt q k w).withPath p := by
  unfold State.checkFailedAt
  first | (simp; done) | simp [ite_withPath] | (simp only [ite_withPath]; simp; done) | rfl

@[simp] theorem leftAt_withPath (q : Fin 16) :
    (s.withPath p).leftAt q = (s.leftAt q).withPath p := by
  unfold State.leftAt
  first | (simp; done) | simp [ite_withPath] | (simp only [ite_withPath]; simp; done) | rfl

@[simp] theorem strayAt_withPath (q : Fin 16) :
    (s.withPath p).strayAt q = (s.strayAt q).withPath p := by
  unfold State.strayAt
  first | (simp; done) | simp [ite_withPath] | (simp only [ite_withPath]; simp; done) | rfl

@[simp] theorem takenAt_withPath (q : Fin 16) (b : Bool) :
    (s.withPath p).takenAt q b = (s.takenAt q b).withPath p := by
  unfold State.takenAt
  first | (simp; done) | simp [ite_withPath] | (simp only [ite_withPath]; simp; done) | rfl

@[simp] theorem duplicateAt_withPath (q : Fin 16) :
    (s.withPath p).duplicateAt q = (s.duplicateAt q).withPath p := by
  unfold State.duplicateAt
  first | (simp; done) | simp [ite_withPath] | (simp only [ite_withPath]; simp; done) | rfl

@[simp] theorem reportDone_withPath (b : List Byte) (k : Kind) (c : Code) (d : Nat) :
    (s.withPath p).reportDone b k c d = (s.reportDone b k c d).withPath p := by
  unfold State.reportDone
  rw [withPath_ctl]
  cases s.ctl.anchor <;> simp [ite_withPath]

@[simp] theorem reportActivation_withPath (b : List Byte) (n : Nat) :
    (s.withPath p).reportActivation b n = (s.reportActivation b n).withPath p := by
  unfold State.reportActivation
  rw [makeSync_withPath]
  exact reportDone_withPath _ p _ _ _ _

@[simp] theorem finalWriteBack_withPath (a : Addr) (st : SlotState) (c : Code) (d : Nat) :
    (s.withPath p).finalWriteBack a st c d = (s.finalWriteBack a st c d).withPath p := by
  unfold State.finalWriteBack
  rw [progress_withPath]
  cases s.progress a <;> simp

@[simp] theorem abortLoad_withPath :
    (s.withPath p).abortLoad = (s.abortLoad).withPath p := by
  unfold State.abortLoad
  first | (simp; done) | simp [ite_withPath] | (simp only [ite_withPath]; simp; done) | rfl

@[simp] theorem captureWrite_withPath (r : Request) :
    (s.withPath p).captureWrite r = (s.captureWrite r).withPath p := by
  unfold State.captureWrite
  rw [withPath_ctl, withPath_cmd]
  cases s.ctl.anchor with
  | none => rfl
  | some a =>
    dsimp only
    rw [ite_withPath]
    rfl

@[simp] theorem handOver_withPath (f : StepFor) :
    (s.withPath p).handOver f = (s.handOver f).withPath p := by
  unfold State.handOver
  cases f.consumed <;> simp

theorem ignoreAnchor_withPath (r : Request) : (s.withPath p).ignoreAnchor r = (s.ignoreAnchor r).withPath p :=
  makeReport_withPath (s.refuseAnchor r.tag .busyMode) p _

/-! ## Messages -/

/-- A claim with another path. -/
def Claimed.withPath (c : Claimed) (p : Path) : Claimed := { c with state := c.state.withPath p }

theorem claimGasp_withPath (n : Fin 1024) (e : TermEntry) (b : Bool) (t : Byte) (o : Origin) :
    (s.withPath p).claimGasp n e b t o = (s.claimGasp n e b t o).withPath p := by
  unfold State.claimGasp
  rw [term_withPath, repeatGasp_withPath, gaspUp_withPath, gaspSuspect_withPath, lateGasp_withPath]
  cases (s.term n).state <;> first | rfl | (dsimp only; split <;> rfl)

theorem claimLoss_withPath (n : Fin 1024) (e : TermEntry) (o : Origin) :
    (s.withPath p).claimLoss n e o = (s.claimLoss n e o).withPath p := by
  unfold State.claimLoss
  rw [term_withPath, lossUp_withPath, moveTo_withPath, putTerm_withPath]
  cases (s.term n).state <;> rfl

theorem claimRestore_withPath (n : Fin 1024) (e : TermEntry) (o : Origin) :
    (s.withPath p).claimRestore n e o = (s.claimRestore n e o).withPath p := by
  unfold State.claimRestore
  rw [term_withPath, blip_withPath, followEnd_withPath, returnUp_withPath]
  cases (s.term n).state <;> rfl

theorem claimDark_withPath (q : Fin 16) (o : Origin) : (s.withPath p).claimDark q o = (s.claimDark q o).withPath p := by
  unfold State.claimDark
  rw [group_withPath, portDark_withPath]
  split <;> rfl

theorem claimLit_withPath (q : Fin 16) : (s.withPath p).claimLit q = (s.claimLit q).withPath p := by
  unfold State.claimLit
  rw [group_withPath, portLit_withPath]
  split <;> rfl

theorem routeTerminal_withPath (q : Fin 16) (m : List Byte) (f g : Fin 1024 → TermEntry → Claimed)
    (h : ∀ n e, g n e = (f n e).withPath p) :
    (s.withPath p).routeTerminal q m g = (s.routeTerminal q m f).map (fun c => c.withPath p) := by
  unfold State.routeTerminal
  rw [terminalOf_withPath]
  cases s.terminalOf q (byteAt m 3) with
  | none => rfl
  | some n =>
    dsimp only
    rw [entry_withPath, Option.map_map]
    congr 1
    funext e
    exact h n e

theorem routePort_withPath (q : Fin 16) (c d : Claimed) (h : d = c.withPath p) :
    (s.withPath p).routePort q d = (s.routePort q c).map (fun c => c.withPath p) := by
  unfold State.routePort
  rw [portMapped_withPath, h]
  split <;> rfl

/-- The claim a message of kind k makes, whatever its kind byte. -/
def State.routeAs (s : State) (k : MsgKind) (q : Fin 16) (m : List Byte) : Option Claimed :=
  match k with
  | .gasp => s.routeTerminal q m (fun n e => s.claimGasp n e (causeOff m) (repeatTag m) (messageOrigin m))
  | .loss => s.routeTerminal q m (fun n e => s.claimLoss n e (messageOrigin m))
  | .restore => s.routeTerminal q m (fun n e => s.claimRestore n e (messageOrigin m))
  | .portDark => s.routePort q (s.claimDark q (messageOrigin m))
  | .portLit => s.routePort q (s.claimLit q)

theorem routeAs_withPath (k : MsgKind) (q : Fin 16) (m : List Byte) :
    (s.withPath p).routeAs k q m = (s.routeAs k q m).map (fun c => c.withPath p) := by
  cases k with
  | gasp => exact routeTerminal_withPath s p q m _ _ (fun n e => claimGasp_withPath s p n e _ _ _)
  | loss => exact routeTerminal_withPath s p q m _ _ (fun n e => claimLoss_withPath s p n e _)
  | restore => exact routeTerminal_withPath s p q m _ _ (fun n e => claimRestore_withPath s p n e _)
  | portDark => exact routePort_withPath s p q _ _ (claimDark_withPath s p q _)
  | portLit => exact routePort_withPath s p q _ _ (claimLit_withPath s p q)

theorem routeMessage_eq (q : Fin 16) (m : List Byte) :
    s.routeMessage q m = (msgKind m).bind (fun k => s.routeAs k q m) := by
  unfold State.routeMessage
  cases msgKind m with
  | none => rfl
  | some k => cases k <;> rfl

theorem tallied_withPath (c : Claimed) (q : Fin 16) : (c.withPath p).tallied q = (c.tallied q).withPath p := by
  unfold Claimed.tallied
  cases hc : c.answer <;> simp [Claimed.withPath, hc]

theorem judgeSound_withPath (q : Fin 16) (t : Treatment) (r : Request) (route : Option Claimed) :
    (s.withPath p).judgeSound q t r (route.map (fun c => c.withPath p)) =
      ((s.judgeSound q t r route).1.withPath p, (s.judgeSound q t r route).2) := by
  unfold State.judgeSound
  rw [correlating_withPath, leftAt_withPath, strayAt_withPath]
  cases s.correlating
  · rfl
  · cases route with
    | none => rfl
    | some c => simp [tallied_withPath]; rfl

theorem judgeMessage_withPath (q : Fin 16) (t : Treatment) (r : Request) (route : Option Claimed) :
    (s.withPath p).judgeMessage q t r (route.map (fun c => c.withPath p)) =
      ((s.judgeMessage q t r route).1.withPath p, (s.judgeMessage q t r route).2) := by
  unfold State.judgeMessage
  cases messageFault q r.bytes with
  | none => exact judgeSound_withPath s p q t r route
  | some k => simp

theorem judgeForm_withPath (r : Request) (f g : Fin 16 → Option Claimed)
    (h : ∀ q, g q = (f q).map (fun c => c.withPath p)) :
    (s.withPath p).judgeForm r g = ((s.judgeForm r f).1.withPath p, (s.judgeForm r f).2) := by
  unfold State.judgeForm
  rw [portOf_withPath]
  cases s.portOf r with
  | none => rfl
  | some q =>
    dsimp only
    rw [ring_withPath, h]
    cases s.ring q with
    | none => rfl
    | some x => exact judgeMessage_withPath s p q _ r _

theorem judgeMalformed_withPath (r : Request) : (s.withPath p).judgeMalformed r = (s.judgeMalformed r).withPath p := by
  unfold State.judgeMalformed
  rw [portOf_withPath]
  cases s.portOf r <;> simp

theorem judgeWrite_withPath (r : Request) :
    (s.withPath p).judgeWrite r = ((s.judgeWrite r).1.withPath p, (s.judgeWrite r).2) := by
  unfold State.judgeWrite
  split
  · refine judgeForm_withPath s p r _ _ (fun q => ?_)
    rw [routeMessage_eq, routeMessage_eq]
    cases msgKind r.bytes with
    | none => rfl
    | some k => exact routeAs_withPath s p k q r.bytes
  · rw [judgeMalformed_withPath]

theorem exec_messageRow (tag : Tag) (k : MsgKind) :
    exec (messageRow tag k) s = .next (s.takeStep tag (fitsMessage k) (actMessage (fun s q m => s.routeAs k q m))) := by
  cases k <;> rfl

/-! ## Taking a write -/

/-- An operation that commutes with a change of the path leaves the path. -/
theorem path_of_commutes {f : State → State} {s : State} (h : f (s.withPath s.path) = (f s).withPath s.path) :
    (f s).path = s.path := by
  have e : f s = (f s).withPath s.path := h
  rw [e]; rfl

/-- A step write taken whose act commutes with a change of the path: what the act does to the state before is all that
happens beside the path (R12). -/
theorem takeStep_of {s u : State} {t : Tag} {r r' : Request} {f : StepFor} {fits : StepFor → Request → Bool}
    {act : StepFor → State → Request → State × Request} (h : s.Admitted t r f) (hf : fits f r = true)
    (ha : ∀ p, act f (s.withPath p) r = (u.withPath p, r')) (hu : u.path = s.path) :
    Took (s.takeStep t fits act) u t r' := by
  have e := takeStep_took (act := act) h hf
    (by rw [show act f (s.popLane t) r = _ from ha (s.popLane t).path]; rfl)
  rw [show act f (s.popLane t) r = _ from ha (s.popLane t).path] at e
  dsimp only at e
  rw [show (u.withPath (s.popLane t).path).withPath s.path = u by rw [← hu]; rfl] at e
  exact e

/-- A message taken by its row: its judgment is all that happens beside the path (R59). -/
theorem messageRow_took {s : State} {tag : Tag} {r : Request} {f : StepFor} {q : Fin 16} {x : Ring} {k : MsgKind}
    (h : s.Message tag r f q x) (hk : msgKind r.bytes = some k ∨ msgKind r.bytes = none) {u : State} {r' : Request}
    (hu : s.judgeMessage q x.treatment r (s.routeAs k q r.bytes) = (u, r')) :
    ∃ t, exec (messageRow tag k) s = .next t ∧ Took t u tag r' := by
  obtain ⟨ha, hi, hc, hm, hp, hx⟩ := h
  have ej : ∀ p, (s.withPath p).judgeForm r (fun q => (s.withPath p).routeAs k q r.bytes) = (u.withPath p, r') := by
    intro p
    rw [judgeForm_withPath s p r (fun q => s.routeAs k q r.bytes) _ (fun q => routeAs_withPath s p k q r.bytes)]
    unfold State.judgeForm
    rw [hp]
    dsimp only
    rw [hx]
    dsimp only
    rw [hu]
  have eu : u.path = s.path := by
    have e := ej s.path
    have e2 : s.judgeForm r (fun q => s.routeAs k q r.bytes) = (u.withPath s.path, r') := e
    unfold State.judgeForm at e2
    rw [hp] at e2
    dsimp only at e2
    rw [hx] at e2
    dsimp only at e2
    rw [hu] at e2
    have : u = u.withPath s.path := congrArg Prod.fst e2
    rw [this]; rfl
  refine ⟨_, exec_messageRow s tag k, takeStep_of ha ?_ (fun p => ?_) eu⟩
  · unfold fitsMessage
    rw [hi, hm]
    rcases hk with hk | hk <;> rw [hk] <;> simp
  · unfold actMessage State.handOver
    rw [hc]
    dsimp only
    rw [ej p]

end Sys2Proof.Machine
end

