-- ==== Sys2Proof/Laws/Reporting.lean ====
section
/-! SUPPORT. What making a report does, case by case: created, displaced by an OVERRUN, or counted lost; and what the
creation of a SYNC leaves. -/

namespace Sys2Proof.Machine

/-- Inserting what is there already changes nothing. -/
theorem insertIndex_mem {i : Nat} : ∀ {l : List Nat}, l.Pairwise (· < ·) → i ∈ l → insertIndex i l = l
  | [], _, h => by cases h
  | j :: l, hs, h => by
    rw [List.pairwise_cons] at hs
    unfold insertIndex
    rcases List.mem_cons.mp h with rfl | h
    · rw [if_neg (Nat.lt_irrefl _), if_pos rfl]
    · have := hs.1 i h
      rw [if_neg (by omega), if_neg (by omega), insertIndex_mem hs.2 h]

/-- Marking a dirty record changes nothing. -/
theorem mark_mem {s : State} {i : Nat} (hs : s.mirror.dirty.Pairwise (· < ·)) (h : i ∈ s.mirror.dirty) : s.mark i = s := by
  unfold State.mark; rw [insertIndex_mem hs h]

theorem faultMark_setFaultMark (s : State) (p q : Fin 16) (v : Bool) :
    (s.setFaultMark p v).faultMark q = if p = q then v else s.faultMark q := by
  unfold State.setFaultMark State.faultMark
  show (s.intake.faultMarks.set p.val v)[q.val] = _
  rw [Vector.getElem_set]
  by_cases h : p = q
  · simp [h]
  · rw [if_neg h, if_neg (fun e => h (Fin.ext e))]

/-- From s to t the fault marks of the ports in l are cleared, their tally records marked where a mark was set, and nothing
else changes. -/
structure Cleared (l : List (Fin 16)) (s t : State) : Prop where
  frame : t = { s with intake := { s.intake with faultMarks := t.intake.faultMarks }, mirror := { s.mirror with dirty := t.mirror.dirty } }
  marks : ∀ q, t.faultMark q = if q ∈ l then false else s.faultMark q
  dirty : ∀ i, i ∈ t.mirror.dirty ↔ i ∈ s.mirror.dirty ∨ ∃ p ∈ l, s.faultMark p = true ∧ i = 1264 + p.val

/-- One fault mark cleared. -/
theorem cleared_one (s : State) (p : Fin 16) : Cleared [p] s (s.putFaultMark p false) := by
  unfold State.putFaultMark
  split
  · next h =>
    refine ⟨rfl, fun q => ?_, fun i => ?_⟩
    · split
      · next hq => rw [List.mem_singleton] at hq; subst hq; exact h
      · rfl
    · simp [h]
  · next h =>
    have h : s.faultMark p = true := by simpa using h
    refine ⟨rfl, fun q => ?_, fun i => ?_⟩
    · show (s.setFaultMark p false).faultMark q = _
      rw [faultMark_setFaultMark]
      simp [eq_comm]
    · show i ∈ insertIndex (1264 + p.val) s.mirror.dirty ↔ _
      rw [mem_insertIndex]
      simp [h, or_comm]

theorem cleared_trans {l k : List (Fin 16)} {s t u : State} (a : Cleared l s t) (b : Cleared k t u) : Cleared (l ++ k) s u := by
  refine ⟨?_, fun q => ?_, fun i => ?_⟩
  · rw [b.frame]; rw [a.frame]
  · rw [b.marks, a.marks]
    by_cases h1 : q ∈ k <;> by_cases h2 : q ∈ l <;> simp [h1, h2, List.mem_append]
  · rw [b.dirty, a.dirty]
    constructor
    · rintro ((h | ⟨p, h1, h2, h3⟩) | ⟨p, h1, h2, h3⟩)
      · exact .inl h
      · exact .inr ⟨p, List.mem_append.mpr (.inl h1), h2, h3⟩
      · rw [a.marks] at h2
        split at h2
        · cases h2
        · exact .inr ⟨p, List.mem_append.mpr (.inr h1), h2, h3⟩
    · rintro (h | ⟨p, h1, h2, h3⟩)
      · exact .inl (.inl h)
      · by_cases hl : p ∈ l
        · exact .inl (.inr ⟨p, hl, h2, h3⟩)
        · refine .inr ⟨p, (List.mem_append.mp h1).resolve_left hl, ?_, h3⟩
          rw [a.marks, if_neg hl]; exact h2

theorem cleared_foldl (l : List (Fin 16)) (s : State) : Cleared l s (l.foldl (fun s p => s.putFaultMark p false) s) := by
  induction l generalizing s with
  | nil => exact ⟨rfl, fun q => by simp, fun i => by simp⟩
  | cons p l ih =>
    rw [List.foldl_cons]
    exact cleared_trans (l := [p]) (cleared_one s p) (ih _)

/-- Every fault mark cleared (R63). -/
theorem cleared (s : State) : Cleared (List.finRange 16) s s.clearFaultMarks := cleared_foldl _ s

theorem faultMarks_eq (v : Vector Bool 16) (h : ∀ q : Fin 16, v[q.val] = false) : v = Vector.replicate 16 false := by
  apply Vector.ext
  intro i hi
  rw [Vector.getElem_replicate]
  exact h ⟨i, hi⟩

/-- What clearing the fault marks leaves: no mark, and the tally records of the ports that had one dirty (R63). -/
theorem clearFaultMarks_eq (s : State) : s.clearFaultMarks = { s with
    intake := { s.intake with faultMarks := Vector.replicate 16 false }, mirror := { s.mirror with dirty := s.clearFaultMarks.mirror.dirty } } ∧
    ∀ i, i ∈ s.clearFaultMarks.mirror.dirty ↔ i ∈ s.mirror.dirty ∨ ∃ p, s.faultMark p = true ∧ i = 1264 + p.val := by
  have c := cleared s
  have e : s.clearFaultMarks.intake.faultMarks = Vector.replicate 16 false :=
    faultMarks_eq _ (fun q => by have := c.marks q; rw [if_pos (List.mem_finRange q)] at this; exact this)
  refine ⟨?_, fun i => ?_⟩
  · have := c.frame
    rw [e] at this
    exact this
  · rw [c.dirty]; simp [List.mem_finRange]

/-- With every tally record dirty already, clearing the fault marks changes nothing else. -/
theorem clearFaultMarks_full (s : State) (hs : s.mirror.dirty.Pairwise (· < ·)) (h : ∀ p : Fin 16, 1264 + p.val ∈ s.mirror.dirty) :
    s.clearFaultMarks = { s with intake := { s.intake with faultMarks := Vector.replicate 16 false } } := by
  have key : ∀ l : List (Fin 16), ∀ s : State, s.mirror.dirty.Pairwise (· < ·) → (∀ p : Fin 16, 1264 + p.val ∈ s.mirror.dirty) →
      (l.foldl (fun s p => s.putFaultMark p false) s).mirror = s.mirror := by
    intro l
    induction l with
    | nil => intro s _ _; rfl
    | cons p l ih =>
      intro s hs h
      rw [List.foldl_cons]
      have : (s.putFaultMark p false).mirror = s.mirror := by
        unfold State.putFaultMark State.markTally
        split
        · rfl
        · show ({ s.mirror with dirty := insertIndex (Config.tallyBase + p.val) s.mirror.dirty } : Mirror) = _
          rw [show insertIndex (Config.tallyBase + p.val) s.mirror.dirty = _ from insertIndex_mem hs (h p)]
      rw [ih _ (by rw [this]; exact hs) (by rw [this]; exact h), this]
  have e := (clearFaultMarks_eq s).1
  rw [show s.clearFaultMarks.mirror = s.mirror from key _ s hs h] at e
  exact e

/-- With a ring, placing a report is creating it. -/
theorem place_eq {s : State} {a : Anchor} (h : s.ctl.anchor = some a) (d : Draft) : s.place d = s.created a d := by
  unfold State.place; rw [h]; rfl

/-- Three free slots: the report is created (R139). -/
theorem attempt_made {s : State} {a : Anchor} (h : s.ctl.anchor = some a) (h1 : s.rw.stalled = false)
    (h2 : 3 ≤ a.ringSlots - s.rw.occupancy) (d : Draft) : s.attempt d = (s.created a d, true) := by
  have hf : s.freeSlots = a.ringSlots - s.rw.occupancy := by unfold State.freeSlots; rw [h]
  unfold State.attempt
  rw [h1, hf, if_pos h2, place_eq h, h]; rfl

/-- A report counted lost (R141). -/
theorem countLost_eq (s : State) : s.countLost =
    let counted := { s with rw := { s.rw with lost := plusOne s.rw.lost, lostTotal := plusOne s.rw.lostTotal } }
    if s.rw.lost < 65535 ∨ s.rw.lostTotal < 65535 then counted.mark 1280 else counted := by
  unfold State.countLost State.markIf
  dsimp only
  have : (sat16 s.rw.lost != s.rw.lost || sat16 s.rw.lostTotal != s.rw.lostTotal) = true ↔ s.rw.lost < 65535 ∨ s.rw.lostTotal < 65535 := by
    rw [Bool.or_eq_true]; unfold sat16 Config.count16
    simp only [bne_iff_ne]
    constructor
    · rintro (h | h)
      · left; split at h <;> omega
      · right; split at h <;> omega
    · rintro (h | h)
      · left; rw [if_pos h]; omega
      · right; rw [if_pos h]; omega
  by_cases h : s.rw.lost < 65535 ∨ s.rw.lostTotal < 65535
  · rw [if_pos h, if_pos (this.mpr h)]; rfl
  · rw [if_neg h, if_neg (fun e => h (this.mp e))]; rfl

/-- Two free slots: an OVERRUN in place of the report (R140). -/
theorem attempt_over {s : State} {a : Anchor} (h : s.ctl.anchor = some a) (h1 : s.rw.stalled = false)
    (h2 : a.ringSlots - s.rw.occupancy = 2) (d : Draft) : s.attempt d = (s.countLost.overrun, false) := by
  have hf : s.freeSlots = a.ringSlots - s.rw.occupancy := by unfold State.freeSlots; rw [h]
  unfold State.attempt
  rw [h1, hf, h, if_neg (show ¬ 3 ≤ a.ringSlots - s.rw.occupancy by omega), if_pos h2]; rfl

/-- During a stall the report is counted lost (R141). -/
theorem attempt_stalled {s : State} {a : Anchor} (h : s.ctl.anchor = some a) (h1 : s.rw.stalled = true) (d : Draft) :
    s.attempt d = (s.countLost, false) := by
  unfold State.attempt
  rw [h1, h]; rfl

/-- What the creation of a SYNC does (R144). -/
theorem afterSync_eq (s : State) (flags : SyncFlags) : ∃ v, s.afterSync flags = v ∧ v = { s with
        rw := { s.rw with sinceSync := 0, lost := if flags.resumed then 0 else s.rw.lost },
        intake := { s.intake with faultMarks := Vector.replicate 16 false },
        mirror := { s.mirror with dirty := v.mirror.dirty } } ∧
      ∀ i, i ∈ v.mirror.dirty ↔ i ∈ s.mirror.dirty ∨ (∃ p, s.faultMark p = true ∧ i = 1264 + p.val) ∨
        (flags.resumed = true ∧ s.rw.lost ≠ 0 ∧ i = 1280) := by
  refine ⟨_, rfl, ?_⟩
  unfold State.afterSync
  dsimp only
  obtain ⟨e, m⟩ := clearFaultMarks_eq { s with rw := { s.rw with sinceSync := 0 } }
  generalize ({ s with rw := { s.rw with sinceSync := 0 } } : State).clearFaultMarks = u at e m ⊢
  have hl : u.rw.lost = s.rw.lost := by rw [e]
  by_cases hr : flags.resumed = true
  · rw [if_pos hr, hr, hl]
    unfold State.markIf
    by_cases h0 : s.rw.lost = 0
    · rw [if_neg (by simp [h0])]
      refine ⟨by conv => lhs; rw [e]
                 rfl, fun i => ?_⟩
      rw [m]; simp [h0]; rfl
    · rw [if_pos (by simpa using h0)]
      refine ⟨by conv => lhs; rw [e]
                 simp only [if_true]
                 rfl, fun i => ?_⟩
      show i ∈ insertIndex 1280 u.mirror.dirty ↔ _
      rw [mem_insertIndex, m]
      simp only [true_and, h0, ne_eq, not_false_eq_true]
      constructor
      · rintro (h | h | h)
        · exact .inr (.inr h)
        · exact .inl h
        · exact .inr (.inl h)
      · rintro (h | h | h)
        · exact .inr (.inl h)
        · exact .inr (.inr h)
        · exact .inl h
  · rw [if_neg hr]
    refine ⟨by conv => lhs; rw [e]
               simp [hr], fun i => ?_⟩
    rw [m]; simp [hr]; rfl

end Sys2Proof.Machine
end

