-- ==== Sys2Proof/Laws/Records.lean ====
section
/-! SUPPORT. What a changed record leaves of the others: reading one record after writing another, the frame of each write,
the members of a group, and a message claimed. -/

namespace Sys2Proof.Machine

theorem setTerm_self (s : State) (n : Fin 1024) : s.setTerm n (s.term n) = s := by
  unfold State.setTerm State.term
  rw [Vector.set_getElem_self]
theorem setGroup_self (s : State) (g : GroupId) : s.setGroup g (s.group g) = s := by
  unfold State.setGroup State.group
  rw [Vector.set_getElem_self]
theorem setTally_self (s : State) (p : Fin 16) : s.setTally p (s.tally p) = s := by
  unfold State.setTally State.tally
  rw [Vector.set_getElem_self]

theorem markIf_frame (s : State) (b : Bool) (i : Nat) : s.markIf b i = { s with mirror := { s.mirror with dirty := (s.markIf b i).mirror.dirty } } := by
  unfold State.markIf; split <;> rfl
theorem mem_markIf (s : State) (b : Bool) (i j : Nat) : j ∈ (s.markIf b i).mirror.dirty ↔ j ∈ s.mirror.dirty ∨ (b = true ∧ j = i) := by
  unfold State.markIf
  split
  · next h =>
    show j ∈ insertIndex i s.mirror.dirty ↔ _
    rw [mem_insertIndex]; simp [h, or_comm]
  · next h => simp [h]

theorem mem_termMembers (s : State) (g : GroupId) (n : Fin 1024) (h : s.entries.length ≤ 1024) :
    n ∈ s.termMembers g ↔ ∃ e, s.entry? n = some e ∧ memberOf g e = true := by
  unfold State.termMembers State.entry?
  unfold State.entries at h ⊢
  cases hm : s.map with
  | none => simp
  | some m =>
    rw [hm] at h
    dsimp only at h ⊢
    rw [List.length_zipIdx] at h
    simp only [List.mem_map, List.mem_filter]
    constructor
    · rintro ⟨⟨e, k⟩, ⟨h1, h2⟩, rfl⟩
      rw [List.mem_zipIdx_iff_getElem?] at h1
      have hk : k < m.terminals.length := by
        rcases List.getElem?_eq_some_iff.mp h1 with ⟨x, _⟩; exact x
      refine ⟨e, ?_, h2⟩
      rw [show (Fin.ofNat 1024 k).val = k from Nat.mod_eq_of_lt (by omega)]
      exact h1
    · rintro ⟨e, h1, h2⟩
      refine ⟨(e, n.val), ⟨?_, h2⟩, ?_⟩
      · rw [List.mem_zipIdx_iff_getElem?]; exact h1
      · apply Fin.ext
        exact Nat.mod_eq_of_lt n.isLt

theorem children_tap (s : State) (k : Fin 128) : s.children (.tap k) = [] := by
  unfold State.children; cases s.map <;> rfl
theorem children_zone (s : State) (k : Fin 64) : s.children (.zone k) = [] := by
  unfold State.children; cases s.map <;> rfl
theorem termMembers_riser (s : State) (k : Fin 32) : s.termMembers (.riser k) = [] := by
  unfold State.termMembers
  rw [List.filter_eq_nil_iff.mpr (by intro a _; simp [memberOf])]; rfl
theorem termMembers_port (s : State) (k : Fin 16) : s.termMembers (.port k) = [] := by
  unfold State.termMembers
  rw [List.filter_eq_nil_iff.mpr (by intro a _; simp [memberOf])]; rfl

theorem group_setGroup (s : State) (g h : GroupId) (x : Group) : (s.setGroup g x).group h = if g = h then x else s.group h := by
  unfold State.group State.setGroup
  show (s.corr.groups.set g.index.val x)[h.index.val] = _
  rw [Vector.getElem_set]
  by_cases e : g = h
  · subst e; simp
  · rw [if_neg, if_neg e]
    intro hh
    apply e
    cases g <;> cases h <;> simp only [GroupId.index] at hh <;> (try omega) <;> congr 1 <;> apply Fin.ext <;> omega

theorem group_mark (s : State) (i : Nat) (h : GroupId) : (s.mark i).group h = s.group h := rfl
theorem group_markParent (s : State) (g : GroupId) (a b : GState) (h : GroupId) : (s.markParent g a b).group h = s.group h := by
  unfold State.markParent; split
  · rfl
  · split <;> rfl
theorem group_putGroup (s : State) (g h : GroupId) (x : Group) : (s.putGroup g x).group h = if g = h then x else s.group h := by
  unfold State.putGroup
  split
  · next e =>
    split
    · next e2 => subst e2; exact e
    · rfl
  · rw [group_markParent, group_mark, group_setGroup]
theorem map_markParent (s : State) (g : GroupId) (a b : GState) : (s.markParent g a b).map = s.map := by
  unfold State.markParent; split
  · rfl
  · split <;> rfl
theorem map_putGroup (s : State) (g : GroupId) (x : Group) : (s.putGroup g x).map = s.map := by
  unfold State.putGroup; split
  · rfl
  · rw [map_markParent]; rfl
theorem parent_of_map {s t : State} (h : t.map = s.map) (g : GroupId) : t.parent? g = s.parent? g := by
  unfold State.parent?; cases g <;> dsimp only <;> rw [h]
theorem children_of_map {s t : State} (h : t.map = s.map) (g : GroupId) : t.children g = s.children g := by
  unfold State.children; rw [h]

theorem term_setTerm (s : State) (n m : Fin 1024) (x : Terminal) : (s.setTerm n x).term m = if n = m then x else s.term m := by
  unfold State.term State.setTerm
  show (s.table.terms.set n.val x)[m.val] = _
  rw [Vector.getElem_set]
  by_cases e : n = m
  · subst e; simp
  · rw [if_neg (fun h => e (Fin.ext h)), if_neg e]

theorem putTerm_frame (s : State) (n : Fin 1024) (x : Terminal) : s.putTerm n x = { s with
    table := { s.table with terms := s.table.terms.set n.val x }, mirror := { s.mirror with dirty := (s.putTerm n x).mirror.dirty } } := by
  unfold State.putTerm
  split
  · next h => subst h; exact (by unfold State.term; rw [Vector.set_getElem_self])
  · split
    · rfl
    · unfold State.markMeasures
      split
      · rfl
      · unfold State.markIf
        split <;> split <;> rfl

theorem putGroup_frame (s : State) (g : GroupId) (x : Group) : s.putGroup g x = { s with
    corr := { s.corr with groups := s.corr.groups.set g.index.val x }, mirror := { s.mirror with dirty := (s.putGroup g x).mirror.dirty } } := by
  unfold State.putGroup
  split
  · next h => subst h; exact (by unfold State.group; rw [Vector.set_getElem_self])
  · unfold State.markParent
    split
    · rfl
    · split <;> rfl

theorem term_putTerm (s : State) (n m : Fin 1024) (x : Terminal) : (s.putTerm n x).term m = if n = m then x else s.term m := by
  rw [← term_setTerm, putTerm_frame]; rfl
theorem group_putTerm (s : State) (n : Fin 1024) (x : Terminal) (g : GroupId) : (s.putTerm n x).group g = s.group g := by
  rw [putTerm_frame]; rfl
theorem map_putTerm (s : State) (n : Fin 1024) (x : Terminal) : (s.putTerm n x).map = s.map := by
  rw [putTerm_frame]
theorem term_putGroup (s : State) (g : GroupId) (x : Group) (n : Fin 1024) : (s.putGroup g x).term n = s.term n := by
  rw [putGroup_frame]; rfl
theorem time_putGroup (s : State) (g : GroupId) (x : Group) : (s.putGroup g x).time = s.time := by
  rw [putGroup_frame]
theorem cmd_putGroup (s : State) (g : GroupId) (x : Group) : (s.putGroup g x).cmd = s.cmd := by
  rw [putGroup_frame]
theorem time_putTerm (s : State) (n : Fin 1024) (x : Terminal) : (s.putTerm n x).time = s.time := by
  rw [putTerm_frame]
theorem cmd_putTerm (s : State) (n : Fin 1024) (x : Terminal) : (s.putTerm n x).cmd = s.cmd := by
  rw [putTerm_frame]

/-- From s to t at most terminal records, group records and the dirty set change. -/
def Framed (s t : State) : Prop :=
  t = { s with table := { s.table with terms := t.table.terms }, corr := { s.corr with groups := t.corr.groups },
               mirror := { s.mirror with dirty := t.mirror.dirty } }
theorem Framed.refl (s : State) : Framed s s := rfl
theorem Framed.trans {s t u : State} (a : Framed s t) (b : Framed t u) : Framed s u := by
  unfold Framed at *; rw [b]; rw [a]
theorem Framed.putTerm (s : State) (n : Fin 1024) (x : Terminal) : Framed s (s.putTerm n x) := by
  unfold Framed; rw [putTerm_frame]
theorem Framed.putGroup (s : State) (g : GroupId) (x : Group) : Framed s (s.putGroup g x) := by
  unfold Framed; rw [putGroup_frame]

/-- Dispositions set over a list of terminals. -/
theorem foldl_disp (F : State → Fin 1024 → State) (D : Terminal → Disp) 
    (hF : ∀ s n, F s n = s.putTerm n { s.term n with disp := D (s.term n) })
    (hD : ∀ t d, D { t with disp := d } = D t) (l : List (Fin 1024)) (s : State) :
    (l.foldl F s).corr = s.corr ∧ Framed s (l.foldl F s) ∧
    ∀ m, (l.foldl F s).term m = if m ∈ l then { s.term m with disp := D (s.term m) } else s.term m := by
  induction l generalizing s with
  | nil => exact ⟨rfl, .refl s, fun m => by simp⟩
  | cons n l ih =>
    rw [List.foldl_cons]
    obtain ⟨i1, i2, i3⟩ := ih (F s n)
    rw [hF] at i1 i2 i3 ⊢
    refine ⟨i1.trans (by rw [putTerm_frame]), (Framed.putTerm s n _).trans i2, fun m => ?_⟩
    rw [i3, term_putTerm]
    by_cases h1 : n = m
    · subst h1
      rw [if_pos rfl]
      simp only [hD, ite_self, List.mem_cons, true_or, if_true]
    · rw [if_neg h1]
      simp [Ne.symm h1]

/-- Raised groups of a list covered (R111). -/
theorem foldl_cover (l : List GroupId) (s : State) : (l.foldl State.coverIfRaised s).table = s.table ∧ Framed s (l.foldl State.coverIfRaised s) ∧
    ∀ h, (l.foldl State.coverIfRaised s).group h = if h ∈ l ∧ (s.group h).state.isRaised = true then { s.group h with covered := true } else s.group h := by
  induction l generalizing s with
  | nil => exact ⟨rfl, .refl s, fun h => by simp⟩
  | cons c l ih =>
    rw [List.foldl_cons]
    obtain ⟨i1, i2, i3⟩ := ih (s.coverIfRaised c)
    have e : ∀ h, (s.coverIfRaised c).group h = if h = c ∧ (s.group h).state.isRaised = true then { s.group h with covered := true } else s.group h := by
      intro h
      unfold State.coverIfRaised
      by_cases hc : (s.group c).state.isRaised = true
      · rw [if_pos hc, group_putGroup]
        by_cases hh : c = h
        · subst hh; simp [hc]
        · rw [if_neg hh, if_neg (fun (x : h = c ∧ _) => hh x.1.symm)]
      · rw [if_neg hc, if_neg (fun (x : h = c ∧ _) => hc (x.1 ▸ x.2))]
    have e1 : (s.coverIfRaised c).table = s.table := by
      unfold State.coverIfRaised; split
      · rw [putGroup_frame]
      · rfl
    have e2 : Framed s (s.coverIfRaised c) := by
      unfold State.coverIfRaised; split
      · exact .putGroup s _ _
      · exact .refl s
    refine ⟨i1.trans e1, e2.trans i2, fun h => ?_⟩
    rw [i3, e]
    by_cases h1 : h = c
    · subst h1
      by_cases h2 : (s.group h).state.isRaised = true
      · simp [h2]
      · simp [h2]
    · simp [h1]

theorem verdictDue_iff (s : State) (g : GroupId) : s.verdictDue g = true ↔
    ((s.group g).state = .gathering ∧ due s.time (s.group g).deadline = true) ∧ ¬ ∃ c ∈ s.children g, (s.group c).state = .gathering := by
  unfold State.verdictDue State.childGathering
  rw [Bool.and_eq_true, Bool.and_eq_true, beq_iff_eq, Bool.not_eq_true', List.any_eq_false]
  simp

/-- A message about a mapped terminal: its claim, tallied, is all that happens beside the path (R65). -/
theorem about_took {s : State} {tag : Tag} {r : Request} {f : StepFor} {p : Fin 16} {x : Ring} {k : MsgKind} {n : Fin 1024} {e : TermEntry}
    (h : s.About tag r f p x k n e) {c : Claimed} (hc : s.routeAs k p r.bytes = some c) :
    ∃ t, exec (messageRow tag k) s = .next t ∧ Took t (c.tallied p) tag (answered x.treatment c.answer r) := by
  obtain ⟨⟨hm, hf, hk, hcor⟩, _, _⟩ := h
  refine messageRow_took hm (.inl hk) ?_
  unfold State.judgeMessage
  rw [hf]; dsimp only
  unfold State.judgeSound
  rw [hcor, hc]; rfl

theorem answered_taken (x : Ring) (r : Request) : answered x.treatment .taken r = if x.treatment = .claim then r.withByte0 2 else r := by
  cases x.treatment <;> rfl

theorem routeTerminal_about {s : State} {p : Fin 16} {m : List Byte} {n : Fin 1024} {e : TermEntry} (h1 : s.terminalOf p (byteAt m 3) = some n)
   (h2 : s.entry? n = some e) (c : Fin 1024 → TermEntry → Claimed) : s.routeTerminal p m c = some (c n e) := by
  unfold State.routeTerminal; rw [h1]; dsimp only; rw [h2]; rfl


end Sys2Proof.Machine
end

