-- ==== Sys2Proof/Laws/Carrying.lean ====
section
/-! SUPPORT. What a slot command carried out leaves, beside what Laws/Commands says: reports and the parts of the state
they leave alone, the parameters read, and the rows of commands done or begun as operations that commute with the path. -/

namespace Sys2Proof.Machine

/-! Reports leave `corr`. -/

theorem corr_markIf (s : State) (b : Bool) (i : Nat) : (s.markIf b i).corr = s.corr := by
  unfold State.markIf; split <;> rfl

theorem corr_place (s : State) (d : Draft) : (s.place d).corr = s.corr := by unfold State.place; split <;> rfl

theorem corr_attempt (s : State) (d : Draft) : (s.attempt d).1.corr = s.corr := by
  have h1 : s.countLost.corr = s.corr := corr_markIf _ _ _
  unfold State.attempt
  split
  · rfl
  · split
    · exact h1
    · split
      · exact corr_place s d
      · split
        · exact (corr_place _ _).trans h1
        · exact h1

theorem corr_afterSync (s : State) (f : SyncFlags) : (s.afterSync f).corr = s.corr := by
  obtain ⟨v, e1, e2, _⟩ := afterSync_eq s f
  rw [e1, e2]

theorem corr_makeSync (s : State) (f : SyncFlags) (o : Origin) : (s.makeSync f o).1.corr = s.corr := by
  unfold State.makeSync
  dsimp only
  split
  · exact (corr_afterSync _ _).trans (corr_attempt _ _)
  · exact corr_attempt _ _

theorem corr_makeReport (s : State) (d : Draft) : (s.makeReport d).corr = s.corr := by
  unfold State.makeReport
  dsimp only
  split
  · unfold State.cadence
    split
    · exact (corr_makeSync _ _ _).trans (corr_attempt _ _)
    · exact corr_attempt _ _
  · exact corr_attempt _ _

theorem corr_reportDone (s : State) (b : List Byte) (k : Kind) (c : Code) (n : Nat) :
    (s.reportDone b k c n).corr = s.corr := by
  unfold State.reportDone
  split
  · rfl
  · split
    · exact corr_makeReport _ _
    · rfl

/-! Reports leave `cmd`. -/

theorem cmd_markIf (s : State) (b : Bool) (i : Nat) : (s.markIf b i).cmd = s.cmd := by
  unfold State.markIf; split <;> rfl

theorem cmd_place (s : State) (d : Draft) : (s.place d).cmd = s.cmd := by unfold State.place; split <;> rfl

theorem cmd_attempt (s : State) (d : Draft) : (s.attempt d).1.cmd = s.cmd := by
  have h1 : s.countLost.cmd = s.cmd := cmd_markIf _ _ _
  unfold State.attempt
  split
  · rfl
  · split
    · exact h1
    · split
      · exact cmd_place s d
      · split
        · exact (cmd_place _ _).trans h1
        · exact h1

theorem cmd_afterSync (s : State) (f : SyncFlags) : (s.afterSync f).cmd = s.cmd := by
  obtain ⟨v, e1, e2, _⟩ := afterSync_eq s f
  rw [e1, e2]

theorem cmd_makeSync (s : State) (f : SyncFlags) (o : Origin) : (s.makeSync f o).1.cmd = s.cmd := by
  unfold State.makeSync
  dsimp only
  split
  · exact (cmd_afterSync _ _).trans (cmd_attempt _ _)
  · exact cmd_attempt _ _

theorem cmd_makeReport (s : State) (d : Draft) : (s.makeReport d).cmd = s.cmd := by
  unfold State.makeReport
  dsimp only
  split
  · unfold State.cadence
    split
    · exact (cmd_makeSync _ _ _).trans (cmd_attempt _ _)
    · exact cmd_attempt _ _
  · exact cmd_attempt _ _

theorem cmd_reportDone (s : State) (b : List Byte) (k : Kind) (c : Code) (n : Nat) :
    (s.reportDone b k c n).cmd = s.cmd := by
  unfold State.reportDone
  split
  · rfl
  · split
    · exact cmd_makeReport _ _
    · rfl

theorem corr_watch (s : State) (m : Trigger → Bool) : (s.watch m).corr = s.corr := by
  unfold State.watch
  split
  · rfl
  · split
    · unfold State.fallDue
      split
      · rfl
      · split <;> rfl
    · rfl

theorem stormIn_stormChange (s : State) (b : Bool) (o : Origin) : (s.stormChange b o).corr.stormIn = b := by
  unfold State.stormChange
  rw [corr_watch]
  have h1 : (s.putStorm b).corr.stormIn = b := by
    unfold State.putStorm; split
    · next h => exact h
    · rfl
  have h2 : ∀ u : State, (u.reportStorm b o).corr.stormIn = u.corr.stormIn := by
    intro u
    unfold State.reportStorm
    split
    · rw [corr_makeReport]
    · split
      · rw [corr_makeReport]
        unfold State.putStormArmed; split <;> rfl
      · rfl
  rw [h2, h1]

/-! Marks and parameters. -/

theorem insertIndex_idem (i : Nat) (l : List Nat) : insertIndex i (insertIndex i l) = insertIndex i l := by
  induction l with
  | nil => simp [insertIndex]
  | cons j l ih =>
    by_cases h1 : i < j
    · simp [insertIndex, h1]
    · by_cases h2 : i = j
      · subst h2; simp [insertIndex]
      · simp only [insertIndex, if_neg h1, if_neg h2, ih]

theorem inRange_iff (lo hi v : Nat) : inRange lo hi v = true ↔ lo ≤ v ∧ v ≤ hi := by
  unfold inRange; simp

theorem reporting_settings (b : List Byte) (c : Settings) (h : setReportingOk b = true) :
   ((slotStormMode b).getD c.stormMode = if byteAt b 10 = 1 then .single else .every) ∧
   ((slotBrownoutMode b).getD c.brownoutMode = if byteAt b 11 = 0 then .none else if byteAt b 11 = 1 then .single else .every) ∧
   ((slotOffReports b).getD c.offReports = (byteAt b 12 == 1)) := by
  unfold setReportingOk slotStormMode slotBrownoutMode slotOffReports at h
  unfold slotStormMode slotBrownoutMode slotOffReports
  generalize byteAt b 10 = x at *
  generalize byteAt b 11 = y at *
  generalize byteAt b 12 = z at *
  rw [Bool.and_eq_true, Bool.and_eq_true] at h
  obtain ⟨⟨h1, h2⟩, h3⟩ := h
  refine ⟨?_, ?_, ?_⟩
  · split at h1 <;> simp at h1 <;> rfl
  · split at h2 <;> simp at h2 <;> rfl
  · split at h3 <;> simp at h3 <;> rfl

theorem slotTerminal_eq {b : List Byte} {n : Fin 1024} (h : n.val = leAt b 10 2) : slotTerminal b = n := by
  unfold slotTerminal
  apply Fin.ext
  rw [← h]
  exact Nat.mod_eq_of_lt n.isLt

theorem meets_iff (a b c d : Nat) : rangesOverlap a b c d = true ↔ a < c + d ∧ c < a + b := by
  unfold rangesOverlap; simp

theorem taken_iff (s : State) (a : Anchor) (p : Fin 16) (x : Ring) (ha : s.ctl.anchor = some a) :
   (s.takenAreas p).any (fun q => rangesOverlap x.area.1 x.area.2 q.1 q.2) = true ↔
    ((∃ q y, q ≠ p ∧ s.ring q = some y ∧ (x.base.toNat < y.base.toNat + 16 * y.slots ∧ y.base.toNat < x.base.toNat + 16 * x.slots)) ∨
        (∃ area ∈ a.areas, x.base.toNat < area.1 + area.2 ∧ area.1 < x.base.toNat + 16 * x.slots) ∨ 
        (x.base.toNat < s.ctl.anchorAddr.toNat + 64 ∧ s.ctl.anchorAddr.toNat < x.base.toNat + 16 * x.slots)) := by
  unfold State.takenAreas
  rw [ha]
  simp only [List.any_append, Bool.or_eq_true, List.any_eq_true, meets_iff, or_assoc]
  refine or_congr ?_ (or_congr Iff.rfl ?_)
  · constructor
    · rintro ⟨z, hz, h⟩
      rw [List.mem_filterMap] at hz
      obtain ⟨q, hq, e⟩ := hz
      rw [List.mem_filter] at hq
      cases hy : s.ring q with
      | none => rw [hy] at e; cases e
      | some y =>
        rw [hy] at e
        cases e
        exact ⟨q, y, by simpa using hq.2, hy, h⟩
    · rintro ⟨q, y, hq, hy, h⟩
      refine ⟨y.area, ?_, h⟩
      rw [List.mem_filterMap]
      exact ⟨q, List.mem_filter.mpr ⟨List.mem_finRange q, by simpa using hq⟩, by rw [hy]; rfl⟩
  · simp
    rfl

theorem slotRing_eq {m : Mode} {b : List Byte} (h : paramsOk .setIntake m b = true) :
   slotRing b = (Ring.mk (BitVec.ofNat 40 (leAt b 11 5)) (leAt b 16 2) (Fin.ofNat 32 (byteAt b 18))
      (if byteAt b 19 = 1 then .observe else .claim)) := by
  have h2 : setIntakeOk b = true := h
  unfold setIntakeOk at h2
  have h3 : (intakeTreatment b).isSome = true := by
    simp only [Bool.and_eq_true] at h2; exact h2.1.2
  unfold slotRing intakeBase intakeSlots
  unfold intakeTreatment at h3 ⊢
  generalize byteAt b 19 = x at h3 ⊢
  split at h3 <;> simp at h3 <;> rfl

theorem progress_of {s : State} {addr : Addr} {e : InProgress} (h : s.progress addr = some e) : s.progressSlot addr = e.slot := by
  unfold State.progressSlot; rw [h]

theorem putMode_ne {s : State} {m : Mode} (h : s.ctl.mode ≠ m) : s.putMode m = { s with ctl := { s.ctl with mode := m } }.mark 1280 := by
  unfold State.putMode
  rw [if_neg h]; rfl

theorem mem_foldl_markTally (l : List (Fin 16)) (s : State) (i : Nat) :
    i ∈ (l.foldl State.markTally s).mirror.dirty ↔ i ∈ s.mirror.dirty ∨ ∃ p ∈ l, i = 1264 + p.val := by
  induction l generalizing s with
  | nil => simp
  | cons p l ih =>
    rw [List.foldl_cons, ih, show (i ∈ (s.markTally p).mirror.dirty ↔ i = 1264 + p.val ∨ i ∈ s.mirror.dirty) from mem_insertIndex]
    simp only [List.mem_cons, exists_eq_or_imp]
    rw [or_comm (a := i = 1264 + p.val), or_assoc]

theorem foldl_markTally_eq (l : List (Fin 16)) (s : State) :
    l.foldl State.markTally s = { s with mirror := { s.mirror with dirty := (l.foldl State.markTally s).mirror.dirty } } := by
  induction l generalizing s with
  | nil => rfl
  | cons p l ih =>
    rw [List.foldl_cons]
    have e := ih (s.markTally p)
    generalize l.foldl State.markTally (s.markTally p) = w at *
    rw [e]; rfl

/-! Completions. -/

/-- The completion report leaves the in-progress list, so the final write-back and the end of BUSY are as said. -/
theorem finish_eq {s : State} {addr : Addr} {e : InProgress} (h : s.progress addr = some e) (st : SlotState) (c : Code)
    (n : Nat) :
    (s.finalWriteBack addr st c n).leaveBusy = (let v := s.enqueue (.writeBack addr (writeBackBytes e.slot st c e.overwritten n))
      { v with cmd := { v.cmd with unit := if v.cmd.due = [] then .idle else .actions,
                                   inProgress := v.cmd.inProgress.filter (fun x => x.addr != addr) } }) := by
  unfold State.finalWriteBack
  rw [h]
  unfold State.leaveBusy State.writeBack State.endProgress State.setUnit
  dsimp only
  cases hd : s.cmd.due with
  | nil => simp [State.enqueue, hd]
  | cons a l => simp [State.enqueue, hd]

theorem progress_reportDone (s : State) (b : List Byte) (k : Kind) (c : Code) (n : Nat) (addr : Addr) :
    (s.reportDone b k c n).progress addr = s.progress addr := by
  unfold State.progress; rw [cmd_reportDone]

/-! Rows. -/

theorem putRing_withPath (s : State) (p : Path) (n : Fin 16) (x : Option Ring) :
    (s.withPath p).putRing n x = (s.putRing n x).withPath p := by
  unfold State.putRing
  rw [ring_withPath]
  split
  · rfl
  · exact markTally_withPath { s with intake := { s.intake with rings := s.intake.rings.set n.val x } } p n

theorem putRing_path (s : State) (n : Fin 16) (x : Option Ring) : (s.putRing n x).path = s.path :=
  path_of_commutes (f := fun s => s.putRing n x) (putRing_withPath s s.path n x)

theorem zeroTallies_withPath (s : State) (p : Path) : (s.withPath p).zeroTallies = s.zeroTallies.withPath p := by
  unfold State.zeroTallies
  exact foldl_withPath p State.markTally (fun s a => markTally_withPath s p a) (List.finRange 16)
    { s with intake := { s.intake with tallies := Vector.replicate 16 Tally.zero } }

/-- A NOW command done by operations that commute with the path: the row's next state. -/
theorem now_done {s : State} {tag : Tag} {r : Request} {f : StepFor} {k : Kind} (h : s.NowWrite tag r f k) {u : State}
    {data : Nat} (hc : ∀ p, carryOf k (s.withPath p) r.bytes r.addr (commandOrigin .command r.bytes) = (u.withPath p, .done data))
    (hu : u.path = s.path) :
    ∃ t, exec (slotRow tag k) s = .next t ∧
      Took t (u.enqueue (.writeBack r.addr (writeBackBytes r.bytes .done .done false data))) tag r :=
  exec_now_done h (hc (s.popLane tag).path) hu

/-- A NOW command begun by operations that commute with the path: the row's next state. -/
theorem began {s : State} {tag : Tag} {r : Request} {f : StepFor} {k : Kind} (h : s.NowWrite tag r f k) {u : State}
    (hc : ∀ p, carryOf k (s.withPath p) r.bytes r.addr (commandOrigin .command r.bytes) = (u.withPath p, .begun))
    (hu : u.path = s.path) : ∃ t, exec (slotRow tag k) s = .next t ∧ Took t u tag r :=
  exec_now_begun h (hc (s.popLane tag).path) hu

end Sys2Proof.Machine
end

