-- ==== Sys2Proof/Laws/Facts.lean ====
section
/-! SUPPORT. Smaller facts about reports, images, the load window, contact lines and judged slot writes. -/

namespace Sys2Proof.Machine

theorem pow2_iff (n : Nat) : powerOfTwoIn n 4 12 = true ↔ ∃ k, 4 ≤ k ∧ k ≤ 12 ∧ n = 2 ^ k := by
  unfold powerOfTwoIn
  rw [List.any_eq_true]
  constructor
  · rintro ⟨k, hk, h⟩
    rw [List.mem_range'_1] at hk
    exact ⟨k, hk.1, by omega, by simpa using h⟩
  · rintro ⟨k, h1, h2, h⟩
    exact ⟨k, by rw [List.mem_range'_1]; omega, by simpa using h⟩

theorem anyOverlap_false (l : List (Nat × Nat)) : anyOverlap l = false ↔
    l.Pairwise (fun p q => ¬(p.1 < q.1 + q.2 ∧ q.1 < p.1 + p.2)) := by
  induction l with
  | nil => simp [anyOverlap]
  | cons x l ih =>
    rw [List.pairwise_cons, ← ih]
    rw [anyOverlap, Bool.or_eq_false_iff, List.any_eq_false]
    simp [rangesOverlap]

theorem port_record (p : Fin 16) : (GroupId.port p).record = 1184 + p.val := by
  show 1024 + (160 + p.val) = _; omega

theorem fault_eq (s : State) (p : Fin 16) (k : FaultKind) (word : BitVec 32) : s.reportFault p k word =
    if s.faultMark p = true then s
    else (s.makeReport { origin := { source := .engine, word := word }, subject := some (1184 + p.val),
                         payload := .intakeFault p k }).putFaultMark p true := by
  rw [← port_record]; rfl

/-- The beats of a run, numbered from n on, that lie inside the window: all of them, or none. -/
theorem zip_inside {f : Nat → Bool} (l : List Beat) (n : Nat) :
    ((∀ k < l.length, f (n + k) = true) → (((l.zipIdx n).filter (fun x => f x.2)).map (fun x => x.1)) = l) ∧
    ((∀ k < l.length, f (n + k) = false) → (l.zipIdx n).filter (fun x => f x.2) = []) := by
  have key : ∀ x ∈ l.zipIdx n, ∃ k < l.length, x.2 = n + k := by
    rintro ⟨b, k⟩ hx
    have h1 := List.le_snd_of_mem_zipIdx hx
    have h2 := List.snd_lt_add_of_mem_zipIdx hx
    exact ⟨k - n, by dsimp only at h1 h2; omega, by dsimp only at h1 ⊢; omega⟩
  constructor
  · intro h
    rw [List.filter_eq_self.mpr]
    · exact List.zipIdx_map_fst n l
    · intro x hx
      obtain ⟨k, hk, e⟩ := key x hx
      rw [e]; exact h k hk
  · intro h
    rw [List.filter_eq_nil_iff]
    intro x hx
    obtain ⟨k, hk, e⟩ := key x hx
    rw [e, h k hk]; decide

/-- A write across the window's edges gives the beats between them (R8, R42). -/
theorem windowBeats_split {a : Anchor} {r : Request} {outer inner after : List Beat} (h : r.beats = outer ++ inner ++ after)
    (inside : Nat → Prop) (hi : ∀ k, inside k ↔ a.windowBase.toNat ≤ r.addr.toNat + 8 * k ∧
      r.addr.toNat + 8 * k + 8 ≤ a.windowBase.toNat + 4096)
    (h1 : ∀ k < outer.length, ¬inside k) (h2 : ∀ k < inner.length, inside (outer.length + k))
    (h3 : ∀ k < after.length, ¬inside (outer.length + inner.length + k)) : windowBeats a r = inner := by
  have hf : ∀ k, (decide (a.windowBase.toNat ≤ r.addr.toNat + 8 * k) &&
      decide (r.addr.toNat + 8 * k + 8 ≤ a.windowBase.toNat + windowSize)) = true ↔ inside k := by
    intro k
    rw [hi, Bool.and_eq_true, decide_eq_true_eq, decide_eq_true_eq]; rfl
  have hn : ∀ k, ¬inside k → (decide (a.windowBase.toNat ≤ r.addr.toNat + 8 * k) &&
      decide (r.addr.toNat + 8 * k + 8 ≤ a.windowBase.toNat + windowSize)) = false := by
    intro k hk
    rw [← Bool.not_eq_true]; exact fun e => hk ((hf k).mp e)
  generalize hg : (fun k => decide (a.windowBase.toNat ≤ r.addr.toNat + 8 * k) &&
      decide (r.addr.toNat + 8 * k + 8 ≤ a.windowBase.toNat + windowSize)) = f at hf hn
  have e : windowBeats a r = ((r.beats.zipIdx.filter (fun x => f x.2)).map (fun x => x.1)) := by
    rw [← hg]; rfl
  have hf' : ∀ k, inside k → f k = true := fun k hk => by rw [← hg]; exact (hf k).mpr hk
  have hn' : ∀ k, ¬inside k → f k = false := fun k hk => by rw [← hg]; exact hn k hk
  rw [e, h, List.zipIdx_append, List.zipIdx_append, List.filter_append, List.filter_append,
    (zip_inside outer 0).2 (fun k hk => by rw [Nat.zero_add]; exact hn' _ (h1 k hk)),
    (zip_inside after _).2 (fun k hk => by
      rw [List.length_append, Nat.zero_add]; exact hn' _ (h3 k hk)), List.nil_append, List.append_nil,
    (zip_inside inner _).1 (fun k hk => by rw [Nat.zero_add]; exact hf' _ (h2 k hk))]

theorem beats_length (r : Request) : r.beats.length ≤ r.body.beatCount := by
  unfold Request.beats Body.beatCount
  cases r.body <;> simp

theorem captureWrite_path (s : State) (r : Request) : (s.captureWrite r).path = s.path :=
  path_of_commutes (f := fun s => s.captureWrite r) (captureWrite_withPath s s.path r)

theorem handOver_path (s : State) (f : StepFor) : (s.handOver f).path = s.path :=
  path_of_commutes (f := fun s => s.handOver f) (handOver_withPath s s.path f)

theorem anyEqualPair_iff {α : Type} [DecidableEq α] (l : List α) : anyEqualPair l = false ↔ l.Pairwise (· ≠ ·) := by
  induction l with
  | nil => simp [anyEqualPair]
  | cons a l ih =>
    rw [List.pairwise_cons, ← ih]
    rw [show anyEqualPair (a :: l) = (l.contains a || anyEqualPair l) from rfl]
    simp only [Bool.or_eq_false_iff, List.contains_eq_mem, decide_eq_false_iff_not]
    refine and_congr ?_ Iff.rfl
    constructor
    · intro h b hb e; exact h (e ▸ hb)
    · intro h hb; exact h a hb rfl

theorem activated_get (s : State) (m : Nat) (n : Fin 1024) : (s.activatedTerms m)[n.val] = if n.val < m then
          { Terminal.unlisted with state := .up, lastChange := s.time } else s.term n := by
  unfold State.activatedTerms
  rw [Vector.getElem_ofFn]
  rfl

theorem mem_foldl_mark (l : List Nat) (s : State) (i : Nat) : i ∈ (l.foldl State.mark s).mirror.dirty ↔ i ∈ s.mirror.dirty ∨ i ∈ l := by
  induction l generalizing s with
  | nil => simp
  | cons a l ih =>
    rw [List.foldl_cons, ih, show (i ∈ (s.mark a).mirror.dirty ↔ i = a ∨ i ∈ s.mirror.dirty) from mem_insertIndex, List.mem_cons]
    rw [or_comm (a := i = a), or_assoc]

theorem foldl_mark_eq (l : List Nat) (s : State) : l.foldl State.mark s = { s with mirror := { s.mirror with dirty := (l.foldl State.mark s).mirror.dirty } } := by
  induction l generalizing s with
  | nil => rfl
  | cons p l ih =>
    rw [List.foldl_cons]
    have e := ih (s.mark p)
    generalize l.foldl State.mark (s.mark p) = w at *
    rw [e]; rfl

/-! The map checks (R45). -/

theorem not_any_range (n : Nat) (p : Nat → Bool) : ¬ (List.range n).any p = true ↔ ∀ k < n, p k = false := by
  simp [List.any_eq_true]

theorem imageBadReference_iff (b : List Byte) : imageBadReference b = false ↔
    (∀ k < imageTaps b, imageTapRiser b k < imageRisers b) ∧ (∀ k < imageRisers b, imageRiserPort b k ≤ 15) ∧
      ∀ k < imageTerminals b, imageTermTap b k < imageTaps b ∧ imageTermZone b k < imageZones b ∧
        imageTermPort b k ≤ 15 ∧ imageTermLocal b k ≤ 127 := by
  unfold imageBadReference
  rw [← Bool.not_eq_true, Bool.or_eq_true, Bool.or_eq_true, not_or, not_or, not_any_range, not_any_range, not_any_range,
    and_assoc]
  simp only [Bool.or_eq_false_iff, decide_eq_false_iff_not, Nat.not_le, Nat.not_lt, and_assoc]

theorem not_any_finRange (n : Nat) (p : Fin n → Bool) : ¬ (List.finRange n).any p = true ↔ ∀ k, p k = false := by
  simp [List.any_eq_true]

theorem countP_eq {α β : Type} [DecidableEq β] (l : List α) (f : α → β) (k : β) :
    l.countP (fun e => f e == k) = l.countP (fun e => decide (f e = k)) :=
  List.countP_congr fun e _ => by simp

theorem mapBadTree_iff (m : BuildingMap) : mapBadTree m = false ↔
    (∀ e ∈ m.terminals, ∃ r, m.taps[e.tap.val]? = some r ∧ m.risers[r.val]? = some e.port) ∧
      (∀ k, m.terminals.countP (fun e => decide (e.tap = k)) ≤ 32) ∧
      (∀ k, m.taps.countP (fun r => decide (r = k)) ≤ 16) ∧ (∀ k, m.risers.countP (fun p => decide (p = k)) ≤ 8) ∧
      ∀ k, m.terminals.countP (fun e => decide (e.zone = k)) ≤ 64 := by
  unfold mapBadTree
  rw [← Bool.not_eq_true, Bool.or_eq_true, Bool.or_eq_true, Bool.or_eq_true, Bool.or_eq_true, not_or, not_or, not_or, not_or,
    not_any_finRange, not_any_finRange, not_any_finRange, not_any_finRange, and_assoc, and_assoc, and_assoc]
  simp only [decide_eq_false_iff_not, Nat.not_lt]
  have h1 : ∀ k, m.terminals.countP (fun e => e.tap == k) = m.terminals.countP (fun e => decide (e.tap = k)) :=
    countP_eq m.terminals (fun e => e.tap)
  have h2 : ∀ k, m.taps.countP (fun r => r == k) = m.taps.countP (fun r => decide (r = k)) := countP_eq m.taps (fun r => r)
  have h3 : ∀ k, m.risers.countP (fun r => r == k) = m.risers.countP (fun r => decide (r = k)) :=
    countP_eq m.risers (fun r => r)
  have h4 : ∀ k, m.terminals.countP (fun e => e.zone == k) = m.terminals.countP (fun e => decide (e.zone = k)) :=
    countP_eq m.terminals (fun e => e.zone)
  simp only [h1, h2, h3, h4]
  refine and_congr_left fun _ => ?_
  rw [List.any_eq_true]
  constructor
  · intro h e he
    cases ht : m.taps[e.tap.val]? with
    | none => exact absurd ⟨e, he, by rw [ht]⟩ h
    | some r =>
      refine ⟨r, rfl, ?_⟩
      by_cases hr : m.risers[r.val]? = some e.port
      · exact hr
      · exact absurd ⟨e, he, by rw [ht]; simpa using hr⟩ h
  · rintro h ⟨e, he, hb⟩
    obtain ⟨r, h5, h6⟩ := h e he
    rw [h5] at hb
    simp [h6] at hb

theorem filter_due (l : List DueAction) : (l.filter (fun a => a != DueAction.deferred)).filter (fun a => a == .deferred) = [] := by
  rw [List.filter_filter, List.filter_eq_nil_iff]
  intro a _
  simp only [Bool.and_eq_true, bne_iff_ne, beq_iff_eq]
  rintro ⟨h1, h2⟩
  exact h2 h1

theorem emptyLines_flush (v : State) : v.flushDeferred.emptyLines = { v with cmd := { v.cmd with
      inProgress := v.cmd.inProgress.filter (fun e => !v.cmd.deferred.any (fun d => d.addr == e.addr)),
      deferred := [], lineA := v.cmd.lineA.emptied, lineB := v.cmd.lineB.emptied, due := [] } } := by
  have h := filter_due v.cmd.due
  simp only [State.emptyLines, State.flushDeferred, h]

theorem judged {s u : State} {tag : Tag} {r : Request} {f : StepFor} {k : Kind} (h : s.Admitted tag r f) (hc : f.command = true)
    (hk : slotKind r.bytes = some k)
    (hu : (s.popLane tag).judge k (fun s => carryOf k s r.bytes r.addr (commandOrigin .command r.bytes)) r.addr r.bytes =
      u.withPath (s.popLane tag).path) (hp : u.path = s.path) :
    Took (s.takeCommand tag k (carryOf k)) u tag r := takeCommand_took h hc hk hu hp

theorem due_path (s : State) : s.examineHead.path = s.path := path_of_commutes (f := fun s => s.examineHead) (examineHead_withPath s s.path)

theorem line_setLine (s : State) (l : Line) (u : LineUnit) : (s.setLine l u).line l = u := by cases l <;> rfl

theorem setLine_setLine (s : State) (l : Line) (u v : LineUnit) : (s.setLine l u).setLine l v = s.setLine l v := by cases l <;> rfl

theorem line_watch (s : State) (m : Trigger → Bool) (l : Line) : (s.watch m).line l = s.line l := by
  unfold State.watch
  split
  · rfl
  · split
    · unfold State.fallDue
      split
      · rfl
      · split <;> (cases l <;> rfl)
    · rfl

theorem endActions_eq (u : State) : u.endActions = if u.cmd.due = [] then { u with cmd := { u.cmd with unit := .idle } } else u := by
  unfold State.endActions
  cases u.cmd.due <;> simp [State.setUnit]

theorem ready_actions {s : State} {P : Prop} (h : s.ready = false ∨ s.cmd.unit ≠ .actions) : (s.ready && s.cmd.unit.inActions) = false := by
  rcases h with h | h
  · simp [h]
  · cases hu : s.cmd.unit <;> simp [UnitState.inActions]
    exact absurd hu h

theorem ready_actions' {s : State} (h : s.ready = true) (h2 : s.cmd.unit = .actions) : (s.ready && s.cmd.unit.inActions) = true := by
  rw [h, h2]; rfl

end Sys2Proof.Machine
end

