-- ==== Sys2Proof/Laws/Lanes.lean ====
section
/-! SUPPORT. How the path unit flows and settles, and what an answer does to the requests under way: the lemmas about lanes,
held reads and the issue order. -/

namespace Sys2Proof.Machine

theorem released_keeps (s : State) (straps : Straps) : (s.released straps).flow.pending = s.pending := by
  rw [(Keeps.flow _).pending]; rfl

theorem released_sound (s : State) (straps : Straps) (h : s.pathSound) :
    (s.released straps).mirrorSound ∧ (s.released straps).pathSound ∧ (s.released straps).storesSound ∧ (s.released straps).ringSound := by
  refine ⟨⟨?_, ?_, ?_⟩, ⟨?_, ?_, ?_, ?_, ?_, ?_, ?_⟩, ⟨?_, ?_, ?_⟩, ?_⟩
  · exact List.Pairwise.nil
  · intro i h; cases h
  · exact Nat.zero_lt_succ _
  · intro t
    show ((s.path.lanes.map Lane.reopen)[t.val]).reqs.length ≤ _
    rw [Vector.getElem_map]; exact h.1 t
  · exact Nat.zero_le _
  · exact Nat.zero_le _
  · exact fun _ => rfl
  · intro t
    show ∀ r ∈ ((s.path.lanes.map Lane.reopen)[t.val]).reqs, _
    rw [Vector.getElem_map]; exact h.2.2.2.2.1 t
  · intro g hg; cases hg
  · intro t m
    show (((s.path.lanes.map Lane.reopen)[t.val]).outcome = _ → _) ∧ (((s.path.lanes.map Lane.reopen)[t.val]).outcome = _ → _)
    rw [Vector.getElem_map]
    exact ⟨fun e => (by cases e), fun e => (by cases e)⟩
  · exact Nat.zero_le _
  · intro l; cases l <;> exact Nat.zero_le _
  · intro l h; cases l <;> exact absurd rfl h
  · unfold State.ringSound
    have : (s.released straps).ctl.anchor = none := by
      show (Control.released straps).anchor = none
      unfold Control.released; split <;> rfl
    rw [this]
    refine ⟨rfl, rfl, ?_, rfl⟩
    show (Control.released straps).mode = _ ∨ (Control.released straps).mode = _
    unfold Control.released; split
    · exact .inr rfl
    · exact .inl rfl

theorem tick_sound {P : State → Prop} (hp : ∀ s t, P s → P { s with time := t }) (s : State) (h : P s) : P (tick s) := by
  unfold tick; split
  · exact h
  · exact hp s _ h

theorem step_cases (s t : State) (h : step s = .next t) :
    t = tick s ∨ ∃ s', s' = { s with pending := s.pending.tail } ∧ ((Keeps s' t) ∨ (∃ st, t = (s'.released st).flow)) := by
  unfold step at h
  split at h
  · cases h; exact .inl rfl
  · next c rest hp =>
    refine .inr ⟨_, rfl, ?_⟩
    rw [hp]
    by_cases hc : ∃ st, c = .resetNRelease st
    · obtain ⟨st, rfl⟩ := hc
      cases h
      split
      · exact .inr ⟨st, rfl⟩
      · exact .inl (.refl _)
    · exact .inl (exec_keeps c _ t h (fun st e => hc ⟨st, e⟩))

/-- In reset every front passes. -/
structure Draining (s : State) : Prop where
  inReset : s.inReset = true
  fresh : ∀ t, (s.lane t).outcome = none
  served : ∀ h ∈ s.path.held, h.awaits = []

theorem draining_setLane {s : State} (h : Draining s) (t : Tag) (l : Lane) (hl : l.outcome = none) : Draining (s.setLane t l) := by
  refine ⟨h.1, fun u => ?_, h.3⟩
  by_cases e : u = t
  · subst e; rw [lane_setLane_self]; exact hl
  · rw [lane_setLane_ne _ _ _ _ e]; exact h.2 u

theorem draining_present {s : State} (h : Draining s) (t : Tag) : Draining (s.present t) := by
  unfold State.present
  split
  · exact h
  · next r rest _ =>
    have hv : s.verdict r = .pass := by unfold State.verdict; rw [h.1]; rfl
    rw [hv]
    have := draining_setLane h t { reqs := (s.lane t).reqs.tail, outcome := none } rfl
    exact ⟨this.1, this.2, this.3⟩

theorem draining_release {s : State} (h : Draining s) (i : Nat) : Draining (s.release1 i) := by
  unfold State.release1
  split
  · exact h
  · next g _ =>
    have h1 : Draining (State.enterPass { s with path := { s.path with held := s.path.held.eraseIdx i } } g.req false) :=
      ⟨h.1, h.2, fun x hx => h.3 x (List.mem_of_mem_eraseIdx hx)⟩
    refine ⟨h1.1, fun t => ?_, h1.3⟩
    have := h1.2 t
    rw [Flowed.lane_readLeft]
    unfold Lane.afterLeaving
    rw [this]; exact this

theorem draining_recheck {s : State} (h : Draining s) (t : Tag) (hm : s.recheckable t = true) : False := by
  unfold State.recheckable at hm
  rw [h.2 t] at hm
  split at hm
  · next ho => cases ho
  · cases hm
  · cases hm

theorem draining_flow {s : State} (h : Draining s) : Draining s.flow := by
  refine flow_of (fun _ _ h => ⟨h.1, h.2, h.3⟩) (fun s m h hk => ?_) s h
  unfold State.moves at hk
  simp only [List.mem_append, List.mem_map, List.mem_filter] at hk
  rcases hk with ⟨t, _, rfl⟩ | ⟨t, ht, rfl⟩ | ⟨i, _, rfl⟩
  · exact draining_present h t
  · exact (draining_recheck h t ht.2).elim
  · exact draining_release h i

theorem drained {s : State} (h : Draining s) (hm : s.moves = []) : s.path.held = [] ∧ ∀ t, (s.lane t).reqs = [] := by
  rw [settled_iff] at hm
  have hh : s.path.held = [] := by
    cases hc : s.path.held with
    | nil => rfl
    | cons g l =>
      have h0 := hm.2.2 0 (by rw [hc]; simp)
      unfold State.releasable at h0
      have ha := h.3 g (by rw [hc]; simp)
      rw [hc] at h0
      simp [ha] at h0
  refine ⟨hh, fun t => ?_⟩
  have ht := hm.1 t
  unfold State.presentable at ht
  cases hr : (s.lane t).reqs with
  | nil => rfl
  | cons r l =>
    rw [hr, h.2 t] at ht
    simp [State.tagHeld, hh] at ht

theorem verdict_withPath (s : State) (p : Path) (r : Request) : (s.withPath p).verdict r = s.verdict r := rfl

theorem verdict_setLane (s : State) (t : Tag) (l : Lane) (r : Request) : (s.setLane t l).verdict r = s.verdict r := rfl

theorem presentable_other (s : State) (t u : Tag) (l : Lane) (h : u ≠ t) : (s.setLane t l).presentable u = s.presentable u := by
  unfold State.presentable
  rw [lane_setLane_ne _ _ _ _ h]
  rfl

theorem releasable_setLane (s : State) (t : Tag) (l : Lane) (i : Nat) : (s.setLane t l).releasable i = s.releasable i := rfl

theorem setLane_same (s : State) (t : Tag) : s.setLane t (s.lane t) = s := by
  unfold State.setLane State.lane
  have : s.path.lanes.set t.val s.path.lanes[t.val] = s.path.lanes := by
    exact Vector.set_getElem_self _
  rw [this]

theorem setLane_setLane (s : State) (t : Tag) (l m : Lane) : (s.setLane t l).setLane t m = s.setLane t m := by
  unfold State.setLane
  dsimp only
  have : (s.path.lanes.set t.val l).set t.val m = s.path.lanes.set t.val m := by
    exact Vector.set_set ..
  rw [this]

theorem recheckable_other (s : State) (t u : Tag) (l : Lane) (h : u ≠ t) :
    (s.setLane t l).recheckable u = s.recheckable u := by
  unfold State.recheckable
  rw [lane_setLane_ne _ _ _ _ h]

/-- The moves when only the front of lane t, not yet classified, is presentable. -/
theorem moves_one (s : State) (t : Tag) (l : Lane) (hm : s.moves = []) (ho : l.outcome = none)
    (hp : (s.setLane t l).presentable t = true) : (s.setLane t l).moves = [.present t] := by
  obtain ⟨h1, h3, h2⟩ := (settled_iff s).mp hm
  unfold State.moves
  have e1 : (List.finRange 32).filter (s.setLane t l).presentable = [t] := by
    have : ∀ u, (s.setLane t l).presentable u = (u == t) := by
      intro u
      by_cases e : u = t
      · subst e; rw [hp]; simp
      · rw [presentable_other _ _ _ _ e, h1 u]; simp [e]
    have : (s.setLane t l).presentable = fun u => u == t := funext this
    rw [this]
    have key : ∀ t : Tag, (List.finRange 32).filter (fun u => u == t) = [t] := by decide
    exact key t
  have e3 : (List.finRange 32).filter (s.setLane t l).recheckable = [] := by
    rw [List.filter_eq_nil_iff]
    intro u _
    by_cases e : u = t
    · subst e
      unfold State.recheckable
      rw [lane_setLane_self, ho]
      cases l.reqs <;> simp
    · rw [recheckable_other _ _ _ _ e, h3 u]; decide
  have e2 : (List.range (s.setLane t l).path.held.length).filter (s.setLane t l).releasable = [] := by
    rw [List.filter_eq_nil_iff]
    intro i hi
    rw [releasable_setLane, h2 i (List.mem_range.mp hi)]; decide
  rw [e1, e2, e3]; rfl

theorem flow_one (s : State) (t : Tag) (h1 : s.moves = [.present t]) (h2 : (s.present t).moves = []) : s.flow = s.present t := by
  show State.flowN 432 s = _
  unfold State.flowN
  rw [h1]
  simp only [List.isEmpty_cons, Bool.false_eq_true, if_false]
  have : s.pickMove = s.present t := by
    unfold State.pickMove
    rw [h1]; rfl
  rw [this]
  unfold State.flowN
  rw [h2]; rfl

/-- A lane whose front stays, in a path where nothing moves. -/
theorem settled_setLane {s : State} {t : Tag} {l : Lane} (hm : s.moves = []) (hp : (s.setLane t l).presentable t = false)
    (hr : (s.setLane t l).recheckable t = false) : (s.setLane t l).moves = [] := by
  obtain ⟨h1, h3, h2⟩ := (settled_iff s).mp hm
  rw [settled_iff]
  refine ⟨fun u => ?_, fun u => ?_, fun i hi => h2 i hi⟩
  · by_cases e : u = t
    · subst e; exact hp
    · rw [presentable_other _ _ _ _ e]; exact h1 u
  · by_cases e : u = t
    · subst e; exact hr
    · rw [recheckable_other _ _ _ _ e]; exact h3 u

theorem presentable_some {s : State} {t : Tag} {x : Mode × Verdict} (h : (s.lane t).outcome = some x) :
    s.presentable t = false := by
  unfold State.presentable
  rw [h]
  split
  · next ho => cases ho
  · rfl
  · rfl

theorem recheckable_eq {s : State} {t : Tag} {m : Mode} {v : Verdict} (h : (s.lane t).outcome = some (m, v))
    (hv : v ≠ .mirrorCheck .again) : s.recheckable t = false := by
  unfold State.recheckable
  rw [h]
  split
  · next ho => cases ho; simpa using hv
  · next ho => cases ho
  · rfl

/-- Classification never gives a stage but the first. -/
theorem verdict_stage (s : State) (r : Request) (g : ReadStage) (h : s.verdict r = .mirrorCheck g) : g = .presented := by
  unfold State.verdict StepFor.verdict at h
  repeat' split at h
  all_goals first | (cases h; done) | (cases h; rfl)

/-- The rows of step writes take the front of their lane by `takeStep`. -/
theorem stepRows_takeStep {t : Tag} {c : Instr} (h : c ∈ stepRows t) :
    ∃ (fits : StepFor → Request → Bool) (act : StepFor → State → Request → State × Request),
      ∀ s, exec c s = .next (s.takeStep t fits act) := by
  simp only [stepRows, List.mem_cons, List.not_mem_nil, or_false] at h
  rcases h with rfl | rfl | rfl | rfl | rfl | rfl | rfl | rfl | rfl | rfl | rfl | rfl | rfl | rfl | rfl | rfl | rfl | rfl |
    rfl | rfl | rfl | rfl | rfl | rfl | rfl | rfl | rfl | rfl | rfl <;> exact ⟨_, _, fun _ => rfl⟩

/-- A step write for which the engine has no room stays (R9). -/
theorem takeStep_waits {s : State} {t : Tag} {r : Request} {f : StepFor} {fits : StepFor → Request → Bool}
    {act : StepFor → State → Request → State × Request} (h : s.Front t r (.step f)) (ha : s.admits f = false) :
    s.takeStep t fits act = s := by
  unfold State.takeStep
  simp only [examine_front h, front_eq h, ha, Bool.and_false, Bool.false_eq_true, if_false]

theorem mirrorOn_true {s : State} (h1 : s.inReset = false) (h2 : s.ctl.mode ≠ .detached) (h3 : s.ctl.anchor ≠ none) : s.mirrorOn = true := by
  unfold State.mirrorOn
  rw [h1]
  cases ha : s.ctl.anchor with
  | none => exact absurd ha h3
  | some a => simpa using h2

theorem find?_rising (l : List Nat) (c : Nat) (h : l.Pairwise (· < ·)) (i : Nat) (hf : l.find? (fun i => decide (c ≤ i)) = some i) :
    i ∈ l ∧ c ≤ i ∧ ∀ j ∈ l, c ≤ j → i ≤ j := by
  induction l with
  | nil => cases hf
  | cons a l ih =>
    rw [List.pairwise_cons] at h
    rw [List.find?_cons] at hf
    split at hf
    · next hc =>
      cases hf
      refine ⟨by simp, by simpa using hc, fun j hj _ => ?_⟩
      rcases List.mem_cons.mp hj with rfl | hj
      · exact Nat.le_refl _
      · exact Nat.le_of_lt (h.1 j hj)
    · next hc =>
      obtain ⟨h1, h2, h3⟩ := ih h.2 hf
      refine ⟨by simp [h1], h2, fun j hj hcj => ?_⟩
      rcases List.mem_cons.mp hj with rfl | hj
      · simp at hc; omega
      · exact h3 j hj hcj

theorem counts_get (v : Vector (BitVec 8) 1281) (i : Nat) (h : i < 1281) : v.toArray.getD i 0 = v[i] := by
  simp [Array.getD, h]

theorem answerPass_at (before later : List Issued) (r : Request) (acted : Bool) (resp : Resp) (data : List Byte) :
    answerPass resp data (before.countP Issued.unanswered)
      (before ++ .pass r acted none :: later) =
      some (r.tag, before ++ .pass r acted (some (resp, if r.isWrite then [] else data)) :: later) := by
  induction before with
  | nil => rfl
  | cons x l ih =>
    cases x with
    | pass q b o =>
      cases o with
      | none => rw [List.countP_cons_of_pos (by rfl)]; simp only [List.cons_append, answerPass, ih]; rfl
      | some y => rw [List.countP_cons_of_neg (by simp [Issued.unanswered, Issued.isOwn])]; simp only [List.cons_append, answerPass, ih]; rfl
    | own q b => rw [List.countP_cons_of_neg (by simp [Issued.unanswered, Issued.isOwn])]; simp only [List.cons_append, answerPass, ih]; rfl
    | mirror i q b c => rw [List.countP_cons_of_neg (by simp [Issued.unanswered, Issued.isOwn])]; simp only [List.cons_append, answerPass, ih]; rfl

theorem returnable_none (t : Tag) (l : List Issued) (h : ∀ x ∈ l, x.ofTag t = false) :
    returnable t l = ([], l) := by
  induction l with
  | nil => rfl
  | cons x l ih =>
    have ih := ih (fun y hy => h y (by simp [hy]))
    have hx := h x (by simp)
    cases x with
    | pass q b o => simp only [Issued.ofTag, beq_eq_false_iff_ne] at hx; simp only [returnable, if_neg hx, ih]
    | own q b => simp only [returnable, ih]
    | mirror i q b c => simp only [returnable, ih]

theorem returnable_append (t : Tag) (l m : List Issued) (h : ∀ x ∈ l, x.ofTag t = false) :
    returnable t (l ++ m) = ((returnable t m).1, l ++ (returnable t m).2) := by
  induction l with
  | nil => rfl
  | cons x l ih =>
    have ih := ih (fun y hy => h y (by simp [hy]))
    have hx := h x (by simp)
    cases x with
    | pass q b o => simp only [Issued.ofTag, beq_eq_false_iff_ne] at hx; simp only [List.cons_append, returnable, if_neg hx, ih]
    | own q b => simp only [List.cons_append, returnable, ih]
    | mirror i q b c => simp only [List.cons_append, returnable, ih]

/-- An unanswered request of the tag in front keeps every later answer (R5). -/
theorem returnable_blocked (t : Tag) (l m : List Issued)
    (h : ∃ x, l.find? (Issued.ofTag t) = some x ∧ x.unanswered = true) : returnable t (l ++ m) = ([], l ++ m) := by
  induction l with
  | nil => obtain ⟨x, e, _⟩ := h; cases e
  | cons x l ih =>
    rw [List.find?_cons] at h
    cases hx : x.ofTag t with
    | true =>
      rw [hx] at h
      obtain ⟨y, e, hu⟩ := h
      cases e
      cases x with
      | pass q b o =>
        cases o with
        | none => simp only [List.cons_append, returnable, if_pos (show q.tag = t by simpa [Issued.ofTag] using hx)]
        | some z => cases hu
      | own q b => cases hx
      | mirror i q b c => cases hx
    | false =>
      rw [hx] at h
      have ih := ih h
      cases x with
      | pass q b o =>
        simp only [List.cons_append, returnable, if_neg (show q.tag ≠ t by simpa [Issued.ofTag] using hx), ih]
      | own q b => simp only [List.cons_append, returnable, ih]
      | mirror i q b c => simp only [List.cons_append, returnable, ih]

/-- Where the first of the tag, if any, is unanswered, nothing is returned. -/
theorem returnable_waits (t : Tag) (l : List Issued)
    (h : ∀ x, l.find? (Issued.ofTag t) = some x → x.unanswered = true) : returnable t l = ([], l) := by
  cases hf : l.find? (Issued.ofTag t) with
  | some x => simpa using returnable_blocked t l [] ⟨x, hf, h x hf⟩
  | none => exact returnable_none t l (fun x hx => by simpa using List.find?_eq_none.mp hf x hx)

/-- The answered requests of the tag in front are returned in their order (R5). -/
theorem returnable_answered (t : Tag) (l m : List Issued) (h : ∀ x ∈ l, x.ofTag t = true → x.unanswered = false) :
    returnable t (l ++ m) = ((l.filter (Issued.ofTag t)).filterMap Issued.response ++ (returnable t m).1,
      l.filter (fun x => !x.ofTag t) ++ (returnable t m).2) := by
  induction l with
  | nil => rfl
  | cons x l ih =>
    have ih := ih (fun y hy => h y (by simp [hy]))
    have hx := h x (by simp)
    cases x with
    | pass q b o =>
      by_cases hq : q.tag = t
      · have ht : (Issued.pass q b o).ofTag t = true := by simpa [Issued.ofTag] using hq
        cases o with
        | none => exact absurd (hx ht) (by simp [Issued.unanswered])
        | some y => simp [returnable, hq, ih, Issued.ofTag, Issued.response]
      · simp [returnable, hq, ih, Issued.ofTag]
    | own q b => simp [returnable, ih, Issued.ofTag]
    | mirror i q b c => simp [returnable, ih, Issued.ofTag]

theorem takeOwn_at (before later : List Issued) (r : Request) (a : Bool) :
    takeOwn (before.countP Issued.isOwn) (before ++ .own r a :: later) =
      some (a, before ++ later) := by
  induction before with
  | nil => rfl
  | cons x l ih =>
    cases x with
    | own q b => rw [List.countP_cons_of_pos (by rfl)]; simp only [List.cons_append, takeOwn, ih]; rfl
    | pass q b o => rw [List.countP_cons_of_neg (by simp [Issued.unanswered, Issued.isOwn])]; simp only [List.cons_append, takeOwn, ih]; rfl
    | mirror i q b c => rw [List.countP_cons_of_neg (by simp [Issued.unanswered, Issued.isOwn])]; simp only [List.cons_append, takeOwn, ih]; rfl

theorem takeMirror_at (before later : List Issued) (i : Nat) (r : Request) (st a : Bool) :
    takeMirror (before.countP Issued.isMirror) (before ++ .mirror i r st a :: later) = some ((i, st, a), before ++ later) := by
  induction before with
  | nil => rfl
  | cons x l ih =>
    cases x with
    | pass q b c =>
      rw [List.countP_cons_of_neg (by simp [Issued.isMirror])]
      show (takeMirror _ (l ++ _)).map _ = _
      rw [ih]; rfl
    | own q b =>
      rw [List.countP_cons_of_neg (by simp [Issued.isMirror])]
      show (takeMirror _ (l ++ _)).map _ = _
      rw [ih]; rfl
    | mirror j q b c =>
      rw [List.countP_cons_of_pos (by simp [Issued.isMirror])]
      show (takeMirror _ (l ++ _)).map _ = _
      rw [ih]; rfl

theorem Flowed.eq {s t : State} (h : Flowed s t) : t = s.withPath t.path ∧ Moved s.path t.path := ⟨h.1, h.2.1⟩

/-- Where nothing moves, a held read that awaits nothing stands behind one of its tag, held before it, that awaits a
record (R15). -/
theorem held_behind {s : State} (h : s.moves = []) : ∀ (older : List HeldRead) (x : HeldRead) (younger : List HeldRead),
    s.path.held = older ++ x :: younger → x.awaits = [] → ∃ g ∈ older, g.req.tag = x.req.tag ∧ g.awaits ≠ [] := by
  intro older
  induction hn : older.length using Nat.strongRecOn generalizing older with
  | ind n ih =>
    intro x younger e ha
    have hr := ((settled_iff s).mp h).2.2 older.length (by rw [e]; simp)
    unfold State.releasable at hr
    rw [e] at hr
    simp only [List.getElem?_append_right (Nat.le_refl _), Nat.sub_self, List.getElem?_cons_zero, ha, List.isEmpty_nil,
      Bool.true_and, List.take_left, Bool.not_eq_false', List.any_eq_true, beq_iff_eq] at hr
    obtain ⟨g, hg, ht⟩ := hr
    by_cases hw : g.awaits = []
    · obtain ⟨a, b, rfl⟩ := List.append_of_mem hg
      obtain ⟨k, hk, h1, h2⟩ := ih a.length (by subst hn; simp) a rfl g (b ++ x :: younger)
        (by rw [e]; simp) hw
      exact ⟨k, List.mem_append_left _ hk, h1.trans ht, h2⟩
    · exact ⟨g, hg, ht, hw⟩

/-- A held read stays in the list or has entered the pass path. -/
theorem flow_held (s : State) (h : HeldRead) (hh : h ∈ s.path.held) :
    h ∈ s.flow.path.held ∨ ({ req := h.req, acted := false } : PassEntry) ∈ s.flow.path.passPath := by
  refine flow_of (P := fun u => h ∈ u.path.held ∨ ({ req := h.req, acted := false } : PassEntry) ∈ u.path.passPath)
    (fun _ _ k => k) (fun u m k hm => ?_) s (.inl hh)
  have hf := (Flowed.move u m hm).2.1
  rcases k with k | k
  · cases m with
    | present t =>
      left
      show h ∈ (u.present t).path.held
      unfold State.present
      split
      · exact k
      · split <;> exact k
    | recheck t =>
      left
      show h ∈ (u.recheck t).path.held
      unfold State.recheck State.examineRead State.passRead
      repeat' split
      all_goals first | exact k | exact List.mem_append_left _ k
    | release i =>
      show h ∈ (u.release1 i).path.held ∨ _ ∈ (u.release1 i).path.passPath
      unfold State.release1
      split
      · exact .inl k
      · next g hg =>
        obtain ⟨hi, e⟩ := List.getElem?_eq_some_iff.mp hg
        obtain ⟨j, hj, e2⟩ := List.mem_iff_getElem.mp k
        by_cases hij : j = i
        · subst hij
          right
          rw [← e2, e]
          exact List.mem_append_right _ (List.mem_singleton.mpr rfl)
        · left
          exact List.mem_eraseIdx_iff_getElem.mpr ⟨j, hj, hij, e2⟩
  · exact .inr (hf.passPath.subset k)

/-- Where nothing moves, the first held read of each tag awaits a record. -/
theorem first_awaits {s : State} (hm : s.moves = []) (t : Tag) (h : HeldRead)
    (hf : s.path.held.find? (fun g => g.req.tag == t) = some h) : h.awaits ≠ [] := by
  obtain ⟨ht, as, bs, e, hno⟩ := List.find?_eq_some_iff_append.mp hf
  intro ha
  have hr := ((settled_iff s).mp hm).2.2 as.length (by rw [e]; simp)
  unfold State.releasable at hr
  rw [e] at hr
  simp only [List.getElem?_append_right (Nat.le_refl _), Nat.sub_self, List.getElem?_cons_zero, ha, List.isEmpty_nil,
    Bool.true_and, List.take_left, Bool.not_eq_false', List.any_eq_true] at hr
  obtain ⟨g, hg, e2⟩ := hr
  have := hno g hg
  simp only [beq_iff_eq] at e2 ht
  simp [e2, ht] at this

/-- The held reads of a tag that await nothing enter the pass path (R15). -/
theorem served_leave {s : State} (hm : s.flow.moves = []) (t : Tag)
    (ha : ∀ g ∈ s.path.held, g.req.tag = t → g.awaits = []) :
    (∀ h ∈ s.path.held, h.req.tag = t → ({ req := h.req, acted := false } : PassEntry) ∈ s.flow.path.passPath) ∧
    ∀ h ∈ s.flow.path.held, h.req.tag = t → h.awaits ≠ [] := by
  obtain ⟨stay, joined, e, hs, hj, _⟩ := (Flowed.flow s).2.1.held
  have hno : ∀ h ∈ s.flow.path.held, h.req.tag = t → h ∈ joined := by
    have hst : ∀ g ∈ stay, g.req.tag ≠ t := by
      intro g hg ht
      cases hf : stay.find? (fun g => g.req.tag == t) with
      | none => exact absurd (List.find?_eq_none.mp hf g hg) (by simp [ht])
      | some x =>
        have hx := List.find?_some hf
        have hxm := List.mem_of_find?_eq_some hf
        refine first_awaits hm t x ?_ (ha x (hs.subset hxm) (by simpa using hx))
        rw [e, List.find?_append, hf]; rfl
    intro h hh ht
    rw [e] at hh
    rcases List.mem_append.mp hh with hh | hh
    · exact absurd ht (hst h hh)
    · exact hh
  refine ⟨fun h hh ht => ?_, fun h hh ht => (hj h (hno h hh ht)).1⟩
  rcases flow_held s h hh with k | k
  · exact absurd (ha h hh ht) (hj h (hno h k ht)).1
  · exact k

/-- The reads of tag t that a list of held reads begins with have all entered the pass path as `new`, or those that have
not are the first of their tag that are held and await nothing. -/
def Served (t : Tag) (l : List Request) (s : State) (held : List HeldRead) (new : List PassEntry) : Prop :=
  (∀ u : Tag, ∀ r ∈ (s.lane u).reqs, r.tag = u) ∧
  ((∃ g a rest, held.filter (fun g => g.req.tag == t) = g :: a ++ rest ∧ (∀ x ∈ g :: a, x.awaits = []) ∧
      l = ofTag t (new.map (fun e => e.req)) ++ (g :: a).map (fun x => x.req)) ∨
    l <+: ofTag t (new.map (fun e => e.req)))

namespace Served

theorem tagHeld {t : Tag} {s : State} {g : HeldRead} {a : List HeldRead}
    (h : s.path.held.filter (fun g => g.req.tag == t) = g :: a) : s.tagHeld t = true := by
  have : g ∈ s.path.held.filter (fun g => g.req.tag == t) := by rw [h]; exact List.mem_cons_self
  obtain ⟨hm, ht⟩ := List.mem_filter.mp this
  exact List.any_eq_true.mpr ⟨g, hm, ht⟩

/-- A request whose tag is not held enters the pass path. -/
theorem enter {t : Tag} {l : List Request} {s : State} {new : List PassEntry} {r : Request}
    (h : Served t l s s.path.held new) (hr : s.tagHeld r.tag = false) {s' : State} (hp : s'.path.held = s.path.held)
    (hl : ∀ u : Tag, (s'.lane u).reqs <:+ (s.lane u).reqs) :
    Served t l s' s'.path.held (new ++ [{ req := r, acted := false }]) := by
  refine ⟨fun u x hx => h.1 u x ((hl u).subset hx), ?_⟩
  rw [hp, List.map_append, ofTag_append]
  rcases h.2 with ⟨g, a, rest, e1, e2, e3⟩ | h
  · left
    have : r.tag ≠ t := fun e => by rw [e, tagHeld e1] at hr; cases hr
    refine ⟨g, a, rest, e1, e2, ?_⟩
    rw [e3, show ([({ req := r, acted := false } : PassEntry)].map (fun e => e.req)) = [r] from rfl, ofTag_one, if_neg this,
      List.append_nil]
  · exact .inr (h.trans (List.prefix_append _ _))

/-- Nothing enters the pass path; reads may join the list at its back. -/
theorem join {t : Tag} {l : List Request} {s : State} {new : List PassEntry} (h : Served t l s s.path.held new) {s' : State}
    (joined : List HeldRead) (hp : s'.path.held = s.path.held ++ joined)
    (hl : ∀ u : Tag, (s'.lane u).reqs <:+ (s.lane u).reqs) : Served t l s' s'.path.held new := by
  refine ⟨fun u x hx => h.1 u x ((hl u).subset hx), ?_⟩
  rw [hp, List.filter_append]
  rcases h.2 with ⟨g, a, rest, e1, e2, e3⟩ | h
  · exact .inl ⟨g, a, rest ++ joined.filter (fun g => g.req.tag == t), by rw [e1, List.append_assoc], e2, e3⟩
  · exact .inr h

end Served

/-- A move of the path unit adds to the pass path, and what is served of a tag leaves first (R15). -/
theorem served_move {t : Tag} {l : List Request} {s : State} {new : List PassEntry} (h : Served t l s s.path.held new)
    (m : Move) (hm : m ∈ s.moves) : ∃ more, (s.move m).path.passPath = s.path.passPath ++ more ∧
      Served t l (s.move m) (s.move m).path.held (new ++ more) := by
  have hl := (Flowed.move s m hm).2.1.lanes
  unfold State.moves at hm
  simp only [List.mem_append, List.mem_map, List.mem_filter] at hm
  have pass : ∀ (u : Tag) (r : Request) (rest : List Request), (s.lane u).reqs = r :: rest → s.tagHeld u = false →
      (∀ v : Tag, ((s.popLane u).lane v).reqs <:+ (s.lane v).reqs) → Served t l ((s.popLane u).enterPass r false)
        ((s.popLane u).enterPass r false).path.held (new ++ [{ req := r, acted := false }]) := by
    intro u r rest hq hh hs
    refine Served.enter h ?_ rfl hs
    rw [h.1 u r (by rw [hq]; exact List.mem_cons_self)]; exact hh
  have stay : ∀ s' : State, s'.path.passPath = s.path.passPath → s'.path.held = s.path.held →
      (∀ u : Tag, (s'.lane u).reqs <:+ (s.lane u).reqs) → ∃ more, s'.path.passPath = s.path.passPath ++ more ∧
        Served t l s' s'.path.held (new ++ more) := by
    intro s' h1 h2 h3
    refine ⟨[], by simp [h1], ?_⟩
    rw [List.append_nil]
    exact Served.join h [] (by simp [h2]) h3
  rcases hm with ⟨u, ⟨_, hu⟩, rfl⟩ | ⟨u, ⟨_, hu⟩, rfl⟩ | ⟨i, ⟨_, hi⟩, rfl⟩
  · change ∃ more, (s.present u).path.passPath = _ ∧ Served t l (s.present u) (s.present u).path.held _
    replace hl : ∀ v : Tag, ((s.present u).lane v).reqs <:+ (s.lane v).reqs := hl
    unfold State.presentable at hu
    unfold State.present at hl ⊢
    cases hq : (s.lane u).reqs with
    | nil => rw [hq] at hu; simp at hu
    | cons r rest =>
      cases ho : (s.lane u).outcome with
      | some o => rw [hq, ho] at hu; simp at hu
      | none =>
        rw [hq, ho] at hu
        rw [hq] at hl
        dsimp only at hu hl ⊢
        cases hv : s.verdict r with
        | pass =>
          rw [hv] at hu hl
          refine ⟨_, rfl, pass u r rest hq ?_ hl⟩
          simpa using hu
        | step f => rw [hv] at hl; exact stay _ rfl rfl hl
        | consumedIndex v => rw [hv] at hl; exact stay _ rfl rfl hl
        | mirrorCheck g => rw [hv] at hl; exact stay _ rfl rfl hl
  · change ∃ more, (s.recheck u).path.passPath = _ ∧ Served t l (s.recheck u) (s.recheck u).path.held _
    replace hl : ∀ v : Tag, ((s.recheck u).lane v).reqs <:+ (s.lane v).reqs := hl
    unfold State.recheck at hl ⊢
    cases hq : (s.lane u).reqs with
    | nil => exact stay _ rfl rfl (fun v => List.suffix_refl _)
    | cons r rest =>
      rw [hq] at hl
      dsimp only at hl ⊢
      have pr : (∀ v : Tag, ((s.passRead u r).lane v).reqs <:+ (s.lane v).reqs) →
          ∃ more, (s.passRead u r).path.passPath = s.path.passPath ++ more ∧
            Served t l (s.passRead u r) (s.passRead u r).path.held (new ++ more) := by
        unfold State.passRead
        split
        · exact fun hl => stay _ rfl rfl hl
        · next hh => exact fun hl => ⟨_, rfl, pass u r rest hq (by simpa using hh) hl⟩
      split at hl
      · next hmr =>
        rw [if_pos hmr]
        unfold State.examineRead at hl ⊢
        split at hl
        · next h1 => rw [if_pos h1]; exact pr hl
        · next h1 =>
          rw [if_neg h1]
          split at hl
          · next h2 =>
            rw [if_pos h2]
            refine ⟨[], (List.append_nil _).symm, ?_⟩
            rw [List.append_nil]
            exact Served.join h _ rfl hl
          · next h2 => rw [if_neg h2]; exact stay _ rfl rfl hl
      · next hmr => rw [if_neg hmr]; exact pr hl
  · change ∃ more, (s.release1 i).path.passPath = _ ∧ Served t l (s.release1 i) (s.release1 i).path.held _
    replace hl : ∀ v : Tag, ((s.release1 i).lane v).reqs <:+ (s.lane v).reqs := hl
    unfold State.releasable at hi
    unfold State.release1 at hl ⊢
    cases hg : s.path.held[i]? with
    | none => rw [hg] at hi; cases hi
    | some g =>
      rw [hg] at hi hl
      dsimp only at hi hl ⊢
      rw [Bool.and_eq_true, List.isEmpty_iff, Bool.not_eq_true'] at hi
      refine ⟨[{ req := g.req, acted := false }], rfl, fun v x hx => h.1 v x ((hl v).subset hx), ?_⟩
      show (∃ k a rest, (s.path.held.eraseIdx i).filter _ = _ ∧ _ ∧ _) ∨ _
      obtain ⟨hlt, hget⟩ := List.getElem?_eq_some_iff.mp hg
      have e0 : s.path.held = s.path.held.take i ++ g :: s.path.held.drop (i + 1) := by
        rw [← hget, List.getElem_cons_drop, List.take_append_drop]
      rw [List.map_append, ofTag_append, List.map_singleton, ofTag_one, List.eraseIdx_eq_take_drop_succ, List.filter_append]
      rcases h.2 with ⟨k, a, rest, e1, e2, e3⟩ | hp
      · rw [e0, List.filter_append, List.filter_cons] at e1
        by_cases ht : g.req.tag = t
        · have hno : (s.path.held.take i).filter (fun x => x.req.tag == t) = [] := by
            rw [List.filter_eq_nil_iff]
            intro x hx
            have := List.any_eq_false.mp hi.2 x hx
            rw [ht] at this; exact this
          rw [hno, if_pos (by simp [ht])] at e1
          rw [hno, if_pos ht]
          simp only [List.nil_append, List.cons_append, List.cons.injEq] at e1 ⊢
          obtain ⟨rfl, e1⟩ := e1
          cases a with
          | nil => right; rw [e3]; exact List.prefix_refl _
          | cons b a =>
            left
            refine ⟨b, a, rest, e1, fun x hx => e2 x (List.mem_cons_of_mem _ hx), ?_⟩
            rw [e3]; simp
        · rw [if_neg (by simp [ht])] at e1
          rw [if_neg ht, List.append_nil]
          exact .inl ⟨k, a, rest, e1, e2, e3⟩
      · exact .inr (hp.trans (List.prefix_append _ _))

/-- The reads of a tag up to and with one of them, all of which await nothing, are the first of their tag to enter the pass
path (R15). -/
theorem served_first {s : State} (hm : s.flow.moves = []) (hown : ∀ u : Tag, ∀ r ∈ (s.lane u).reqs, r.tag = u)
    {older younger : List HeldRead} {h : HeldRead} (e : s.path.held = older ++ h :: younger) (ha : h.awaits = [])
    (hb : ∀ g ∈ older, g.req.tag = h.req.tag → g.awaits = []) {new : List PassEntry}
    (hn : s.flow.path.passPath = s.path.passPath ++ new) :
    ofTag h.req.tag ((older ++ [h]).map (fun g => g.req)) <+: ofTag h.req.tag (new.map (fun e => e.req)) := by
  generalize hl : ofTag h.req.tag ((older ++ [h]).map (fun g => g.req)) = l
  have key : ∃ x, s.flow.path.passPath = s.path.passPath ++ x ∧ Served h.req.tag l s.flow s.flow.path.held x := by
    refine flow_of (P := fun u => ∃ x, u.path.passPath = s.path.passPath ++ x ∧ Served h.req.tag l u u.path.held x)
      (fun _ _ k => k) (fun u m k hu => ?_) s ⟨[], by simp, hown, .inl ?_⟩
    · obtain ⟨x, ex, k⟩ := k
      obtain ⟨y, ey, k⟩ := served_move k m hu
      exact ⟨x ++ y, by rw [ey, ex, List.append_assoc], k⟩
    · have e1 : s.path.held.filter (fun g => g.req.tag == h.req.tag) =
          (older ++ [h]).filter (fun g => g.req.tag == h.req.tag) ++ younger.filter (fun g => g.req.tag == h.req.tag) := by
        rw [e, ← List.filter_append, List.append_assoc]; rfl
      have e2 : l = ((older ++ [h]).filter (fun g => g.req.tag == h.req.tag)).map (fun g => g.req) := by
        rw [← hl]; unfold ofTag; rw [List.filter_map]; rfl
      have e3 : ∀ x ∈ (older ++ [h]).filter (fun g => g.req.tag == h.req.tag), x.awaits = [] := by
        intro x hx
        obtain ⟨hx, ht⟩ := List.mem_filter.mp hx
        rcases List.mem_append.mp hx with hx | hx
        · exact hb x hx (by simpa using ht)
        · rw [List.mem_singleton.mp hx]; exact ha
      cases hf : (older ++ [h]).filter (fun g => g.req.tag == h.req.tag) with
      | nil =>
        have : h ∈ (older ++ [h]).filter (fun g => g.req.tag == h.req.tag) := List.mem_filter.mpr ⟨by simp, by simp⟩
        rw [hf] at this; cases this
      | cons g a => rw [hf] at e1 e2 e3; exact ⟨g, a, _, e1, e3, e2⟩
  obtain ⟨x, ex, k⟩ := key
  obtain rfl : new = x := List.append_cancel_left (hn.symm.trans ex)
  rcases k.2 with ⟨g, a, rest, e1, e2, _⟩ | k
  · refine absurd (e2 g List.mem_cons_self) (first_awaits hm h.req.tag g ?_)
    rw [← List.head?_filter, e1]; rfl
  · exact k

/-- Where nothing moves, no waiting read is still to be examined afresh. -/
theorem not_again {s : State} (hm : s.moves = []) (t : Tag) (m : Mode) (hr : (s.lane t).reqs ≠ []) :
    (s.lane t).outcome ≠ some (m, .mirrorCheck .again) := by
  intro e
  have h := ((settled_iff s).mp hm).2.1 t
  unfold State.recheckable at h
  rw [e] at h
  cases hq : (s.lane t).reqs with
  | nil => exact hr hq
  | cons r l => rw [hq] at h; simp at h

theorem mem_answered (h : HeldRead) (i j : Nat) (w : Await) : (j, w) ∈ (h.answered i).awaits ↔
    ((j ≠ i ∨ w = .needsWrite) ∧ (j, w) ∈ h.awaits) ∨
      ∃ k, j = i ∧ w = .answers (k + 1) ∧ (i, .answers (k + 2)) ∈ h.awaits := by
  unfold HeldRead.answered
  rw [List.mem_filterMap]
  constructor
  · rintro ⟨⟨j', w'⟩, hm, he⟩
    unfold awaitAnswered at he
    cases w' with
    | needsWrite => cases he; exact .inl ⟨.inr rfl, hm⟩
    | answers k =>
      dsimp only at he
      split at he
      · next hj =>
        split at he
        · cases he
        · next hk =>
          cases he
          subst hj
          exact .inr ⟨k - 2, rfl, by congr 1; omega, by rw [show k - 2 + 2 = k by omega]; exact hm⟩
      · next hj => cases he; exact .inl ⟨.inl hj, hm⟩
  · rintro (⟨h1, hm⟩ | ⟨k, rfl, rfl, hm⟩)
    · refine ⟨(j, w), hm, ?_⟩
      unfold awaitAnswered
      cases w with
      | needsWrite => rfl
      | answers k =>
        dsimp only
        rw [if_neg (by rcases h1 with h | h; exact h; cases h)]
    · refine ⟨_, hm, ?_⟩
      unfold awaitAnswered
      dsimp only
      rw [if_pos rfl, if_neg (by omega)]
      rfl

theorem mem_overlapped (a : Anchor) (r : Request) (h : r.overlaps a.mirrorBase.toNat 20496 = true) (i : Nat) :
    i ∈ overlapped a r ↔ i < 1281 ∧ r.overlaps (a.mirrorBase.toNat + 16 * i) 16 = true := by
  unfold Request.overlaps at *
  unfold overlapped
  simp only [Bool.and_eq_true, decide_eq_true_eq, Config.mirrorRecords] at *
  rw [List.mem_range'_1]
  generalize r.addr.toNat = x at *
  generalize a.mirrorBase.toNat = b at *
  generalize r.size = z at *
  omega

theorem mem_awaited {s : State} {a : Anchor} {r : Request} (ha : s.ctl.anchor = some a)
    (h : r.overlaps a.mirrorBase.toNat 20496 = true) (i : Nat) (w : Await) :
    (i, w) ∈ s.awaited r ↔ (i < 1281 ∧ r.overlaps (a.mirrorBase.toNat + 16 * i) 16 = true ∧
      (i ∈ s.mirror.dirty ∨ i ∈ s.mirror.inFlight)) ∧
        w = if i ∈ s.mirror.dirty then .needsWrite else .answers (s.mirror.inFlight.count i) := by
  unfold State.awaited
  rw [ha]
  dsimp only
  rw [show mirrorSize = 20496 from rfl, if_pos h, List.mem_filterMap]
  have hc : ∀ i, s.condition i = if i ∈ s.mirror.dirty ∨ i ∈ s.mirror.inFlight then
      some (if i ∈ s.mirror.dirty then .needsWrite else .answers (s.mirror.inFlight.count i)) else none := by
    intro i
    unfold State.condition
    by_cases h1 : i ∈ s.mirror.dirty
    · simp [h1]
    · by_cases h2 : i ∈ s.mirror.inFlight
      · have : s.mirror.inFlight.count i ≠ 0 := by
          have := List.count_pos_iff.mpr h2; omega
        simp [h1, h2, this]
      · simp [h1, h2, List.count_eq_zero.mpr h2]
  constructor
  · rintro ⟨j, hj, he⟩
    rw [hc] at he
    split at he
    · next hs =>
      cases he
      have := (mem_overlapped a r h i).mp hj
      exact ⟨⟨this.1, this.2, hs⟩, rfl⟩
    · cases he
  · rintro ⟨⟨h1, h2, h3⟩, rfl⟩
    refine ⟨i, (mem_overlapped a r h i).mpr ⟨h1, h2⟩, ?_⟩
    rw [hc, if_pos h3]; rfl

/-- take a step write whose act gives any state -/
theorem takeStep_eq {s : State} {t : Tag} {r : Request} {f : StepFor} {fits : StepFor → Request → Bool}
    {act : StepFor → State → Request → State × Request} (h : s.Admitted t r f) (hf : fits f r = true) :
    s.takeStep t fits act = (((act f (s.popLane t) r).1).enterPass (act f (s.popLane t) r).2 true).flow := by
  unfold State.takeStep
  simp only [examine_front h.1, front_eq h.1, hf, h.2, Bool.and_self, if_true]
  rfl

end Sys2Proof.Machine
end

