-- ==== Sys2Proof/Laws/Layouts.lean ====
section
/-! SUPPORT. Numbers and packed runs read back from the bytes that hold them: what stands where in a run of fields
(spec/13). -/

namespace Sys2Proof.Machine

theorem byteAt_cons_succ (x : Byte) (c : List Byte) (k : Nat) : byteAt (x :: c) (k + 1) = byteAt c k := by
  unfold byteAt; simp

theorem leAt_cons_succ (x : Byte) (c : List Byte) (k n : Nat) : leAt (x :: c) (k + 1) n = leAt c k n := by
  induction n generalizing k with
  | zero => rfl
  | succ n ih => unfold leAt; rw [byteAt_cons_succ, ih]

theorem byteAt_append (a c : List Byte) (k : Nat) (h : a.length ≤ k) : byteAt (a ++ c) k = byteAt c (k - a.length) := by
  unfold byteAt
  rw [List.getD_append_right _ _ _ _ h]

theorem leAt_append (a c : List Byte) (k n : Nat) (h : a.length ≤ k) : leAt (a ++ c) k n = leAt c (k - a.length) n := by
  induction a generalizing k with
  | nil => rfl
  | cons x a ih =>
    obtain ⟨k, rfl⟩ : ∃ j, k = j + 1 := ⟨k - 1, by simp at h; omega⟩
    rw [List.cons_append, leAt_cons_succ, ih k (by simpa using h)]
    simp

theorem length_leBytes (n v : Nat) : (leBytes n v).length = n := by
  induction n generalizing v with
  | zero => rfl
  | succ n ih => simp [leBytes, ih]

/-- A number read where it was written. -/
theorem leAt_leBytes (n v : Nat) (c : List Byte) : leAt (leBytes n v ++ c) 0 n = v % 256 ^ n := by
  induction n generalizing v with
  | zero => simp [leAt, Nat.mod_one]
  | succ n ih =>
    unfold leAt leBytes
    rw [List.cons_append, leAt_cons_succ, ih]
    have h0 : byteAt (BitVec.ofNat 8 v :: (leBytes n (v / 256) ++ c)) 0 = v % 256 := by
      unfold byteAt; simp
    rw [h0, show 256 ^ (n + 1) = 256 * 256 ^ n from Nat.pow_succ', Nat.mod_mul]

/-- A number read behind another. -/
theorem leAt_skip (m v : Nat) (c : List Byte) (k n : Nat) (h : m ≤ k) : leAt (leBytes m v ++ c) k n = leAt c (k - m) n := by
  have := leAt_append (leBytes m v) c k n (by rw [length_leBytes]; exact h)
  rwa [length_leBytes] at this

theorem holds_here (n v : Nat) (c : List Byte) : Holds (leBytes n v ++ c) 0 n v := leAt_leBytes n v c

theorem holds_skip (m v : Nat) (c : List Byte) (k n w : Nat) (h : m ≤ k) :
    Holds (leBytes m v ++ c) k n w ↔ Holds c (k - m) n w := by
  unfold Holds; rw [leAt_skip _ _ _ _ _ h]

theorem packed_skip (m v : Nat) (c : List Byte) (k n w : Nat) (vs : List Nat) (h : m ≤ k) :
    Packed (leBytes m v ++ c) k n w vs ↔ Packed c (k - m) n w vs := by
  unfold Packed; rw [leAt_skip _ _ _ _ _ h]

theorem blank_skip (m v : Nat) (c : List Byte) (k : Nat) (h : m ≤ k) :
    Blank (leBytes m v ++ c) k ↔ Blank c (k - m) := by
  have hl := length_leBytes m v
  unfold Blank
  constructor
  · intro hb j hj
    have := hb (j + m) (by omega)
    rw [byteAt_append _ _ _ (by omega), hl] at this
    simpa using this
  · intro hb j hj
    rw [byteAt_append _ _ _ (by omega), hl]
    exact hb _ (by omega)

theorem byteAt_zeros (n k : Nat) : byteAt (zeros n) k = 0 := by
  unfold byteAt zeros
  by_cases h : k < n
  · rw [List.getD_eq_getElem _ _ (by simpa using h), List.getElem_replicate]; rfl
  · rw [List.getD_eq_default _ _ (by simpa using h)]; rfl

theorem blank_zeros (n k : Nat) : Blank (zeros n) k := fun j _ => byteAt_zeros n j

theorem leAt_zeros (m k n : Nat) : leAt (zeros m) k n = 0 := by
  induction n generalizing k with
  | zero => rfl
  | succ n ih => unfold leAt; rw [byteAt_zeros, ih]

theorem packRun_lt (w : Nat) (vs : List Nat) : packRun w vs < 2 ^ (w * vs.length) := by
  induction vs with
  | nil => simp [packRun]
  | cons v vs ih =>
    unfold packRun
    have hm : v % 2 ^ w < 2 ^ w := Nat.mod_lt _ (Nat.two_pow_pos w)
    rw [List.length_cons, Nat.mul_succ, Nat.add_comm, Nat.add_comm (w * _), Nat.pow_add]
    calc 2 ^ w * packRun w vs + v % 2 ^ w < 2 ^ w * packRun w vs + 2 ^ w := by omega
      _ = 2 ^ w * (packRun w vs + 1) := by ring
      _ ≤ 2 ^ w * 2 ^ (w * vs.length) := Nat.mul_le_mul_left _ ih

/-- A field of a packed run read back. -/
theorem packRun_field (w : Nat) (vs : List Nat) (j : Nat) : packRun w vs / 2 ^ (w * j) % 2 ^ w = vs.getD j 0 % 2 ^ w := by
  induction vs generalizing j with
  | nil => simp [packRun]
  | cons v vs ih =>
    cases j with
    | zero => simp [packRun, Nat.add_mul_mod_self_left]
    | succ j =>
      unfold packRun
      rw [Nat.mul_succ, Nat.add_comm (w * j), Nat.pow_add, ← Nat.div_div_eq_div_mul,
        Nat.add_mul_div_left _ _ (Nat.two_pow_pos w), Nat.div_eq_of_lt (Nat.mod_lt _ (Nat.two_pow_pos w)), Nat.zero_add, ih]
      simp

theorem packed_here (n w : Nat) (vs : List Nat) (c : List Byte) (h : w * vs.length ≤ 8 * n) :
    Packed (leBytes n (packRun w vs) ++ c) 0 n w vs := by
  intro j
  have hlt : packRun w vs < 256 ^ n := calc
    packRun w vs < 2 ^ (w * vs.length) := packRun_lt w vs
    _ ≤ 2 ^ (8 * n) := Nat.pow_le_pow_right (by decide) h
    _ = 256 ^ n := by rw [Nat.pow_mul]
  rw [leAt_leBytes, Nat.mod_eq_of_lt hlt, packRun_field]

/-- A byte in front is a field of one byte. -/
theorem cons_field (x : Byte) (c : List Byte) : x :: c = leBytes 1 x.toNat ++ c := by
  simp [leBytes]

theorem holds_last (n v : Nat) : Holds (leBytes n v) 0 n v := by
  simpa using holds_here n v []

theorem holds_zeros (m k n : Nat) : Holds (zeros m) k n 0 := by
  unfold Holds; rw [leAt_zeros, Nat.zero_mod]

theorem bit_eq (b : Bool) : bit b = mark01 b := by cases b <;> rfl

theorem length_padTo (n : Nat) (b : List Byte) (h : b.length ≤ n) : (padTo n b).length = n := by
  unfold padTo zeros; rw [List.length_append, List.length_replicate]; omega

/-! The codes of spec/13 as places in the lists of their tables. -/

theorem zeros_two : zeros 2 = leBytes 2 0 := by decide
theorem timeOr0_elim (d : Option Time) : timeOr0 d = d.elim 0 (fun t => t.toNat) := by cases d <;> rfl
theorem code_gstate (x : GState) :
    x.code = [GState.clear, .gathering, .parked, .raised, .clearing].idxOf x := by
  cases x <;> decide
theorem code_tstate (x : TState) :
    x.code = [TState.unlisted, .up, .gasped, .suspect, .downFibre, .downPower, .downOff].idxOf x := by
  cases x <;> decide
theorem code_disp (x : Disp) :
    x.code = [Disp.none, .pending, .covered, .reported, .quiet].idxOf x := by
  cases x <;> decide
theorem code_mode (x : Mode) :
    x.code = [Mode.detached, .attached, .loading, .running, .halted].idxOf x := by
  cases x <;> decide
theorem code_kind (x : Kind) : x.code = codeOf x := by cases x <;> decide
theorem code_code (x : Code) : x.code = resultOf x := by cases x <;> decide
theorem code_outage (x : OutageCause) :
    x.code = 1 + [OutageCause.fibre, .power, .off].idxOf x := by
  cases x <;> decide
theorem code_raise (x : RaiseCause) :
    x.code = 1 + [RaiseCause.fibre, .power, .dark].idxOf x := by
  cases x <;> decide
theorem code_line (x : Line) : lineCode x = [Line.a, .b].idxOf x := by cases x <;> decide
theorem code_fault (x : FaultKind) :
    x.code = 1 + [FaultKind.malformed, .check, .portMismatch, .unknownKind, .unknownCause, .reserved].idxOf x := by
  cases x <;> decide
theorem code_slot (x : SlotState) :
    x.code = 2 + [SlotState.queued, .done, .refused, .failed].idxOf x := by
  cases x <;> decide
theorem code_source (x : Source) :
    x.code = [Source.engine, .command, .deferred, .line .a, .line .b].idxOf x := by
  rcases x with _ | _ | _ | l
  · decide
  · decide
  · decide
  · cases l <;> decide
theorem code_ack (x : AckReason) :
    x.code = [AckReason.none, .mark, .version, .check, .align, .size, .tag, .overlap, .busyMode].idxOf x := by
  cases x <;> decide
theorem code_ring (x : Option Ring) :
    ringCode x = [none, some Treatment.observe, some .claim].idxOf (x.map (fun x => x.treatment)) := by
  cases x with
  | none => decide
  | some r => cases r with | mk a b c t => cases t <;> simp [ringCode] <;> decide

theorem payload_length (p : Payload) : p.used.length ≤ 16 := by
  cases p <;> simp [Payload.used, length_leBytes]

/-- Beats built from whole groups of eight bytes carry those bytes, every byte enabled. -/
theorem fullBeats_bytes (b : List Byte) (n : Nat) (h : b.length = 8 * n) :
    (fullBeats b).flatMap (fun x => x.data.toList) = b ∧ (fullBeats b).length = n ∧ ∀ e ∈ fullBeats b, e.enable = 0xFF#8 := by
  induction n generalizing b with
  | zero =>
    have : b = [] := List.length_eq_zero_iff.mp (by omega)
    subst this
    exact ⟨rfl, rfl, fun e he => (by cases he)⟩
  | succ n ih =>
    match b, h with
    | b0 :: b1 :: b2 :: b3 :: b4 :: b5 :: b6 :: b7 :: rest, h =>
      obtain ⟨h1, h2, h3⟩ := ih rest (by simp at h; omega)
      refine ⟨?_, ?_, ?_⟩
      · unfold fullBeats
        rw [List.flatMap_cons, h1]; rfl
      · unfold fullBeats
        rw [List.length_cons, h2]
      · intro e he
        unfold fullBeats at he
        rcases List.mem_cons.mp he with rfl | he
        · rfl
        · exact h3 e he
    | [], h => simp at h
    | [_], h => simp at h; omega
    | [_, _], h => simp at h; omega
    | [_, _, _], h => simp at h; omega
    | [_, _, _, _], h => simp at h; omega
    | [_, _, _, _, _], h => simp at h; omega
    | [_, _, _, _, _, _], h => simp at h; omega
    | [_, _, _, _, _, _, _], h => simp at h; omega

end Sys2Proof.Machine
end

