-- ==== Sys2Proof/Laws/Readings.lean ====
section
/-! SUPPORT. What slots, images and triggers read as, the latest of several deadlines, batches of eight, and which records
differ between two states. -/

namespace Sys2Proof.Machine

/-! ## Bytes, slots and triggers (TABLES 11-1, 13-3, 13-4) -/

theorem leAt_lt (b : List Byte) (n k : Nat) : leAt b k n < 256 ^ n := by
  induction n generalizing k with
  | zero => simp [leAt]
  | succ n ih =>
    have h1 : byteAt b k < 256 := BitVec.isLt _
    have h2 := ih (k + 1)
    simp only [leAt, Nat.pow_succ]
    omega

theorem seedTarget_iff (b : List Byte) (x : TState) : seedTarget b = some x ↔
    x ∈ [TState.up, .downFibre, .downPower, .downOff] ∧
      byteAt b 12 = [TState.unlisted, .up, .gasped, .suspect, .downFibre, .downPower, .downOff].idxOf x := by
  unfold seedTarget
  generalize byteAt b 12 = v
  have hk : [TState.unlisted, .up, .gasped, .suspect, .downFibre, .downPower, .downOff].idxOf x < 7 := by
    cases x <;> decide
  by_cases hv : v < 7
  · interval_cases v <;> cases x <;> decide
  · constructor
    · intro h
      split at h <;> first | omega | cases h
    · rintro ⟨_, rfl⟩; exact absurd hk hv

theorem slotKind_iff (b : List Byte) (k : Kind) : slotKind b = some k ↔ byteAt b 1 = codeOf k := by
  unfold slotKind
  generalize byteAt b 1 = v
  have hk : ∀ k : Kind, 1 ≤ codeOf k ∧ codeOf k ≤ 20 := by intro k; cases k <;> decide
  by_cases hv : 1 ≤ v ∧ v ≤ 20
  · obtain ⟨h1, h2⟩ := hv
    interval_cases v <;> cases k <;> decide
  · constructor
    · intro h
      split at h <;> first | omega | cases h
    · rintro rfl; exact absurd (hk k) hv

theorem slotPlacement_iff (b : List Byte) (p : Placement) :
    slotPlacement b = some p ↔ byteAt b 2 = [Placement.now, .defer, .line .a, .line .b].idxOf p := by
  unfold slotPlacement
  generalize byteAt b 2 = v
  have hk : [Placement.now, .defer, .line .a, .line .b].idxOf p < 4 := by
    rcases p with _ | _ | l
    · decide
    · decide
    · cases l <;> decide
  by_cases hv : v < 4
  · rcases p with _ | _ | l
    · interval_cases v <;> decide
    · interval_cases v <;> decide
    · interval_cases v <;> cases l <;> decide
  · constructor
    · intro h
      split at h <;> first | omega | cases h
    · rintro rfl; exact absurd hk hv

/-- The trigger a slot names (TABLE 13-3). -/
theorem slotTrigger_iff (b : List Byte) :
    (slotTrigger b = some .stormIn ↔ byteAt b 3 = 1) ∧ (slotTrigger b = some .stormOut ↔ byteAt b 3 = 2) ∧
    (slotTrigger b = some (.line .a) ↔ byteAt b 3 = 3) ∧ (slotTrigger b = some (.line .b) ↔ byteAt b 3 = 4) ∧
    (∀ n, slotTrigger b = some (.downAtLeast n) ↔ byteAt b 3 = 5 ∧ n = leAt b 6 4 ∧ 1 ≤ n ∧ n ≤ 1024) ∧
    ∀ x : Time, slotTrigger b = some (.atTime x) ↔ byteAt b 3 = 6 ∧ x.toNat = leAt b 6 4 := by
  have hlt : leAt b 6 4 < 2 ^ 32 := leAt_lt b 4 6
  unfold slotTrigger
  dsimp only
  generalize leAt b 6 4 = w at *
  generalize byteAt b 3 = v
  have e : ∀ x : Time, BitVec.ofNat 32 w = x ↔ x.toNat = w := by
    intro x
    constructor
    · rintro rfl; exact BitVec.toNat_ofNat w 32 ▸ Nat.mod_eq_of_lt hlt
    · intro h; exact BitVec.eq_of_toNat_eq (by rw [BitVec.toNat_ofNat, Nat.mod_eq_of_lt hlt, h])
  split <;> simp_all
  · intro n; constructor <;> intro h <;> omega

theorem metByStorm_iff (toIn : Bool) (tr : Trigger) :
    metByStorm toIn tr = true ↔ tr = if toIn = true then .stormIn else .stormOut := by
  cases tr <;> cases toIn <;> simp [metByStorm]

theorem metByDown_iff (count : Nat) (tr : Trigger) :
    metByDown count tr = true ↔ ∃ n, tr = .downAtLeast n ∧ n ≤ count := by
  cases tr <;> simp [metByDown]

theorem metByLine_iff (l : Line) (tr : Trigger) : metByLine l tr = true ↔ tr = .line l := by
  cases tr with
  | line l' => exact beq_iff_eq.trans ⟨fun h => by rw [h], fun h => by cases h; rfl⟩
  | _ => exact ⟨fun h => (by cases h), fun h => (by cases h)⟩

theorem metByTime_iff (now : Time) (tr : Trigger) :
    metByTime now tr = true ↔ ∃ x, tr = .atTime x ∧ (now - x).toNat < 2 ^ 31 := by
  cases tr with
  | atTime x => exact ⟨fun h => ⟨x, rfl, of_decide_eq_true h⟩, fun ⟨y, e, h⟩ => (by cases e; exact decide_eq_true h)⟩
  | _ => exact ⟨fun h => (by cases h), fun ⟨_, e, _⟩ => (by cases e)⟩

/-! ## Lists and deadlines (R100, R103) -/

/-- A run is named eight to a report, the last holding the remainder (R103). -/
theorem batches8_cons {α : Type} (ns : List α) (h : ns ≠ []) : batches8 ns = ns.take 8 :: batches8 (ns.drop 8) := by
  match ns, h with
  | [_], _ => rfl
  | [_, _], _ => rfl
  | [_, _, _], _ => rfl
  | [_, _, _, _], _ => rfl
  | [_, _, _, _, _], _ => rfl
  | [_, _, _, _, _, _], _ => rfl
  | [_, _, _, _, _, _, _], _ => rfl
  | _ :: _ :: _ :: _ :: _ :: _ :: _ :: _ :: rest, _ => rfl

/-- Of two instants within 2^31 ms after a common one, the later is the one further from it (R1). -/
theorem later_nat {a b base : Time} (ha : (a - base).toNat < 2 ^ 31) (hb : (b - base).toNat < 2 ^ 31) :
    later a b = if (b - base).toNat ≤ (a - base).toNat then a else b := by
  unfold later reached
  have e : (a - b).toNat < 2 ^ 31 ↔ (b - base).toNat ≤ (a - base).toNat := by
    simp only [BitVec.toNat_sub] at *
    have := a.isLt; have := b.isLt; have := base.isLt
    omega
  simp only [decide_eq_true_eq, e]

theorem foldl_latest (base : Time) (l : List (Option Time)) : ∀ (acc : Option Time),
    (∀ x, acc = some x ∨ some x ∈ l → (x - base).toNat < 2 ^ 31) → ∀ d,
    (l.foldl (fun acc o => match acc, o with | none, d => d | some a, none => some a | some a, some d => some (later d a)) acc
      = some d ↔ (acc = some d ∨ some d ∈ l) ∧ ∀ x, acc = some x ∨ some x ∈ l → (x - base).toNat ≤ (d - base).toNat) := by
  induction l with
  | nil =>
    intro acc h d
    simp only [List.foldl_nil, List.not_mem_nil, or_false]
    constructor
    · intro e; exact ⟨e, fun x hx => by rw [e] at hx; cases hx; exact Nat.le_refl _⟩
    · exact fun e => e.1
  | cons o l ih =>
    intro acc h d
    rw [List.foldl_cons]
    cases acc with
    | none =>
      rw [ih o (fun x hx => h x (.inr (by simpa [eq_comm] using hx)))]
      simp [eq_comm]
    | some a =>
      cases o with
      | none =>
        rw [ih (some a) (fun x hx => h x (by simpa using hx))]
        simp
      | some b =>
        have hb := h b (.inr (by simp))
        have ha := h a (.inl rfl)
        dsimp only
        rw [later_nat (base := base) hb ha]
        have inj : ∀ x y : Time, (x - base).toNat = (y - base).toNat → x = y := by
          intro x y e
          have := BitVec.eq_of_toNat_eq e
          have : x - base + base = y - base + base := by rw [this]
          simpa using this
        rw [ih _ (fun x hx => h x (by
          rcases hx with hx | hx
          · split at hx <;> cases hx
            · exact .inr (by simp)
            · exact .inl rfl
          · exact .inr (by simp [hx])))]
        simp only [Option.some.injEq, List.mem_cons]
        split
        · next hle =>
          constructor
          · rintro ⟨h1, h2⟩
            have hbd := h2 b (.inl rfl)
            refine ⟨?_, fun x hx => ?_⟩
            · rcases h1 with rfl | h1
              · exact .inr (.inl rfl)
              · exact .inr (.inr h1)
            · rcases hx with rfl | rfl | hx
              · omega
              · exact hbd
              · exact h2 x (.inr hx)
          · rintro ⟨h1, h2⟩
            refine ⟨?_, fun x hx => h2 x (by rcases hx with rfl | hx; exact .inr (.inl rfl); exact .inr (.inr hx))⟩
            rcases h1 with rfl | rfl | h1
            · have := h2 b (.inr (.inl rfl))
              exact .inl (inj _ _ (by omega))
            · exact .inl rfl
            · exact .inr h1
        · next hle =>
          constructor
          · rintro ⟨h1, h2⟩
            have had := h2 a (.inl rfl)
            refine ⟨?_, fun x hx => ?_⟩
            · rcases h1 with rfl | h1
              · exact .inl rfl
              · exact .inr (.inr h1)
            · rcases hx with rfl | rfl | hx
              · exact had
              · omega
              · exact h2 x (.inr hx)
          · rintro ⟨h1, h2⟩
            refine ⟨?_, fun x hx => h2 x (by rcases hx with rfl | hx; exact .inl rfl; exact .inr (.inr hx))⟩
            rcases h1 with rfl | rfl | h1
            · exact .inl rfl
            · have := h2 a (.inl rfl)
              omega
            · exact .inr h1

/-- The latest deadline of a parent's GATHERING children (R100). -/
theorem latestChild_iff (s : State) (g : GroupId) (base d : Time)
    (h : ∀ x, (∃ c ∈ s.children g, (s.group c).state = .gathering ∧ (s.group c).deadline = some x) →
      (x - base).toNat < 2 ^ 31) :
    s.latestChild g = some d ↔ (∃ c ∈ s.children g, (s.group c).state = .gathering ∧ (s.group c).deadline = some d) ∧
      ∀ x, (∃ c ∈ s.children g, (s.group c).state = .gathering ∧ (s.group c).deadline = some x) →
        (x - base).toNat ≤ (d - base).toNat := by
  have hm : ∀ x, (none = some x ∨ some x ∈ ((s.children g).filter (fun c => (s.group c).state == .gathering)).map
      (fun c => (s.group c).deadline)) ↔
      ∃ c ∈ s.children g, (s.group c).state = .gathering ∧ (s.group c).deadline = some x := by
    intro x
    simp only [reduceCtorEq, false_or, List.mem_map, List.mem_filter, beq_iff_eq, and_assoc]
  have k := foldl_latest base (((s.children g).filter (fun c => (s.group c).state == .gathering)).map
      (fun c => (s.group c).deadline)) none (fun x hx => h x ((hm x).mp hx)) d
  simp only [hm] at k
  rw [← k, List.foldl_map]
  rfl

/-! ## The map image (R40) -/

/-- What the map reads from an image whose counts and references are in range (section 13.6). -/
theorem mapOf_reads (b : List Byte) (hc : leAt b 4 2 ≤ 128 ∧ leAt b 6 2 ≤ 32 ∧ leAt b 8 2 ≤ 64)
    (hr : imageBadReference b = false) :
      (∀ k r, (mapOf b).taps[k]? = some r → r.val = imageTapRiser b k) ∧
      (∀ k p, (mapOf b).risers[k]? = some p → p.val = imageRiserPort b k) ∧
      ∀ k e, (mapOf b).terminals[k]? = some e →
        e.port.val = byteAt b (imageTermAt b k) % 64 ∧ (e.prompt = true ↔ byteAt b (imageTermAt b k) / 64 % 2 = 1) ∧
        (e.noOff = true ↔ byteAt b (imageTermAt b k) / 128 % 2 = 1) ∧ e.localId.val = byteAt b (imageTermAt b k + 1) ∧
        e.tap.val = byteAt b (imageTermAt b k + 2) ∧ e.zone.val = byteAt b (imageTermAt b k + 3) := by
  unfold imageBadReference at hr
  simp only [Bool.or_eq_false_iff, List.any_eq_false, List.mem_range, Bool.or_eq_true, decide_eq_true_eq, not_or, not_le, not_lt] at hr
  obtain ⟨⟨h1, h2⟩, h3⟩ := hr
  obtain ⟨c1, c2, c3⟩ := hc
  have get : ∀ {α : Type} (n k : Nat) (f : Nat → α) (x : α), ((List.range n).map f)[k]? = some x → k < n ∧ f k = x := by
    intro α n k f x h
    obtain ⟨hk, e⟩ := List.getElem?_eq_some_iff.mp h
    rw [List.length_map, List.length_range] at hk
    refine ⟨hk, ?_⟩
    rw [← e, List.getElem_map, List.getElem_range]
  unfold mapOf
  refine ⟨fun k r h => ?_, fun k p h => ?_, fun k e h => ?_⟩
  · obtain ⟨hk, rfl⟩ := get _ _ _ _ h
    have := h1 k hk
    exact Nat.mod_eq_of_lt (show imageTapRiser b k < 32 from Nat.lt_of_lt_of_le this c2)
  · obtain ⟨hk, rfl⟩ := get _ _ _ _ h
    exact Nat.mod_eq_of_lt (show imageRiserPort b k < 16 from Nat.lt_succ_of_le (h2 k hk))
  · obtain ⟨hk, rfl⟩ := get _ _ _ _ h
    obtain ⟨⟨⟨t1, t2⟩, t3⟩, t4⟩ := h3 k hk
    have hb : byteAt b (imageTermAt b k) < 256 := BitVec.isLt _
    dsimp only
    refine ⟨Nat.mod_eq_of_lt (show imageTermPort b k < 16 from Nat.lt_succ_of_le t3), ?_, ?_,
      Nat.mod_eq_of_lt (show imageTermLocal b k < 128 from Nat.lt_succ_of_le t4),
      Nat.mod_eq_of_lt (show imageTermTap b k < 128 from Nat.lt_of_lt_of_le t1 c1),
      Nat.mod_eq_of_lt (show imageTermZone b k < 64 from Nat.lt_of_lt_of_le t2 c3)⟩
    · exact beq_iff_eq
    · rw [beq_iff_eq]; omega

/-! ## Records that differ (R70, R93, R156) -/

theorem group_of_record (g : GroupId) : groupOfRecord g.record = g := by
  cases g with
  | tap n => 
    have : ∀ n : Fin 128, groupOfRecord (GroupId.tap n).record = .tap n := by decide
    exact this n
  | riser n => 
    have : ∀ n : Fin 32, groupOfRecord (GroupId.riser n).record = .riser n := by decide
    exact this n
  | port n => 
    have : ∀ n : Fin 16, groupOfRecord (GroupId.port n).record = .port n := by decide
    exact this n
  | zone n => 
    have : ∀ n : Fin 64, groupOfRecord (GroupId.zone n).record = .zone n := by decide
    exact this n

theorem record_group (i : Nat) (h1 : 1024 ≤ i) (h2 : i < 1264) : (groupOfRecord i).record = i := by
  have : ∀ k : Fin 240, (groupOfRecord (1024 + k.val)).record = 1024 + k.val := by decide +kernel
  have := this ⟨i - 1024, by omega⟩
  rwa [show 1024 + (i - 1024) = i by omega] at this

theorem record_bounds (g : GroupId) : 1024 ≤ g.record ∧ g.record < 1264 := by
  unfold GroupId.record
  have := g.index.isLt
  show 1024 ≤ 1024 + _ ∧ 1024 + _ < 1264
  omega

theorem recordBytes_group (s : State) (g : GroupId) (count : BitVec 8) :
    s.recordBytes g.record count = count :: s.groupBytes g := by
  have h := record_bounds g
  unfold State.recordBytes
  rw [if_neg (by omega), if_pos h.2, group_of_record]

theorem recordChanged_iff (s t : State) (i : Nat) (hi : i < 1281) : State.recordChanged s t i = true ↔
    i = 1280 ∨ (∃ n : Fin 1024, i = n.val ∧ t.term n ≠ s.term n) ∨
      ∃ g : GroupId, i = g.record ∧ (t.group g ≠ s.group g ∨ t.recordBytes i 0 ≠ s.recordBytes i 0) := by
  unfold State.recordChanged
  split
  · next h =>
    rw [bne_iff_ne]
    constructor
    · intro e
      exact .inr (.inl ⟨⟨i, h⟩, rfl, fun x => e (by rw [show Fin.ofNat 1024 i = ⟨i, h⟩ from Fin.ext (Nat.mod_eq_of_lt h), x])⟩)
    · rintro (e | ⟨n, rfl, e⟩ | ⟨g, e, _⟩)
      · omega
      · rw [show Fin.ofNat 1024 n.val = n from Fin.ext (Nat.mod_eq_of_lt n.isLt)]
        exact fun x => e x.symm
      · have := record_bounds g; omega
  · next h =>
    split
    · next h2 =>
      rw [Bool.or_eq_true, bne_iff_ne, bne_iff_ne]
      have hg := record_group i (by omega) h2
      constructor
      · intro e
        refine .inr (.inr ⟨groupOfRecord i, hg.symm, ?_⟩)
        rcases e with e | e
        · exact .inl (fun x => e x.symm)
        · refine .inr (fun x => e ?_)
          rw [← hg, recordBytes_group, recordBytes_group] at x
          exact (List.cons.inj x).2.symm
      · rintro (e | ⟨n, rfl, _⟩ | ⟨g, rfl, e⟩)
        · omega
        · exact absurd n.isLt h
        · rw [group_of_record]
          rcases e with e | e
          · exact .inl (fun x => e x.symm)
          · refine .inr (fun x => e ?_)
            rw [recordBytes_group, recordBytes_group, x]
    · next h2 =>
      rw [beq_iff_eq]
      constructor
      · exact fun e => .inl e
      · rintro (e | ⟨n, rfl, _⟩ | ⟨g, rfl, _⟩)
        · exact e
        · exact absurd n.isLt h
        · exact absurd (record_bounds g).2 h2

/-- The dirty set at UNMAP's clearing (R52, R156; notes/assumptions/24.md). -/
theorem mem_markChanged (u s : State) (i : Nat) : i ∈ (u.markChanged s).mirror.dirty ↔ i ∈ u.mirror.dirty ∨ i = 1280 ∨
    (∃ n : Fin 1024, i = n.val ∧ u.term n ≠ s.term n) ∨
      ∃ g : GroupId, i = g.record ∧ (u.group g ≠ s.group g ∨ u.recordBytes i 0 ≠ s.recordBytes i 0) := by
  unfold State.markChanged
  rw [mem_foldl_mark, List.mem_filter, List.mem_range]
  refine or_congr_right ⟨fun h => (recordChanged_iff s u i h.1).mp h.2, fun h => ?_⟩
  have hi : i < 1281 := by
    rcases h with h | ⟨n, h, _⟩ | ⟨g, h, _⟩
    · omega
    · omega
    · have := record_bounds g; omega
  exact ⟨hi, (recordChanged_iff s u i hi).mpr h⟩

end Sys2Proof.Machine
end

