-- ==== Sys2Proof/Laws/Requests.lean ====
section
/-! SUPPORT. What requests, messages and anchor blocks read as, the check values bit by bit, what the map store answers, and
when nothing moves in the path unit. -/

namespace Sys2Proof.Machine

/-! ## Bytes (section 1.6) -/

/-- A number is read little-endian: byte j of it stands j bytes further on. -/
theorem leAt_byte (b : List Byte) (n : Nat) : ∀ k j, j < n → leAt b k n / 256 ^ j % 256 = byteAt b (k + j) := by
  induction n with
  | zero => intro k j h; omega
  | succ n ih =>
    intro k j h
    have hb : byteAt b k < 256 := BitVec.isLt _
    show (byteAt b k + 256 * leAt b (k + 1) n) / 256 ^ j % 256 = _
    cases j with
    | zero => 
      rw [Nat.pow_zero, Nat.div_one]
      show _ = byteAt b k
      omega
    | succ j =>
      rw [Nat.pow_succ', ← Nat.div_div_eq_div_mul, show (byteAt b k + 256 * leAt b (k + 1) n) / 256 = leAt b (k + 1) n by omega,
        ih (k + 1) j (by omega), Nat.add_right_comm, Nat.add_assoc]

/-- The data of a WRITE lie in address order, eight bytes a beat. -/
theorem beatBytes_at (bs : List Beat) : ∀ (k j : Nat) (b : Beat) (h : j < 8), bs[k]? = some b →
    byteAt (bs.flatMap (fun b => b.data.toList)) (8 * k + j) = b.data[j].toNat := by
  induction bs with
  | nil => intro k j b h e; simp at e
  | cons x xs ih =>
    intro k j b h e
    have hl : x.data.toList.length = 8 := by simp
    rw [List.flatMap_cons]
    cases k with
    | zero =>
      rw [List.getElem?_cons_zero] at e
      cases e
      unfold byteAt
      rw [List.getD_append _ _ _ _ (by rw [hl]; omega), List.getD_eq_getElem _ _ (by rw [hl]; omega)]
      simp
    | succ k =>
      rw [List.getElem?_cons_succ] at e
      rw [byteAt_append _ _ _ (by rw [hl]; omega), hl, show 8 * (k + 1) + j - 8 = 8 * k + j by omega]
      exact ih k j b h e

theorem bytes_at (r : Request) (k j : Nat) (b : Beat) (h : j < 8) (e : r.beats[k]? = some b) :
    byteAt r.bytes (8 * k + j) = b.data[j].toNat := beatBytes_at r.beats k j b h e

/-- A full aligned write (section 1.6). -/
theorem fullAligned_iff (r : Request) (n : Nat) : r.fullAligned n = true ↔
    ∃ bs, r.body = .write bs ∧ 8 * bs.length = n ∧ r.addr.toNat % n = 0 ∧ ∀ b ∈ bs, b.enable = 0xFF#8 := by
  obtain ⟨addr, tag, body⟩ := r
  cases body with
  | read k =>
    unfold Request.fullAligned Request.isWrite
    simp
  | write bs =>
    unfold Request.fullAligned Request.isWrite Request.size Request.beats
    simp [Body.beatCount, and_assoc]

/-! ## Check values (R2) -/

/-- A register that takes the bits of `x` one by one, where a step of f on c and x together is a step of c with the bit that
leaves x, and x shifted. -/
theorem crcBits_serial {w : Nat} {f : BitVec w → BitVec w} {step : BitVec w → Bool → BitVec w} {out : BitVec w → Bool}
    {shift : BitVec w → BitVec w} (h : ∀ c x, f (c ^^^ x) = step c (out x) ^^^ shift x) (n : Nat) : ∀ c x,
    crcBits f n (c ^^^ x) = (List.range n).foldl (fun c k => step c (out (shift^[k] x))) c ^^^ shift^[n] x := by
  induction n with
  | zero => intro c x; rfl
  | succ n ih =>
    intro c x
    show crcBits f n (f (c ^^^ x)) = _
    rw [h, ih, List.range_succ_eq_map, List.foldl_cons, List.foldl_map]
    rfl

theorem crc8_step (c x : BitVec 8) : crc8Bit (c ^^^ x) =
    (if (c.msb ^^ x.msb) = true then (c <<< 1) ^^^ 0x07#8 else c <<< 1) ^^^ (x <<< 1) := by
  unfold crc8Bit
  rw [BitVec.msb_xor, BitVec.shiftLeft_xor_distrib]
  split
  · rw [BitVec.xor_assoc, BitVec.xor_comm (x <<< 1), ← BitVec.xor_assoc]
  · rfl

theorem crc32_step (c x : BitVec 32) : crc32Bit (c ^^^ x) =
    (if (c.getLsbD 0 ^^ x.getLsbD 0) = true then (c >>> 1) ^^^ 0xEDB88320#32 else c >>> 1) ^^^ (x >>> 1) := by
  unfold crc32Bit
  rw [BitVec.getLsbD_xor, BitVec.ushiftRight_xor_distrib]
  split
  · rw [BitVec.xor_assoc, BitVec.xor_comm (x >>> 1), ← BitVec.xor_assoc]
  · rfl

theorem shiftLeft_iterate (x : BitVec 8) (k : Nat) : (fun y : BitVec 8 => y <<< 1)^[k] x = x <<< k := by
  induction k with
  | zero => simp
  | succ k ih => rw [Function.iterate_succ_apply', ih, ← BitVec.shiftLeft_add]

theorem shiftRight_iterate (x : BitVec 32) (k : Nat) : (fun y : BitVec 32 => y >>> 1)^[k] x = x >>> k := by
  induction k with
  | zero => simp
  | succ k ih => rw [Function.iterate_succ_apply', ih, ← BitVec.shiftRight_add]

/-- The CRC-8 takes the bits of each byte one by one, the most significant first: polynomial 0x07, initial value 0 (R2). -/
theorem crc8_serial (m : List Byte) : crc8 m = m.foldl (fun c b => [7, 6, 5, 4, 3, 2, 1, 0].foldl
    (fun (c : BitVec 8) (k : Nat) => if (c.msb ^^ b.getLsbD k) = true then (c <<< 1) ^^^ 0x07#8 else c <<< 1) c) 0 := by
  unfold crc8
  congr 1
  funext c b
  rw [crcBits_serial (step := fun c d => if (c.msb ^^ d) = true then (c <<< 1) ^^^ 0x07#8 else c <<< 1)
      (out := BitVec.msb) (shift := fun y => y <<< 1) crc8_step, shiftLeft_iterate,
    BitVec.shiftLeft_eq_zero (Nat.le_refl 8), BitVec.xor_zero]
  have top : ∀ k, k < 8 → (b <<< k).msb = b.getLsbD (7 - k) := by
    intro k h
    rw [BitVec.msb_eq_getLsbD_last, BitVec.getLsbD_shiftLeft]
    simp [show ¬ 7 < k by omega]
  have e : [7, 6, 5, 4, 3, 2, 1, 0] = (List.range 8).map (fun k => 7 - k) := by decide
  rw [e, List.foldl_map]
  refine List.foldl_ext _ _ _ (fun c k hk => ?_)
  rw [shiftLeft_iterate, top k (List.mem_range.mp hk)]

/-- The CRC-32 takes the bits of each byte one by one, the least significant first: polynomial 0x04C11DB7 reflected, initial
value and final XOR 0xFFFFFFFF (R2). -/
theorem crc32_serial (m : List Byte) : crc32 m = m.foldl (fun c b => (List.range 8).foldl
    (fun (c : BitVec 32) (k : Nat) => if (c.getLsbD 0 ^^ b.getLsbD k) = true then (c >>> 1) ^^^ (0x04C11DB7#32).reverse
      else c >>> 1) c) 0xFFFFFFFF#32 ^^^ 0xFFFFFFFF#32 := by
  have r : (0x04C11DB7#32).reverse = 0xEDB88320#32 := by decide +kernel
  unfold crc32 crc32Final crc32Init
  congr 2
  funext c b
  unfold crc32Byte
  rw [crcBits_serial (step := fun c d => if (c.getLsbD 0 ^^ d) = true then (c >>> 1) ^^^ 0xEDB88320#32 else c >>> 1)
      (out := fun x => x.getLsbD 0) (shift := fun y => y >>> 1) crc32_step, shiftRight_iterate]
  have z : b.setWidth 32 >>> 8 = 0 := by
    apply BitVec.eq_of_toNat_eq
    rw [BitVec.toNat_ushiftRight, BitVec.toNat_setWidth, Nat.shiftRight_eq_div_pow]
    have := b.isLt
    simp
    omega
  rw [z, r]
  show _ ^^^ 0#32 = _
  rw [BitVec.xor_zero]
  refine List.foldl_ext _ _ _ (fun c k hk => ?_)
  rw [shiftRight_iterate, BitVec.getLsbD_ushiftRight, BitVec.getLsbD_setWidth, Nat.add_zero]
  rw [decide_eq_true (show k < 32 from Nat.lt_trans (List.mem_range.mp hk) (by decide)), Bool.true_and]

/-! ## Intake messages (R59, R60, TABLE 13-2) -/

theorem messageForm_iff (r : Request) : messageForm r = true ↔ r.fullAligned 16 = true ∧ byteAt r.bytes 0 = 1 := by
  unfold messageForm
  rw [Bool.and_eq_true, beq_iff_eq]
  rfl

/-- A message that meets an aligned ring lies in one slot of it (R60). -/
theorem message_slot (r : Request) (x : Ring) (h : messageForm r = true) (ha : x.base.toNat % 16 = 0)
    (ho : r.overlaps x.base.toNat (16 * x.slots) = true) :
    r.size = 16 ∧ ∃ k < x.slots, r.addr.toNat = x.base.toNat + 16 * k := by
  have hf := ((messageForm_iff r).mp h).1
  unfold Request.fullAligned at hf
  simp only [Bool.and_eq_true, beq_iff_eq] at hf
  obtain ⟨⟨⟨_, hs⟩, hm⟩, _⟩ := hf
  unfold Request.overlaps at ho
  rw [hs] at ho
  simp only [Bool.and_eq_true, decide_eq_true_eq] at ho
  refine ⟨hs, (r.addr.toNat - x.base.toNat) / 16, ?_, ?_⟩ <;> omega

theorem msgKind_iff (b : List Byte) (k : MsgKind) :
    msgKind b = some k ↔ byteAt b 1 = 1 + [MsgKind.gasp, .loss, .restore, .portDark, .portLit].idxOf k := by
  unfold msgKind
  generalize byteAt b 1 = v
  have hk : [MsgKind.gasp, .loss, .restore, .portDark, .portLit].idxOf k < 5 := by cases k <;> decide
  by_cases hv : v < 6
  · interval_cases v <;> cases k <;> decide
  · constructor
    · intro h
      split at h <;> first | omega | cases h
    · intro h; omega

theorem framerTime_reads (b : List Byte) : (framerTime b).toNat = leAt b 8 4 :=
  (BitVec.toNat_ofNat _ 32).trans (Nat.mod_eq_of_lt (leAt_lt b 4 8))

/-- The port a write is attributed to: the lowest of those whose rings it writes (R59). -/
theorem portOf_iff (s : State) (r : Request) (p : Fin 16) : s.portOf r = some p ↔
    (r.isWrite = true ∧ ∃ x, s.ring p = some x ∧ x.framer = r.tag ∧ r.overlaps x.base.toNat (16 * x.slots) = true) ∧
      ∀ q < p, ¬(r.isWrite = true ∧
        ∃ x, s.ring q = some x ∧ x.framer = r.tag ∧ r.overlaps x.base.toNat (16 * x.slots) = true) := by
  have e : ∀ q, s.inRingOf r q = true ↔ r.isWrite = true ∧
      ∃ x, s.ring q = some x ∧ x.framer = r.tag ∧ r.overlaps x.base.toNat (16 * x.slots) = true := by
    intro q
    unfold State.inRingOf
    cases s.ring q with
    | none => simp
    | some x => simp [Ring.area, and_assoc]
  unfold State.portOf
  rw [List.find?_eq_some_iff_getElem]
  simp only [List.getElem_finRange, List.length_finRange]
  constructor
  · rintro ⟨h, i, hi, hp, hlt⟩
    refine ⟨(e p).mp h, fun q hq hw => ?_⟩
    have hv : i = p.val := congrArg Fin.val hp
    have h0 := (Bool.not_eq_true' _).mp (hlt q.val (by omega))
    exact absurd ((e q).mpr hw) (by rw [show s.inRingOf r q = false from h0]; decide)
  · rintro ⟨h, hlt⟩
    refine ⟨(e p).mpr h, p.val, p.isLt, rfl, fun j hj => ?_⟩
    refine (Bool.not_eq_true' _).mpr ((Bool.not_eq_true _).mp fun hc => ?_)
    exact hlt ⟨j, by omega⟩ hj ((e ⟨j, by omega⟩).mp hc)

/-! ## The map's answers (R54) -/

/-- In a map whose pairs of port and local id differ, a pair names the one terminal that has it; any other has no
answer. -/
theorem terminalOf_iff (s : State) (m : BuildingMap) (hm : s.map = some m) (hl : m.terminals.length ≤ 1024)
    (hd : (m.terminals.map (fun e => (e.port, e.localId))).Pairwise (· ≠ ·)) (p : Fin 16) (l : Nat) (n : Fin 1024) :
    s.terminalOf p l = some n ↔ ∃ e, m.terminals[n.val]? = some e ∧ e.port = p ∧ e.localId.val = l := by
  unfold State.terminalOf State.entries
  rw [hm]
  dsimp only
  have uniq : ∀ (i j : Nat) (a b : TermEntry), m.terminals[i]? = some a → m.terminals[j]? = some b → a.port = b.port →
      a.localId = b.localId → i = j := by
    intro i j a b ha hb h1 h2
    obtain ⟨hi, rfl⟩ := List.getElem?_eq_some_iff.mp ha
    obtain ⟨hj, rfl⟩ := List.getElem?_eq_some_iff.mp hb
    have hn : (m.terminals.map (fun e => (e.port, e.localId))).Nodup := hd
    refine (List.Nodup.getElem_inj_iff hn (hi := by simpa using hi) (hj := by simpa using hj)).mp ?_
    simp [h1, h2]
  constructor
  · intro h
    obtain ⟨⟨e, k⟩, hf, hn⟩ := Option.map_eq_some_iff.mp h
    have hp := List.find?_some hf
    have hk := List.mk_mem_zipIdx_iff_getElem?.mp (List.mem_of_find?_eq_some hf)
    simp only [Bool.and_eq_true, beq_iff_eq] at hp
    have hlt : k < m.terminals.length := (List.getElem?_eq_some_iff.mp hk).1
    refine ⟨e, ?_, hp.1, hp.2⟩
    rw [← hn]
    show m.terminals[k % 1024]? = some e
    rw [Nat.mod_eq_of_lt (by omega)]
    exact hk
  · rintro ⟨e, he, h1, h2⟩
    have hmem : (e, n.val) ∈ m.terminals.zipIdx := List.mk_mem_zipIdx_iff_getElem?.mpr he
    cases hf : m.terminals.zipIdx.find? (fun e => e.1.port == p && e.1.localId.val == l) with
    | none => exact absurd (List.find?_eq_none.mp hf _ hmem) (by simp [h1, h2])
    | some x =>
      obtain ⟨y, k⟩ := x
      have hp := List.find?_some hf
      have hk := List.mk_mem_zipIdx_iff_getElem?.mp (List.mem_of_find?_eq_some hf)
      simp only [Bool.and_eq_true, beq_iff_eq] at hp
      have : k = n.val := uniq k n.val y e hk he (hp.1.trans h1.symm) (Fin.ext (hp.2.trans h2.symm))
      subst this
      exact congrArg some (Fin.ext (Nat.mod_eq_of_lt n.isLt))

theorem entry_iff (s : State) (m : BuildingMap) (hm : s.map = some m) (n : Fin 1024) : s.entry? n = m.terminals[n.val]? := by
  unfold State.entry?
  rw [hm]

theorem terminalOf_none (s : State) (hm : s.map = none) (p : Fin 16) (l : Nat) : s.terminalOf p l = none := by
  unfold State.terminalOf State.entries
  rw [hm]
  rfl

/-! ## The anchor block (R24, R188, TABLES 1-7, 13-1) -/

/-- Where an anchor block's fields stand. -/
theorem anchorOf_reads (b : List Byte) :
    (byteAt b 3 ≤ 31 → (anchorOf b).ownTag.val = byteAt b 3) ∧ (anchorOf b).procMask.toNat = leAt b 4 4 ∧
    (anchorOf b).ringBase.toNat = leAt b 8 5 ∧ (anchorOf b).ringSlots = leAt b 13 2 ∧
    ((anchorOf b).completionReports = true ↔ byteAt b 15 % 2 = 1) ∧ (anchorOf b).consumedAddr.toNat = leAt b 16 5 ∧
    (anchorOf b).cmdBase.toNat = leAt b 24 5 ∧ (anchorOf b).cmdSlots = byteAt b 29 ∧
    (anchorOf b).mirrorBase.toNat = leAt b 32 5 ∧ (anchorOf b).windowBase.toNat = leAt b 40 5 := by
  have e : ∀ w n k, 256 ^ n ≤ 2 ^ w → (BitVec.ofNat w (leAt b k n)).toNat = leAt b k n := fun w n k h =>
    (BitVec.toNat_ofNat _ w).trans (Nat.mod_eq_of_lt (Nat.lt_of_lt_of_le (leAt_lt b n k) h))
  exact ⟨fun h => Nat.mod_eq_of_lt (Nat.lt_succ_of_le h), e 32 4 4 (by decide), e 40 5 8 (by decide), rfl, beq_iff_eq,
    e 40 5 16 (by decide), e 40 5 24 (by decide), rfl, e 40 5 32 (by decide), e 40 5 40 (by decide)⟩

theorem mem_ringAreas (s : State) (q : Nat × Nat) :
    q ∈ s.ringAreas ↔ ∃ p x, s.ring p = some x ∧ q = (x.base.toNat, 16 * x.slots) := by
  unfold State.ringAreas
  rw [List.mem_filterMap]
  constructor
  · rintro ⟨p, _, h⟩
    obtain ⟨x, hx, rfl⟩ := Option.map_eq_some_iff.mp h
    exact ⟨p, x, hx, rfl⟩
  · rintro ⟨p, x, hx, rfl⟩
    exact ⟨p, List.mem_finRange p, by rw [hx]; rfl⟩

/-! ## Held reads and the consumed index -/

/-- What a held read awaits after a grant of record i (R15, R158). -/
theorem mem_granted (h : HeldRead) (i j k : Nat) (w : Await) : (j, w) ∈ (h.granted i k).awaits ↔
    ((j ≠ i ∨ w ≠ .needsWrite) ∧ (j, w) ∈ h.awaits) ∨ (j = i ∧ w = .answers k ∧ (i, .needsWrite) ∈ h.awaits) := by
  unfold HeldRead.granted
  dsimp only
  rw [List.mem_map]
  constructor
  · rintro ⟨⟨a, b⟩, hm, e⟩
    by_cases hc : a = i ∧ b = .needsWrite
    · obtain ⟨rfl, rfl⟩ := hc
      rw [if_pos (by simp)] at e
      cases e
      exact .inr ⟨rfl, rfl, hm⟩
    · rw [if_neg (by simpa using hc)] at e
      cases e
      exact .inl ⟨not_and_or.mp hc, hm⟩
  · rintro (⟨hne, hm⟩ | ⟨rfl, rfl, hm⟩)
    · exact ⟨_, hm, if_neg (by simpa using not_and_or.mpr hne)⟩
    · exact ⟨_, hm, if_pos (by simp)⟩

/-- A consumed-index value handed over (R142, R143). -/
theorem handConsumed_cases (s : State) (a : Anchor) (v : Nat) (ha : s.ctl.anchor = some a) :
    let released := (v + a.ringSlots - s.rw.consumed) % a.ringSlots
    let u := { s with rw := { s.rw with consumed := v, occupancy := s.rw.occupancy - released } }
    (a.ringSlots ≤ v ∨ s.rw.occupancy < released → s.handConsumed v = s.indexFault) ∧
    (v < a.ringSlots → released ≤ s.rw.occupancy →
      (s.rw.stalled = false ∨ 4 * (a.ringSlots - u.rw.occupancy) < a.ringSlots → s.handConsumed v = u) ∧
      (s.rw.stalled = true → a.ringSlots ≤ 4 * (a.ringSlots - u.rw.occupancy) → s.handConsumed v = u.endStall)) := by
  dsimp only
  have hh : s.handConsumed v = if a.ringSlots ≤ v then s.indexFault
      else if s.rw.occupancy < (v + a.ringSlots - s.rw.consumed) % a.ringSlots then s.indexFault
      else s.takeConsumed a.ringSlots v := by
    unfold State.handConsumed; rw [ha]; rfl
  refine ⟨fun h => ?_, fun h1 h2 => ?_⟩
  · rw [hh]
    by_cases h1 : a.ringSlots ≤ v
    · rw [if_pos h1]
    · rw [if_neg h1, if_pos (h.resolve_left h1)]
  · rw [hh, if_neg (by omega), if_neg (by omega)]
    unfold State.takeConsumed State.freeSlots
    dsimp only
    rw [ha]
    dsimp only
    refine ⟨fun h3 => if_neg ?_, fun h3 h4 => if_pos ?_⟩
    · rw [Bool.and_eq_true, decide_eq_true_eq]
      rintro ⟨x, y⟩
      rcases h3 with h3 | h3
      · rw [h3] at x; cases x
      · exact absurd h3 (by unfold State.releases at y; omega)
    · rw [Bool.and_eq_true, decide_eq_true_eq]
      exact ⟨h3, h4⟩

/-! ## When nothing moves -/

/-- Nothing moves in the path unit: every lane's front is classified or waits behind a held read of its tag, none is to be
classified afresh, and a held read that awaits nothing stands behind one of its tag (R4, R15). -/
theorem nothing_moves_iff (s : State) : s.moves = [] ↔
    (∀ (t : Tag) (r : Request), (s.lane t).reqs.head? = some r →
      ((s.lane t).outcome = none → s.tagHeld t = true ∧ s.verdict r ≠ .mirrorCheck .presented) ∧
      ∀ m, (s.lane t).outcome ≠ some (m, .mirrorCheck .again)) ∧
    ∀ older h younger, s.path.held = older ++ h :: younger → h.awaits = [] → ∃ g ∈ older, g.req.tag = h.req.tag := by
  rw [settled_iff]
  have lanes : (∀ t, s.presentable t = false) ∧ (∀ t, s.recheckable t = false) ↔
      ∀ (t : Tag) (r : Request), (s.lane t).reqs.head? = some r →
        ((s.lane t).outcome = none → s.tagHeld t = true ∧ s.verdict r ≠ .mirrorCheck .presented) ∧
        ∀ m, (s.lane t).outcome ≠ some (m, .mirrorCheck .again) := by
    rw [← forall_and]
    refine forall_congr' fun t => ?_
    unfold State.presentable State.recheckable
    cases hr : (s.lane t).reqs with
    | nil => simp
    | cons r rest =>
      cases ho : (s.lane t).outcome with
      | none => simp
      | some x => obtain ⟨m, v⟩ := x; simp
  have held : (∀ i, i < s.path.held.length → s.releasable i = false) ↔
      ∀ older h younger, s.path.held = older ++ h :: younger → h.awaits = [] → ∃ g ∈ older, g.req.tag = h.req.tag := by
    constructor
    · intro hs older h younger e ha
      have hr := hs older.length (by rw [e]; simp)
      unfold State.releasable at hr
      rw [e] at hr
      simpa [ha] using hr
    · intro hs i hi
      unfold State.releasable
      rw [List.getElem?_eq_getElem hi]
      dsimp only
      by_cases ha : s.path.held[i].awaits = []
      · have e : s.path.held = s.path.held.take i ++ s.path.held[i] :: s.path.held.drop (i + 1) := by
          rw [List.cons_getElem_drop_succ, List.take_append_drop]
        obtain ⟨g, hg, ht⟩ := hs _ _ _ e ha
        rw [Bool.and_eq_false_iff]
        right
        rw [Bool.not_eq_false', List.any_eq_true]
        exact ⟨g, hg, by simpa using ht⟩
      · simp [ha]
  rw [← lanes, ← held, and_assoc]

end Sys2Proof.Machine
end

