-- ==== Sys2Proof/Tests/Slice0.lean ====
section
/-! SUPPORT. Tests: the well-formedness check refuses what is no bus request; and for each statement with hypotheses a
concrete state and operands that meet them, clause by clause. -/

namespace Sys2Proof.Tests

open Sys2Proof Sys2Proof.Machine

set_option Elab.async false

/-! ## Small states -/

/-- An anchor: own tag 5, processor tags 1 and 2, a ring of 16 slots. -/
def anchorT : Anchor :=
  { ownTag := 5, procMask := 6, ringBase := 0x10000#40, ringSlots := 16, consumedAddr := 0x20000#40, cmdBase := 0x30000#40,
    cmdSlots := 8, mirrorBase := 0x40000#40, windowBase := 0x50000#40, completionReports := true }

/-- Three terminals on two taps of riser 0 of port 0, in two zones; the first is PROMPT. -/
def mapT : BuildingMap :=
  { terminals := [⟨0, 0, 0, 0, true, false⟩, ⟨0, 1, 0, 0, false, false⟩, ⟨0, 127, 1, 1, false, true⟩],
    taps := [0, 0], risers := [0], zones := 2 }

/-- The ring of port 0: framer tag 3, CLAIM. -/
def ringT : Ring := { base := 0x60000#40, slots := 4, framer := 3, treatment := .claim }

/-- RUNNING with that anchor, map and ring, terminals UP, one report in the ring. -/
def run : State :=
  { State.reset with
    ctl := { mode := .running, anchorAddr := 0x400#40, anchor := some anchorT, startMark := false, holdupMark := false },
    map := some mapT,
    intake := { Intake.reset with rings := Intake.reset.rings.set 0 (some ringT) },
    table := { Table.reset with terms := ((Table.reset.terms.set 0 { Terminal.unlisted with state := .up }).set 1
      { Terminal.unlisted with state := .up }).set 2 { Terminal.unlisted with state := .up } },
    rw := { ReportWriter.reset with nextSeq := 1, produced := 1, occupancy := 1 } }

/-- The same in another mode. -/
def inMode (s : State) (m : Mode) : State := { s with ctl := { s.ctl with mode := m } }

/-- With a request at the front of its lane, classified v. -/
def front (s : State) (r : Request) (v : Verdict) : State :=
  s.setLane r.tag { reqs := [r], outcome := some (s.ctl.mode, v) }

/-- A step for one unit of work. -/
def cmdStep : StepFor := { anchor := false, intake := false, command := true, window := false, consumed := none }
def intakeStep : StepFor := { anchor := false, intake := true, command := false, window := false, consumed := none }
def anchorStep : StepFor := { anchor := true, intake := false, command := false, window := false, consumed := none }
def windowStep : StepFor := { anchor := false, intake := false, command := false, window := true, consumed := none }

/-- A slot: kind, placement, trigger and trigger value as numbers, tag 7, and its parameters from byte 10 on. -/
def slotT (kind place trigger v : Nat) (params : List Nat) : List Byte :=
  ((leBytes 1 1 ++ leBytes 1 kind ++ leBytes 1 place ++ leBytes 1 trigger ++ leBytes 2 7 ++ leBytes 4 v ++
    params.map (BitVec.ofNat 8)) ++ zeros 32).take 32

/-- A slot write into the first slot of the command area. -/
def slotWrite (b : List Byte) : Request := { addr := 0x30000#40, tag := 1, body := .write (fullBeats b) }

/-- A state with that slot write at the front of lane 1. -/
def withSlot (s : State) (b : List Byte) : State := front s (slotWrite b) (.step cmdStep)

/-- An intake message for port 0 about the terminal with local id k, with its CRC. -/
def messageT (kind k tag cause : Nat) : List Byte :=
  let m := [1, kind, 0, k, tag, cause, 0, 0, 9, 0, 0, 0, 0, 0, 0].map (BitVec.ofNat 8)
  m ++ [crc8 (m.drop 1)]

/-- Its write into port 0's ring. -/
def ringWrite (m : List Byte) : Request := { addr := 0x60000#40, tag := 3, body := .write (fullBeats m) }

/-- A state with that write at the front of lane 3. -/
def withMessage (s : State) (m : List Byte) : State := front s (ringWrite m) (.step intakeStep)

/-- A terminal's record replaced. -/
def withTerm (s : State) (n : Fin 1024) (f : Terminal → Terminal) : State := s.setTerm n (f (s.term n))

/-- A group's record replaced. -/
def withGroup (s : State) (g : GroupId) (f : Group → Group) : State := s.setGroup g (f (s.group g))

/-! ## Well-formedness -/

theorem test_misaligned_refused : (Instr.upstreamRequest { addr := 0x1001#40, tag := 0, body := .read 1 }).wf = false := by
  decide
theorem test_no_beats_refused : (Instr.upstreamRequest { addr := 0x1000#40, tag := 0, body := .read 0 }).wf = false := by
  decide
theorem test_nine_beats_refused : (Instr.upstreamRequest { addr := 0x1000#40, tag := 0, body := .read 9 }).wf = false := by
  decide
theorem test_eight_beats_accepted : (Instr.upstreamRequest { addr := 0x1000#40, tag := 0, body := .read 8 }).wf = true := by
  decide
theorem test_misaligned_stops :
    exec (.upstreamRequest { addr := 0x1004#40, tag := 0, body := .read 1 }) State.reset = .fault .notARequest := rfl

/-! ## Check values -/

theorem test_crc8 : crc8 ([0x31, 0x32, 0x33, 0x34, 0x35, 0x36, 0x37, 0x38, 0x39].map (BitVec.ofNat 8)) = 0xF4 := by
  decide +kernel
theorem test_crc32 : crc32 ([0x31, 0x32, 0x33, 0x34, 0x35, 0x36, 0x37, 0x38, 0x39].map (BitVec.ofNat 8)) = 0xCBF43926 := by
  decide +kernel

/-! ## The machine as a whole -/

theorem test_front_command : { State.reset with pending := [.downstreamGrant] }.pending = .downstreamGrant :: [] := rfl
theorem test_empty_queue : run.pending = [] ∧ run.inReset = false ∧ { run with inReset := true }.pending = [] := by decide +kernel
theorem test_command_answers : ∃ t, exec .downstreamGrant run = .next t ∧ ∀ straps, Instr.downstreamGrant ≠ .resetNRelease straps :=
  ⟨_, rfl, fun _ h => nomatch h⟩
theorem test_beats_clauses :
    let r : Request := { addr := 0x8#40, tag := 0, body := .write (fullBeats (zeros 64)) }
    (0x7#40 : Addr).toNat % 8 ≠ 0 ∧ r.beatsOk = true ∧ (0 < 1) ∧ (Request.mk 0 0 (.read 1)).beatsOk = true ∧
      r.beats[7]? = some (fullBeat 0 0 0 0 0 0 0 0) ∧ r.beats[0]? = some (fullBeat 0 0 0 0 0 0 0 0) ∧ 7 < 8 := by
  decide +kernel

/-! ## Invariants -/

/-- A state in which every store holds something. -/
def busyT : State :=
  { run with
    mirror := { run.mirror with dirty := [0, 1024, 1280], cursor := 1280 },
    path :=
      { run.path with
        passRun := 16,
        held := [{ req := { addr := 0x40000#40, tag := 2, body := .read 1 }, awaits := [(0, .needsWrite)] }],
        lanes := run.path.lanes.set 2 { reqs := [{ addr := 0x8#40, tag := 2, body := .read 1 }], outcome := none } } }

/-- Whether every read that waits for room or behind its tag has cause to. -/
def waitsOk (p : Path) : Bool := (List.finRange 32).all fun t : Tag =>
  match p.lanes[t.val].outcome with
  | some (_, .mirrorCheck .room) => decide (8 ≤ p.held.length)
  | some (_, .mirrorCheck .behind) => p.held.any (fun h => h.req.tag == t)
  | _ => true

/-- The path invariant as a check. -/
def pathOk (s : State) : Bool :=
  (List.finRange 32).all (fun t => decide ((s.lane t).reqs.length ≤ 4) && (s.lane t).reqs.all (fun r => r.tag == t)) &&
    decide (s.path.held.length ≤ 8) && decide (s.path.passRun ≤ 16) && (!s.mirror.dirty.isEmpty || s.path.passRun == 0) &&
    s.path.held.all (fun h => decide (h.awaits.Pairwise (fun x y => x.1 < y.1))) && waitsOk s.path

theorem pathSound_of {s : State} (h : pathOk s = true) : s.pathSound := by
  simp only [pathOk, waitsOk, Bool.and_eq_true, List.all_eq_true, List.mem_finRange, true_implies, decide_eq_true_eq,
    beq_iff_eq, Bool.or_eq_true, Bool.not_eq_true', List.isEmpty_eq_false_iff] at h
  obtain ⟨⟨⟨⟨⟨h1, h2⟩, h3⟩, h4⟩, h5⟩, h6⟩ := h
  refine ⟨fun t => (h1 t).1, h2, h3, fun e => h4.resolve_left (fun n => n e), fun t => (h1 t).2, h5, fun t m => ⟨fun e => ?_, fun e => ?_⟩⟩
  · have := h6 t
    rw [e] at this; simpa [Config.heldReads] using this
  · have := h6 t
    rw [e] at this; simpa using this

theorem test_mirrorSound : busyT.mirrorSound ∧ ∃ t, step busyT = .next t := by
  refine ⟨?_, _, rfl⟩
  unfold State.mirrorSound
  decide +kernel
theorem test_pathSound : busyT.pathSound ∧ ∃ t, step busyT = .next t := by
  exact ⟨pathSound_of (by decide +kernel), _, rfl⟩
theorem test_ringSound : run.ringSound ∧ ∃ t, step run = .next t :=
  ⟨⟨by decide, ⟨268435456, rfl⟩, rfl, by decide, rfl, by decide, .inr (by decide)⟩, _, rfl⟩
theorem test_ringSound_without_ring : State.reset.ringSound ∧ ∃ t, step State.reset = .next t :=
  ⟨⟨rfl, rfl, .inl rfl, rfl⟩, _, rfl⟩

/-! ## Reset -/

theorem test_reset_assertion : busyT.inReset = false ∧ busyT.pathSound := ⟨rfl, pathSound_of (by decide +kernel)⟩
theorem test_reset_release : { busyT with inReset := true }.inReset = true ∧ { busyT with inReset := true }.pathSound :=
  ⟨rfl, pathSound_of (by decide +kernel)⟩

/-! ## The path unit -/

/-- A read of one beat by tag 2. -/
def readT (a : Nat) : Request := { addr := BitVec.ofNat 40 a, tag := 2, body := .read 1 }

theorem test_request_waits :
    let s (k : Nat) := run.setLane 2 { reqs := List.replicate k (readT 0x40000), outcome := some (.running, .mirrorCheck .presented) }
    (readT 8).wf = true ∧ (s 3).Front 2 (readT 0x40000) (.mirrorCheck .presented) ∧ ((s 3).lane 2).reqs.length < 4 ∧
      (s 4).Front 2 (readT 0x40000) (.mirrorCheck .presented) ∧ 4 ≤ ((s 4).lane 2).reqs.length := by
  unfold State.Front
  decide +kernel

/-- A read of tag 2 is held. -/
def heldT : State :=
  { run with path :=
      { run.path with held := [{ req := readT 0x40000, awaits := [(0, .answers 1)] }] } }

theorem test_request_passes :
    (readT 8).wf = true ∧ run.moves = [] ∧ run.lane 2 = { reqs := [], outcome := none } ∧ run.tagHeld 2 = false ∧
      run.verdict (readT 8) = .pass := by
  decide +kernel
theorem test_request_stays :
    (readT 0x40000).wf = true ∧ run.moves = [] ∧ run.verdict (readT 0x40000) ≠ .pass ∧ run.tagHeld 2 = false := by
  decide +kernel
theorem test_mirror_read_behind_held :
    heldT.moves = [] ∧ heldT.lane 2 = { reqs := [], outcome := none } ∧ heldT.tagHeld 2 = true ∧
      heldT.verdict (readT 0x40000) = .mirrorCheck .presented := by
  decide +kernel
theorem test_other_read_behind_held :
    (readT 8).wf = true ∧ heldT.moves = [] ∧ heldT.tagHeld 2 = true ∧ heldT.verdict (readT 8) ≠ .mirrorCheck .presented := by
  decide +kernel

/-- An own write queue of k entries and a passing request. -/
def queueT (k : Nat) (p : List PassEntry) : State :=
  { run with
    rw := { run.rw with queue := List.replicate k (.writeBack 0x30000#40 (zeros 32)) },
    path := { run.path with passPath := p } }

/-- A slot write in front, with the own-write queue of k entries. -/
def crowdedT (k : Nat) : State := withSlot (queueT k []) (slotT 8 0 0 0 [])
theorem test_write_not_admitted :
    (crowdedT 29).Front 1 (slotWrite (slotT 8 0 0 0 [])) (.step cmdStep) ∧ (crowdedT 29).admits cmdStep = false ∧
      (crowdedT 28).admits cmdStep = true ∧ .arm 1 ∈ stepRows 1 ∧
      { crowdedT 0 with cmd := { run.cmd with unit := .actions } }.admits cmdStep = false := by
  unfold State.Front
  decide +kernel
/-- A write held under an outcome of ATTACHED. -/
def earlierT (r : Request) : State := run.setLane r.tag { reqs := [r], outcome := some (.attached, .step cmdStep) }
theorem test_held_write_reclassified :
    let r := slotWrite (slotT 8 0 0 0 [])
    (earlierT r).moves = [] ∧ (earlierT r).tagHeld 1 = false ∧ (earlierT r).lane 1 = { reqs := [r], outcome := some (.attached, .step cmdStep) } ∧
      Mode.attached ≠ (earlierT r).ctl.mode ∧ (earlierT r).verdict r ≠ .pass ∧ .arm 1 ∈ stepRows 1 := by
  decide +kernel
theorem test_held_write_passes :
    let r := slotWrite (zeros 32)
    (earlierT r).moves = [] ∧ (earlierT r).tagHeld 1 = false ∧ (earlierT r).lane 1 = { reqs := [r], outcome := some (.attached, .step cmdStep) } ∧
      (earlierT r).verdict r = .pass := by
  decide +kernel

/-- An anchor block's write. -/
def blockWrite (b : List Byte) : Request := { addr := 0x400#40, tag := 1, body := .write (fullBeats b) }

theorem test_verdict_in_reset : { run with inReset := true }.inReset = true := rfl
theorem test_verdict_halted : (slotWrite (zeros 32)).isWrite = true ∧ (inMode run .halted).ctl.mode = .halted := by decide
theorem test_verdict_detached :
    State.reset.inReset = false ∧ State.reset.ctl.mode = .detached ∧ State.reset.ctl.anchor = none ∧
      (∀ p, State.reset.ring p = none) ∧ (blockWrite (zeros 64)).fullAligned 64 = true ∧
      (blockWrite (zeros 64)).addr = State.reset.ctl.anchorAddr ∧
      ¬((slotWrite (zeros 32)).fullAligned 64 = true ∧ (slotWrite (zeros 32)).addr = State.reset.ctl.anchorAddr) := by
  decide +kernel
theorem test_verdict_read :
    run.inReset = false ∧ run.ctl.anchor = some anchorT ∧ run.ctl.mode ≠ .detached ∧ (readT 0x40000).isWrite = false ∧
      anchorT.procMask.getLsbD (readT 0x40000).tag = true ∧ (readT 0x45008).overlaps anchorT.mirrorBase.toNat 20496 = true ∧
      ¬(readT 0x45010).overlaps anchorT.mirrorBase.toNat 20496 = true := by
  decide +kernel
theorem test_verdict_anchor :
    anchorT.procMask.getLsbD (blockWrite (zeros 64)).tag = true ∧ (blockWrite (zeros 64)).fullAligned 64 = true ∧
      (blockWrite (zeros 64)).addr = run.ctl.anchorAddr ∧ (blockWrite (zeros 64)).isWrite = true := by
  decide +kernel
theorem test_verdict_ring :
    ∃ p x, run.ring p = some x ∧ x.framer = (ringWrite (zeros 16)).tag ∧
      (ringWrite (zeros 16)).overlaps x.base.toNat (16 * x.slots) = true :=
  ⟨0, ringT, by decide +kernel⟩
theorem test_verdict_slot :
    let last : Request := { slotWrite (slotT 10 0 0 0 []) with addr := 0x300E0#40 }
    anchorT.procMask.getLsbD last.tag = true ∧ last.fullAligned 32 = true ∧ byteAt last.bytes 0 = 1 ∧
      anchorT.cmdBase.toNat ≤ last.addr.toNat ∧ last.addr.toNat + 32 ≤ anchorT.cmdBase.toNat + 32 * anchorT.cmdSlots := by
  decide +kernel
theorem test_verdict_window :
    let r : Request := { addr := 0x50FF8#40, tag := 1, body := .write (fullBeats (zeros 8)) }
    (inMode run .loading).ctl.mode = .loading ∧ anchorT.procMask.getLsbD r.tag = true ∧
      r.overlaps anchorT.windowBase.toNat 4096 = true := by
  decide +kernel
/-- A write of the consumed-index word. -/
def wordWrite (tag : Tag) : Request := { addr := 0x20000#40, tag := tag, body := .write (fullBeats (leBytes 8 1)) }
theorem no_ring (r : Request) (h : r.tag ≠ 3) :
    ¬∃ p x, run.ring p = some x ∧ x.framer = r.tag ∧ r.overlaps x.base.toNat (16 * x.slots) = true := by
  rintro ⟨p, x, hx, ht, _⟩
  have hall : ∀ p : Fin 16, run.ring p = if p = 0 then some ringT else none := by decide +kernel
  rw [hall p] at hx
  split at hx
  · cases hx; exact h ht.symm
  · cases hx
theorem test_verdict_word :
    (¬∃ p x, run.ring p = some x ∧ x.framer = (wordWrite 1).tag ∧
      (wordWrite 1).overlaps x.base.toNat (16 * x.slots) = true) ∧
    ¬(wordWrite 1).fullAligned 64 = true ∧ ¬(wordWrite 1).fullAligned 32 = true ∧ ¬run.ctl.mode = .loading ∧
      anchorT.procMask.getLsbD (wordWrite 1).tag = true ∧
      (∀ k < 4, (wordWrite 1).enables (anchorT.consumedAddr.toNat + k) = true) ∧
      ¬anchorT.procMask.getLsbD (wordWrite 4).tag = true := by
  refine ⟨no_ring _ (by decide), ?_⟩
  decide +kernel

theorem test_candidates_off : State.reset.ctl.mode = .detached ∧ State.reset.ctl.anchor = none := by decide
theorem test_candidates_on :
    busyT.inReset = false ∧ busyT.ctl.mode ≠ .detached ∧ busyT.ctl.anchor ≠ none ∧ busyT.mirror.dirty ≠ [] ∧
      run.mirror.dirty = [] ∧
      busyT.path.held = [] ++ { req := readT 0x40000, awaits := [(0, .needsWrite)] } :: [] := by
  decide +kernel
theorem test_candidates_held :
    busyT.pathSound ∧ (0, Await.needsWrite) ∈ [((0 : Nat), Await.needsWrite)] ∧
      (∀ j, (j, Await.needsWrite) ∈ [((0 : Nat), Await.needsWrite)] → 0 ≤ j) ∧
      ∀ h ∈ heldT.path.held, ∀ x ∈ h.awaits, x.2 ≠ .needsWrite :=
  ⟨pathSound_of (by decide +kernel), by decide, fun _ _ => Nat.zero_le _, by decide +kernel⟩

theorem test_grant_held : busyT.heldWrite = some 0 ∧ busyT.inReset = false ∧ busyT.ctl.anchor = some anchorT := by
  decide +kernel
theorem test_grant_drain_due :
    let s := { busyT with path := { busyT.path with held := [] } }
    s.heldWrite = none ∧ s.drainNext = some 1280 ∧ s.path.passRun = 16 ∧ 1280 < 1281 := by
  decide +kernel
theorem test_grant_drain_idle :
    let s := { busyT with path := { busyT.path with held := [], passRun := 0 } }
    s.heldWrite = none ∧ s.drainNext = some 1280 ∧ s.path.passPath = [] ∧ s.ownNext = none := by
  decide +kernel

/-- A passing read. -/
def passT : PassEntry := { req := readT 8, acted := false }

theorem test_grant_own_high :
    (queueT 32 [passT]).inReset = false ∧ (queueT 32 [passT]).heldWrite = none ∧ (queueT 32 [passT]).drainNext = none ∧
      (queueT 32 [passT]).rw.queue = .writeBack 0x30000#40 (zeros 32) :: List.replicate 31 (.writeBack 0x30000#40 (zeros 32)) ∧
      (queueT 32 [passT]).ownNext = some (.writeBack 0x30000#40 (zeros 32)) ∧ 32 ≤ (queueT 32 [passT]).rw.queue.length := by
  decide +kernel
theorem test_grant_own_idle :
    (queueT 1 []).heldWrite = none ∧ (queueT 1 []).drainNext = none ∧ (queueT 1 []).path.passPath = [] ∧
      (queueT 1 []).ownNext = some (.writeBack 0x30000#40 (zeros 32)) := by
  decide +kernel
theorem test_grant_pass :
    (queueT 31 [passT]).heldWrite = none ∧ (queueT 31 [passT]).drainNext = none ∧
      (queueT 31 [passT]).path.passPath = passT :: [] ∧ (queueT 31 [passT]).rw.queue.length < 32 ∧
      (queueT 0 [passT]).ownNext = none := by
  decide +kernel
theorem test_grant_nothing :
    run.heldWrite = none ∧ run.drainNext = none ∧ run.ownNext = none ∧ run.path.passPath = [] := by
  decide +kernel
theorem test_grant_in_reset :
    { queueT 0 [passT] with inReset := true }.inReset = true ∧
      { queueT 0 [passT] with inReset := true }.path.passPath = passT :: [] ∧
      { run with inReset := true }.path.passPath = [] := by
  decide +kernel

/-- The acted-upon write that an own write meets. -/
def actedT : PassEntry := { req := slotWrite (zeros 32), acted := true }
theorem test_fence :
    (queueT 1 [actedT]).rw.queue = .writeBack 0x30000#40 (zeros 32) :: [] ∧
      (OwnWrite.writeBack 0x30000#40 (zeros 32)).isHeadGasp = false ∧
      (∃ r : Request, r.overlaps ((queueT 1 [actedT]).ownRequest (.writeBack 0x30000#40 (zeros 32))).addr.toNat
        ((queueT 1 [actedT]).ownRequest (.writeBack 0x30000#40 (zeros 32))).size = true ∧
        (({ req := r, acted := true } : PassEntry) ∈ (queueT 1 [actedT]).path.passPath ∨
          .pass r true none ∈ (queueT 1 [actedT]).path.issued)) ∧
      (∀ r, ({ req := r, acted := true } : PassEntry) ∉ (queueT 1 []).path.passPath ∧
        .pass r true none ∉ (queueT 1 []).path.issued) :=
  ⟨by decide +kernel, by decide, ⟨slotWrite (zeros 32), by decide +kernel, .inl (by decide +kernel)⟩,
    fun _ => ⟨List.not_mem_nil, List.not_mem_nil⟩⟩
/-- A HEAD_GASP report. -/
def gaspReport : OwnWrite :=
  .report 0x10000#40 { seq := 0, source := .engine, subject := none, time := 0, origin := 0,
                       payload := .headGasp 0 ⟨0, 0, 0, 0, 0, 0⟩ false }
theorem test_fence_head_gasp :
    { run with rw := { run.rw with queue := [gaspReport] } }.rw.queue = gaspReport :: [] ∧ gaspReport.isHeadGasp = true := by
  decide

theorem test_response_returned :
    ({ run with path := { run.path with issued := [.pass (readT 8) false none] } }.path.issued =
      [] ++ .pass (readT 8) false none :: []) ∧ (∀ x ∈ ([] ++ [] : List Issued), x.ofTag 2 = false) :=
  ⟨rfl, fun _ h => nomatch h⟩
theorem test_response_waits :
    let b : List Issued := [.own (readT 8) false, .pass (readT 8) false none, .pass (readT 8) false (some (.ok, []))]
    b.find? (Issued.ofTag 2) = some (.pass (readT 8) false none) ∧ (Issued.pass (readT 8) false none).unanswered = true := by
  decide
theorem test_responses_released :
    let ready : List Issued := [.pass (readT 8) false (some (.ok, [])), .own (readT 8) false]
    let rest : List Issued := [.pass (readT 8) false none, .pass (readT 8) false (some (.error, []))]
    (∀ x ∈ ready, x.ofTag 2 = true → x.unanswered = false) ∧
      (∀ x, rest.find? (Issued.ofTag 2) = some x → x.unanswered = true) ∧
      (∀ x, ([] : List Issued).find? (Issued.ofTag 2) = some x → x.unanswered = true) :=
  ⟨by decide, fun _ h => by cases h; rfl, fun _ h => nomatch h⟩
theorem test_own_answers :
    let s (n : Nat) (absorbed : Bool) :=
      { run with rw := { run.rw with failedWrites := n }, path := { run.path with issued := [.own (readT 8) absorbed] } }
    (s 0 true).path.issued = [] ++ .own (readT 8) true :: [] ∧ (s 65534 false).rw.failedWrites < 65535 ∧
      (s 65534 false).path.issued = [] ++ .own (readT 8) false :: [] ∧ (s 65535 false).rw.failedWrites = 65535 := by
  decide
theorem test_mirror_answers (stale absorbed : Bool) :
    { heldT with path := { heldT.path with issued := [.mirror 0 (readT 8) stale absorbed] } }.path.issued =
      [] ++ .mirror 0 (readT 8) stale absorbed :: [] ∧
    { heldT with path := { heldT.path with issued := [.mirror 0 (readT 8) stale absorbed] } }.pathSound := by
  refine ⟨rfl, pathSound_of ?_⟩
  cases stale <;> cases absorbed <;> decide +kernel
theorem test_read_served :
    (∀ h ∈ heldT.path.held, (h.answered 0).awaits = []) ∧ heldT.path.held ≠ [] ∧
      (1, .answers 1) ∈ (HeldRead.answered 1 { req := readT 8, awaits := [(1, .answers 2)] }).awaits := by
  decide +kernel

/-- Two held reads of one tag and the write of record 0 in flight: one of them awaits it, the other the write of record 1. -/
def twoHeld (first second : Nat) : State :=
  { run with path := { run.path with
      held := [{ req := readT 0x40000, awaits := [(first, .answers 1)] }, { req := readT 0x40010, awaits := [(second, .answers 1)] }],
      issued := [.mirror 0 (readT 8) false false] } }
/-- The answer to the write of record 0 counted, before anything moves. -/
def countedT (s : State) : State := (s.withPath { s.path with issued := [] }).recordAnswered 0
theorem exec_answer (s : State) (h : s.path.issued = [.mirror 0 (readT 8) false false]) :
    exec (.mirrorWriteResponse 0 .ok) s = .next (countedT s).flow := by
  show Host.Outcome.next (s.mirrorAnswer 0 .ok) = _
  unfold State.mirrorAnswer countedT State.withPath
  simp only [h, takeMirror, State.countIfError, Bool.false_eq_true, if_false]
theorem test_two_held_first_served :
    (twoHeld 0 1).path.held = [] ++ { req := readT 0x40000, awaits := [(0, .answers 1)] } ::
        [{ req := readT 0x40010, awaits := [(1, .answers 1)] }] ∧
      (HeldRead.answered 0 { req := readT 0x40000, awaits := [(0, .answers 1)] }).awaits = [] ∧
      (countedT (twoHeld 0 1)).moves = [.release 0] := by
  decide +kernel
theorem test_two_held_second_served : (countedT (twoHeld 1 0)).moves = [] ∧
    (countedT (twoHeld 1 0)).path.held =
      [{ req := readT 0x40000, awaits := [(1, .answers 1)] }] ++ { req := readT 0x40010, awaits := [] } :: [] := by
  decide +kernel
theorem test_two_held_second_stays :
    exec (.mirrorWriteResponse 0 .ok) (twoHeld 1 0) = .next (countedT (twoHeld 1 0)) := by
  rw [exec_answer _ rfl, flow_of_settled _ test_two_held_second_served.1]
theorem test_two_held_sound : (twoHeld 0 1).pathSound ∧ (twoHeld 1 0).pathSound :=
  ⟨pathSound_of (by decide +kernel), pathSound_of (by decide +kernel)⟩

/-- A mirror read of record 1280 in front. -/
def readFront (s : State) : State := front s (readT 0x45000) (.mirrorCheck .presented)
theorem test_read_current :
    (readFront run).Front 2 (readT 0x45000) (.mirrorCheck .presented) ∧ (readFront run).ctl.anchor = some anchorT ∧
      (readT 0x45000).wf = true ∧ (readT 0x45000).overlaps anchorT.mirrorBase.toNat 20496 = true ∧
      (readFront run).mirror.dirty = [] ∧ (readFront run).mirror.inFlight = [] ∧ (readFront run).tagHeld 2 = false ∧
      (readFront heldT).tagHeld 2 = true ∧ (readFront heldT).mirror.dirty = [] := by
  unfold State.Front
  decide +kernel
theorem test_read_stale :
    (readT 0x45000).overlaps (anchorT.mirrorBase.toNat + 16 * 1280) 16 = true ∧ 1280 ∈ (readFront busyT).mirror.dirty ∧
      (readFront busyT).path.held.length < 8 ∧ (readFront busyT).Front 2 (readT 0x45000) (.mirrorCheck .presented) := by
  unfold State.Front
  decide +kernel
theorem test_read_stale_full :
    let s := { busyT with path := { busyT.path with held := List.replicate 8 { req := readT 8, awaits := [(0, .needsWrite)] } } }
    (readFront s).Front 2 (readT 0x45000) (.mirrorCheck .presented) ∧ 8 ≤ (readFront s).path.held.length := by
  unfold State.Front
  decide +kernel

/-! ## Engine control -/

/-- An anchor block: mark, version, own tag, mask, ring base and slots, options, and the four other bases, with its CRC. -/
def blockT (mark version own mask ring slots word cmd cmdSlots mirror window : Nat) : List Byte :=
  let b := leBytes 2 mark ++ leBytes 1 version ++ leBytes 1 own ++ leBytes 4 mask ++ leBytes 5 ring ++ leBytes 2 slots ++
    leBytes 1 1 ++ leBytes 5 word ++ zeros 3 ++ leBytes 5 cmd ++ leBytes 1 cmdSlots ++ zeros 2 ++ leBytes 5 mirror ++ zeros 3 ++
    leBytes 5 window ++ zeros 11
  b ++ leBytes 4 (crc32 b).toNat ++ zeros 4
/-- A valid block, its ring as short and its load window as high as they may be. -/
def goodBlock : List Byte := blockT 0xA5C3 1 5 6 0x10000 16 0x20000 0x30000 8 0x40000 0xFFFFFFF000

theorem test_block_valid :
    anchorFault 0x400#40 [] goodBlock = none ∧ leAt goodBlock 0 2 = 0xA5C3 ∧ byteAt goodBlock 2 = 1 ∧
      leAt goodBlock 56 4 = (crc32 (goodBlock.take 56)).toNat ∧ (anchorOf goodBlock).ringSlots = 2 ^ 4 ∧
      (anchorOf goodBlock).windowBase.toNat + 4096 = 2 ^ 40 ∧ goodBlock.length = 64 := by
  decide +kernel
theorem test_block_mark : anchorFault 0x400#40 [] (blockT 0xA5C2 1 5 6 0x10000 16 0x20000 0x30000 8 0x40000 0x50000) = some .mark := by
  decide +kernel
theorem test_block_version :
    anchorFault 0x400#40 [] (blockT 0xA5C3 2 5 6 0x10000 16 0x20000 0x30000 8 0x40000 0x50000) = some .version := by
  decide +kernel
theorem test_block_check : anchorFault 0x400#40 [] (goodBlock.set 56 0) = some .check ∧
    ¬leAt (goodBlock.set 56 0) 56 4 = (crc32 ((goodBlock.set 56 0).take 56)).toNat := by
  decide +kernel
theorem test_block_align :
    anchorFault 0x400#40 [] (blockT 0xA5C3 1 5 6 0x10000 16 0x20002 0x30000 8 0x40000 0x50000) = some .align := by
  decide +kernel
theorem test_block_size :
    anchorFault 0x400#40 [] (blockT 0xA5C3 1 5 6 0x10000 16 0x20000 0x30000 65 0x40000 0x50000) = some .size ∧
      anchorFault 0x400#40 [] (blockT 0xA5C3 1 5 6 0x10000 24 0x20000 0x30000 8 0x40000 0x50000) = some .size ∧
      anchorFault 0x400#40 [] (blockT 0xA5C3 1 5 6 0x10000 16 0x20000 0x30000 8 0x40000 0xFFFFFFF040) = some .size := by
  decide +kernel
theorem test_block_tag :
    anchorFault 0x400#40 [] (blockT 0xA5C3 1 2 6 0x10000 16 0x20000 0x30000 8 0x40000 0x50000) = some .tag ∧
      anchorFault 0x400#40 [] (blockT 0xA5C3 1 32 6 0x10000 16 0x20000 0x30000 8 0x40000 0x50000) = some .tag := by
  decide +kernel
theorem test_block_overlap :
    anchorFault 0x400#40 [] (blockT 0xA5C3 1 5 6 0x10000 16 0x101FC 0x30000 8 0x40000 0x50000) = some .overlap ∧
      anchorFault 0x400#40 [(0x10000, 64)] goodBlock = some .overlap := by
  decide +kernel

/-- An anchor write in front. -/
def withBlock (s : State) (b : List Byte) : State := front s (blockWrite b) (.step anchorStep)
theorem test_anchor_refused :
    (withBlock State.reset (goodBlock.set 0 0)).Admitted 1 (blockWrite (goodBlock.set 0 0)) anchorStep ∧
      State.reset.ctl.mode = .detached ∧
      anchorFault (withBlock State.reset (goodBlock.set 0 0)).ctl.anchorAddr (withBlock State.reset (goodBlock.set 0 0)).ringAreas
        (blockWrite (goodBlock.set 0 0)).bytes = some .mark := by
  unfold State.Admitted State.Front
  decide +kernel
theorem test_anchor_adopted (stalled : Bool) :
    let s := withBlock { State.reset with rw := { State.reset.rw with stalled := stalled } } goodBlock
    s.Admitted 1 (blockWrite goodBlock) anchorStep ∧ s.ctl.mode = .detached ∧
      anchorFault s.ctl.anchorAddr s.ringAreas (blockWrite goodBlock).bytes = none := by
  unfold State.Admitted State.Front
  cases stalled <;> decide +kernel
theorem test_anchor_readopted :
    let s := withBlock (inMode busyT .attached) goodBlock
    s.Admitted 1 (blockWrite goodBlock) anchorStep ∧ s.ctl.mode = .attached ∧
      anchorFault s.ctl.anchorAddr [] (blockWrite goodBlock).bytes = none := by
  unfold State.Admitted State.Front
  decide +kernel
theorem test_anchor_ignored :
    (withBlock run goodBlock).Admitted 1 (blockWrite goodBlock) anchorStep ∧ (withBlock run goodBlock).ctl.mode = .running := by
  unfold State.Admitted State.Front
  decide +kernel

/-- A BUSY unit whose command is in progress in the first slot. -/
def busyUnit (s : State) (j : Job) : State :=
  { s with cmd := { s.cmd with
      unit := .busy j 0x30000#40 0, inProgress := [{ addr := 0x30000#40, slot := slotT 15 0 0 0 [], overwritten := false }] } }

theorem test_holdup :
    (inMode run .halted).ctl.mode = .halted ∧ State.reset.inReset = false ∧ State.reset.ctl.mode = .detached ∧
      run.inReset = false ∧ run.ctl.mode = .running ∧ run.ctl.anchor = some anchorT ∧
      run.rw.occupancy < anchorT.ringSlots ∧ run.cmd.unit.isBusy = false ∧ (queueT 48 []).rw.queue.length = 48 := by
  decide +kernel
theorem test_holdup_busy :
    (busyUnit run (.unmap false)).cmd.unit = .busy (.unmap false) 0x30000#40 0 ∧
      (busyUnit run (.unmap false)).progress 0x30000#40 =
        some { addr := 0x30000#40, slot := slotT 15 0 0 0 [], overwritten := false } := by
  decide +kernel

/-! ## Reports -/

/-- A consumed-index write in front, with the ring so far occupied. -/
def withIndex (s : State) (v occupied : Nat) (stalled : Bool) : State :=
  front { s with rw := { s.rw with occupancy := occupied, produced := occupied, stalled := stalled } } (wordWrite 1)
    (.consumedIndex v)
theorem test_index_waits :
    (withIndex (queueT 48 []) 0 1 false).Front 1 (wordWrite 1) (.consumedIndex 0) ∧
      (withIndex (queueT 48 []) 0 1 false).working = true ∧ 48 ≤ (withIndex (queueT 48 []) 0 1 false).rw.queue.length := by
  unfold State.Front
  decide +kernel
theorem test_index_fault :
    (withIndex run 16 1 false).Front 1 (wordWrite 1) (.consumedIndex 16) ∧ (withIndex run 16 1 false).rw.queue.length < 48 ∧
      anchorT.ringSlots ≤ 16 ∧ (withIndex run 2 1 false).rw.occupancy < (2 + 16 - 0) % 16 ∧
      (withIndex run 16 1 false).rw.indexFaults < 65535 := by
  unfold State.Front
  decide +kernel
theorem test_index_fault_saturated :
    { withIndex run 16 1 false with rw := { run.rw with indexFaults := 65535 } }.Front 1 (wordWrite 1) (.consumedIndex 16) ∧
      { withIndex run 16 1 false with rw := { run.rw with indexFaults := 65535 } }.rw.indexFaults = 65535 := by
  unfold State.Front
  decide +kernel
theorem test_index_frees :
    (15 : Nat) < anchorT.ringSlots ∧ (15 + 16 - 0) % 16 ≤ (withIndex run 15 15 false).rw.occupancy ∧
      (withIndex run 15 15 false).rw.stalled = false ∧
      (withIndex run 15 15 false).Front 1 (wordWrite 1) (.consumedIndex 15) := by
  unfold State.Front
  decide +kernel
theorem test_index_ends_stall :
    (withIndex run 3 15 true).rw.stalled = true ∧ (3 + 16 - 0) % 16 ≤ (withIndex run 3 15 true).rw.occupancy ∧
      16 ≤ 4 * (16 - (15 - 3)) ∧ 4 * (16 - (15 - 2)) < 16 ∧ (2 + 16 - 0) % 16 ≤ (withIndex run 2 15 true).rw.occupancy := by
  decide +kernel

/-- A state whose ring has that many occupied slots. -/
def ringT' (occupied sinceSync : Nat) (stalled : Bool) : State :=
  { run with rw := { run.rw with occupancy := occupied, produced := occupied, sinceSync := sinceSync, stalled := stalled } }
theorem test_report_clauses :
    State.reset.ctl.anchor = none ∧ run.ctl.anchor = some anchorT ∧ 3 ≤ 16 - (ringT' 13 0 false).rw.occupancy ∧
      (ringT' 13 254 false).rw.sinceSync + 1 < run.settings.syncInterval ∧
      run.settings.syncInterval ≤ (ringT' 13 255 false).rw.sinceSync + 1 ∧ 16 - (ringT' 14 0 false).rw.occupancy = 2 ∧
      (ringT' 15 0 true).rw.stalled = true := by
  decide +kernel
theorem test_sync_clauses :
    (ringT' 13 0 false).rw.stalled = false ∧ 3 ≤ 16 - (ringT' 13 0 false).rw.occupancy ∧
      16 - (ringT' 14 0 false).rw.occupancy = 2 := by
  decide +kernel

/-! ## Intake -/

theorem test_malformed :
    (withMessage run (zeros 16)).Admitted 3 (ringWrite (zeros 16)) intakeStep ∧ messageForm (ringWrite (zeros 16)) = false ∧
      (withMessage run (zeros 16)).portOf (ringWrite (zeros 16)) = some 0 := by
  unfold State.Admitted State.Front
  decide +kernel

/-- A message of kind k for port 0 about the terminal with local id 1. -/
def messageOf : MsgKind → List Byte
  | .gasp => messageT 1 1 4 1
  | .loss => messageT 2 1 0 0
  | .restore => messageT 3 1 0 0
  | .portDark => messageT 4 0xFF 0 0
  | .portLit => messageT 5 0xFF 0 0

theorem test_message (k : MsgKind) :
    (withMessage run (messageOf k)).Message 3 (ringWrite (messageOf k)) intakeStep 0 ringT ∧
      messageFault 0 (ringWrite (messageOf k)).bytes = none ∧ msgKind (ringWrite (messageOf k)).bytes = some k ∧
      (withMessage run (messageOf k)).correlating = true := by
  unfold State.Message State.Admitted State.Front
  cases k <;> decide +kernel
theorem test_message_fault :
    let m := (messageOf .gasp).set 15 0
    (withMessage run m).Message 3 (ringWrite m) intakeStep 0 ringT ∧ msgKind (ringWrite m).bytes = some .gasp ∧
      messageFault 0 (ringWrite m).bytes = some .check := by
  unfold State.Message State.Admitted State.Front
  decide +kernel
theorem test_message_unknown_kind :
    let m := messageT 6 1 0 0
    (withMessage run m).Message 3 (ringWrite m) intakeStep 0 ringT ∧ msgKind (ringWrite m).bytes = none ∧
      messageFault 0 (ringWrite m).bytes = some .unknownKind := by
  unfold State.Message State.Admitted State.Front
  decide +kernel
theorem test_message_checks :
    messageFault 1 (messageOf .gasp) = some .portMismatch ∧ messageFault 0 (messageT 1 1 4 3) = some .unknownCause ∧
      messageFault 0 (messageT 2 1 0 1) = some .unknownCause ∧ messageFault 0 (messageT 4 1 0 0) = some .reserved ∧
      messageFault 0 (messageT 1 1 4 2) = none ∧ messageFault 0 (messageT 0 1 0 0) = some .unknownKind := by
  decide +kernel
theorem test_message_left :
    (withMessage (busyUnit run (.restart false)) (messageOf .loss)).correlating = false ∧
      (withMessage (busyUnit run (.restart false)) (messageOf .loss)).Message 3 (ringWrite (messageOf .loss)) intakeStep 0 ringT := by
  unfold State.Message State.Admitted State.Front
  decide +kernel
theorem test_message_stray :
    (withMessage run (messageT 2 2 0 0)).Message 3 (ringWrite (messageT 2 2 0 0)) intakeStep 0 ringT ∧
      (withMessage run (messageT 2 2 0 0)).terminalOf 0 (byteAt (ringWrite (messageT 2 2 0 0)).bytes 3) = none := by
  unfold State.Message State.Admitted State.Front
  decide +kernel
theorem test_port_message_stray :
    let s := withMessage { run with map := some emptyMap } (messageOf .portDark)
    s.Message 3 (ringWrite (messageOf .portDark)) intakeStep 0 ringT ∧ s.portMapped 0 = false ∧ s.correlating = true := by
  unfold State.Message State.Admitted State.Front
  decide +kernel
theorem test_message_duplicate :
    (run.term 1).state = .up ∧ run.terminalOf 0 1 = some 1 ∧ run.entry? 1 = some ⟨0, 1, 0, 0, false, false⟩ ∧
      run.portMapped 0 = true ∧ (run.group (.port 0)).dark = false ∧
      ((withGroup run (.port 0) (fun g => { g with dark := true })).group (.port 0)).dark = true := by
  decide +kernel
theorem test_gasp_repeats :
    (withTerm run 1 (fun t => { t with deadline := some 5, lastTag := some 4 })).Repeats
      { Terminal.unlisted with state := .up, deadline := some 5, lastTag := some 4 } (repeatTag (messageOf .gasp)) :=
  ⟨5, rfl, by decide +kernel, by decide +kernel⟩

/-! ## Terminals -/

theorem test_down_entry_within :
    (∃ b, ({ Terminal.unlisted with flapStart := some 0 } : Terminal).flapStart = some b ∧
      reached { run with time := 59999 }.time (b + BitVec.ofNat 32 (1000 * run.settings.flapWindow)) = false) ∧
    ¬(∃ b, ({ Terminal.unlisted with flapStart := some 0 } : Terminal).flapStart = some b ∧
      reached { run with time := 60000 }.time (b + BitVec.ofNat 32 (1000 * run.settings.flapWindow)) = false) ∧
    run.settings.flapLimit ≤ min (3 + 1) 15 ∧ ¬run.settings.flapLimit ≤ min (2 + 1) 15 := by
  refine ⟨⟨0, rfl, by decide +kernel⟩, ?_, by decide, by decide⟩
  rintro ⟨b, hb, h⟩
  cases hb
  revert h
  decide +kernel
theorem test_enterOff :
    (⟨0, 0, 0, 0, true, false⟩ : TermEntry).prompt = true ∧
      ¬((⟨0, 1, 0, 0, false, false⟩ : TermEntry).prompt = true ∨ (run.settings.offReports = true ∧ (run.term 1).muted = false)) := by
  decide +kernel

/-- Terminal 1 with a state, a disposition and a deadline in front of message k. -/
def aboutT (k : MsgKind) (st : TState) (d : Disp) (deadline : Option Time) : State :=
  withMessage (withTerm run 1 (fun t => { t with state := st, disp := d, deadline := deadline })) (messageOf k)
theorem test_about (st : TState) :
    (aboutT .gasp st .none none).About 3 (ringWrite (messageOf .gasp)) intakeStep 0 ringT .gasp 1 ⟨0, 1, 0, 0, false, false⟩ ∧
      (aboutT .loss st .none none).About 3 (ringWrite (messageOf .loss)) intakeStep 0 ringT .loss 1 ⟨0, 1, 0, 0, false, false⟩ ∧
      (aboutT .restore st .none none).About 3 (ringWrite (messageOf .restore)) intakeStep 0 ringT .restore 1
        ⟨0, 1, 0, 0, false, false⟩ := by
  unfold State.About State.Sound State.Message State.Admitted State.Front
  cases st <;> decide +kernel
theorem test_gasp_new : ((aboutT .gasp .up .none none).term 1).state = .up ∧
    ¬(aboutT .gasp .up .none none).Repeats ((aboutT .gasp .up .none none).term 1) (repeatTag (messageOf .gasp)) := by
  refine ⟨by decide +kernel, ?_⟩
  rintro ⟨q, hq, _⟩
  exact absurd (show (none : Option Time) = some q from hq) (by simp)
theorem test_gasp_off :
    byteAt (messageT 1 1 4 2) 5 = 2 ∧ (⟨0, 1, 0, 0, false, false⟩ : TermEntry).noOff = false ∧
      (withMessage run (messageT 1 1 4 2)).About 3 (ringWrite (messageT 1 1 4 2)) intakeStep 0 ringT .gasp 1
        ⟨0, 1, 0, 0, false, false⟩ := by
  unfold State.About State.Sound State.Message State.Admitted State.Front
  decide +kernel
theorem test_terminal_states :
    ((aboutT .gasp .suspect .none (some 9)).term 1).state = .suspect ∧
      ((aboutT .gasp .downFibre .pending none).term 1).state = .downFibre ∧
      ((aboutT .gasp .downFibre .pending none).term 1).disp = .pending ∧
      ((aboutT .gasp .downFibre .reported none).term 1).disp ≠ .pending ∧
      ((aboutT .loss .gasped .pending (some 9)).term 1).state = .gasped ∧
      ((aboutT .restore .downPower .pending none).term 1).state = .downPower ∧
      ((aboutT .restore .downOff .none none).term 1).state = .downOff := by
  decide +kernel
theorem test_loss_grace : run.settings.grace ≠ 0 ∧
    { run.settings with grace := 0 }.grace = 0 := by decide +kernel
theorem test_report_return :
    let s (mode : BrownoutMode) (armed stormIn : Bool) (count : Nat) : State :=
      { run with cmd := { run.cmd with settings := { run.settings with brownoutMode := mode } },
                 table := { run.table with brownoutArmed := armed, suppressed := count },
                 corr := { run.corr with stormIn := stormIn } }
    (run.term 1).muted = false ∧ (s .every true false 0).corr.stormIn = false ∧
      (s .every true false 0).settings.brownoutMode = .every ∧ (s .single true false 0).settings.brownoutMode = .single ∧
      (s .single true false 0).table.brownoutArmed = true ∧ (s .single false false 0).table.brownoutArmed = false ∧
      (s .every true true 65534).table.suppressed < 65535 ∧ (s .none true false 65535).table.suppressed = 65535 ∧
      (s .none true false 65535).settings.brownoutMode = .none := by
  decide +kernel

/-- Terminal 1 with a state and deadline 10, at time t. -/
def timedT (st : TState) (t : Time) : State :=
  { withTerm run 1 (fun d => { d with state := st, deadline := some 10, quiet := some 10, muted := true }) with time := t }
theorem test_timers :
    (inMode run .loading).expiryReady = false ∧ due (9 : Time) ((timedT .suspect 9).term 1).deadline = false ∧
      (timedT .suspect 10).expiryReady = true ∧ due (10 : Time) ((timedT .suspect 10).term 1).deadline = true ∧
      (timedT .suspect 10).entry? 1 = some ⟨0, 1, 0, 0, false, false⟩ ∧ ((timedT .suspect 10).term 1).state = .suspect ∧
      ((timedT .gasped 10).term 1).state = .gasped ∧ ((timedT .up 10).term 1).state = .up ∧
      due (10 : Time) ((timedT .up 10).term 1).quiet = true ∧ ((timedT .up 10).term 1).muted = true ∧
      ((timedT .up 10).term 1).disp ≠ .quiet ∧ (timedT .up 10).expiryReady = true ∧ (timedT .gasped 10).expiryReady = true := by
  decide +kernel

/-! ## Groups -/

theorem test_group_members : run.entries.length ≤ 1024 ∧
    (∃ e, run.entry? 2 = some e ∧ e.tap = 1) ∧ ∃ e, run.entry? 0 = some e ∧ e.zone = 0 :=
  ⟨by decide, ⟨⟨0, 127, 1, 1, false, true⟩, by decide +kernel⟩, ⟨0, 0, 0, 0, true, false⟩, by decide +kernel⟩

theorem test_group_map :
    run.map = some mapT ∧ mapT.taps.length ≤ 128 ∧ mapT.risers.length ≤ 32 ∧ State.reset.map = none ∧
      mapT.taps[(1 : Fin 128).val]? = some 0 ∧ mapT.risers[(0 : Fin 32).val]? = some 0 ∧
      (List.replicate 128 (0 : Fin 32)).length ≤ 128 := by
  decide +kernel

/-- A group in a state, its deadline at 10 and the time 10. -/
def groupT (g : GroupId) (st : GState) : State :=
  { withGroup run g (fun x => { x with state := st, deadline := some 10 }) with time := 10 }
/-- The same with a second group in a state. -/
def groupsT (g : GroupId) (st : GState) (h : GroupId) (st' : GState) : State :=
  withGroup (groupT g st) h (fun x => { x with state := st' })

theorem test_join_states (st : GState) :
    ((groupT (.zone 0) st).group (.zone 0)).state = st ∧ ((groupT (.tap 0) st).group (.tap 0)).state = st := by
  cases st <;> decide +kernel
theorem test_join_parents :
    run.parent? (.tap 0) = some (.riser 0) ∧ run.parent? (.riser 0) = some (.port 0) ∧ (run.group (.tap 0)).state = .clear ∧
      (run.group (.riser 0)).state = .clear ∧ (run.group (.port 0)).state = .clear ∧
      ((groupT (.riser 0) .gathering).group (.riser 0)).state ≠ .clear ∧
      ((groupT (.port 0) .raised).group (.port 0)).state ≠ .clear := by
  decide +kernel

/-- Terminal 1 DOWN_FIBRE beside. -/
def fibreT (s : State) : State := withTerm (withTerm s 0 (fun t => { t with state := .downFibre })) 1 (fun t => { t with state := .downFibre })
theorem test_clearing_tests :
    (groupT (.tap 0) .raised).clearingCondition (.tap 0) = true ∧
      (fibreT (groupT (.tap 0) .clearing)).clearingCondition (.tap 0) = false ∧
      ((fibreT (groupT (.tap 0) .clearing)).group (.tap 0)).state = .clearing := by
  decide +kernel
theorem test_tap_zone_verdicts :
    (groupT (.tap 0) .gathering).expiryReady = true ∧ ((groupT (.tap 0) .gathering).group (.tap 0)).state = .gathering ∧
      due (10 : Time) ((groupT (.tap 0) .gathering).group (.tap 0)).deadline = true ∧
      (groupT (.tap 0) .gathering).raiseCondition (.tap 0) = false ∧
      (fibreT (groupT (.tap 0) .gathering)).raiseCondition (.tap 0) = true ∧
      (fibreT (groupT (.tap 0) .gathering)).parent? (.tap 0) = some (.riser 0) ∧
      ((fibreT (groupT (.tap 0) .gathering)).group (.riser 0)).state = .clear ∧
      (groupT (.zone 0) .gathering).raiseCondition (.zone 0) = false ∧ (groupT (.zone 0) .gathering).expiryReady = true := by
  decide +kernel
theorem test_tap_under_riser (st : GState) :
    (fibreT (groupsT (.tap 0) .gathering (.riser 0) st)).raiseCondition (.tap 0) = true ∧
      ((fibreT (groupsT (.tap 0) .gathering (.riser 0) st)).group (.tap 0)).state = .gathering ∧
      ((fibreT (groupsT (.tap 0) .gathering (.riser 0) st)).group (.riser 0)).state = st := by
  cases st <;> decide +kernel
theorem test_zone_raises :
    let s := withTerm (withTerm (groupT (.zone 0) .gathering) 0 (fun t => { t with state := .gasped })) 1
      (fun t => { t with state := .downPower })
    s.raiseCondition (.zone 0) = true ∧ s.expiryReady = true ∧ (s.group (.zone 0)).state = .gathering ∧
      due s.time (s.group (.zone 0)).deadline = true := by
  decide +kernel

theorem test_parent_waits :
    let s := groupsT (.riser 0) .gathering (.tap 1) .gathering
    s.working = true ∧ s.correlating = true ∧ (s.group (Parent.riser 0).group).state = .gathering ∧
      due s.time (s.group (Parent.riser 0).group).deadline = true ∧
      (∃ c ∈ s.children (Parent.riser 0).group, (s.group c).state = .gathering) ∧
      ¬(run.group (Parent.riser 0).group).state = .gathering := by
  refine ⟨?_, ?_, ?_, ?_, ⟨.tap 1, ?_, ?_⟩, ?_⟩ <;> decide +kernel

/-- Riser 0 with its deadline come, tap 0 parked under it with its terminals DOWN_FIBRE, port 0 in a state. -/
def riserT (st : GState) : State :=
  fibreT (withGroup (withGroup (groupsT (.riser 0) .gathering (.port 0) st) (.riser 0) (fun x => { x with parked := [.tap 0] }))
    (.tap 0) (fun x => { x with state := .parked }))
theorem test_riser_verdict (st : GState) :
    (riserT st).expiryReady = true ∧ ((riserT st).group (.riser 0)).state = .gathering ∧
      due (riserT st).time ((riserT st).group (.riser 0)).deadline = true ∧
      ¬(∃ c ∈ (riserT st).children (.riser 0), ((riserT st).group c).state = .gathering) ∧
      (riserT st).raiseCondition (.tap 0) = true ∧ (riserT st).raiseCondition (.riser 0) = true ∧
      (riserT st).parent? (.riser 0) = some (.port 0) ∧ ((riserT st).group (.port 0)).state = st := by
  cases st <;> decide +kernel
theorem test_riser_clears :
    (groupT (.riser 0) .gathering).raiseCondition (.riser 0) = false ∧ (groupT (.riser 0) .gathering).expiryReady = true ∧
      ((groupT (.riser 0) .gathering).group (.riser 0)).parked = [] := by
  decide +kernel
/-- Both taps of riser 0 gather, one to an instant before engine time wraps and one to an instant after it. -/
def gatheringT : State :=
  withGroup (withGroup run (.tap 0) (fun x => { x with state := .gathering, deadline := some 5 })) (.tap 1)
    (fun x => { x with state := .gathering, deadline := some 0xFFFFFFF0#32 })
theorem test_latest_child :
    (gatheringT.children (.riser 0)).map (fun c => (gatheringT.group c).deadline) = [some 5, some 0xFFFFFFF0#32] ∧
      (5 - 0xFFFFFFF0#32 : Time).toNat < 2 ^ 31 ∧ (0xFFFFFFF0#32 - 0xFFFFFFF0#32 : Time).toNat < 2 ^ 31 ∧
      gatheringT.latestChild (.riser 0) = some 5 := by
  decide +kernel
/-- Port 0 with its deadline come, riser 0 parked under it with tap 0. -/
def portT : State :=
  withGroup (withGroup (groupsT (.port 0) .gathering (.riser 0) .parked) (.port 0) (fun x => { x with parked := [.riser 0] }))
    (.riser 0) (fun x => { x with parked := [.tap 0] })
theorem test_port_verdict :
    let s := fibreT (withGroup portT (.tap 0) (fun x => { x with state := .parked }))
    s.expiryReady = true ∧ (s.group (.port 0)).state = .gathering ∧ due s.time (s.group (.port 0)).deadline = true ∧
      ¬(∃ c ∈ s.children (.port 0), (s.group c).state = .gathering) ∧ s.raiseCondition (.tap 0) = true ∧
      s.raiseCondition (.riser 0) = true ∧ s.raiseCondition (.port 0) = true ∧
      (groupT (.port 0) .gathering).raiseCondition (.port 0) = false := by
  decide +kernel

theorem test_port_messages (st : GState) (isDark : Bool) :
    let s (k : MsgKind) := withMessage (withGroup run (.port 0) (fun x => { x with state := st, dark := isDark })) (messageOf k)
    (s .portDark).portMapped 0 = true ∧
      (s .portDark).Sound 3 (ringWrite (messageOf .portDark)) intakeStep 0 ringT .portDark ∧
      (s .portLit).Sound 3 (ringWrite (messageOf .portLit)) intakeStep 0 ringT .portLit ∧
      ((s .portDark).group (.port 0)).dark = isDark ∧ ((s .portDark).group (.port 0)).state = st := by
  unfold State.Sound State.Message State.Admitted State.Front
  cases st <;> cases isDark <;> decide +kernel
theorem test_hold_down :
    (groupT (.zone 63) .clearing).expiryReady = true ∧ ((groupT (.zone 63) .clearing).group (.zone 63)).state = .clearing ∧
      due (10 : Time) ((groupT (.zone 63) .clearing).group (.zone 63)).deadline = true ∧
      (groupT (.zone 63) .clearing).clearingCondition (.zone 63) = true ∧ run.parent? (.zone 63) = none ∧
      (groupT (.tap 0) .clearing).clearingCondition (.tap 0) = true ∧ (groupT (.tap 0) .clearing).parent? (.tap 0) = some (.riser 0) ∧
      (fibreT (groupT (.tap 0) .clearing)).clearingCondition (.tap 0) = false ∧
      (fibreT (groupT (.tap 0) .clearing)).expiryReady = true := by
  decide +kernel

theorem test_stragglers :
    let s := withTerm (withTerm (groupT (.tap 0) .clearing) 0 (fun t => { t with state := .downFibre, disp := .covered })) 1
      (fun t => { t with state := .gasped, disp := .covered })
    (s.termMembers (.tap 0)).filter (fun n => decide ((s.term n).disp = .covered) && decide ((s.term n).state ∈ [TState.downFibre])) =
        [0] ∧ (s.group (.tap 0)).state = .clearing ∧ s.expiryReady = true := by
  decide +kernel

/-- A state with storm levels 2 and 1, so many terminals down, and a storm state. -/
def stormT (down : Nat) (stormIn : Bool) (mode : StormMode) (armed : Bool) : State :=
  let s := if 1 ≤ down then withTerm run 0 (fun t => { t with state := .downFibre }) else run
  let u := if 2 ≤ down then withTerm s 1 (fun t => { t with state := .downFibre }) else s
  { u with corr := { u.corr with stormIn := stormIn, stormArmed := armed },
           cmd := { u.cmd with settings := { u.cmd.settings with stormOn := 2, stormOff := 1, stormMode := mode } } }
theorem test_storm_levels :
    (stormT 2 false .every true).buildingDown ≠ 1 ∧ (stormT 2 false .every true).corr.stormIn = false ∧
      (stormT 2 false .every true).settings.stormOn ≤ (stormT 2 false .every true).buildingDown ∧
      (stormT 1 true .every true).buildingDown ≤ (stormT 1 true .every true).settings.stormOff ∧
      (stormT 1 true .every true).buildingDown ≠ 2 ∧ (stormT 1 false .every true).buildingDown < 2 ∧
      1 < (stormT 2 true .every true).buildingDown ∧ (stormT 2 true .every true).buildingDown = 2 := by
  decide +kernel
theorem test_storm_modes :
    (stormT 2 false .every true).corr.stormIn = !true ∧ (stormT 2 false .every true).settings.stormMode = .every ∧
      (stormT 2 false .single false).settings.stormMode = .single ∧ (stormT 2 false .single false).corr.stormArmed = false ∧
      (stormT 2 false .single true).corr.stormArmed = true ∧ (stormT 1 true .every true).corr.stormIn = !false := by
  decide +kernel

/-- A deferred entry with a trigger. -/
def entryT (t : Trigger) (due : Bool) : DeferredEntry :=
  { kind := .forceSync, slot := slotT 10 1 1 0 [], trigger := t, addr := 0x30000#40, due := due }
/-- A state whose deferred queue is the given one. -/
def deferredT (q : List DeferredEntry) : State := { run with cmd := { run.cmd with deferred := q } }
theorem test_watch :
    run.cmd.deferred = [] ∧ (deferredT [entryT .stormIn false]).cmd.deferred = entryT .stormIn false :: [] ∧
      metByStorm true (entryT .stormIn false).trigger = true ∧ (entryT .stormIn false).due = false ∧
      metByStorm false (entryT .stormIn false).trigger = false ∧ (entryT .stormIn true).due = true := by
  decide

/-! ## Commands -/

/-- A slot of kind k with placement NOW and parameters in range, at the ends of their ranges. -/
def nowSlot (k : Kind) : List Byte :=
  slotT k.code 0 0 0 (match k with
    | .setIntake => [15, 0, 0, 7, 0, 0, 4, 0, 31, 2]
    | .clearIntake => [0]
    | .setWindows => [0xD0, 7, 100, 0, 100, 0, 100, 0, 0x30, 0x75, 0x30, 0x75, 0, 0]
    | .setThresholds => [1, 100, 1, 100, 0, 99, 0, 99, 2, 32]
    | .setFlap => [2, 0, 0x58, 2, 10, 0]
    | .setStorm => [1, 0, 0, 0]
    | .setReporting => [1, 2, 0]
    | .setSync => [16, 0]
    | .mute => [1, 0]
    | .unmute => [2, 0]
    | .seed => [1, 0, 4]
    | .mapBegin => [32, 0, 1]
    | .dropAction => [1]
    | .arm => [] | .forceSync => [] | .mapEnd => [] | .mapAbort => [] | .unmap => [] | .restart => [] | .queueFlush => [])

/-- A mode in which a kind is taken. -/
def modeFor : Kind → Mode
  | .mapBegin => .attached | .mapEnd => .loading | .mapAbort => .loading | .setIntake => .attached
  | .setSync => .loading | .clearIntake => .running | .setWindows => .attached | .setThresholds => .running
  | .setFlap => .running | .setStorm => .running | .setReporting => .running | .arm => .running | .forceSync => .attached
  | .mute => .running | .unmute => .running | .seed => .running | .unmap => .running | .restart => .attached
  | .dropAction => .running | .queueFlush => .running

theorem test_now (k : Kind) :
    (withSlot (inMode run (modeFor k)) (nowSlot k)).NowWrite 1 (slotWrite (nowSlot k)) cmdStep k := by
  unfold State.NowWrite State.SlotWrite State.Admitted State.Front
  cases k <;> decide +kernel
theorem test_set_storm :
    let s (stormIn : Bool) (down : Nat) := withSlot (stormT down stormIn .every true) (slotT 6 0 0 0 [2, 0, 1, 0])
    (s false 2).NowWrite 1 (slotWrite (slotT 6 0 0 0 [2, 0, 1, 0])) cmdStep .setStorm ∧ (s false 2).corr.stormIn = false ∧
      2 ≤ (s false 2).buildingDown ∧ (s true 1).corr.stormIn = true ∧ (s true 1).buildingDown ≤ 1 ∧
      (s false 1).buildingDown < 2 ∧ 1 < (s true 2).buildingDown := by
  unfold State.NowWrite State.SlotWrite State.Admitted State.Front
  decide +kernel
theorem test_arm_clauses :
    run.corr.stormArmed = true ∧ run.table.brownoutArmed = true ∧
      { run with corr := { run.corr with stormArmed := false } }.corr.stormArmed = false := by
  decide
theorem test_mute_clauses :
    (1 : Fin 1024).val = leAt (nowSlot .mute) 10 2 ∧ run.entry? 1 = some ⟨0, 1, 0, 0, false, false⟩ ∧
      run.entry? 0 = some ⟨0, 0, 0, 0, true, false⟩ ∧ run.entry? 1023 = none ∧ (run.term 1).muted = false ∧
      ((withTerm run 1 (fun t => { t with muted := true })).term 1).muted = true ∧
      ((withTerm run 2 (fun t => { t with muted := true, disp := .quiet })).term 2).disp = .quiet ∧
      (1023 : Fin 1024).val = leAt (slotT 11 0 0 0 [0xFF, 3]) 10 2 := by
  decide +kernel
theorem test_seed_clauses :
    seedTarget (nowSlot .seed) = some .downFibre ∧ (1 : Fin 1024).val = leAt (nowSlot .seed) 10 2 ∧
      ((withTerm run 1 (fun t => { t with state := .gasped })).term 1).state = .gasped ∧
      ((withTerm run 1 (fun t => { t with state := .downPower, disp := .pending })).term 1).disp = .pending ∧
      (run.term 1).disp ≠ .pending ∧ (run.term 1).state ≠ .downFibre ∧ (run.term 1).state ≠ .gasped ∧
      ((withTerm run 1 (fun t => { t with state := .downFibre })).term 1).state = .downFibre := by
  decide +kernel
theorem test_intake_ring_clauses :
    (15 : Fin 16).val = byteAt (nowSlot .setIntake) 10 ∧ (0 : Fin 16).val = byteAt (nowSlot .clearIntake) 10 ∧
      run.ring 0 = some ringT ∧ run.ring 15 = none ∧ run.ctl.anchor = some anchorT ∧
      (0x60000#40).toNat < 0x6003F + 1 ∧ (0x70000000#40).toNat ≥ 0x60000 + 64 := by
  decide +kernel
theorem test_intake_ring_overlaps :
    let b := slotT 1 0 0 0 [15, 0, 0, 6, 0, 0, 4, 0, 31, 2]
    (withSlot run b).NowWrite 1 (slotWrite b) cmdStep .setIntake ∧
      ∃ q y, q ≠ (15 : Fin 16) ∧ (withSlot run b).ring q = some y ∧
        (BitVec.ofNat 40 (leAt (slotWrite b).bytes 11 5)).toNat < y.base.toNat + 16 * y.slots ∧
        y.base.toNat < (BitVec.ofNat 40 (leAt (slotWrite b).bytes 11 5)).toNat + 16 * leAt (slotWrite b).bytes 16 2 := by
  refine ⟨?_, 0, ringT, ?_⟩
  · unfold State.NowWrite State.SlotWrite State.Admitted State.Front
    decide +kernel
  · decide +kernel
theorem test_map_commands :
    (withSlot (inMode run .loading) (nowSlot .mapBegin)).NowWrite 1 (slotWrite (nowSlot .mapBegin)) cmdStep .mapBegin ∧
      (withSlot (inMode run .attached) (nowSlot .mapEnd)).NowWrite 1 (slotWrite (nowSlot .mapEnd)) cmdStep .mapEnd ∧
      leAt (slotWrite (nowSlot .mapEnd)).bytes 10 2 = 0 ∧ leAt (slotWrite (slotT 15 0 0 0 [32, 0])).bytes 10 2 ≠ 0 ∧
      (withSlot (inMode run .attached) (slotT 15 0 0 0 [32, 0])).NowWrite 1 (slotWrite (slotT 15 0 0 0 [32, 0])) cmdStep
        .mapEnd := by
  unfold State.NowWrite State.SlotWrite State.Admitted State.Front
  decide +kernel

/-- A MAP_ABORT in the second slot while a check is under way or ended. -/
def abortT (check : Option CheckEnd) : State :=
  front (busyUnit (inMode run .loading) (.mapEnd 32 check)) { slotWrite (nowSlot .mapAbort) with addr := 0x30020#40 } (.step cmdStep)
theorem test_abort_in_check :
    let r : Request := { slotWrite (nowSlot .mapAbort) with addr := 0x30020#40 }
    (abortT none).Admitted 1 r cmdStep ∧ slotKind r.bytes = some .mapAbort ∧ (abortT none).progress r.addr = none ∧
      slotPlacement r.bytes = some .now ∧ (abortT none).ctl.mode = .loading ∧
      (abortT none).cmd.unit = .busy (.mapEnd 32 none) 0x30000#40 0 ∧
      (abortT none).progress 0x30000#40 = some { addr := 0x30000#40, slot := slotT 15 0 0 0 [], overwritten := false } ∧
      (abortT (some (.failed .length))).Admitted 1 r cmdStep := by
  unfold State.Admitted State.Front
  decide +kernel

/-- A write of one beat into the load window in front. -/
def windowT (u : UnitState) (a : Addr) : State :=
  front { inMode run .loading with cmd := { run.cmd with unit := u } }
    { addr := a, tag := 1, body := .write (fullBeats (leBytes 8 1)) } (.step windowStep)
theorem test_window :
    let r (a : Addr) : Request := { addr := a, tag := 1, body := .write (fullBeats (leBytes 8 1)) }
    (windowT .idle 0x50FF8#40).Admitted 1 (r 0x50FF8#40) windowStep ∧ (windowT .idle 0x50FF8#40).ctl.mode = .loading ∧
      (windowT .idle 0x50FF8#40).cmd.unit.isBusy = false ∧
      (windowT (.busy (.mapEnd 32 none) 0x30000#40 0) 0x50000#40).cmd.unit.isBusy = true ∧
      (windowT (.busy (.mapEnd 32 none) 0x30000#40 0) 0x50000#40).cmd.unit.clearing = false ∧
      (windowT (.busy (.mapEnd 32 none) 0x30000#40 0) 0x50000#40).Admitted 1 (r 0x50000#40) windowStep ∧
      (∀ k < (r 0x50FF8#40).body.beatCount, anchorT.windowBase.toNat ≤ (0x50FF8#40).toNat + 8 * k ∧
        (0x50FF8#40).toNat + 8 * k + 8 ≤ anchorT.windowBase.toNat + 4096) ∧
      (∀ k < (r 0x51000#40).body.beatCount, ¬(anchorT.windowBase.toNat ≤ (0x51000#40).toNat + 8 * k ∧
        (0x51000#40).toNat + 8 * k + 8 ≤ anchorT.windowBase.toNat + 4096)) := by
  unfold State.Admitted State.Front
  decide +kernel
theorem test_window_edges :
    let b : Beat := fullBeat 0 0 0 0 0 0 0 0
    let r (a : Addr) : Request := { addr := a, tag := 1, body := .write [b, b, b] }
    let inside (a : Addr) (k : Nat) := anchorT.windowBase.toNat ≤ a.toNat + 8 * k ∧ a.toNat + 8 * k + 8 ≤ anchorT.windowBase.toNat + 4096
    (r 0x4FFF8#40).beats = [b] ++ [b, b] ++ [] ∧ ¬inside 0x4FFF8#40 0 ∧ inside 0x4FFF8#40 1 ∧ inside 0x4FFF8#40 2 ∧
      (r 0x50FF8#40).beats = [] ++ [b] ++ [b, b] ∧ inside 0x50FF8#40 0 ∧ ¬inside 0x50FF8#40 1 ∧ ¬inside 0x50FF8#40 2 := by
  decide +kernel
theorem test_capture_clauses :
    { Loader.empty with pointer := 24, declared := 32 }.pointer < 32 ∧ 32 ≤ { Loader.empty with pointer := 32 }.pointer := by
  decide
theorem test_burst :
    let s (t : Time) : State := { inMode run .loading with time := t, loader := { Loader.empty with burst := some 100 } }
    (s 100).ready = true ∧ (s 100).ctl.mode = .loading ∧ due (s 100).time (s 100).loader.burst = true ∧
      ¬due (s 99).time (s 99).loader.burst = true := by
  decide +kernel

/-- The map image of no terminal, tap, riser or zone, as it stands in the loader. -/
def imageT (version crcOff zones : Nat) : Loader :=
  let b := leBytes 2 version ++ leBytes 6 0 ++ leBytes 2 zones ++ zeros 22
  { Loader.empty with
    capture := b.take 16 ++ leBytes 4 ((crc32 b).toNat + crcOff) ++ b.drop 20, pointer := 32, declared := 32,
    crc := b.foldl crc32Byte crc32Init }
theorem test_image_clauses :
    checkImage (imageT 1 0 0) 32 = .passed emptyMap ∧ checkImage (imageT 1 0 64) 32 = .passed { emptyMap with zones := 64 } ∧
      checkImage (imageT 1 0 0) 40 = .failed .length ∧ checkImage (imageT 2 0 0) 32 = .failed .version ∧
      checkImage (imageT 1 1 0) 32 = .failed .check ∧ checkImage (imageT 1 0 65) 32 = .failed .counts := by
  decide +kernel
/-- The image of two terminals on one tap of riser 0 of a port, with the references given. -/
def imageOf (riser port port2 id2 tap : Nat) : Loader :=
  let b := leBytes 2 1 ++ leBytes 2 2 ++ leBytes 2 1 ++ leBytes 2 1 ++ leBytes 2 1 ++ zeros 22 ++
    [riser, 0, 0, 0, 0, 0, 0, 0, port, 0, 0, 0, 0, 0, 0, 0, 0, 0, 0, 0, port2, id2, tap, 0].map (BitVec.ofNat 8)
  { Loader.empty with
    capture := b.take 16 ++ leBytes 4 (crc32 b).toNat ++ b.drop 20, pointer := 56, declared := 56,
    crc := b.foldl crc32Byte crc32Init }
theorem test_image_references :
    checkImage (imageOf 1 0 0 1 0) 56 = .failed .reference ∧ checkImage (imageOf 0 0 0 1 1) 56 = .failed .reference ∧
      checkImage (imageOf 0 0 0 0 0) 56 = .failed .duplicate ∧ checkImage (imageOf 0 0 1 1 0) 56 = .failed .tree ∧
      checkImage (imageOf 0 0 0 1 0) 56 = .passed
        { terminals := [⟨0, 0, 0, 0, false, false⟩, ⟨0, 1, 0, 0, false, false⟩], taps := [0], risers := [0], zones := 1 } := by
  decide +kernel
theorem test_image_flags :
    checkImage (imageOf 0 0 0x40 1 0) 56 = .passed
        { terminals := [⟨0, 0, 0, 0, false, false⟩, ⟨0, 1, 0, 0, true, false⟩], taps := [0], risers := [0], zones := 1 } ∧
      checkImage (imageOf 0 0 0x80 1 0) 56 = .passed
        { terminals := [⟨0, 0, 0, 0, false, false⟩, ⟨0, 1, 0, 0, false, true⟩], taps := [0], risers := [0], zones := 1 } := by
  decide +kernel
theorem test_check_clauses :
    let s (t : Time) : State := { busyUnit (inMode run .loading) (.mapEnd 32 none) with time := t }
    (s 1).working = true ∧ reached (s 1).time (0 + 1) = true ∧ reached (s 0).time (0 + 1) = false ∧
      (s 1).cmd.unit = .busy (.mapEnd 32 none) 0x30000#40 0 := by
  decide +kernel
theorem test_completion_clauses (ended : CheckEnd) :
    (busyUnit (inMode run .loading) (.mapEnd 32 (some ended))).cmd.unit = .busy (.mapEnd 32 (some ended)) 0x30000#40 0 ∧
      (busyUnit (inMode run .loading) (.mapEnd 32 (some ended))).progress 0x30000#40 =
        some { addr := 0x30000#40, slot := slotT 15 0 0 0 [], overwritten := false } ∧
      (busyUnit (inMode run .loading) (.mapEnd 32 (some ended))).ready = true ∧
      (busyUnit (queueT 29 []) (.mapEnd 32 (some ended))).ready = false :=
  ⟨rfl, rfl, rfl, rfl⟩
theorem test_unmap_restart :
    { busyUnit run (.unmap false) with time := 1 }.working = true ∧ reached (1 : Time) (0 + 1) = true ∧
      { busyUnit run (.unmap false) with time := 1 }.cmd.unit = .busy (.unmap false) 0x30000#40 0 ∧
      (busyUnit run (.unmap true)).ready = true ∧ (busyUnit run (.restart true)).ready = true ∧
      (busyUnit (inMode run .attached) (.restart false)).ctl.mode ≠ .running ∧
      (busyUnit run (.restart false)).ctl.mode = .running ∧
      (busyUnit run (.restart true)).progress 0x30000#40 =
        some { addr := 0x30000#40, slot := slotT 15 0 0 0 [], overwritten := false } := by
  decide +kernel

theorem test_refusals :
    (withSlot run (slotT 0 0 0 0 [])).Admitted 1 (slotWrite (slotT 0 0 0 0 [])) cmdStep ∧
      slotKind (slotT 0 0 0 0 []) = none ∧ slotKind (slotT 21 0 0 0 []) = none ∧
      (withSlot (busyUnit run (.unmap false)) (nowSlot .arm)).progress 0x30000#40 ≠ none ∧
      (withSlot (busyUnit run (.unmap false)) (nowSlot .arm)).Admitted 1 (slotWrite (nowSlot .arm)) cmdStep ∧
      (withSlot (busyUnit run (.unmap false)) (nowSlot .arm)).progress 0x30020#40 = none ∧
      (busyUnit run (.unmap false)).cmd.unit.isBusy = true ∧ slotPlacement (slotT 10 4 0 0 []) = none ∧
      Kind.inMode .seed .attached = false ∧ paramsOk .seed .running (slotT 13 0 0 0 [0, 4, 4]) = false ∧
      Kind.deferrable .seed = false ∧ paramsOk .mute .running (slotT 11 1 1 0 [0, 4]) = false := by
  unfold State.Admitted State.Front
  decide +kernel

/-! ## Stored commands and lines -/

/-- FORCE_SYNC to be stored: placement and trigger as given. -/
def stored (place trigger v : Nat) : List Byte := slotT 10 place trigger v []
/-- Terminal 1's line lists and the deferred queue as given, with that slot write in front. -/
def storing (q : List DeferredEntry) (la : List LineEntry) (b : List Byte) : State :=
  withSlot { deferredT q with cmd := { (deferredT q).cmd with lineA := { run.cmd.lineA with actions := la } } } b
/-- A line entry. -/
def lineEntryT : LineEntry := { kind := .forceSync, slot := slotT 10 2 0 0 [] }

theorem test_slot_write (place trigger v : Nat) (h : place < 4 ∧ trigger < 7 ∧ v < 2) :
    (storing [] [] (stored place trigger v)).SlotWrite 1 (slotWrite (stored place trigger v)) cmdStep .forceSync := by
  unfold State.SlotWrite State.Admitted State.Front
  have all : ∀ p : Fin 4, ∀ t : Fin 7, ∀ v : Fin 2,
      (((storing [] [] (stored p t v)).lane 1).reqs.head? = some (slotWrite (stored p t v)) ∧
        ((storing [] [] (stored p t v)).lane 1).outcome =
          some ((storing [] [] (stored p t v)).ctl.mode, .step cmdStep)) ∧
        (storing [] [] (stored p t v)).admits cmdStep = true ∧ cmdStep.command = true ∧
        slotKind (slotWrite (stored p t v)).bytes = some .forceSync ∧
        (storing [] [] (stored p t v)).progress (slotWrite (stored p t v)).addr = none ∧
        (storing [] [] (stored p t v)).cmd.unit = .idle := by decide +kernel
  obtain ⟨h1, h2, h3⟩ := h
  obtain ⟨a, b, c⟩ := all ⟨place, h1⟩ ⟨trigger, h2⟩ ⟨v, h3⟩
  exact ⟨⟨a, b⟩, c⟩
theorem test_line_exclusion :
    (storing [entryT (.line .a) false] [] (stored 2 0 0)).lineDeferred .a = true ∧
      slotPlacement (stored 2 0 0) = some (.line .a) ∧ slotPlacement (stored 1 3 0) = some .defer ∧
      slotTrigger (stored 1 3 0) = some (.line .a) ∧ ((storing [] [lineEntryT] (stored 1 3 0)).line .a).actions ≠ [] ∧
      Kind.deferrable .forceSync = true ∧ paramsOk .forceSync .running (stored 2 0 0) = true ∧
      (storing [entryT (.line .a) false] [] (stored 2 0 0)).SlotWrite 1 (slotWrite (stored 2 0 0)) cmdStep .forceSync ∧
      (storing [] [lineEntryT] (stored 1 3 0)).SlotWrite 1 (slotWrite (stored 1 3 0)) cmdStep .forceSync := by
  unfold State.SlotWrite State.Admitted State.Front
  decide +kernel
theorem test_stores_sound :
    (storing [entryT .stormIn false] [lineEntryT] (stored 1 3 0)).storesSound ∧
      ∃ t, step (storing [entryT .stormIn false] [lineEntryT] (stored 1 3 0)) = .next t :=
  ⟨⟨by decide, fun l => by cases l <;> decide, fun l _ => by cases l <;> decide⟩, _, rfl⟩
theorem test_deferring :
    slotTrigger (stored 1 0 0) = none ∧ slotTrigger (stored 1 5 1025) = none ∧ slotTrigger (stored 1 5 1) = some (.downAtLeast 1) ∧
      8 ≤ (storing (List.replicate 8 (entryT .stormIn false)) [] (stored 1 1 0)).cmd.deferred.length ∧
      (storing (List.replicate 7 (entryT .stormIn false)) [] (stored 1 1 0)).cmd.deferred.length < 8 ∧
      (storing [entryT .stormIn false] [] (stored 1 1 0)).cmd.deferred ≠ [] ∧
      (storing [] [] (stored 1 6 0)).cmd.deferred = [] ∧ slotTrigger (stored 1 6 0) = some (.atTime 0) ∧
      reached (storing [] [] (stored 1 6 0)).time 0 = true ∧ reached (storing [] [] (stored 1 6 1)).time 1 = false ∧
      ¬1 ≤ (storing [] [] (stored 1 5 1)).buildingDown := by
  decide +kernel
theorem test_line_lists :
    4 ≤ ((storing [] (List.replicate 4 lineEntryT) (stored 2 0 0)).line .a).actions.length ∧
      ((storing [] (List.replicate 3 lineEntryT) (stored 2 0 0)).line .a).actions.length < 4 ∧
      (storing [] (List.replicate 3 lineEntryT) (stored 2 0 0)).lineDeferred .a = false ∧
      byteAt (nowSlot .dropAction) 10 = lineCode .b ∧ (run.line .b).actions = [] ∧
      ((storing [] [lineEntryT] (slotT 19 0 0 0 [0])).line .a).actions ≠ [] ∧
      (storing [] [lineEntryT] (slotT 19 0 0 0 [0])).NowWrite 1 (slotWrite (slotT 19 0 0 0 [0])) cmdStep .dropAction ∧
      (storing [entryT .stormIn false] [] (nowSlot .queueFlush)).NowWrite 1 (slotWrite (nowSlot .queueFlush)) cmdStep
        .queueFlush ∧
      (storing [entryT .stormIn false] [] (nowSlot .queueFlush)).cmd.deferred ≠ [] := by
  unfold State.NowWrite State.SlotWrite State.Admitted State.Front
  decide +kernel

/-- Line A asserted at its pin with its debounce over. -/
def lineT (la : List LineEntry) (runs : Bool) : State :=
  { run with cmd := { run.cmd with lineA :=
      { pin := true, level := false, deadline := some 0, actions := la, runPending := runs, absorbed := 254 } } }
theorem test_lines :
    run.working = true ∧ (inMode run .halted).working = false ∧ (lineT [] false).ready = true ∧
      due (lineT [] false).time ((lineT [] false).line .a).deadline = true ∧
      ((lineT [] false).line .a).pin ≠ ((lineT [] false).line .a).level ∧ (run.line .a).pin = (run.line .a).level ∧
      due run.time (run.line .a).deadline = false ∧ (inMode (lineT [] false) .detached).ctl.mode = .detached ∧
      (inMode (lineT [] false) .detached).ready = true ∧ ((lineT [lineEntryT] true).line .a).actions ≠ [] ∧
      ((lineT [lineEntryT] true).line .a).runPending = true ∧ ((lineT [lineEntryT] false).line .a).runPending = false := by
  decide +kernel

/-- A head entry fallen due, or a line's run, in ACTIONS. -/
def actionsT (d : DueAction) (q : List DeferredEntry) (la : List LineEntry) (m : Mode) : State :=
  { inMode run m with cmd :=
      { run.cmd with unit := .actions, due := [d], deferred := q, lineA := { run.cmd.lineA with actions := la, runPending := true } } }
theorem test_runs :
    (actionsT .deferred [entryT .stormIn true] [] .running).cmd.due = .deferred :: [] ∧
      (actionsT .deferred [entryT .stormIn true] [] .running).cmd.deferred = entryT .stormIn true :: [] ∧
      (actionsT .deferred [entryT .stormIn true] [] .running).ready = true ∧
      (actionsT .deferred [entryT .stormIn true] [] .running).cmd.unit = .actions ∧
      (actionsT (.line .a) [] [lineEntryT] .running).cmd.due = .line .a :: [] ∧
      Kind.inMode .forceSync .loading = false ∧ Mode.takesCommands .loading = true ∧
      (10 : Fin 1024).val = leAt (slotT 11 0 0 0 [10, 0]) 10 2 := by
  decide +kernel
theorem test_run_succeeds : ∃ u data, (actionsT .deferred [] [] .running).runStored .forceSync (stored 1 1 0) .deferred = .ok (u, data) :=
  ⟨_, _, rfl⟩
theorem test_run_fails :
    (actionsT .deferred [] [] .loading).runStored .forceSync (stored 1 1 0) .deferred = .error .wrongMode := rfl
theorem test_line_run_succeeds :
    ∃ u data, (actionsT (.line .a) [] [] .running).runStored .arm (slotT 8 2 0 0 []) (.line .a) = .ok (u, data) := ⟨_, _, rfl⟩
theorem test_line_run_fails :
    (actionsT (.line .a) [] [] .loading).runStored .forceSync lineEntryT.slot (.line .a) = .error .wrongMode := rfl
theorem test_stored_kinds :
    (actionsT .deferred [] [] .loading).ctl.mode = .loading ∧ (actionsT .deferred [] [] .running).ctl.mode = .running ∧
      paramsOk .setReporting .loading (nowSlot .setReporting) = true ∧ run.corr.stormArmed = true ∧
      run.table.brownoutArmed = true ∧ (1 : Fin 1024).val = leAt (nowSlot .mute) 10 2 ∧
      (stormT 2 false .every true).corr.stormIn = false ∧ leAt (slotT 6 2 0 0 [2, 0, 1, 0]) 10 2 = 2 ∧
      leAt (slotT 6 2 0 0 [2, 0, 1, 0]) 12 2 = 1 := by
  decide +kernel
theorem test_head_clauses :
    let e := entryT (.downAtLeast 1) false
    (deferredT [e]).cmd.deferred = e :: [] ∧ ¬(1 ≤ (deferredT [e]).buildingDown) ∧ e.due = false ∧
      1 ≤ (withTerm (deferredT [e]) 1 (fun t => { t with state := .suspect })).buildingDown ∧
      reached (deferredT [entryT (.atTime 0) false]).time 0 = true ∧ (busyUnit run (.unmap false)).progress 0x30020#40 = none ∧
      (busyUnit run (.unmap false)).progress 0x30000#40 =
        some { addr := 0x30000#40, slot := slotT 15 0 0 0 [], overwritten := false } := by
  decide +kernel

/-! ## Requests, messages and areas -/

/-- Two adjacent rings of one tag, ports 0 and 1. -/
def adjacentT : State :=
  { run with intake := { run.intake with rings := run.intake.rings.set 1 (some { ringT with base := 0x60040#40 }) } }
/-- A write that straddles both. -/
def straddleT : Request := { addr := 0x60038#40, tag := 3, body := .write (fullBeats (zeros 16)) }
theorem test_port_of :
    adjacentT.portOf straddleT = some 0 ∧ adjacentT.portOf { straddleT with addr := 0x60040#40 } = some 1 ∧
      adjacentT.portOf { straddleT with addr := 0x60080#40 } = none := by
  decide +kernel
theorem test_message_form :
    messageForm (ringWrite (messageT 1 0 0 1)) = true ∧ ringT.base.toNat % 16 = 0 ∧
      (ringWrite (messageT 1 0 0 1)).overlaps ringT.base.toNat (16 * ringT.slots) = true ∧
      { ringWrite (messageT 1 0 0 1) with addr := 0x60030#40 }.overlaps ringT.base.toNat (16 * ringT.slots) = true ∧
      (ringWrite (messageT 1 0 0 1)).fullAligned 16 = true ∧ straddleT.fullAligned 16 = false := by
  decide +kernel
theorem test_terminal_of :
    run.map = some mapT ∧ mapT.terminals.length ≤ 1024 ∧
      (mapT.terminals.map (fun e => (e.port, e.localId))).Pairwise (· ≠ ·) ∧ run.terminalOf 0 127 = some 2 ∧
      run.terminalOf 0 2 = none ∧ State.reset.map = none := by
  decide +kernel
theorem test_bytes_read :
    (slotWrite ((List.range 32).map (BitVec.ofNat 8))).beats[3]? ≠ none ∧
      byteAt (slotWrite ((List.range 32).map (BitVec.ofNat 8))).bytes 31 = 31 ∧ leAt [0x34#8, 0x12#8] 0 2 = 0x1234 ∧
      (run.recordBytes 0 0).length = 16 ∧ byteAt goodBlock 3 ≤ 31 := by
  decide +kernel
theorem test_granted :
    (({ req := readT 8, awaits := [(0, .needsWrite), (1, .needsWrite)] } : HeldRead).granted 0 2).awaits =
      [(0, .answers 2), (1, .needsWrite)] := by
  decide +kernel
theorem test_hand_over :
    (withIndex run 16 1 false).ctl.anchor = some anchorT ∧ (anchorT.ringSlots ≤ 16 ∨ (withIndex run 16 1 false).rw.occupancy < 0) ∧
      (2 + anchorT.ringSlots - (withIndex run 2 5 false).rw.consumed) % anchorT.ringSlots ≤
        (withIndex run 2 5 false).rw.occupancy ∧ (withIndex run 2 5 true).rw.stalled = true := by
  decide +kernel
theorem test_capture_open :
    ¬((inMode run .loading).ctl.mode ≠ .loading ∨ ∃ expected check addr since,
      (inMode run .loading).cmd.unit = .busy (.mapEnd expected check) addr since) ∧ run.ctl.mode ≠ .loading := by
  refine ⟨?_, by decide⟩
  rintro (h | ⟨_, _, _, _, h⟩)
  · exact h rfl
  · cases h
theorem test_nothing_moves : run.moves = [] ∧ (twoHeld 0 1).tagHeld 2 = true := by decide +kernel
end Sys2Proof.Tests
end

section
/-! The examination of an anchor block (R24, R27): the condition of each branch of `anchorFault` as the failure of one
check of TABLE 2-2, the table as a whole, and what a refusal does to the state. -/

namespace Sys2Proof.Machine

/-! ## The checks of TABLE 2-2 -/

/-- Two areas, each a base and a length, share no address (check 7). -/
def Apart (p q : Nat × Nat) : Prop := ¬(p.1 < q.1 + q.2 ∧ q.1 < p.1 + p.2)

/-- Check 4 (ALIGN). -/
def Anchor.Aligned (a : Anchor) : Prop :=
  a.ringBase.toNat % 64 = 0 ∧ a.cmdBase.toNat % 64 = 0 ∧ a.mirrorBase.toNat % 64 = 0 ∧
    a.windowBase.toNat % 64 = 0 ∧ a.consumedAddr.toNat % 4 = 0

/-- Check 5 (SIZE). -/
def Anchor.Sized (a : Anchor) : Prop :=
  (∃ k, 4 ≤ k ∧ k ≤ 12 ∧ a.ringSlots = 2 ^ k) ∧ 8 ≤ a.cmdSlots ∧ a.cmdSlots ≤ 64 ∧
    ∀ p ∈ a.areas, p.1 + p.2 ≤ 2 ^ 40

/-- Check 6 (TAG), on the own source tag as the block's byte gives it. -/
def Anchor.Tagged (a : Anchor) (own : Nat) : Prop :=
  own ≤ 31 ∧ a.procMask ≠ 0 ∧ a.procMask.getLsbD own = false

/-- Check 7 (OVERLAP). -/
def AreasFree (areas rings : List (Nat × Nat)) : Prop :=
  areas.Pairwise Apart ∧ ∀ p ∈ areas, ∀ q ∈ rings, Apart p q

/-! ## Each branch condition of `anchorFault` is the failure of its check -/

theorem align_branch_iff (a : Anchor) :
    (a.ringBase.toNat % 64 != 0 || a.cmdBase.toNat % 64 != 0 || a.mirrorBase.toNat % 64 != 0 ||
      a.windowBase.toNat % 64 != 0 || a.consumedAddr.toNat % 4 != 0) = true ↔ ¬a.Aligned := by
  simp only [Anchor.Aligned, Bool.or_eq_true, bne_iff_ne]
  omega

theorem no_area_past_top_iff (areas : List (Nat × Nat)) :
    areas.any (fun p => decide (addrTop < p.1 + p.2)) = false ↔ ∀ p ∈ areas, p.1 + p.2 ≤ 2 ^ 40 := by
  simp only [List.any_eq_false, decide_eq_true_eq, Nat.not_lt]
  rfl

theorem size_branch_iff (a : Anchor) :
    (!powerOfTwoIn a.ringSlots 4 12 || decide (a.cmdSlots < 8) || decide (64 < a.cmdSlots) ||
      a.areas.any (fun p => decide (addrTop < p.1 + p.2))) = true ↔ ¬a.Sized := by
  rw [Anchor.Sized, ← pow2_iff, ← no_area_past_top_iff, ← Bool.not_eq_false, not_iff_not]
  simp only [Bool.or_eq_false_iff, Bool.not_eq_false', decide_eq_false_iff_not, Nat.not_lt, and_assoc]

theorem tag_branch_iff (a : Anchor) (own : Nat) :
    (decide (31 < own) || a.procMask == 0 || a.procMask.getLsbD own) = true ↔ ¬a.Tagged own := by
  rw [Anchor.Tagged, ← Bool.not_eq_false, not_iff_not]
  simp only [Bool.or_eq_false_iff, decide_eq_false_iff_not, Nat.not_lt, beq_eq_false_iff_ne, and_assoc]

theorem no_ring_overlap_iff (areas rings : List (Nat × Nat)) :
    areas.any (fun p => rings.any (fun q => rangesOverlap p.1 p.2 q.1 q.2)) = false ↔
      ∀ p ∈ areas, ∀ q ∈ rings, Apart p q := by
  simp [rangesOverlap, Apart]

theorem overlap_branch_iff (areas rings : List (Nat × Nat)) :
    (anyOverlap areas || areas.any (fun p => rings.any (fun q => rangesOverlap p.1 p.2 q.1 q.2))) = true ↔
      ¬AreasFree areas rings := by
  rw [← Bool.not_eq_false, not_iff_not, Bool.or_eq_false_iff, anyOverlap_false, no_ring_overlap_iff]
  rfl

open Classical in
/-- TABLE 2-2 read from the top: the first check that fails gives the reason (R24). -/
theorem anchorFault_table (block : Addr) (rings : List (Nat × Nat)) (b : List Byte) :
    anchorFault block rings b =
      if ¬leAt b 0 2 = 0xA5C3 then some .mark
      else if ¬byteAt b 2 = 1 then some .version
      else if ¬leAt b 56 4 = (crc32 (b.take 56)).toNat then some .check
      else if ¬(anchorOf b).Aligned then some .align
      else if ¬(anchorOf b).Sized then some .size
      else if ¬(anchorOf b).Tagged (byteAt b 3) then some .tag
      else if ¬AreasFree ((anchorOf b).areas ++ [(block.toNat, 64)]) rings then some .overlap
      else none := by
  simp only [anchorFault, bne_iff_ne, align_branch_iff, size_branch_iff, tag_branch_iff, overlap_branch_iff, ne_eq]

/-- A check that holds leaves the answer to the checks after it. -/
theorem past_check {α : Type} {p : Prop} {_ : Decidable p} {reason rest x : α} (h : p) (hrest : rest = x) :
    (if ¬p then reason else rest) = x :=
  (if_neg (not_not_intro h)).trans hrest

/-! ## A refusal -/

theorem refuseAnchor_withPath (s : State) (p : Path) (t : Tag) (reason : AckReason) :
    (s.withPath p).refuseAnchor t reason = (s.refuseAnchor t reason).withPath p := rfl

/-- In DETACHED and ATTACHED a block with a failing check is refused for that check (R27). -/
theorem examineAnchor_of_fault {s : State} {r : Request} {reason : AckReason}
    (hm : s.ctl.mode = .detached ∨ s.ctl.mode = .attached)
    (hf : anchorFault s.ctl.anchorAddr s.ringAreas r.bytes = some reason) :
    s.examineAnchor r = s.refuseAnchor r.tag reason := by
  have hc : s.checkAnchor r = s.refuseAnchor r.tag reason := by rw [State.checkAnchor, hf]
  unfold State.examineAnchor
  rcases hm with hm | hm <;> rw [hm] <;> exact hc

/-- ANCHOR_WRITE on a block with a failing check: beside the path nothing happens but the refusal's acknowledgement
(R27, R28). -/
theorem execAnchorWrite_refused {s : State} {tag : Tag} {r : Request} {f : StepFor} {reason : AckReason}
    (ha : s.Admitted tag r f) (hs : f.anchor = true) (hm : s.ctl.mode = .detached ∨ s.ctl.mode = .attached)
    (hf : anchorFault s.ctl.anchorAddr s.ringAreas r.bytes = some reason) :
    ∃ t, exec (.anchorWrite tag) s = .next t ∧ Took t (s.refuseAnchor r.tag reason) tag r := by
  refine ⟨_, rfl, takeStep_of ha hs (fun p => ?_) rfl⟩
  rw [examineAnchor_of_fault (s := s.withPath p) hm hf, refuseAnchor_withPath]

/-- Settles O25: each clause walks down TABLE 2-2, past the checks that hold to the first that fails; a refusal is
`execAnchorWrite_refused`. -/
theorem anchorChecksInOrder : Obligations.AnchorChecksInOrder := by
  refine ⟨fun block rings b => ?_, fun s tag r f reason => execAnchorWrite_refused⟩
  rw [anchorFault_table]
  exact ⟨fun h1 => if_pos h1,
    fun h1 h2 => past_check h1 <| if_pos h2,
    fun h1 h2 h3 => past_check h1 <| past_check h2 <| if_pos h3,
    fun h1 h2 h3 h4 => past_check h1 <| past_check h2 <| past_check h3 <| if_pos h4,
    fun h1 h2 h3 h4 h5 => past_check h1 <| past_check h2 <| past_check h3 <| past_check h4 <| if_pos h5,
    fun h1 h2 h3 h4 h5 h6 =>
      past_check h1 <| past_check h2 <| past_check h3 <| past_check h4 <| past_check h5 <| if_pos h6,
    fun h1 h2 h3 h4 h5 h6 h7 =>
      past_check h1 <| past_check h2 <| past_check h3 <| past_check h4 <| past_check h5 <|
        past_check h6 <| if_pos h7,
    fun h1 h2 h3 h4 h5 h6 h7 =>
      past_check h1 <| past_check h2 <| past_check h3 <| past_check h4 <| past_check h5 <|
        past_check h6 <| if_neg (not_not_intro h7)⟩

end Sys2Proof.Machine
end

section
/-! The exclusion of a line's list and a deferred entry with that line as trigger (R184): the stores stay sound under
every step, and each of the two registrations that would break the exclusion is refused LINE_IN_USE. -/

namespace Sys2Proof.Machine

/-! ## The stores under a step -/

/-- The release of RESET_N empties the deferred queue and both line lists (R187), whatever they held. -/
theorem released_storesSound (s : State) (straps : Straps) : (s.released straps).storesSound := by
  have hempty : ∀ l, ((s.released straps).line l).actions = [] := fun l => by cases l <;> rfl
  exact ⟨Nat.zero_le _, fun l => by rw [hempty]; exact Nat.zero_le _, fun l hl => absurd (hempty l) hl⟩

theorem step_storesSound {s t : State} (hs : s.storesSound) (h : step s = .next t) : t.storesSound := by
  rcases step_cases s t h with rfl | ⟨s', rfl, hkeeps | ⟨straps, rfl⟩⟩
  case inl => exact tick_sound (fun _ _ hs => hs) s hs
  case inr.inl => exact hkeeps.stores hs
  case inr.inr => exact (Keeps.flow _).stores (released_storesSound _ straps)

/-! ## The two refusals -/

/-- A storable command with placement DEFER goes on to the deferred queue (R177). -/
theorem judgePlaced_defer {s : State} {k : Kind} {carry : State → State × Result} {addr : Addr} {b : List Byte}
    (hpl : slotPlacement b = some .defer) (hd : k.deferrable = true) (hpar : paramsOk k s.ctl.mode b = true) :
    s.judgePlaced k carry addr b = s.deferCommand k addr b := by
  simp [State.judgePlaced, hpl, hd, hpar]

/-- A storable command with a line's placement goes on to that line's list (R183). -/
theorem judgePlaced_line {s : State} {k : Kind} {carry : State → State × Result} {addr : Addr} {b : List Byte} {l : Line}
    (hpl : slotPlacement b = some (.line l)) (hd : k.deferrable = true) (hpar : paramsOk k s.ctl.mode b = true) :
    s.judgePlaced k carry addr b = s.registerLine l k addr b := by
  simp [State.judgePlaced, hpl, hd, hpar]

theorem triggerInUse_line_iff {s : State} {l : Line} : s.triggerInUse (.line l) = true ↔ (s.line l).actions ≠ [] := by
  simp [State.triggerInUse]

theorem deferCommand_lineInUse {s : State} {k : Kind} {addr : Addr} {b : List Byte} {l : Line}
    (htr : slotTrigger b = some (.line l)) (hl : (s.line l).actions ≠ []) :
    s.deferCommand k addr b = s.refuse addr b .lineInUse := by
  simp only [State.deferCommand, htr, triggerInUse_line_iff.mpr hl, if_true]

theorem registerLine_lineInUse {s : State} {k : Kind} {addr : Addr} {b : List Byte} {l : Line}
    (hl : s.lineDeferred l = true) : s.registerLine l k addr b = s.refuse addr b .lineInUse :=
  if_pos hl

/-- A slot write that tests 4 to 9 refuse: beside the path nothing happens but the write-back (R163). -/
theorem exec_slotRow_refused {s : State} {tag : Tag} {r : Request} {f : StepFor} {k : Kind} {c : Code}
    (h : s.SlotWrite tag r f k)
    (hj : ∀ carry p, (s.withPath p).judgePlaced k carry r.addr r.bytes = (s.withPath p).refuse r.addr r.bytes c) :
    ∃ t, exec (slotRow tag k) s = .next t ∧
      Took t (s.enqueue (.writeBack r.addr (writeBackBytes r.bytes .refused c false 0))) tag r := by
  obtain ⟨hadm, hcmd, hkind, hfree, hidle⟩ := h
  refine ⟨_, exec_slotRow tag k s, takeCommand_took hadm hcmd hkind ?_ rfl⟩
  rw [judge_of_idle (s := s.popLane tag) hfree hidle]
  exact hj _ (s.popLane tag).path

/-- Settles O11: what a step can do keeps the stores sound, and each of the two registrations runs into its LINE_IN_USE
test. -/
theorem lineExclusion : Obligations.LineExclusion := by
  refine ⟨fun s t => step_storesSound,
    fun s tag r f k l hw hd hpar hclash => exec_slotRow_refused hw fun carry p => ?_⟩
  obtain ⟨hpl, hl⟩ | ⟨hpl, htr, hl⟩ := hclash
  case inl =>
    exact (judgePlaced_line (s := s.withPath p) hpl hd hpar).trans
      (registerLine_lineInUse (s := s.withPath p) hl)
  case inr =>
    exact (judgePlaced_defer (s := s.withPath p) hpl hd hpar).trans
      (deferCommand_lineInUse (s := s.withPath p) htr hl)

end Sys2Proof.Machine
end

section
/-! The invariants under a step: an empty queue, every command but the release of RESET_N, and the release. -/

namespace Sys2Proof.Machine

/-- What a step keeps when the passing of time, every command that keeps it and the release of RESET_N do. -/
theorem step_induces {P : State → Prop} (htime : ∀ s x, P s → P { s with time := x })
    (hpending : ∀ s q, P s → P { s with pending := q }) (hkeeps : ∀ s t, Keeps s t → P s → P t)
    (hrelease : ∀ s straps, P s → P (s.released straps)) {s t : State} (hs : P s) (h : step s = .next t) : P t := by
  rcases step_cases s t h with rfl | ⟨s', rfl, hk | ⟨straps, rfl⟩⟩
  case inl => exact tick_sound htime s hs
  case inr.inl => exact hkeeps _ _ hk (hpending s _ hs)
  case inr.inr => exact hkeeps _ _ (Keeps.flow _) (hrelease _ straps (hpending s _ hs))

/-! ## The release of RESET_N -/

theorem released_mirrorSound (s : State) (straps : Straps) : (s.released straps).mirrorSound :=
  ⟨List.Pairwise.nil, fun _ hi => absurd hi List.not_mem_nil, Nat.zero_lt_succ _⟩

theorem released_anchor (straps : Straps) : (Control.released straps).anchor = none := by
  unfold Control.released
  split <;> rfl

theorem released_mode (straps : Straps) :
    (Control.released straps).mode = if straps.holdupLow then .halted else .detached := by
  unfold Control.released
  split <;> rfl

theorem released_ringSound (s : State) (straps : Straps) : (s.released straps).ringSound := by
  have hanchor : (s.released straps).ctl.anchor = none := released_anchor straps
  have hmode : (s.released straps).ctl.mode = .detached ∨ (s.released straps).ctl.mode = .halted := by
    refine (Eq.subst (motive := fun m => m = .detached ∨ m = .halted) (released_mode straps).symm ?_)
    split
    · exact .inr rfl
    · exact .inl rfl
  simp only [State.ringSound, hanchor]
  exact ⟨rfl, rfl, hmode, rfl⟩

/-! ## The three invariants -/

/-- Settles O8: whatever completes a step keeps the dirty set sound, and the release of RESET_N empties it. -/
theorem stepKeepsMirrorSound : Obligations.StepKeepsMirrorSound := fun _ _ =>
  step_induces (fun _ _ hs => hs) (fun _ _ hs => hs) (fun _ _ hk => hk.mirror)
    (fun s straps _ => released_mirrorSound s straps)

/-- Settles O9: the release of RESET_N reopens the lanes and drops the held reads; every other command keeps the
bounds. -/
theorem stepKeepsPathSound : Obligations.StepKeepsPathSound := fun _ _ =>
  step_induces (fun _ _ hs => hs) (fun _ _ hs => hs) (fun _ _ hk => hk.path)
    (fun s straps hs => (released_sound s straps hs).2.1)

/-- Settles O10: the release of RESET_N leaves no ring; every other command keeps the ring's accounting. -/
theorem stepKeepsRingSound : Obligations.StepKeepsRingSound := fun _ _ =>
  step_induces (fun _ _ hs => hs) (fun _ _ hs => hs) (fun _ _ hk => hk.ring)
    (fun s straps _ => released_ringSound s straps)

end Sys2Proof.Machine
end

section
/-! The machine as a whole: steps, time and the queue, which commands stop, the bytes of a request; and the reset state. -/

namespace Sys2Proof.Machine

/-! ## Steps -/

/-- Settles O1. -/
theorem stepRunsFrontCommand : Obligations.StepRunsFrontCommand := by
  intro c rest s h
  simp only [step, h]

/-- Settles O2: the step of an empty queue is `tick`. -/
theorem emptyQueueCountsTime : Obligations.EmptyQueueCountsTime := by
  refine ⟨fun s h => ?_, fun now x ms => ⟨decide_eq_true_iff, rfl, rfl, rfl⟩⟩
  have hstep : step s = .next (tick s) := by simp only [step, h]
  exact ⟨fun hr => by rw [hstep, tick, if_pos hr], fun hr => by rw [hstep, tick, hr]; rfl⟩

/-- The release of RESET_N keeps the queue, whether RESET_N is asserted or not. -/
theorem execResetNRelease_pending {straps : Straps} {s t : State} (h : exec (.resetNRelease straps) s = .next t) :
    t.pending = s.pending := by
  cases h
  split
  · exact released_keeps s straps
  · rfl

/-- Settles O3: every command but the release of RESET_N keeps both. -/
theorem commandsKeepQueueAndTime : Obligations.CommandsKeepQueueAndTime := by
  intro c s t h
  by_cases hc : ∀ straps, c ≠ .resetNRelease straps
  case pos => exact ⟨(exec_keeps c s t h hc).pending, fun _ => (exec_keeps c s t h hc).time⟩
  case neg =>
    obtain ⟨straps, rfl⟩ : ∃ straps, c = .resetNRelease straps := by simpa using hc
    exact ⟨execResetNRelease_pending h, fun hne => absurd rfl (hne straps)⟩

/-- UPSTREAM_REQUEST stops exactly where its operand is no bus request (R3). -/
theorem exec_upstreamRequest (r : Request) (s : State) :
    exec (.upstreamRequest r) s = if r.wf then .next ((s.accept r).examine r.tag) else .fault .notARequest := rfl

/-- Settles O4: of the rows, UPSTREAM_REQUEST alone can stop; each other one answers a next state by its definition. -/
theorem onlyNonRequestsStop : Obligations.OnlyNonRequestsStop := by
  intro c s
  cases c
  case upstreamRequest r =>
    rw [exec_upstreamRequest]
    exact ⟨fun h => ⟨_, if_pos h⟩, fun h => if_neg (by rw [show r.wf = false from h]; exact Bool.false_ne_true)⟩
  all_goals exact ⟨fun _ => ⟨_, rfl⟩, nofun⟩

/-! ## The bytes of a request (R3) -/

theorem overlaps_iff {r : Request} {base len : Nat} (hb : r.beatsOk = true) (hl : 0 < len) :
    r.overlaps base len = true ↔ ∃ k j, k < r.body.beatCount ∧ j < 8 ∧
      base ≤ r.addr.toNat + 8 * k + j ∧ r.addr.toNat + 8 * k + j < base + len := by
  simp only [Request.beatsOk, Bool.and_eq_true, decide_eq_true_eq] at hb
  rw [Request.overlaps, Request.size, Bool.and_eq_true, decide_eq_true_iff, decide_eq_true_iff]
  constructor
  case mp =>
    rintro ⟨hlo, hhi⟩
    -- the first shared byte is the later of the two first bytes
    obtain ⟨d, hd⟩ : ∃ d, max base r.addr.toNat = r.addr.toNat + d := ⟨max base r.addr.toNat - r.addr.toNat, by omega⟩
    exact ⟨d / 8, d % 8, by omega, by omega, by omega, by omega⟩
  case mpr =>
    rintro ⟨k, j, hk, hj, hlo, hhi⟩
    omega

theorem enables_at {r : Request} {k j : Nat} {b : Beat} (hb : r.beats[k]? = some b) (hj : j < 8) :
    r.enables (r.addr.toNat + 8 * k + j) = b.enable.getLsbD j := by
  have hoff : r.addr.toNat + 8 * k + j - r.addr.toNat = 8 * k + j := by omega
  have hdiv : (8 * k + j) / 8 = k := by omega
  have hmod : (8 * k + j) % 8 = j := by omega
  have hle : r.addr.toNat ≤ r.addr.toNat + 8 * k + j := by omega
  simp only [Request.enables, hoff, hdiv, hmod, hb, hle, decide_true, Bool.true_and]

theorem byteAt_of_getElem? {b : List Byte} {k : Nat} {x : Byte} (h : b[k]? = some x) : byteAt b k = x.toNat := by
  rw [byteAt, List.getD_eq_getElem?_getD, h, Option.getD_some]

theorem wf_false_of_misaligned {r : Request} (h : r.addr.toNat % 8 ≠ 0) : r.wf = false := by
  simp [Request.wf, Request.aligned, h]

/-- Settles O5. -/
theorem beatsCoverEightBytes : Obligations.BeatsCoverEightBytes := by
  refine ⟨fun r s h => ?_, fun r base len => overlaps_iff, fun r k j b => enables_at,
    fun r k j b h e => bytes_at r k j b h e, fun b k n j =>
      ⟨fun x => byteAt_of_getElem?, leAt_lt b n k, leAt_byte b n k j⟩⟩
  rw [exec_upstreamRequest, wf_false_of_misaligned h]
  rfl

/-! ## The reset state -/

theorem reset_group (g : GroupId) : State.reset.group g = Group.idle := by
  simp [State.group, State.reset, Correlation.reset]

theorem reset_lane (t : Tag) : State.reset.lane t = { reqs := [], outcome := none } := by
  simp [State.lane, State.reset, Path.empty]

theorem reset_line (l : Line) : State.reset.line l = LineUnit.reset false := by
  cases l <;> rfl

/-- Settles O6: the single values as the definitions give them, the arrays record by record. -/
theorem resetStateAsStated : Obligations.ResetStateAsStated := by
  refine ⟨rfl, rfl, rfl, rfl, rfl, rfl, fun p => ⟨?_, ?_, ?_⟩, fun n => ?_, rfl, rfl, reset_group, rfl, rfl, rfl, rfl, rfl, rfl,
    fun i hi => ?_, reset_lane, rfl, rfl, rfl, rfl, rfl, rfl, rfl, rfl, rfl, rfl, rfl, reset_line⟩
  · simp [State.ring, State.reset, Intake.reset]
  · simp [State.tally, State.reset, Intake.reset, Tally.zero]
  · simp [State.faultMark, State.reset, Intake.reset]
  · simp [State.term, State.reset, Table.reset, Terminal.unlisted]
  · simp [State.reset, Mirror.reset]

theorem reset_pathSound : State.reset.pathSound := by
  refine ⟨fun t => ?_, Nat.zero_le _, Nat.zero_le _, fun _ => rfl, fun t r hr => ?_,
    fun h hh => absurd hh List.not_mem_nil, fun t m => ?_⟩
  · rw [reset_lane]; exact Nat.zero_le _
  · rw [reset_lane] at hr; exact absurd hr List.not_mem_nil
  · have hout : State.reset.path.lanes[t.val].outcome = none := congrArg Lane.outcome (reset_lane t)
    rw [hout]
    exact ⟨nofun, nofun⟩

theorem reset_storesSound : State.reset.storesSound := by
  refine ⟨Nat.zero_le _, fun l => ?_, fun l hl => absurd ?_ hl⟩
  · rw [reset_line]; exact Nat.zero_le _
  · rw [reset_line]; rfl

/-- Settles O7. -/
theorem invariantsHoldAtReset : Obligations.InvariantsHoldAtReset :=
  ⟨⟨List.Pairwise.nil, fun _ hi => absurd hi List.not_mem_nil, Nat.zero_lt_succ _⟩, reset_pathSound, reset_storesSound,
    rfl, rfl, .inl rfl, rfl⟩

end Sys2Proof.Machine
end

section
/-! The assertion of RESET_N, after which every waiting request has passed, and its release, after which only what is
classified afresh moves (R21). -/

namespace Sys2Proof.Machine

/-! ## Requests of one tag -/

theorem count_eq_count_ofTag (r : Request) (l : List Request) : l.count r = (ofTag r.tag l).count r := by
  rw [ofTag, List.count_filter (by simp)]

/-- Requests that agree tag by tag are the same requests, in some order. -/
theorem perm_of_ofTag {a b : List Request} (h : ∀ t, ofTag t a = ofTag t b) : a.Perm b :=
  List.perm_iff_count.mpr fun r => by rw [count_eq_count_ofTag, h, ← count_eq_count_ofTag]

theorem flatMap_single {α β : Type} [DecidableEq α] (f : α → List β) (x : α) {l : List α} (hn : l.Nodup) (hx : x ∈ l) :
    l.flatMap (fun y => if y = x then f y else []) = f x := by
  induction l with
  | nil => exact absurd hx List.not_mem_nil
  | cons y l ih =>
    obtain ⟨hy, hn⟩ := List.nodup_cons.mp hn
    rw [List.flatMap_cons]
    rcases List.mem_cons.mp hx with rfl | hx
    case inl =>
      have hrest : l.flatMap (fun y => if y = x then f y else []) = [] :=
        List.flatMap_eq_nil_iff.mpr fun z hz => if_neg (by rintro rfl; exact hy hz)
      rw [if_pos rfl, hrest, List.append_nil]
    case inr => rw [if_neg (by rintro rfl; exact hy hx), List.nil_append, ih hn hx]

theorem ofTag_of_lane {t u : Tag} {l : List Request} (h : ∀ r ∈ l, r.tag = u) : ofTag t l = if u = t then l else [] := by
  by_cases e : u = t
  · rw [if_pos e, ofTag_eq_self fun r hr => (h r hr).trans e]
  · rw [if_neg e, ofTag_eq_nil.mpr fun r hr => (h r hr).symm ▸ e]

/-- Of all the lanes' requests those of tag t are lane t's. -/
theorem ofTag_lanes (f : Tag → List Request) (h : ∀ u, ∀ r ∈ f u, r.tag = u) (t : Tag) :
    ofTag t ((List.finRange 32).flatMap f) = f t := by
  have hsplit : ofTag t ((List.finRange 32).flatMap f) =
      (List.finRange 32).flatMap (fun u => if u = t then f u else []) := by
    rw [ofTag, List.filter_flatMap]
    exact List.flatMap_congr fun u _ => ofTag_of_lane (h u)
  rw [hsplit, flatMap_single f t (List.nodup_finRange 32) (List.mem_finRange t)]

/-! ## The assertion -/

theorem lane_enterReset (s : State) (t : Tag) : s.enterReset.lane t = (s.lane t).reopen := by
  show (s.path.lanes.map Lane.reopen)[t.val] = _
  rw [Vector.getElem_map]
  rfl

theorem held_enterReset (s : State) : s.enterReset.path.held.map (fun h => h.req) = s.path.held.map (fun h => h.req) := by
  show (s.path.held.map HeldRead.satisfy).map (fun h => h.req) = _
  rw [List.map_map]
  rfl

theorem waiting_enterReset (s : State) (t : Tag) : s.enterReset.path.waiting t = s.path.waiting t := by
  have hlane : (s.enterReset.lane t).reqs = (s.lane t).reqs := by rw [lane_enterReset]; rfl
  exact congrArg₂ (ofTag t · ++ ·) (held_enterReset s) hlane

theorem enterReset_draining (s : State) : Draining s.enterReset where
  inReset := rfl
  fresh t := by rw [lane_enterReset]; rfl
  served h hh := by
    obtain ⟨g, _, rfl⟩ := List.mem_map.mp hh
    rfl

theorem exec_resetNAssertion {s : State} (h : s.inReset = false) : exec .resetNAssertion s = .next s.enterReset.flow :=
  congrArg Host.Outcome.next (if_neg (by rw [h]; exact Bool.false_ne_true))

/-- Settles O12: in reset every front passes, so the movement ends with empty lanes and no held read; what the path
conserves tag by tag says what has entered the pass path. -/
theorem resetAssertion : Obligations.ResetAssertion := by
  refine ⟨fun s hr hs => ?_, fun i r stale absorbed acted given => ⟨rfl, rfl, rfl⟩⟩
  have hsound : s.enterReset.pathSound := (Keeps.enterReset s).path hs
  obtain ⟨hheld, hlanes⟩ := drained (draining_flow (enterReset_draining s)) (flow_settles _ hsound)
  obtain ⟨hstate, hmoved⟩ := (Flowed.flow s.enterReset).eq
  obtain ⟨new, hpass, hacted, hkept⟩ := hmoved.entered
  have hempty : ∀ tag, s.enterReset.flow.path.waiting tag = [] := fun tag => by
    rw [Path.waiting, hheld]
    exact hlanes tag
  have hnew : ∀ tag, ofTag tag (new.map (fun e => e.req)) =
      ofTag tag (s.path.held.map (fun h => h.req)) ++ (s.lane tag).reqs := fun tag => by
    have h := hkept hsound.2.2.2.2.1 tag
    rw [hempty, List.append_nil, waiting_enterReset] at h
    exact h.symm
  have hexec := exec_resetNAssertion hr
  generalize s.enterReset.flow = t at *
  refine ⟨t, new, hexec, hstate, hlanes, hheld, hmoved.passRun, hpass,
    hacted, perm_of_ofTag fun tag => ?_, hnew, hmoved.issued, hmoved.responses⟩
  rw [hnew, ofTag_append, ofTag_lanes _ hs.2.2.2.2.1]

/-! ## The release -/

/-- A path unit that no read waits in, with no anchor adopted: nothing can be a mirror read. -/
structure Unread (s : State) : Prop where
  anchor : s.ctl.anchor = none
  held : s.path.held = []
  fronts : ∀ t m g, (s.lane t).outcome ≠ some (m, .mirrorCheck g)

theorem verdict_of_no_anchor {s : State} (h : s.ctl.anchor = none) (r : Request) (g : ReadStage) :
    s.verdict r ≠ .mirrorCheck g := by
  have hm : s.mirrorRead r = false := by simp only [State.mirrorRead, h]
  simp only [State.verdict, hm, Bool.false_eq_true, if_false, StepFor.verdict]
  repeat' split
  all_goals nofun

theorem Unread.setLane {s : State} (h : Unread s) (t : Tag) (l : Lane) (hl : ∀ m g, l.outcome ≠ some (m, .mirrorCheck g)) :
    Unread (s.setLane t l) where
  anchor := h.anchor
  held := h.held
  fronts u m g := by
    by_cases e : u = t
    · rw [e, lane_setLane_self]; exact hl m g
    · rw [lane_setLane_ne _ _ _ _ e]; exact h.fronts u m g

theorem Unread.present {s : State} (h : Unread s) (t : Tag) : Unread (s.present t) := by
  unfold State.present
  split
  · exact h
  · next r rest _ =>
    split
    · have hpop := h.setLane t { reqs := (s.lane t).reqs.tail, outcome := none } (fun _ _ e => nomatch e)
      exact ⟨hpop.anchor, hpop.held, hpop.fronts⟩
    · next v _ => exact h.setLane t _ fun m g e => verdict_of_no_anchor h.anchor r g (congrArg Prod.snd (Option.some.inj e))

theorem Unread.not_recheckable {s : State} (h : Unread s) (t : Tag) : s.recheckable t = false := by
  unfold State.recheckable
  split
  · next m v _ ho => exact beq_eq_false_iff_ne.mpr fun e => h.fronts t _ .again (e ▸ ho)
  · rfl
  · rfl

theorem Unread.flow {s : State} (h : Unread s) : Unread s.flow := by
  refine flow_of (fun _ _ h => ⟨h.anchor, h.held, h.fronts⟩) (fun s m h hm => ?_) s h
  simp only [State.moves, List.mem_append, List.mem_map, List.mem_filter, h.held, h.not_recheckable] at hm
  rcases hm with ⟨t, _, rfl⟩ | ⟨t, ⟨_, ht⟩, _⟩ | ⟨i, ⟨hi, _⟩, _⟩
  · exact h.present t
  · exact absurd ht Bool.false_ne_true
  · exact absurd hi List.not_mem_nil

theorem released_lane (s : State) (straps : Straps) (t : Tag) : (s.released straps).lane t = (s.lane t).reopen := by
  show (s.path.lanes.map Lane.reopen)[t.val] = _
  rw [Vector.getElem_map]
  rfl

theorem released_unread (s : State) (straps : Straps) : Unread (s.released straps) where
  anchor := released_anchor straps
  held := rfl
  fronts t m g := by rw [released_lane]; nofun

theorem released_ctl (straps : Straps) :
    Control.released straps =
      { mode := if straps.holdupLow then .halted else .detached, anchorAddr := strapAddress straps.anchorSel, anchor := none,
        startMark := true, holdupMark := straps.holdupLow } := by
  unfold Control.released
  cases straps.holdupLow <;> rfl

theorem waiting_of_no_held {p : Path} (h : p.held = []) (t : Tag) : p.waiting t = p.lanes[t.val].reqs := by
  rw [Path.waiting, h]
  rfl

theorem exec_resetNRelease {s : State} (straps : Straps) (h : s.inReset = true) :
    exec (.resetNRelease straps) s = .next (s.released straps).flow :=
  congrArg Host.Outcome.next (if_pos h)

/-- Settles O13: with no anchor adopted no read is held, so only requests that pass leave a lane. -/
theorem resetRelease : Obligations.ResetRelease := by
  refine ⟨fun s straps hr => ?_, rfl, rfl, rfl, rfl⟩
  obtain ⟨hstate, hmoved⟩ := (Flowed.flow (s.released straps)).eq
  obtain ⟨new, hpass, hacted, hkept⟩ := hmoved.entered
  have hheld : (s.released straps).flow.path.held = [] := (released_unread s straps).flow.held
  have hreqs : ∀ t : Tag, (s.released straps).path.lanes[t.val].reqs = (s.lane t).reqs := fun t =>
    (congrArg Lane.reqs (released_lane s straps t) :)
  have hexec := exec_resetNRelease straps hr
  generalize (s.released straps).flow = t at *
  refine ⟨t, new, hexec, ?_, hheld, hmoved.passRun, hpass, hacted,
    hmoved.issued, fun t => hreqs t ▸ hmoved.lanes t, fun hs t => ?_⟩
  · rw [hstate, State.released, released_ctl]; rfl
  · have h := hkept (released_sound s straps hs).2.1.2.2.2.2.1 t
    rw [waiting_of_no_held rfl, waiting_of_no_held hheld, hreqs] at h
    exact h

end Sys2Proof.Machine
end

section
/-! Requests in their lanes: what waits there (R4, R9), and how a request is classified by area and mode (R8, TABLES 1-7
and 1-8). -/

namespace Sys2Proof.Machine

/-! ## Waiting -/

/-- A front classified in the present mode is not examined again. -/
theorem examine_classified {s : State} {t : Tag} {v : Verdict} (h : (s.lane t).outcome = some (s.ctl.mode, v)) :
    s.examine t = s := by
  simp only [State.examine, h, decide_true, Bool.true_or, if_true]

theorem accept_room {s : State} {r : Request} (h : (s.lane r.tag).reqs.length < 4) :
    s.accept r = s.setLane r.tag { s.lane r.tag with reqs := (s.lane r.tag).reqs ++ [r] } :=
  if_pos h

theorem accept_full {s : State} {r : Request} (h : 4 ≤ (s.lane r.tag).reqs.length) : s.accept r = s :=
  if_neg (Nat.not_lt.mpr h)

theorem exec_upstream {r : Request} (h : r.wf = true) (s : State) :
    exec (.upstreamRequest r) s = .next ((s.accept r).examine r.tag) := by
  rw [exec_upstreamRequest, if_pos h]

theorem working_iff (s : State) : s.working = true ↔ s.inReset = false ∧ s.ctl.mode ≠ .halted := by
  rw [State.working, Bool.and_eq_true, Bool.not_eq_true', bne_iff_ne]

theorem room_iff (s : State) : s.room = true ↔ s.rw.queue.length + 20 ≤ 48 := by
  rw [State.room, decide_eq_true_iff, State.freeEntries, Config.queueSize, Config.admission]
  omega

theorem ready_iff (s : State) : s.ready = true ↔ s.working = true ∧ s.rw.queue.length + 20 ≤ 48 := by
  rw [State.ready, Bool.and_eq_true, room_iff]

theorem inActions_iff (u : UnitState) : u.inActions = true ↔ u = .actions := by
  cases u <;> simp [UnitState.inActions]

theorem admits_iff (s : State) (f : StepFor) :
    s.admits f = true ↔ s.ready = true ∧ ¬(f.command = true ∧ s.cmd.unit = .actions) := by
  rw [State.admits, Bool.and_eq_true, Bool.not_eq_true', ← inActions_iff, ← Bool.and_eq_true, Bool.not_eq_true]

theorem clearing_iff (u : UnitState) : u.clearing = true ↔ ∃ job addr since, u = .busy job addr since ∧
    (job = .restart true ∨ job = .restart false ∨ job = .unmap true ∨ job = .unmap false) := by
  cases u with
  | idle => simp [UnitState.clearing]
  | actions => simp [UnitState.clearing]
  | busy job addr since =>
    cases job with
    | mapEnd expected ended => simp [UnitState.clearing]
    | restart cleared => cases cleared <;> simp [UnitState.clearing]
    | unmap cleared => cases cleared <;> simp [UnitState.clearing]

theorem correlating_iff (s : State) : s.correlating = true ↔ s.ctl.mode = .running ∧ ¬s.cmd.unit.clearing = true := by
  rw [State.correlating, Bool.and_eq_true, beq_iff_eq, Bool.not_eq_true', Bool.not_eq_true]

/-- Settles O14: a row leaves a classified front as it is, and a step write without room stays. -/
theorem requestWaitsInLane : Obligations.RequestWaitsInLane := by
  refine ⟨fun s r q v hwf ⟨_, hout⟩ => ⟨fun hlt => ?_, fun hge => ?_⟩, fun s tag r f hf ha c hc => ?_,
    fun s f => ⟨working_iff s, ready_iff s, admits_iff s f, ?_, ?_⟩⟩
  · rw [exec_upstream hwf, accept_room hlt, examine_classified (v := v) (by rw [lane_setLane_self]; exact hout)]
  · rw [exec_upstream hwf, accept_full hge, examine_classified hout]
  · obtain ⟨fits, act, hexec⟩ := stepRows_takeStep hc
    rw [hexec, takeStep_waits hf ha]
  · rw [correlating_iff, clearing_iff]
  · rw [State.expiryReady, Bool.and_eq_true]

/-! ## Classification on arrival -/

theorem examine_fresh {s : State} {t : Tag} (h : (s.lane t).outcome = none) : s.examine t = s.flow := by
  simp only [State.examine, h]

theorem presentable_cons {s : State} {t : Tag} {r : Request} {rest : List Request}
    (h : s.lane t = { reqs := r :: rest, outcome := none }) :
    s.presentable t = (!s.tagHeld t || s.verdict r == .mirrorCheck .presented) := by
  simp only [State.presentable, h]

theorem present_pass {s : State} {t : Tag} {r : Request} {rest : List Request} (h : (s.lane t).reqs = r :: rest)
    (hv : s.verdict r = .pass) : s.present t = (s.popLane t).enterPass r false := by
  simp only [State.present, h, hv]

theorem present_stays {s : State} {t : Tag} {r : Request} {rest : List Request} (h : (s.lane t).reqs = r :: rest)
    (hv : s.verdict r ≠ .pass) : s.present t = s.setLane t { reqs := r :: rest, outcome := some (s.ctl.mode, s.verdict r) } := by
  simp only [State.present, h]

theorem recheckable_fresh {s : State} {t : Tag} (h : (s.lane t).outcome = none) : s.recheckable t = false := by
  cases hr : (s.lane t).reqs <;> simp only [State.recheckable, h, hr]

/-- An empty lane where nothing moves, with the last front of lane t gone into the pass path: nothing moves there either. -/
theorem settled_enterPass {s : State} (r : Request) (b : Bool) (h : s.moves = []) : (s.enterPass r b).moves = [] := by
  have := (settled_iff s).mp h
  rw [settled_iff]
  exact this

theorem settled_emptyLane {s : State} {t : Tag} (h : s.moves = []) :
    (s.setLane t { reqs := [], outcome := none }).moves = [] := by
  refine settled_setLane h ?_ ?_
  · simp only [State.presentable, lane_setLane_self]
  · exact recheckable_fresh (by rw [lane_setLane_self])

/-- A lane whose front is classified, and not to be examined afresh, adds no move. -/
theorem settled_outcome {s : State} {t : Tag} {l : Lane} {m : Mode} {v : Verdict} (h : s.moves = [])
    (hl : l.outcome = some (m, v)) (hv : v ≠ .mirrorCheck .again) : (s.setLane t l).moves = [] := by
  have hout : ((s.setLane t l).lane t).outcome = some (m, v) := by rw [lane_setLane_self, hl]
  exact settled_setLane h (presentable_some hout) (recheckable_eq hout hv)

theorem verdict_ne_again (s : State) (r : Request) : s.verdict r ≠ .mirrorCheck .again := by
  intro h
  cases verdict_stage s r _ h

/-- Where nothing else moves, a front that is to be classified is classified, and that is all: it passes and leaves an
empty lane, or it stays with its outcome. -/
theorem flow_front {s : State} {t : Tag} {r : Request} {rest : List Request} (hm : s.moves = [])
    (hp : s.tagHeld t = false ∨ s.verdict r = .mirrorCheck .presented) :
    (s.verdict r = .pass → rest = [] → (s.setLane t { reqs := r :: rest, outcome := none }).flow =
      (s.setLane t { reqs := [], outcome := none }).enterPass r false) ∧
    (s.verdict r ≠ .pass → (s.setLane t { reqs := r :: rest, outcome := none }).flow =
      s.setLane t { reqs := r :: rest, outcome := some (s.ctl.mode, s.verdict r) }) := by
  have hlane : (s.setLane t { reqs := r :: rest, outcome := none }).lane t = { reqs := r :: rest, outcome := none } :=
    lane_setLane_self _ _ _
  have hpres : (s.setLane t { reqs := r :: rest, outcome := none }).presentable t = true := by
    rw [presentable_cons hlane]
    show (!s.tagHeld t || s.verdict r == .mirrorCheck .presented) = true
    rcases hp with hp | hp
    · rw [hp]; rfl
    · rw [hp, beq_self_eq_true, Bool.or_true]
  have hmoves := moves_one s t _ hm rfl hpres
  constructor
  · rintro hv rfl
    have hpresent : (s.setLane t { reqs := [r], outcome := none }).present t =
        (s.setLane t { reqs := [], outcome := none }).enterPass r false := by
      rw [present_pass (congrArg Lane.reqs hlane) hv, State.popLane, hlane, setLane_setLane]
      rfl
    rw [flow_one _ t hmoves (by rw [hpresent]; exact settled_enterPass r false (settled_emptyLane hm)), hpresent]
  · intro hv
    have hpresent : (s.setLane t { reqs := r :: rest, outcome := none }).present t =
        s.setLane t { reqs := r :: rest, outcome := some (s.ctl.mode, s.verdict r) } := by
      rw [present_stays (congrArg Lane.reqs hlane) hv, setLane_setLane]
      rfl
    rw [flow_one _ t hmoves (by rw [hpresent]; exact settled_outcome hm rfl (verdict_ne_again s r)), hpresent]

theorem setLane_eq_self {s : State} {t : Tag} {l : Lane} (h : s.lane t = l) : s.setLane t l = s := by
  rw [← h, setLane_same]

/-- A request that arrives at an empty lane is its front, to be classified. -/
theorem exec_upstream_empty {s : State} {r : Request} (hwf : r.wf = true)
    (h : s.lane r.tag = { reqs := [], outcome := none }) :
    exec (.upstreamRequest r) s = .next (s.setLane r.tag { reqs := [r], outcome := none }).flow := by
  rw [exec_upstream hwf, accept_room (by rw [h]; exact Nat.zero_lt_succ _), h,
    examine_fresh (by rw [lane_setLane_self])]
  rfl

/-! ## Classification again after a change of mode -/

/-- A write held under an outcome of another mode is classified again. -/
theorem examine_stale {s : State} {t : Tag} {m : Mode} {v : Verdict} (h : (s.lane t).outcome = some (m, v))
    (hm : m ≠ s.ctl.mode) (hv : ∀ g, v ≠ .mirrorCheck g) : s.examine t = (s.reopenLane t).flow := by
  have hre : v.reclassified = true := by
    cases v with
    | mirrorCheck g => exact absurd rfl (hv g)
    | pass => rfl
    | step f => rfl
    | consumedIndex n => rfl
  simp only [State.examine, h, hm, hre, decide_false, Bool.not_true, Bool.or_self, Bool.false_eq_true, if_false]

theorem takeStep_of_examined {s u : State} {t : Tag} (fits : StepFor → Request → Bool)
    (act : StepFor → State → Request → State × Request) (h : s.examine t = u.examine t) :
    s.takeStep t fits act = u.takeStep t fits act := by
  simp only [State.takeStep, h]

theorem takeStep_of_no_front {s : State} {t : Tag} {fits : StepFor → Request → Bool}
    {act : StepFor → State → Request → State × Request} (h : (s.examine t).front t = none) :
    s.takeStep t fits act = s.examine t := by
  simp only [State.takeStep, h]

/-- A row that takes a write from lane t does the same on states that examining the lane makes the same, and leaves an
examined lane without a classified front as it is. -/
theorem exec_of_examined {t : Tag} {c : Instr} (hc : c ∈ stepRows t ∨ c = .consumedIndexWrite t) (s : State) :
    (∀ u, s.examine t = u.examine t → exec c s = exec c u) ∧
    ((s.examine t).front t = none → exec c s = .next (s.examine t)) := by
  rcases hc with hc | rfl
  case inl =>
    obtain ⟨fits, act, hexec⟩ := stepRows_takeStep hc
    exact ⟨fun u h => by rw [hexec, hexec, takeStep_of_examined fits act h],
      fun h => by rw [hexec, takeStep_of_no_front h]⟩
  case inr =>
    exact ⟨fun u h => by simp only [exec, execConsumedIndexWrite, h],
      fun h => by simp only [exec, execConsumedIndexWrite, h]⟩

theorem front_emptyLane {s : State} {t : Tag} (h : (s.lane t).reqs = []) : s.front t = none := by
  simp only [State.front, h]

theorem enterPass_setLane_empty {s : State} {r : Request} {t : Tag} (h : s.lane t = { reqs := [], outcome := none }) :
    (s.setLane t { reqs := [], outcome := none }).enterPass r false =
      s.withPath { s.path with passPath := s.path.passPath ++ [{ req := r, acted := false }] } := by
  rw [setLane_eq_self h]
  rfl

/-- Settles O15: examining a front that is to be classified is one move, after which nothing moves. -/
theorem requestIsClassified : Obligations.RequestIsClassified := by
  refine ⟨fun s r hwf hm hl => ⟨fun hh hv => ?_, fun hv hh => ?_, fun hh hv => ?_⟩,
    fun s tag r rest m v c hc hm hh hl hmode hread => ?_, nothing_moves_iff, Flowed.tagHeld_iff⟩
  · rw [exec_upstream_empty hwf hl, (flow_front hm (.inl hh)).1 hv rfl, enterPass_setLane_empty hl]
  · rw [exec_upstream_empty hwf hl, (flow_front hm hh).2 hv]
  · have hstay : (s.setLane r.tag { reqs := [r], outcome := none }).moves = [] := by
      refine settled_setLane hm ?_ (recheckable_fresh (by rw [lane_setLane_self]))
      rw [presentable_cons (lane_setLane_self _ _ _)]
      show (!s.tagHeld r.tag || s.verdict r == .mirrorCheck .presented) = false
      rw [hh, beq_eq_false_iff_ne.mpr hv]
      rfl
    rw [exec_upstream_empty hwf hl, flow_of_settled _ hstay]
  · have hreopen : s.reopenLane tag = s.setLane tag { reqs := r :: rest, outcome := none } := by
      rw [State.reopenLane, hl]
    have hexamine := examine_stale (s := s) (t := tag) (by rw [hl]) hmode hread
    rw [hreopen] at hexamine
    refine ⟨fun hv => (exec_of_examined hc s).1 _ ?_, fun hv hrest => ?_⟩
    · rw [hexamine, (flow_front hm (.inl hh)).2 hv, examine_classified (v := s.verdict r) (by rw [lane_setLane_self]; rfl)]
    · rw [(flow_front hm (.inl hh)).1 hv hrest] at hexamine
      rw [(exec_of_examined hc s).2 (by rw [hexamine]; exact front_emptyLane (congrArg Lane.reqs (lane_setLane_self s _ _))),
        hexamine]
      rfl

end Sys2Proof.Machine
end

section
/-! Classification by area and mode (R8, R21, R22, TABLES 1-7 and 1-8): which areas a request is for, and what that makes of
it in each engine mode. -/

namespace Sys2Proof.Machine

/-! ## The form of a request (section 1.6) -/

theorem isWrite_iff (r : Request) : r.isWrite = true ↔ ∃ bs, r.body = .write bs := by
  cases h : r.body <;> simp [Request.isWrite, h]

theorem isWrite_of_fullAligned {r : Request} {n : Nat} (h : r.fullAligned n = true) : r.isWrite = true := by
  obtain ⟨bs, hb, _⟩ := (fullAligned_iff r n).mp h
  exact (isWrite_iff r).mpr ⟨bs, hb⟩

/-! ## The order of the tests -/

theorem verdict_inReset {s : State} (h : s.inReset = true) (r : Request) : s.verdict r = .pass := if_pos h

theorem mirrorRead_of_write {s : State} {r : Request} (h : r.isWrite = true) : s.mirrorRead r = false := by
  cases ha : s.ctl.anchor <;> simp [State.mirrorRead, ha, h]

theorem verdict_halted {s : State} {r : Request} (hw : r.isWrite = true) (h : s.ctl.mode = .halted) :
    s.verdict r = .pass := by
  simp [State.verdict, mirrorRead_of_write hw, h]

theorem verdict_read {s : State} {r : Request} (hr : s.inReset = false) (hw : r.isWrite = false) :
    s.verdict r = if s.mirrorRead r then .mirrorCheck .presented else .pass := by
  simp [State.verdict, hr, hw]

theorem verdict_write {s : State} {r : Request} (hr : s.inReset = false) (hw : r.isWrite = true)
    (hm : s.ctl.mode ≠ .halted) : s.verdict r = (s.stepFor r).verdict := by
  simp [State.verdict, hr, mirrorRead_of_write hw, hw, hm]

theorem isStep_iff (f : StepFor) :
    f.isStep = true ↔ f.anchor = true ∨ f.intake = true ∨ f.command = true ∨ f.window = true := by
  simp only [StepFor.isStep, Bool.or_eq_true, or_assoc]

theorem verdict_step {f : StepFor} (h : f.isStep = true) : f.verdict = .step f := if_pos h

theorem verdict_consumed {f : StepFor} (h : ¬f.isStep = true) {v : Nat} (hc : f.consumed = some v) :
    f.verdict = .consumedIndex v := by
  rw [StepFor.verdict, if_neg h, hc]

theorem verdict_neither {f : StepFor} (h : ¬f.isStep = true) (hc : f.consumed = none) : f.verdict = .pass := by
  rw [StepFor.verdict, if_neg h, hc]

/-! ## Without an anchor block -/

theorem anchorForm_detached {s : State} (h : s.ctl.mode = .detached) (r : Request) :
    s.anchorForm r = true ↔ r.fullAligned 64 = true ∧ r.addr = s.ctl.anchorAddr := by
  simp [State.anchorForm, State.admitsAnchor, h]

theorem portOf_no_rings {s : State} (h : ∀ p, s.ring p = none) (r : Request) : s.portOf r = none := by
  simp [State.portOf, State.inRingOf, h]

theorem stepFor_no_anchor {s : State} (ha : s.ctl.anchor = none) (hp : ∀ p, s.ring p = none) (r : Request) :
    s.stepFor r =
      { anchor := s.anchorForm r, intake := false, command := false, window := false, consumed := none } := by
  simp [State.stepFor, portOf_no_rings hp, State.commandForm, State.windowForm, State.consumedValue, ha]

theorem verdict_detached {s : State} (hr : s.inReset = false) (hm : s.ctl.mode = .detached) (ha : s.ctl.anchor = none)
    (hp : ∀ p, s.ring p = none) (r : Request) :
    (r.fullAligned 64 = true ∧ r.addr = s.ctl.anchorAddr →
      s.verdict r = .step { anchor := true, intake := false, command := false, window := false, consumed := none }) ∧
    (¬(r.fullAligned 64 = true ∧ r.addr = s.ctl.anchorAddr) → s.verdict r = .pass) := by
  rw [← anchorForm_detached hm]
  have hwrite (hw : r.isWrite = true) := verdict_write hr hw (by rw [hm]; nofun)
  rw [stepFor_no_anchor ha hp] at hwrite
  constructor
  · intro h
    rw [hwrite (isWrite_of_fullAligned ((anchorForm_detached hm r).mp h).1), h]
    rfl
  · intro h
    cases hw : r.isWrite with
    | true =>
      rw [hwrite hw, Bool.eq_false_of_not_eq_true h]
      rfl
    | false =>
      rw [verdict_read hr hw, show s.mirrorRead r = false by simp only [State.mirrorRead, ha]]
      rfl

/-! ## With an anchor block -/

theorem processorTag_eq {s : State} {a : Anchor} (ha : s.ctl.anchor = some a) (t : Tag) :
    s.processorTag t = a.procMask.getLsbD t := by
  simp only [State.processorTag, ha]

theorem mirrorRead_iff {s : State} {a : Anchor} {r : Request} (ha : s.ctl.anchor = some a) (hm : s.ctl.mode ≠ .detached)
    (hw : r.isWrite = false) : s.mirrorRead r = true ↔
      a.procMask.getLsbD r.tag = true ∧ r.overlaps a.mirrorBase.toNat 20496 = true := by
  have hsize : mirrorSize = 20496 := rfl
  simp [State.mirrorRead, ha, hm, hw, processorTag_eq ha, hsize]

theorem anchorForm_iff {s : State} {a : Anchor} {r : Request} (ha : s.ctl.anchor = some a)
    (hm : s.ctl.mode = .attached ∨ s.ctl.mode = .loading ∨ s.ctl.mode = .running) : s.anchorForm r = true ↔
      a.procMask.getLsbD r.tag = true ∧ r.fullAligned 64 = true ∧ r.addr = s.ctl.anchorAddr := by
  have hadmits : s.admitsAnchor r.tag = a.procMask.getLsbD r.tag := by
    rcases hm with hm | hm | hm <;> simp only [State.admitsAnchor, hm, processorTag_eq ha]
  rw [State.anchorForm, hadmits, Bool.and_eq_true, Bool.and_eq_true, beq_iff_eq]
  exact And.comm

theorem portOf_isSome_iff {s : State} {r : Request} (hw : r.isWrite = true) : (s.portOf r).isSome = true ↔
    ∃ p x, s.ring p = some x ∧ x.framer = r.tag ∧ r.overlaps x.base.toNat (16 * x.slots) = true := by
  rw [State.portOf, List.find?_isSome]
  refine ⟨fun ⟨p, _, h⟩ => ?_, fun ⟨p, x, hx, hf, ho⟩ => ⟨p, List.mem_finRange p, ?_⟩⟩
  · cases hx : s.ring p with
    | none => simp [State.inRingOf, hx] at h
    | some x =>
      simp only [State.inRingOf, hx, Bool.and_eq_true, beq_iff_eq] at h
      exact ⟨p, x, hx, h.1.2, h.2⟩
  · simp only [State.inRingOf, hx, hw, hf, beq_self_eq_true, Bool.and_self, Bool.true_and]
    exact ho

theorem commandForm_iff {s : State} {a : Anchor} {r : Request} (ha : s.ctl.anchor = some a) : s.commandForm r = true ↔
    a.procMask.getLsbD r.tag = true ∧ r.fullAligned 32 = true ∧ byteAt r.bytes 0 = 1 ∧ a.cmdBase.toNat ≤ r.addr.toNat ∧
      r.addr.toNat + 32 ≤ a.cmdBase.toNat + 32 * a.cmdSlots := by
  simp only [State.commandForm, ha, processorTag_eq ha, Bool.and_eq_true, beq_iff_eq, decide_eq_true_eq, and_assoc]
  rfl

theorem windowForm_iff {s : State} {a : Anchor} {r : Request} (ha : s.ctl.anchor = some a) (hw : r.isWrite = true) :
    s.windowForm r = true ↔ s.ctl.mode = .loading ∧ a.procMask.getLsbD r.tag = true ∧
      r.overlaps a.windowBase.toNat 4096 = true := by
  simp only [State.windowForm, ha, processorTag_eq ha, hw, Bool.and_eq_true, beq_iff_eq, and_assoc, true_and]
  rfl

theorem consumedValue_eq {s : State} {a : Anchor} (ha : s.ctl.anchor = some a) (r : Request) :
    (a.procMask.getLsbD r.tag = true ∧ (∀ k < 4, r.enables (a.consumedAddr.toNat + k) = true) →
      s.consumedValue r = some (leAt r.bytes (a.consumedAddr.toNat - r.addr.toNat) 4)) ∧
    (¬(a.procMask.getLsbD r.tag = true ∧ ∀ k < 4, r.enables (a.consumedAddr.toNat + k) = true) →
      s.consumedValue r = none) := by
  have hword : (s.processorTag r.tag && r.enables a.consumedAddr.toNat && r.enables (a.consumedAddr.toNat + 1) &&
      r.enables (a.consumedAddr.toNat + 2) && r.enables (a.consumedAddr.toNat + 3)) = true ↔
      a.procMask.getLsbD r.tag = true ∧ ∀ k < 4, r.enables (a.consumedAddr.toNat + k) = true := by
    simp only [processorTag_eq ha, Bool.and_eq_true, and_assoc]
    refine and_congr_right fun _ => ⟨fun ⟨h0, h1, h2, h3⟩ k hk => ?_, fun h => ⟨h 0 (by decide), h 1 (by decide),
      h 2 (by decide), h 3 (by decide)⟩⟩
    match k, hk with
    | 0, _ => exact h0
    | 1, _ => exact h1
    | 2, _ => exact h2
    | 3, _ => exact h3
  rw [← hword]
  simp only [State.consumedValue, ha]
  exact ⟨fun h => if_pos h, fun h => if_neg h⟩

/-- Settles O16: the tests of `State.verdict` in their order, and each area's test as the statement names the area. -/
theorem classificationByMode : Obligations.ClassificationByMode := by
  refine ⟨fun s r h => verdict_inReset h r, fun s r => verdict_halted, fun s r hr hm ha hp => verdict_detached hr hm ha hp r,
    fun s r a hr ha hm hw => ?_, fun s r a hr ha hm hw => ?_, fun r n => ⟨isWrite_iff r, fullAligned_iff r n⟩⟩
  · rw [← mirrorRead_iff ha hm hw, verdict_read hr hw]
    exact ⟨fun h => if_pos h, fun h => if_neg h⟩
  · dsimp only
    rw [verdict_write hr hw (by rcases hm with hm | hm | hm <;> rw [hm] <;> nofun), ← anchorForm_iff ha hm,
      ← portOf_isSome_iff hw, ← commandForm_iff ha, ← windowForm_iff ha hw]
    obtain ⟨hvalue, hnone⟩ := consumedValue_eq ha r
    have hstep := isStep_iff (s.stepFor r)
    refine ⟨fun h => ⟨s.stepFor r, verdict_step (hstep.mpr h), Iff.rfl, Iff.rfl, Iff.rfl, Iff.rfl, hvalue, hnone⟩,
      fun h => ⟨fun hw => verdict_consumed (mt hstep.mp h) (hvalue hw), fun hw => verdict_neither (mt hstep.mp h) (hnone hw)⟩⟩

end Sys2Proof.Machine
end

section
/-! The mirror writer: its two candidates (R16, R157, R158), what a granted write changes, and the sixteen bytes of each
record (R151 to R154, TABLE 13-6). -/

namespace Sys2Proof.Machine

/-! ## The candidates -/

theorem mirrorOn_false {s : State} (h : s.inReset = true ∨ s.ctl.mode = .detached ∨ s.ctl.anchor = none) :
    s.mirrorOn = false := by
  rcases h with h | h | h <;> simp [State.mirrorOn, h]

theorem drainNext_on {s : State} (h : s.mirrorOn = true) :
    s.drainNext = (s.mirror.dirty.find? (fun i => decide (s.mirror.cursor ≤ i))).or s.mirror.dirty.head? := by
  rw [State.drainNext, if_pos h]
  cases s.mirror.dirty.find? (fun i => decide (s.mirror.cursor ≤ i)) <;> rfl

/-- The lowest dirty record at or above the cursor, else the lowest. -/
theorem drainNext_lowest {s : State} (h : s.mirrorOn = true) (hs : s.mirrorSound) (hd : s.mirror.dirty ≠ []) :
    ∃ i ∈ s.mirror.dirty, s.drainNext = some i ∧
      ((s.mirror.cursor ≤ i ∧ ∀ j ∈ s.mirror.dirty, s.mirror.cursor ≤ j → i ≤ j) ∨
        ((∀ j ∈ s.mirror.dirty, j < s.mirror.cursor) ∧ ∀ j ∈ s.mirror.dirty, i ≤ j)) := by
  rw [drainNext_on h]
  cases hf : s.mirror.dirty.find? (fun i => decide (s.mirror.cursor ≤ i)) with
  | some i =>
    obtain ⟨hi, hle, hlow⟩ := find?_rising _ _ hs.1 i hf
    exact ⟨i, hi, rfl, .inl ⟨hle, hlow⟩⟩
  | none =>
    have hbelow : ∀ j ∈ s.mirror.dirty, j < s.mirror.cursor := fun j hj => by
      simpa using List.find?_eq_none.mp hf j hj
    obtain ⟨i, rest, e⟩ := List.exists_cons_of_ne_nil hd
    have hrise := List.pairwise_cons.mp (e ▸ hs.1)
    refine ⟨i, e ▸ List.mem_cons_self, by rw [e]; rfl, .inr ⟨hbelow, fun j hj => ?_⟩⟩
    rcases List.mem_cons.mp (e ▸ hj) with rfl | hj
    · exact Nat.le_refl _
    · exact Nat.le_of_lt (hrise.1 j hj)

/-- The lowest record that a held read needs a write of. -/
def HeldRead.needed (h : HeldRead) : Option Nat := (h.awaits.find? (fun x => x.2 == .needsWrite)).map (fun x => x.1)

theorem heldWrite_on {s : State} (h : s.mirrorOn = true) : s.heldWrite = s.path.held.findSome? HeldRead.needed := if_pos h

theorem needed_none {h : HeldRead} (hn : ∀ x ∈ h.awaits, x.2 ≠ .needsWrite) : h.needed = none := by
  rw [HeldRead.needed, Option.map_eq_none_iff, List.find?_eq_none]
  exact fun x hx => by simpa using hn x hx

theorem needed_lowest {h : HeldRead} {i : Nat} (hs : h.awaits.Pairwise (fun x y => x.1 < y.1))
    (hi : (i, .needsWrite) ∈ h.awaits) (hlow : ∀ j, (j, .needsWrite) ∈ h.awaits → i ≤ j) : h.needed = some i := by
  cases hf : h.awaits.find? (fun x => x.2 == .needsWrite) with
  | none => exact absurd (List.find?_eq_none.mp hf _ hi) (by simp)
  | some x =>
    obtain ⟨hx, before, after, e, hno⟩ := List.find?_eq_some_iff_append.mp hf
    obtain ⟨j, w⟩ := x
    obtain rfl : w = .needsWrite := by simpa using hx
    have hle : i ≤ j := hlow j (List.mem_of_find?_eq_some hf)
    rw [e] at hi hs
    -- the record found is the first that needs a write, so record i does not stand before it
    have hij : i = j := by
      rcases List.mem_append.mp hi with hi | hi
      · simpa using hno _ hi
      · rcases List.mem_cons.mp hi with hi | hi
        · exact congrArg Prod.fst hi
        · have hlt := (List.pairwise_cons.mp (List.pairwise_append.mp hs).2.1).1 _ hi
          exact absurd hlt (Nat.not_lt.mpr hle)
    rw [HeldRead.needed, hf, hij]
    rfl

/-- Settles O17. -/
theorem mirrorCandidates : Obligations.MirrorCandidates := by
  refine ⟨fun s h => ?_, fun s h1 h2 h3 hs => ⟨fun hd => ?_, drainNext_lowest (mirrorOn_true h1 h2 h3) hs⟩, fun s h => ?_,
    fun s older h younger i h1 h2 h3 hs e hold hi hlow => ?_⟩
  · have hoff : ¬s.mirrorOn = true := by rw [mirrorOn_false h]; exact Bool.false_ne_true
    exact ⟨if_neg hoff, if_neg hoff⟩
  · rw [drainNext_on (mirrorOn_true h1 h2 h3), hd]
    rfl
  · rw [State.heldWrite]
    split
    · exact List.findSome?_eq_none_iff.mpr fun h' hh => needed_none (h h' hh)
    · rfl
  · have hneed : h.needed = some i := by
      refine needed_lowest (hs.2.2.2.2.2.1 h ?_) hi hlow
      rw [e]
      exact List.mem_append_right _ List.mem_cons_self
    rw [heldWrite_on (mirrorOn_true h1 h2 h3), e, List.findSome?_append,
      List.findSome?_eq_none_iff.mpr fun g hg => needed_none (hold g hg), List.findSome?_cons, hneed]
    rfl

/-! ## A mirror write granted -/

theorem exec_grant (s : State) : exec .downstreamGrant s = .next s.grant := rfl

theorem grant_working {s : State} (h : s.inReset = false) : s.grant =
    match s.heldWrite, s.drainNext with
    | some i, _ => s.grantRecord i
    | none, some i => if s.path.passRun = Config.passRunMax then s.grantDrain i else s.grantOwnFirst
    | none, none => s.grantOwnFirst :=
  if_neg (by rw [h]; exact Bool.false_ne_true)

theorem grant_held {s : State} {i : Nat} (hr : s.inReset = false) (h : s.heldWrite = some i) :
    s.grant = s.grantRecord i := by
  rw [grant_working hr, h]

/-- The pass path goes before the drain, except at the end of a pass run, and so do own writes. -/
theorem grant_drain {s : State} {i : Nat} (hr : s.inReset = false) (hh : s.heldWrite = none) (hd : s.drainNext = some i)
    (h : s.path.passRun = 16 ∨ (s.path.passPath = [] ∧ s.ownNext = none)) : s.grant = s.grantDrain i := by
  have hmax : Config.passRunMax = 16 := rfl
  rw [grant_working hr, hh, hd]
  dsimp only
  rcases h with h | ⟨hp, ho⟩
  · rw [if_pos (h.trans hmax.symm)]
  · split
    · rfl
    · simp only [State.grantOwnFirst, State.grantPassFirst, State.grantRest, ho, hp, hd]

theorem setIfInBounds_eq_set {α : Type} {n i : Nat} (v : Vector α n) (x : α) (h : i < n) :
    v.setIfInBounds i x = v.set i x h :=
  Vector.ext fun j hj => by rw [Vector.getElem_setIfInBounds, Vector.getElem_set]

theorem grantRecord_eq {s : State} {a : Anchor} {i : Nat} (hi : i < 1281) (ha : s.ctl.anchor = some a) :
    s.grantRecord i = { s with
      mirror := { s.mirror with dirty := s.mirror.dirty.erase i, counts := s.mirror.counts.set i (s.mirror.counts[i] + 1),
                                inFlight := s.mirror.inFlight ++ [i] },
      path := { s.path with
        passRun := 0,
        issued := s.path.issued ++ [.mirror i
          { addr := a.mirrorBase + BitVec.ofNat 40 (16 * i), tag := a.ownTag,
            body := .write (fullBeats (s.recordBytes i (s.mirror.counts[i] + 1))) } false false],
        held := s.path.held.map (HeldRead.granted i (s.mirror.inFlight.count i + 1)) } } := by
  simp only [State.grantRecord, ha, State.grantMirror, counts_get _ i hi, setIfInBounds_eq_set _ _ hi, State.mirrorRequest,
    fullWrite]

theorem cursor_next {i : Nat} (hi : i < 1281) :
    (if i + 1 < Config.mirrorRecords then i + 1 else 0) = if i = 1280 then 0 else i + 1 := by
  have hn : Config.mirrorRecords = 1281 := rfl
  split <;> split <;> omega

/-! ## The sixteen bytes of a record -/

theorem riser_record (n : Fin 32) : (GroupId.riser n).record = 1152 + n.val := by
  show 1024 + (128 + n.val) = _
  omega

theorem zone_record (n : Fin 64) : (GroupId.zone n).record = 1200 + n.val := by
  show 1024 + (176 + n.val) = _
  omega

theorem recordBytes_term (s : State) (n : Fin 1024) (count : BitVec 8) :
    s.recordBytes n.val count = leBytes 1 count.toNat ++ (s.term n).mirrorBytes := by
  rw [State.recordBytes, if_pos n.isLt, Fin.ofNat_val_eq_self, cons_field]

theorem recordBytes_group_field (s : State) (g : GroupId) (count : BitVec 8) :
    s.recordBytes g.record count = leBytes 1 count.toNat ++ s.groupBytes g := by
  rw [recordBytes_group, cons_field]

theorem recordBytes_tally (s : State) (p : Fin 16) (count : BitVec 8) :
    s.recordBytes (1264 + p.val) count = leBytes 1 count.toNat ++ s.tallyBytes p := by
  have h1 : ¬1264 + p.val < 1024 := by omega
  have h2 : ¬1264 + p.val < 1264 := by omega
  have h3 : 1264 + p.val < 1280 := by omega
  rw [State.recordBytes, if_neg h1, if_neg h2, if_pos h3, Nat.add_sub_cancel_left, Fin.ofNat_val_eq_self, cons_field]

theorem recordBytes_summary (s : State) (count : BitVec 8) :
    s.recordBytes 1280 count = leBytes 1 count.toNat ++ s.summaryBytes := by
  rw [State.recordBytes, if_neg (by decide), if_neg (by decide), if_neg (by decide), cons_field]

theorem length_mirrorBytes (t : Terminal) : t.mirrorBytes.length = 15 := by
  simp only [Terminal.mirrorBytes, List.length_append, length_leBytes, Nat.reduceAdd]

theorem length_groupBytes (s : State) (g : GroupId) : (s.groupBytes g).length = 15 := by
  simp only [State.groupBytes, List.length_append, length_leBytes, zeros_two, Nat.reduceAdd]

theorem length_tallyBytes (s : State) (p : Fin 16) : (s.tallyBytes p).length = 15 := by
  simp only [State.tallyBytes, List.length_append, length_leBytes, Nat.reduceAdd]

theorem length_summaryBytes (s : State) : s.summaryBytes.length = 15 := by
  simp only [State.summaryBytes, List.length_append, length_leBytes, Nat.reduceAdd]

theorem length_recordBytes (s : State) (i : Nat) (count : BitVec 8) : (s.recordBytes i count).length = 16 := by
  rw [State.recordBytes, List.length_cons]
  split
  · rw [length_mirrorBytes]
  · split
    · rw [length_groupBytes]
    · split
      · rw [length_tallyBytes]
      · rw [length_summaryBytes]

theorem recordBytes_count (s : State) (i : Nat) (count : BitVec 8) : Holds (s.recordBytes i count) 0 1 count.toNat := by
  rw [State.recordBytes, cons_field]
  exact holds_here _ _ _

theorem mirrorBytes_held (count : Nat) (t : Terminal) : TerminalHeld (leBytes 1 count ++ t.mirrorBytes) t := by
  have hdist : t.distance = t.deadline.elim 0 (fun x => (x - t.lastChange).toNat) := by
    unfold Terminal.distance
    cases t.deadline <;> rfl
  cases htag : t.lastTag <;>
    (simp only [TerminalHeld, Terminal.mirrorBytes, List.append_assoc, code_tstate, code_disp, bit_eq, hdist, htag,
      timeOr0_elim, Terminal.markTime, Option.elim_none, Option.elim_some]
     simp (disch := omega) only [holds_skip, holds_here, holds_last, Nat.reduceSub, and_self])

theorem group_held (s : State) (g : GroupId) (count : BitVec 8) :
    GroupHeld (s.recordBytes g.record count) s g (Group.listShown g (s.group g)) := by
  rw [recordBytes_group_field]
  simp only [GroupHeld, State.groupBytes, List.append_assoc, code_gstate, bit_eq, zeros_two, timeOr0_elim]
  simp (disch := omega) only [holds_skip, holds_here, holds_last, Nat.reduceSub, and_self]

theorem tally_held (s : State) (p : Fin 16) (count : BitVec 8) :
    TallyHeld (s.recordBytes (1264 + p.val) count) (s.ring p) (s.faultMark p) (s.tally p) := by
  rw [recordBytes_tally]
  simp only [TallyHeld, State.tallyBytes, List.append_assoc, code_ring, bit_eq]
  simp (disch := omega) only [holds_skip, holds_here, holds_last, Nat.reduceSub, and_self]

theorem summary_held (s : State) (count : BitVec 8) : SummaryHeld (s.recordBytes 1280 count) s := by
  rw [recordBytes_summary]
  simp only [SummaryHeld, State.summaryBytes, List.append_assoc, code_mode, bit_eq]
  simp (disch := omega) only [holds_skip, packed_skip, holds_here, holds_last, Nat.reduceSub, and_self, and_true, true_and]
  exact packed_here 6 11 _ _ (by simp)

/-- Settles O18: the grant by TABLE 1-10, the bytes by kind of record. -/
theorem mirrorWriteGranted : Obligations.MirrorWriteGranted := by
  refine ⟨fun s a i hi hr ha => ⟨fun h => ?_, fun hh hd h => ?_⟩, fun s i count hi => ?_,
    fun h i j k w => ⟨rfl, mem_granted h i j k w⟩, fun b hb => fullBeats_bytes b 2 hb⟩
  · rw [exec_grant, grant_held hr h, grantRecord_eq hi ha]
  · rw [exec_grant, grant_drain hr hh hd h, State.grantDrain, grantRecord_eq hi ha, cursor_next hi]
  · refine ⟨length_recordBytes s i count, recordBytes_count s i count, ?_, ?_, ?_, ?_, ?_, ?_, ?_⟩
    · rintro n rfl; exact recordBytes_term s n count ▸ mirrorBytes_held _ _
    · rintro n rfl; exact group_held s (.tap n) count
    · rintro n rfl; exact riser_record n ▸ group_held s (.riser n) count
    · rintro n rfl; exact port_record n ▸ group_held s (.port n) count
    · rintro n rfl; exact zone_record n ▸ group_held s (.zone n) count
    · rintro p rfl; exact tally_held s p count
    · rintro rfl; exact summary_held s count

end Sys2Proof.Machine
end

section
/-! The other grants of TABLE 1-10, the fence (R19), and what the part's own writes hold (R18, R134, R162, R188, R189). -/

namespace Sys2Proof.Machine

/-! ## Grants -/

/-- Where no mirror write goes first, own writes and passing traffic are looked at (ranks 3 to 6). -/
theorem grant_others {s : State} (hr : s.inReset = false) (hh : s.heldWrite = none)
    (h : ¬(s.drainNext ≠ none ∧ s.path.passRun = 16)) : s.grant = s.grantOwnFirst := by
  rw [grant_working hr, hh]
  cases hd : s.drainNext with
  | none => rfl
  | some i => exact if_neg fun hrun => h ⟨by rw [hd]; nofun, hrun⟩

theorem grantOwnFirst_own {s : State} {w : OwnWrite} (ho : s.ownNext = some w)
    (h : 32 ≤ s.rw.queue.length ∨ s.path.passPath = []) : s.grantOwnFirst = s.grantOwn w := by
  rw [State.grantOwnFirst, ho]
  dsimp only
  split
  · rfl
  · next hn =>
    have hp : s.path.passPath = [] := h.resolve_left hn
    simp only [State.grantPassFirst, hp, State.grantRest, ho]

theorem grantOwnFirst_pass {s : State} {e : PassEntry} {rest : List PassEntry} (hp : s.path.passPath = e :: rest)
    (h : s.ownNext = none ∨ s.rw.queue.length < 32) : s.grantOwnFirst = s.grantPass e := by
  have hpass : s.grantPassFirst = s.grantPass e := by simp only [State.grantPassFirst, hp]
  rw [State.grantOwnFirst]
  cases ho : s.ownNext with
  | none => exact hpass
  | some w =>
    have hlow : ¬Config.queueHigh ≤ s.rw.queue.length := Nat.not_le.mpr (h.resolve_left (by rw [ho]; nofun))
    exact (if_neg hlow).trans hpass

theorem grantOwnFirst_nothing {s : State} (hp : s.path.passPath = []) (ho : s.ownNext = none) (hd : s.drainNext = none) :
    s.grantOwnFirst = s := by
  simp only [State.grantOwnFirst, State.grantPassFirst, State.grantRest, hp, ho, hd]

theorem grantOwn_eq {s : State} {w : OwnWrite} {rest : List OwnWrite} (h : s.rw.queue = w :: rest) :
    s.grantOwn w = { s with
      rw := { s.rw with queue := rest },
      path := { s.path with issued := s.path.issued ++ [.own (s.ownRequest w) false] } } := by
  rw [State.grantOwn, h]
  rfl

theorem grantPass_eq {s : State} {e : PassEntry} {rest : List PassEntry} (h : s.path.passPath = e :: rest) :
    s.grantPass e = s.withPath { s.path with
      passPath := rest, issued := s.path.issued ++ [.pass e.req e.acted none],
      passRun := if s.mirror.dirty = [] then s.path.passRun else min (s.path.passRun + 1) 16 } := by
  rw [State.grantPass, h]
  cases s.mirror.dirty <;> rfl

theorem grant_inReset {s : State} (h : s.inReset = true) : s.grant =
    match s.path.passPath with
    | e :: _ => s.grantPass e
    | [] => s :=
  if_pos h

/-! ## The fence -/

theorem actedPending_iff (x : Issued) (r : Request) : x.actedPending = some r ↔ x = .pass r true none := by
  rcases x with ⟨q, acted, answer⟩ | ⟨q, a⟩ | ⟨i, q, st, a⟩
  · cases acted <;> cases answer <;> simp [Issued.actedPending]
  · simp [Issued.actedPending]
  · simp [Issued.actedPending]

theorem mem_actedWrites (s : State) (r : Request) : r ∈ s.actedWrites ↔
    ({ req := r, acted := true } : PassEntry) ∈ s.path.passPath ∨ .pass r true none ∈ s.path.issued := by
  rw [State.actedWrites, List.mem_append, List.mem_map, List.mem_filterMap]
  refine or_congr ⟨?_, fun h => ⟨_, List.mem_filter.mpr ⟨h, rfl⟩, rfl⟩⟩
    ⟨?_, fun h => ⟨_, h, (actedPending_iff _ _).mpr rfl⟩⟩
  · rintro ⟨⟨q, acted⟩, he, rfl⟩
    obtain ⟨he, hacted⟩ := List.mem_filter.mp he
    obtain rfl : acted = true := hacted
    exact he
  · rintro ⟨x, hx, h⟩
    exact (actedPending_iff x r).mp h ▸ hx

theorem fenced_iff {s : State} {w : OwnWrite} (h : w.isHeadGasp = false) : s.fenced w = true ↔
    ∃ r : Request, r.overlaps (s.ownRequest w).addr.toNat (s.ownRequest w).size = true ∧
      (({ req := r, acted := true } : PassEntry) ∈ s.path.passPath ∨ .pass r true none ∈ s.path.issued) := by
  simp only [State.fenced, h, Bool.not_false, Bool.true_and, List.any_eq_true, mem_actedWrites, and_comm]

theorem ownNext_cons {s : State} {w : OwnWrite} {rest : List OwnWrite} (h : s.rw.queue = w :: rest) :
    s.ownNext = if s.fenced w then none else some w := by
  simp only [State.ownNext, h]

/-- Settles O20. -/
theorem fenceHoldsOwnWrite : Obligations.FenceHoldsOwnWrite := by
  intro s w rest hq
  rw [ownNext_cons hq]
  refine ⟨fun h => ?_, fun h => if_neg ?_⟩
  · rw [← fenced_iff h]
    exact ⟨fun hf => if_pos hf, fun hf => if_neg hf⟩
  · simp [State.fenced, h]

/-! ## Own writes as requests -/

theorem ownTagFor_adopted {s : State} {a : Anchor} (h : s.ctl.anchor = some a) (w : OwnWrite) :
    s.ownTagFor w = a.ownTag := by
  simp only [State.ownTagFor, h]

theorem tag_ownRequest (s : State) (w : OwnWrite) : (s.ownRequest w).tag = s.ownTagFor w := by
  cases w <;> rfl

theorem length_reportBytes (r : Report) : r.bytes.length = 32 := by
  simp only [Report.bytes, List.length_append, length_leBytes, length_padTo _ _ (payload_length _), Nat.reduceAdd]

/-- A full write of 32 bytes: four beats with every byte enabled. -/
theorem fullWrite_holds (addr : Addr) (t : Tag) {b : List Byte} (h : b.length = 32) :
    (fullWrite addr t b).addr = addr ∧ (fullWrite addr t b).isWrite = true ∧ (fullWrite addr t b).beats.length = 4 ∧
      (∀ e ∈ (fullWrite addr t b).beats, e.enable = 0xFF#8) ∧ (fullWrite addr t b).bytes = b := by
  obtain ⟨hbytes, hlen, hen⟩ := fullBeats_bytes b 4 h
  exact ⟨rfl, rfl, hlen, hen, hbytes⟩

theorem length_ackBytes (x : AckWord) : (zeros 4 ++ x.bytes).length = 8 := by
  simp only [AckWord.bytes, List.length_append, length_leBytes, zeros, List.length_replicate, Nat.reduceAdd]

theorem bytes_ackWrite (addr : Addr) (t : Tag) (x : AckWord) : (ackWrite addr t x).bytes = zeros 4 ++ x.bytes := by
  rw [ackWrite, Request.bytes, Request.beats, List.flatMap_map]
  exact (fullBeats_bytes _ 1 (length_ackBytes x)).1

theorem enables_ackWrite (addr : Addr) (t : Tag) (x : AckWord) :
    (ackWrite addr t x).beats.map (fun e => e.enable) = [0xF0#8] := by
  obtain ⟨e, he⟩ := List.length_eq_one_iff.mp (fullBeats_bytes _ 1 (length_ackBytes x)).2.1
  rw [ackWrite, Request.beats, he]
  rfl

theorem zeros_four : zeros 4 = leBytes 4 0 := rfl

theorem ackWrite_holds (addr : Addr) (t : Tag) (x : AckWord) :
    Holds (ackWrite addr t x).bytes 4 1 (if x.adopted = true then 1 else 2) ∧
      Holds (ackWrite addr t x).bytes 5 1
        ([AckReason.none, .mark, .version, .check, .align, .size, .tag, .overlap, .busyMode].idxOf x.reason) ∧
      Holds (ackWrite addr t x).bytes 6 2 x.firstSlot := by
  rw [bytes_ackWrite, AckWord.bytes, code_ack, zeros_four, List.append_assoc]
  simp (disch := omega) only [holds_skip, holds_here, holds_last, Nat.reduceSub, and_self]

/-! ## The bytes of a report and of a write-back -/

theorem report_payload (r : Report) : PayloadHeld r.bytes r.payload := by
  rw [Report.bytes]
  -- each kind's fields follow the header of sixteen bytes; those of one byte or two stand where the fields before them end
  cases r.payload
  all_goals
    simp only [PayloadHeld, Payload.code, Payload.used, padTo, SyncFlags.code, List.append_assoc, List.nil_append, code_mode,
      code_outage, code_raise, code_line, code_fault, code_kind, code_code, bit_eq]
    simp (disch := omega) only [holds_skip, packed_skip, blank_skip, holds_here, Nat.reduceSub, blank_zeros, and_self,
      and_true, true_and]
  case sync => exact packed_here 7 11 _ _ (by simp)
  case terminalsDown c ns => exact fun hns => packed_here 10 10 _ _ (by rw [List.length_map]; omega)

theorem byteAt_map_range' (slot : List Byte) {k : Nat} (hk : k < 27) (c : List Byte) :
    byteAt ((List.range' 1 27).map (fun j => slot.getD j 0) ++ c) k = byteAt slot (k + 1) := by
  have hlt : k < ((List.range' 1 27).map (fun j => slot.getD j 0)).length := by simpa using hk
  rw [byteAt, byteAt, List.getD_append _ _ _ _ hlt, List.getD_eq_getElem _ _ hlt, List.getElem_map, List.getElem_range',
    Nat.one_mul, Nat.add_comm]

theorem writeBack_holds (slot : List Byte) (st : SlotState) (code : Code) (overwritten : Bool) (data : Nat) :
    let b := writeBackBytes slot st code overwritten data
    b.length = 32 ∧ Holds b 0 1 (2 + [SlotState.queued, .done, .refused, .failed].idxOf st) ∧
    (∀ k, 1 ≤ k → k ≤ 27 → byteAt b k = byteAt slot k) ∧ Holds b 28 1 (resultOf code) ∧
    Holds b 29 1 (mark01 overwritten) ∧ Holds b 30 2 data := by
  have hkept : ((List.range' 1 27).map (fun j => slot.getD j 0)).length = 27 := by simp
  have htail : ∀ c k n v, 28 ≤ k →
      (Holds (leBytes 1 st.code ++ ((List.range' 1 27).map (fun j => slot.getD j 0) ++ c)) k n v ↔ Holds c (k - 28) n v) := by
    intro c k n v hk
    rw [holds_skip _ _ _ _ _ _ (by omega), Holds, leAt_append _ _ _ _ (by omega), hkept, Nat.sub_sub]
    rfl
  simp only [writeBackBytes, List.append_assoc, code_code, bit_eq]
  refine ⟨by simp [length_leBytes], code_slot st ▸ holds_here _ _ _, fun k h1 h2 => ?_, ?_⟩
  · rw [byteAt_append _ _ _ (by rw [length_leBytes]; exact h1), length_leBytes, byteAt_map_range' slot (by omega),
      Nat.sub_add_cancel h1]
  · simp (disch := omega) only [htail, holds_skip, holds_here, holds_last, Nat.reduceSub, and_self]

/-- Settles O19. -/
theorem ownAndPassingGrants : Obligations.OwnAndPassingGrants := by
  refine ⟨fun s => ⟨fun hr hh hd w rest hq ho h => ?_, fun hr hh hd e rest hp h => ?_, fun hr hh hd ho hp => ?_,
      fun hr => ⟨fun e rest hp => ?_, fun hp => ?_⟩⟩,
    fun s w => ⟨fun a ha => (tag_ownRequest s w).trans (ownTagFor_adopted ha w), ?_, ?_, ?_, ?_⟩, fun r => ?_, writeBack_holds⟩
  · rw [exec_grant, grant_others hr hh hd, grantOwnFirst_own ho h, grantOwn_eq hq]
  · rw [exec_grant, grant_others hr hh hd, grantOwnFirst_pass hp h, grantPass_eq hp]
  · rw [exec_grant, grant_others hr hh fun h => h.1 hd, grantOwnFirst_nothing hp ho hd]
  · rw [exec_grant, grant_inReset hr, hp]
    exact congrArg _ (grantPass_eq hp)
  · rw [exec_grant, grant_inReset hr, hp]
  · rintro addr x t rfl ha
    simp only [tag_ownRequest, State.ownTagFor, ha]
  · rintro addr r rfl
    exact fullWrite_holds addr _ (length_reportBytes r)
  · rintro addr b rfl hb
    exact fullWrite_holds addr _ hb
  · rintro addr x t rfl
    exact ⟨rfl, rfl, enables_ackWrite _ _ _, ackWrite_holds _ _ _⟩
  · refine ⟨length_reportBytes r, ?_, ?_, ?_, ?_, ?_, report_payload r⟩
    all_goals
      simp only [Report.bytes, List.append_assoc, code_source]
      simp (disch := omega) only [holds_skip, holds_here, Nat.reduceSub]

end Sys2Proof.Machine
end

section
/-! Memory's answers (R5, R15, R20, R159): to a passing request, to an own write and to a mirror write. -/

namespace Sys2Proof.Machine

/-! ## Passing requests -/

/-- Memory's answer to the passing request behind `before`: recorded, and then what its tag may return is returned. -/
theorem memoryResponse_at {s : State} {before later : List Issued} {r : Request} {acted : Bool} (resp : Resp)
    (data : List Byte) (h : s.path.issued = before ++ .pass r acted none :: later) :
    let given := if r.isWrite then [] else data
    let answered := before ++ .pass r acted (some (resp, given)) :: later
    exec (.memoryResponse (before.countP Issued.unanswered) resp data) s =
      .next (s.withPath { s.path with
        issued := (returnable r.tag answered).2, responses := (returnable r.tag answered).1 }) := by
  simp only [exec, execMemoryResponse, State.memoryAnswer, h, answerPass_at]
  rfl

/-- The answer to the oldest request of its tag is returned, and behind it what else its tag may return. -/
theorem returnable_oldest {before later : List Issued} {r : Request} {acted : Bool} {resp : Resp} {data : List Byte}
    (h : ∀ x ∈ before, x.ofTag r.tag = false) :
    returnable r.tag (before ++ .pass r acted (some (resp, data)) :: later) =
      ({ tag := r.tag, resp := resp, data := data } :: (returnable r.tag later).1,
        before ++ (returnable r.tag later).2) := by
  rw [returnable_append _ _ _ h, returnable, if_pos rfl]

/-- Settles O21. -/
theorem responsesInTagOrder : Obligations.ResponsesInTagOrder := by
  intro s before later r acted resp data h
  dsimp only
  rw [memoryResponse_at resp data h]
  refine ⟨fun hno => ?_, fun x hfind hx => ?_, fun ready rest hbefore hlater hready hrest => ?_⟩
  · rw [returnable_oldest fun x hx => hno x (List.mem_append_left _ hx),
      returnable_none _ _ fun x hx => hno x (List.mem_append_right _ hx)]
  · rw [returnable_blocked _ _ _ ⟨x, hfind, hx⟩]
  · rw [returnable_oldest hbefore, hlater, returnable_answered _ _ _ hready, returnable_waits _ _ hrest, List.append_nil,
      List.append_assoc]

/-! ## Own writes -/

theorem sat16_below {n : Nat} (h : n < 65535) : sat16 n = n + 1 := if_pos h

theorem sat16_full {n : Nat} (h : n = 65535) : sat16 n = n := if_neg (by rw [h]; decide)

theorem countFailedWrite_below {s : State} (h : s.rw.failedWrites < 65535) :
    s.countFailedWrite = { s with rw := { s.rw with failedWrites := s.rw.failedWrites + 1 } }.mark 1280 := by
  have hne : (s.rw.failedWrites + 1 != s.rw.failedWrites) = true := bne_iff_ne.mpr (by omega)
  rw [State.countFailedWrite, sat16_below h, hne]
  rfl

theorem countFailedWrite_full {s : State} (h : s.rw.failedWrites = 65535) : s.countFailedWrite = s := by
  rw [State.countFailedWrite, sat16_full h, bne_self_eq_false]
  rfl

theorem ownWrite_at {s : State} {before later : List Issued} {r : Request} {absorbed : Bool} (resp : Resp)
    (h : s.path.issued = before ++ .own r absorbed :: later) :
    let u := s.withPath { s.path with issued := before ++ later }
    exec (.ownWriteError (before.countP Issued.isOwn) resp) s = .next (if absorbed then u else u.countIfError resp) := by
  simp only [exec, execOwnWriteError, State.ownAnswer, h, takeOwn_at]
  rfl

/-- Settles O22. -/
theorem ownWriteAnswered : Obligations.OwnWriteAnswered := by
  intro s before later r absorbed resp h
  dsimp only
  rw [ownWrite_at resp h]
  refine ⟨?_, ?_, ?_⟩
  · rintro (rfl | rfl)
    · exact congrArg _ (ite_self _)
    · rfl
  · rintro rfl rfl hlt
    exact congrArg Host.Outcome.next (countFailedWrite_below (s := s.withPath _) hlt)
  · rintro rfl rfl hmax
    exact congrArg Host.Outcome.next (countFailedWrite_full (s := s.withPath _) hmax)

/-! ## Mirror writes -/

theorem mirrorWrite_at {s : State} {before later : List Issued} {i : Nat} {r : Request} {stale absorbed : Bool} (resp : Resp)
    (h : s.path.issued = before ++ .mirror i r stale absorbed :: later) :
    let u := s.withPath { s.path with issued := before ++ later }
    exec (.mirrorWriteResponse (before.countP Issued.isMirror) resp) s =
      .next (if absorbed then u else if stale then u.countIfError resp
        else ((u.countIfError resp).recordAnswered i).flow) := by
  simp only [exec, execMirrorWriteResponse, State.mirrorAnswer, h, takeMirror_at]
  rfl

theorem countIfError_eq (s : State) (resp : Resp) :
    s.countIfError resp = if resp = .error then s.countFailedWrite else s := by
  cases resp <;> rfl

theorem recordAnswered_path {s u : State} {resp : Resp} (i : Nat) (h : s = u.countIfError resp) :
    (s.recordAnswered i).path = { u.path with held := u.path.held.map (HeldRead.answered i) } := by
  have hpath : s.path = u.path := h ▸ (Keeps.countIfError u resp).path
  rw [State.recordAnswered, hpath]

/-- Once nothing moves any more, what an answer has served has passed in order, and what stays has cause to. -/
theorem answered_flow {w : State} {i : Nat} {held : List HeldRead} (hw : w.pathSound)
    (hheld : w.path.held = held.map (HeldRead.answered i)) :
    (∃ new, w.flow.path.passPath = w.path.passPath ++ new ∧ (∀ e ∈ new, e.acted = false) ∧
      ∀ older h younger, held = older ++ h :: younger → (h.answered i).awaits = [] →
        (∀ g ∈ older, g.req.tag = h.req.tag → (g.answered i).awaits = []) →
        ofTag h.req.tag ((older ++ [h]).map (fun g => g.req)) <+: ofTag h.req.tag (new.map (fun e => e.req))) ∧
    (∀ older h younger, w.flow.path.held = older ++ h :: younger → h.awaits = [] →
      ∃ g ∈ older, g.req.tag = h.req.tag ∧ g.awaits ≠ []) ∧
    w.flow.path.waitsSound ∧ ∀ tag m, (w.flow.lane tag).reqs ≠ [] → (w.flow.lane tag).outcome ≠ some (m, .mirrorCheck .again) := by
  have hsettled := flow_settles w hw
  obtain ⟨new, hpass, hacted, -⟩ := (Flowed.flow w).2.1.entered
  obtain ⟨-, -, -, -, -, -, hwaits⟩ := (Keeps.flow w).path hw
  refine ⟨⟨new, hpass, hacted, fun older h younger e ha hb => ?_⟩, held_behind hsettled, hwaits,
    fun tag m => not_again hsettled tag m⟩
  have hsplit : w.path.held = older.map (HeldRead.answered i) ++ h.answered i :: younger.map (HeldRead.answered i) := by
    rw [hheld, e, List.map_append, List.map_cons]
  have hserved := served_first hsettled hw.2.2.2.2.1 hsplit ha (by simpa [HeldRead.answered] using hb) hpass
  have hreqs : (older.map (HeldRead.answered i) ++ [h.answered i]).map (fun g => g.req) =
      (older ++ [h]).map (fun g => g.req) := by
    rw [List.map_append, List.map_append, List.map_map]
    rfl
  rw [hreqs] at hserved
  exact hserved

/-- Settles O23: `Moved` says what the movement after the answer may do, `answered_flow` where it ends. -/
theorem mirrorWriteAnswered : Obligations.MirrorWriteAnswered := by
  refine ⟨fun s before later i r stale absorbed resp h => ?_, fun h i j w => mem_answered h i j w⟩
  dsimp only
  rw [mirrorWrite_at resp h, ← countIfError_eq]
  refine ⟨?_, ?_, ?_⟩
  · rintro rfl
    rw [if_pos rfl]
  · rintro rfl rfl
    rw [if_neg Bool.false_ne_true, if_pos rfl]
  · rintro rfl rfl
    rw [if_neg Bool.false_ne_true, if_neg Bool.false_ne_true]
    generalize hu : s.withPath { s.path with issued := before ++ later } = u
    generalize hv : u.countIfError resp = v
    have hpath : (v.recordAnswered i).path = { u.path with held := u.path.held.map (HeldRead.answered i) } :=
      recordAnswered_path i hv.symm
    have hheld : u.path.held = s.path.held := hu ▸ rfl
    have hsound (hs : s.pathSound) : (v.recordAnswered i).pathSound := by
      have hus : u.pathSound := hu ▸ (Keeps.issued s (before ++ later) s.path.responses).path hs
      have hvs : v.pathSound := hv ▸ (Keeps.of_works (Keeps.countIfError u resp)).path hus
      exact (Keeps.recordAnswered v i).path hvs
    obtain ⟨hstate, hmoved⟩ := (Flowed.flow (v.recordAnswered i)).eq
    have hend (hs : s.pathSound) := answered_flow (hsound hs) (by rw [hpath, hheld] : _ = s.path.held.map (HeldRead.answered i))
    rw [hpath, hheld] at hmoved
    rw [hpath, ← hu] at hend
    generalize (v.recordAnswered i).flow = t at *
    refine ⟨t, rfl, hstate, hmoved, hend⟩

end Sys2Proof.Machine
end

section
/-! The examination of a mirror read at the front of its lane (R14, R15). -/

namespace Sys2Proof.Machine

/-- The condition on which a record makes a read stale: the read covers it, and it is dirty or a write of it is in
flight. -/
def State.staleAt (s : State) (a : Anchor) (r : Request) (i : Nat) : Prop :=
  i < 1281 ∧ r.overlaps (a.mirrorBase.toNat + 16 * i) 16 = true ∧ (i ∈ s.mirror.dirty ∨ i ∈ s.mirror.inFlight)

theorem awaited_iff {s : State} {a : Anchor} {r : Request} (ha : s.ctl.anchor = some a)
    (ho : r.overlaps a.mirrorBase.toNat 20496 = true) :
    ∀ i w, (i, w) ∈ s.awaited r ↔ s.staleAt a r i ∧
      w = if i ∈ s.mirror.dirty then .needsWrite else .answers (s.mirror.inFlight.count i) :=
  mem_awaited ha ho

theorem awaited_current {s : State} {a : Anchor} {r : Request} (ha : s.ctl.anchor = some a)
    (ho : r.overlaps a.mirrorBase.toNat 20496 = true) (h : ∀ i, ¬s.staleAt a r i) : s.awaited r = [] :=
  List.eq_nil_iff_forall_not_mem.mpr fun x hx => h x.1 ((awaited_iff ha ho x.1 x.2).mp hx).1

theorem awaited_stale {s : State} {a : Anchor} {r : Request} (ha : s.ctl.anchor = some a)
    (ho : r.overlaps a.mirrorBase.toNat 20496 = true) (h : ∃ i, s.staleAt a r i) : s.awaited r ≠ [] := by
  obtain ⟨i, hi⟩ := h
  exact List.ne_nil_of_mem ((awaited_iff ha ho i _).mpr ⟨hi, rfl⟩)

/-! ## What the examination of a read does -/

theorem examineRead_passes {s : State} {t : Tag} {r : Request} (h : s.awaited r = []) (hh : s.tagHeld t = false) :
    s.examineRead t r = (s.popLane t).enterPass r false := by
  simp only [State.examineRead, h, List.isEmpty_nil, if_true, State.passRead, hh, Bool.false_eq_true, if_false]

theorem examineRead_behind {s : State} {t : Tag} {r : Request} (h : s.awaited r = []) (hh : s.tagHeld t = true) :
    s.examineRead t r = s.waitRead t .behind := by
  simp only [State.examineRead, h, List.isEmpty_nil, if_true, State.passRead, hh]

theorem examineRead_held {s : State} {t : Tag} {r : Request} (h : s.awaited r ≠ []) (hh : s.path.held.length < 8) :
    s.examineRead t r = (s.popLane t).enterHeld { req := r, awaits := s.awaited r } := by
  rw [State.examineRead, if_neg (by simpa using h)]
  exact if_pos hh

theorem examineRead_room {s : State} {t : Tag} {r : Request} (h : s.awaited r ≠ []) (hh : 8 ≤ s.path.held.length) :
    s.examineRead t r = s.waitRead t .room := by
  rw [State.examineRead, if_neg (by simpa using h)]
  exact if_neg (Nat.not_lt.mpr hh)

/-! ## The row -/

theorem examine_read {s : State} {t : Tag} {m : Mode} {g : ReadStage} (h : (s.lane t).outcome = some (m, .mirrorCheck g)) :
    s.examine t = s := by
  simp only [State.examine, h, Verdict.reclassified, Bool.not_false, Bool.or_true, if_true]

theorem front_of {s : State} {t : Tag} {r : Request} {m : Mode} {v : Verdict} (hr : (s.lane t).reqs.head? = some r)
    (ho : (s.lane t).outcome = some (m, v)) : s.front t = some (r, v) := by
  obtain ⟨rest, hl⟩ := List.head?_eq_some_iff.mp hr
  simp only [State.front, hl, ho]

theorem exec_heldRead {s : State} {t : Tag} {r : Request} {m : Mode} (hr : (s.lane t).reqs.head? = some r)
    (ho : (s.lane t).outcome = some (m, .mirrorCheck .presented)) :
    exec (.heldRead t) s = .next (s.examineRead t r).flow := by
  simp only [exec, execHeldRead, examine_read ho, front_of hr ho]

theorem exec_heldRead_waiting {s : State} {t : Tag} {r : Request} {m : Mode} {g : ReadStage}
    (hr : (s.lane t).reqs.head? = some r) (ho : (s.lane t).outcome = some (m, .mirrorCheck g)) (hg : g ≠ .presented) :
    exec (.heldRead t) s = .next s := by
  cases g with
  | presented => exact absurd rfl hg
  | room => simp only [exec, execHeldRead, examine_read ho, front_of hr ho]
  | behind => simp only [exec, execHeldRead, examine_read ho, front_of hr ho]
  | again => simp only [exec, execHeldRead, examine_read ho, front_of hr ho]

/-- A change of the path alone, and what it frees. -/
theorem flow_withPath (s : State) (p : Path) :
    ∃ t, (s.withPath p).flow = t ∧ t = s.withPath t.path ∧ Moved p t.path := by
  obtain ⟨hstate, hmoved⟩ := (Flowed.flow (s.withPath p)).eq
  exact ⟨_, rfl, hstate, hmoved⟩

/-- A read that waits in its lane: the examination sets its stage, which is all where nothing else moves. -/
theorem exec_heldRead_waits {s : State} {t : Tag} {r : Request} {m : Mode} {g : ReadStage}
    (hr : (s.lane t).reqs.head? = some r) (ho : (s.lane t).outcome = some (m, .mirrorCheck .presented))
    (hx : s.examineRead t r = s.waitRead t g) (hg : g ≠ .again) (hroom : g = .room → Config.heldReads ≤ s.path.held.length)
    (hbehind : g = .behind → ∃ h ∈ s.path.held, h.req.tag = t) :
    ∃ u, exec (.heldRead t) s = .next u ∧ u = s.withPath u.path ∧ Moved s.path u.path ∧
      (s.moves = [] → u = s.setLane t { s.lane t with outcome := some (s.ctl.mode, .mirrorCheck g) }) := by
  obtain ⟨hstate, hmoved⟩ := ((Flowed.waitRead s t g hroom hbehind).trans (Flowed.flow _)).eq
  have hsettled (hm : s.moves = []) : (s.waitRead t g).flow = s.waitRead t g :=
    flow_of_settled _ (settled_outcome hm rfl fun e => hg (Verdict.mirrorCheck.inj e))
  rw [exec_heldRead hr ho, hx]
  generalize (s.waitRead t g).flow = u at *
  exact ⟨u, rfl, hstate, hmoved, hsettled⟩

/-- Settles O24. -/
theorem heldReadExamined : Obligations.HeldReadExamined := by
  refine ⟨fun s tag r m a hr ho ha _ hover => ⟨fun hc hh => ?_, fun hc hh => ?_, fun hst hlt => ?_, fun hst hge => ?_⟩,
    fun s tag r m g hr ho hg => exec_heldRead_waiting hr ho hg⟩
  · rw [exec_heldRead hr ho, examineRead_passes (awaited_current ha hover hc) hh]
    obtain ⟨t, ht, hstate, hmoved⟩ := flow_withPath s ((s.popLane tag).enterPass r false).path
    exact ⟨t, congrArg _ ht, hstate, hmoved⟩
  · exact exec_heldRead_waits hr ho (examineRead_behind (awaited_current ha hover hc) hh) nofun nofun
      fun _ => (Flowed.tagHeld_iff s tag).mp hh
  · rw [exec_heldRead hr ho, examineRead_held (awaited_stale ha hover hst) hlt]
    obtain ⟨t, ht, hstate, hmoved⟩ :=
      flow_withPath s ((s.popLane tag).enterHeld { req := r, awaits := s.awaited r }).path
    exact ⟨t, s.awaited r, congrArg _ ht, hstate, hmoved, awaited_iff ha hover⟩
  · exact exec_heldRead_waits hr ho (examineRead_room (awaited_stale ha hover hst) hge) nofun (fun _ => hge) nofun

end Sys2Proof.Machine
end

section
/-! Engine control: the adoption of an anchor block (R25, R26), an anchor write that comes in LOADING or RUNNING (R27), and
HOLDUP_LOW (R35 to R37). -/

namespace Sys2Proof.Machine

/-! ## Adoption -/

theorem ringSlots_of_valid {block : Addr} {rings : List (Nat × Nat)} {b : List Byte} (h : anchorFault block rings b = none) :
    16 ≤ (anchorOf b).ringSlots :=
  (Keeps.slots_of_powerOfTwo (Keeps.anchorFault_none h)).1

theorem markIf_of_mem {s : State} {i : Nat} (b : Bool) (hs : s.mirror.dirty.Pairwise (· < ·)) (h : i ∈ s.mirror.dirty) :
    s.markIf b i = s := by
  cases b with
  | false => rfl
  | true => exact mark_mem hs h

/-- The creation of a SYNC where every mirror record is dirty already. -/
theorem afterSync_full {s : State} (f : SyncFlags) (h : s.mirror.dirty = List.range 1281) : s.afterSync f = { s with
    rw := { s.rw with sinceSync := 0, lost := if f.resumed then 0 else s.rw.lost },
    intake := { s.intake with faultMarks := Vector.replicate 16 false } } := by
  have hrise : s.mirror.dirty.Pairwise (· < ·) := h ▸ (range_sound 1281).1
  have hmem {i : Nat} (hi : i < 1281) : i ∈ s.mirror.dirty := h ▸ List.mem_range.mpr hi
  have hclear := clearFaultMarks_full { s with rw := { s.rw with sinceSync := 0 } } hrise fun p => hmem (by omega)
  rw [State.afterSync, hclear]
  dsimp only
  split
  · exact markIf_of_mem _ hrise (hmem summary_lt)
  · rfl

/-- The state after the adoption of a block from tag t, its SYNC created. -/
def State.adopted (s : State) (a : Anchor) (t : Tag) : State :=
  let slot := s.rw.nextSeq.toNat % a.ringSlots
  { s with
    ctl := { s.ctl with mode := .attached, anchor := some a, startMark := false },
    intake := { s.intake with faultMarks := Vector.replicate 16 false },
    rw := { s.rw with
      queue := s.rw.queue ++ [.ack (s.ctl.anchorAddr + 56) { adopted := true, reason := .none, firstSlot := slot } t,
        .report (a.ringBase + BitVec.ofNat 40 (32 * slot))
          { seq := s.rw.nextSeq, source := .engine, subject := none, time := s.time, origin := 0,
            payload := .sync { started := s.ctl.startMark, resumed := s.rw.stalled } .attached s.buildingDown s.stateCounts
              s.rw.lost s.rw.indexFaults s.rw.failedWrites }],
      nextSeq := s.rw.nextSeq + 1, produced := (slot + 1) % a.ringSlots, consumed := slot, occupancy := 1,
      stalled := false, sinceSync := 0, lost := if s.rw.stalled then 0 else s.rw.lost },
    mirror := { s.mirror with dirty := List.range 1281, cursor := 0, inFlight := [] },
    path := { s.path with held := s.path.held.map HeldRead.satisfy, issued := s.path.issued.map Issued.outdate } }

theorem makeSync_made {s : State} {a : Anchor} (f : SyncFlags) (o : Origin) (ha : s.ctl.anchor = some a)
    (hs : s.rw.stalled = false) (hfree : 3 ≤ a.ringSlots - s.rw.occupancy) :
    s.makeSync f o = ((s.created a { origin := o, subject := none, payload := s.syncPayload f }).afterSync f, true) := by
  rw [State.makeSync, attempt_made ha hs hfree]
  rfl

theorem adopt_eq (s : State) {a : Anchor} (t : Tag) (h : 16 ≤ a.ringSlots) : s.adopt a t = s.adopted a t := by
  have hsync := makeSync_made (a := a)
    (s := (s.adoptFields a).acknowledge t
      { adopted := true, reason := .none, firstSlot := (s.adoptFields a).rw.produced })
    { started := s.ctl.startMark, resumed := s.rw.stalled } engineOrigin rfl rfl (by show 3 ≤ a.ringSlots - 0; omega)
  rw [State.adopt, hsync, State.created, afterSync_full]
  case h => simp only [State.acknowledge, enqueue_mirror, State.adoptFields, markAll_mirror, Config.mirrorRecords]
  simp only [State.adopted, State.acknowledge, State.enqueue, State.dropStartMark, State.adoptFields, State.markAll,
    List.append_assoc]
  rfl

/-- In DETACHED and ATTACHED a valid block is adopted. -/
theorem examineAnchor_of_valid {s : State} {r : Request} (hm : s.ctl.mode = .detached ∨ s.ctl.mode = .attached)
    (hf : anchorFault s.ctl.anchorAddr s.ringAreas r.bytes = none) :
    s.examineAnchor r = s.adopted (anchorOf r.bytes) r.tag := by
  have hc : s.checkAnchor r = s.adopted (anchorOf r.bytes) r.tag := by
    rw [State.checkAnchor, hf]
    exact adopt_eq s r.tag (ringSlots_of_valid hf)
  unfold State.examineAnchor
  rcases hm with hm | hm <;> rw [hm] <;> exact hc

theorem exec_anchorWrite {s : State} {tag : Tag} {r : Request} {f : StepFor} (h : s.Admitted tag r f)
    (hf : f.anchor = true) :
    exec (.anchorWrite tag) s = .next ((((s.popLane tag).examineAnchor r).enterPass r true).flow) :=
  congrArg Host.Outcome.next (takeStep_eq h hf)

theorem areas_eq (a : Anchor) : a.areas = [(a.ringBase.toNat, 32 * a.ringSlots), (a.consumedAddr.toNat, 4),
    (a.cmdBase.toNat, 32 * a.cmdSlots), (a.mirrorBase.toNat, 16 * 1281), (a.windowBase.toNat, 4096)] := rfl

/-- Settles O26: the adoption commutes with the write's leaving its lane; the held reads it satisfies all leave. -/
theorem anchorAdopted : Obligations.AnchorAdopted := by
  refine ⟨fun s tag r f hadm hanchor hm hf => ?_, anchorOf_reads, areas_eq, mem_ringAreas,
    fun h i r stale absorbed acted given => ⟨rfl, rfl, rfl, rfl⟩⟩
  have hexam : (s.popLane tag).examineAnchor r = (s.popLane tag).adopted (anchorOf r.bytes) r.tag :=
    examineAnchor_of_valid hm hf
  have hexec := exec_anchorWrite hadm hanchor
  obtain ⟨hstate, hmoved⟩ := (Flowed.flow (((s.popLane tag).examineAnchor r).enterPass r true)).eq
  have hleave (hs : s.pathSound) := by
    have hsound : (((s.popLane tag).examineAnchor r).enterPass r true).pathSound :=
      (((Keeps.popLane s tag).trans (Keeps.examineAnchor _ r)).trans (Keeps.enterPass _ r true)).path hs
    exact fun t => served_leave (flow_settles _ hsound) t
  rw [hexam] at hexec hstate hmoved hleave
  have hheld : (((s.popLane tag).adopted (anchorOf r.bytes) r.tag).enterPass r true).path.held =
      s.path.held.map HeldRead.satisfy := rfl
  rw [hheld] at hleave
  generalize (((s.popLane tag).adopted (anchorOf r.bytes) r.tag).enterPass r true).flow = t at *
  have hserved : ∀ t : Tag, ∀ g ∈ s.path.held.map HeldRead.satisfy, g.req.tag = t → g.awaits = [] := by
    rintro t g hg -
    obtain ⟨h, _, rfl⟩ := List.mem_map.mp hg
    rfl
  refine ⟨t, hexec, ⟨hstate, hmoved⟩, fun hs => ⟨fun h hh => ?_, fun h hh => ?_⟩⟩
  · exact (hleave hs h.req.tag (hserved _)).1 h.satisfy (List.mem_map_of_mem hh) rfl
  · exact (hleave hs h.req.tag (hserved _)).2 h hh rfl

/-! ## An anchor write in LOADING or RUNNING -/

/-- Settles O27. -/
theorem anchorIgnored : Obligations.AnchorIgnored := by
  intro s tag r f hadm hanchor hm
  have hexam (p : Path) : (s.withPath p).examineAnchor r = (s.ignoreAnchor r).withPath p := by
    rw [← ignoreAnchor_withPath]
    unfold State.examineAnchor
    rcases hm with hm | hm <;> rw [withPath_ctl, hm]
  refine ⟨_, rfl, takeStep_of hadm hanchor (fun p => congrArg (·, r) (hexam p)) ?_⟩
  exact path_of_commutes (f := fun u => u.ignoreAnchor r) (ignoreAnchor_withPath s s.path r)

/-! ## HOLDUP_LOW -/

theorem putMode_change {s : State} {m : Mode} (h : s.ctl.mode ≠ m) :
    s.putMode m = { s with ctl := { s.ctl with mode := m } }.mark 1280 := if_neg h

theorem halt_eq {s : State} (h : s.ctl.mode ≠ .halted) :
    s.halt = { s with ctl := { s.ctl with mode := .halted, holdupMark := true } }.mark 1280 := by
  rw [State.halt, putMode_change h]
  rfl

theorem countFailedWrite_frame (s : State) : s.countFailedWrite = { s with
    rw := { s.rw with failedWrites := s.countFailedWrite.rw.failedWrites },
    mirror := { s.mirror with dirty := s.countFailedWrite.mirror.dirty } } := by
  rw [State.countFailedWrite, markIf_frame]

/-- Room for the HEAD_GASP changes the own-write queue, and where the queue was full the count of failed writes. -/
theorem makeRoomForGasp_frame (s : State) : s.makeRoomForGasp = { s with
    rw := { s.rw with queue := s.makeRoomForGasp.rw.queue, failedWrites := s.makeRoomForGasp.rw.failedWrites },
    mirror := { s.mirror with dirty := s.makeRoomForGasp.mirror.dirty } } := by
  unfold State.makeRoomForGasp
  split
  · rfl
  · rw [countFailedWrite_frame]

/-- The state once the HEAD_GASP stands in front of the own-write queue and the mode is HALTED. -/
def State.gasped (s : State) (a : Anchor) : State :=
  let v := s.makeRoomForGasp
  { v with
    ctl := { s.ctl with mode := .halted, holdupMark := true }, loader := { s.loader with burst := none },
    rw := { v.rw with
      queue := .report (a.ringBase + BitVec.ofNat 40 (32 * s.rw.produced))
        { seq := s.rw.nextSeq, source := .engine, subject := none, time := s.time, origin := 0,
          payload := .headGasp s.buildingDown s.stateCounts s.corr.stormIn } :: v.rw.queue,
      nextSeq := s.rw.nextSeq + 1, produced := (s.rw.produced + 1) % a.ringSlots, occupancy := s.rw.occupancy + 1,
      sinceSync := s.rw.sinceSync + 1 } }.mark 1280

theorem placeHeadGasp_free {s : State} {a : Anchor} (ha : s.ctl.anchor = some a) (hfree : s.rw.occupancy < a.ringSlots) :
    s.placeHeadGasp = { s.makeRoomForGasp with
      rw := { s.makeRoomForGasp.rw with
        queue := .report (s.slotAddr a) (s.reportOf s.headGaspDraft) :: s.makeRoomForGasp.rw.queue }.advance
          a.ringSlots }.bumpSync := by
  have hslots : s.freeSlots ≠ 0 := by
    rw [State.freeSlots, ha]
    exact Nat.sub_ne_zero_of_lt hfree
  simp only [State.placeHeadGasp, ha, hslots, if_false]

theorem gasp_eq {s : State} {a : Anchor} (ha : s.ctl.anchor = some a) (hfree : s.rw.occupancy < a.ringSlots)
    (hm : s.ctl.mode ≠ .halted) : s.placeHeadGasp.halt.stopBurst = s.gasped a := by
  have hroom := makeRoomForGasp_frame s
  rw [placeHeadGasp_free ha hfree, State.gasped]
  generalize s.makeRoomForGasp = v at *
  rw [hroom, halt_eq (by exact hm)]
  rfl

theorem setUnit_self {s : State} {u : UnitState} (h : s.cmd.unit = u) : s.setUnit u = s := by
  rw [State.setUnit, ← h]

theorem abandonBusy_idle {s : State} (h : s.cmd.unit.isBusy = false) : s.abandonBusy = s.setUnit .idle := by
  unfold State.abandonBusy
  cases hu : s.cmd.unit with
  | idle => exact (setUnit_self hu).symm
  | actions => rfl
  | busy job addr since => rw [hu] at h; exact nomatch h

theorem abandonBusy_busy {s : State} {job : Job} {addr : Addr} {since : Time} {e : InProgress}
    (h : s.cmd.unit = .busy job addr since) (he : s.progress addr = some e) : s.abandonBusy = { s with
      rw := { s.rw with queue := s.rw.queue ++ [.writeBack addr (writeBackBytes e.slot .failed .halted e.overwritten 0)] },
      cmd := { s.cmd with unit := .idle, inProgress := s.cmd.inProgress.filter (fun e => e.addr != addr) } } := by
  simp only [State.abandonBusy, h, State.finalWriteBack, he]
  rfl

theorem exec_holdup {s : State} (h : s.inReset = false) : exec .holdupLowAssertion s = .next
    (match s.ctl.mode with
      | .halted => s
      | .detached => s.halt
      | .attached => s.takeHoldup
      | .loading => s.takeHoldup
      | .running => s.takeHoldup) :=
  congrArg Host.Outcome.next (if_neg (by rw [h]; exact Bool.false_ne_true))

/-- Settles O28. -/
theorem holdupTaken : Obligations.HoldupTaken := by
  refine ⟨fun s h => ?_, fun s hr hm => ?_, fun s a hr hm ha hfree => ?_⟩
  · by_cases hr : s.inReset = true
    · exact congrArg Host.Outcome.next (if_pos hr)
    · rw [exec_holdup (Bool.eq_false_of_not_eq_true hr), h.resolve_left hr]
  · rw [exec_holdup hr, hm]
    exact congrArg Host.Outcome.next (halt_eq (by rw [hm]; nofun))
  · have hexec : exec .holdupLowAssertion s = .next (s.gasped a).abandonBusy := by
      have hhalt : s.ctl.mode ≠ .halted := by rcases hm with hm | hm | hm <;> rw [hm] <;> nofun
      rw [exec_holdup hr, ← gasp_eq ha hfree hhalt]
      rcases hm with hm | hm | hm <;> rw [hm] <;> rfl
    have hcmd : (s.gasped a).cmd = s.cmd := by
      show s.makeRoomForGasp.cmd = s.cmd
      rw [makeRoomForGasp_frame]
    rw [hexec]
    refine ⟨fun hbusy => congrArg Host.Outcome.next (abandonBusy_idle (hcmd ▸ hbusy)), fun job addr since e hu he => ?_⟩
    have hprogress : (s.gasped a).progress addr = some e := by rw [State.progress, hcmd]; exact he
    have hlist : (s.gasped a).cmd.inProgress = s.cmd.inProgress := by rw [hcmd]
    rw [abandonBusy_busy (hcmd ▸ hu) hprogress, hlist]
    rfl

end Sys2Proof.Machine
end

section
/-! The report writer: consumed-index values (R142, R143), reports against the ring's reserve (R139 to R141, R145), and SYNC
(R144). -/

namespace Sys2Proof.Machine

/-! ## Consumption -/

theorem indexFault_below {s : State} (h : s.rw.indexFaults < 65535) :
    s.indexFault = { s with rw := { s.rw with indexFaults := s.rw.indexFaults + 1 } }.mark 1280 := by
  have hne : (s.rw.indexFaults + 1 != s.rw.indexFaults) = true := bne_iff_ne.mpr (by omega)
  rw [State.indexFault, sat16_below h, hne]
  rfl

theorem indexFault_full {s : State} (h : s.rw.indexFaults = 65535) : s.indexFault = s := by
  rw [State.indexFault, sat16_full h, bne_self_eq_false]
  rfl

/-- The state after a value that is taken, before the stall is looked at. -/
def State.consumedTo (s : State) (a : Anchor) (v : Nat) : State :=
  { s with rw := { s.rw with
      consumed := v, occupancy := s.rw.occupancy - (v + a.ringSlots - s.rw.consumed) % a.ringSlots } }

/-- A consumed-index value handed over: an index fault, the copy moved, or the copy moved and the stall ended. -/
theorem handConsumed_outcomes (s : State) (a : Anchor) (v : Nat) (ha : s.ctl.anchor = some a) :
    let released := (v + a.ringSlots - s.rw.consumed) % a.ringSlots
    let u := s.consumedTo a v
    (a.ringSlots ≤ v ∨ s.rw.occupancy < released → s.rw.indexFaults < 65535 →
      s.handConsumed v = { s with rw := { s.rw with indexFaults := s.rw.indexFaults + 1 } }.mark 1280) ∧
    (a.ringSlots ≤ v ∨ s.rw.occupancy < released → s.rw.indexFaults = 65535 → s.handConsumed v = s) ∧
    (v < a.ringSlots → released ≤ s.rw.occupancy →
      (s.rw.stalled = false ∨ 4 * (a.ringSlots - u.rw.occupancy) < a.ringSlots → s.handConsumed v = u) ∧
      (s.rw.stalled = true → a.ringSlots ≤ 4 * (a.ringSlots - u.rw.occupancy) → s.handConsumed v =
        (({ u with rw := { u.rw with stalled := false } }.mark 1280).makeSync { resumed := true }
          { source := .engine, word := 0 }).1)) := by
  obtain ⟨hfault, htaken⟩ := handConsumed_cases s a v ha
  exact ⟨fun h hlt => (hfault h).trans (indexFault_below hlt), fun h hmax => (hfault h).trans (indexFault_full hmax), htaken⟩

theorem handConsumed_path (s : State) (v : Nat) : (s.handConsumed v).path = s.path :=
  path_of_commutes (f := fun u => u.handConsumed v) (handConsumed_withPath s s.path v)

/-- CONSUMED_INDEX_WRITE on a front of its kind: the value is handed over as soon as the own-write queue has an entry
free. -/
theorem exec_consumedIndexWrite {s : State} {tag : Tag} {r : Request} {v : Nat} (h : s.Front tag r (.consumedIndex v))
    (hw : s.working = true) :
    (48 ≤ s.rw.queue.length → exec (.consumedIndexWrite tag) s = .next s) ∧
    (s.rw.queue.length < 48 → ∃ t, exec (.consumedIndexWrite tag) s = .next t ∧ Took t (s.handConsumed v) tag r) := by
  have hfree : decide (1 ≤ s.freeEntries) = decide (s.rw.queue.length < 48) := by
    refine decide_eq_decide.mpr ?_
    rw [State.freeEntries, Config.queueSize]
    omega
  simp only [exec, execConsumedIndexWrite, examine_front h, front_eq h, hw, hfree, Bool.true_and]
  refine ⟨fun hfull => ?_, fun hlt => ⟨_, rfl, ?_⟩⟩
  · simp [Nat.not_lt.mpr hfull]
  · rw [decide_eq_true hlt, if_pos rfl]
    have hact : (s.popLane tag).handConsumed v = (s.handConsumed v).withPath (s.popLane tag).path :=
      handConsumed_withPath s (s.popLane tag).path v
    have htook := takeWrite_took s tag r (fun s r => (s.handConsumed v, r)) (by dsimp only; rw [hact]; rfl)
    dsimp only at htook
    rw [hact, show ((s.handConsumed v).withPath (s.popLane tag).path).withPath s.path = s.handConsumed v by
      rw [← handConsumed_path s v]; rfl] at htook
    exact htook

/-- Settles O29. -/
theorem consumedIndexTaken : Obligations.ConsumedIndexTaken := by
  refine ⟨fun s tag r v a hf hw ha => ?_, fun s f h => by rw [State.handOver, h], fun s f v a hf ha => ?_⟩
  · obtain ⟨hfull, hroom⟩ := exec_consumedIndexWrite hf hw
    refine ⟨hfull, fun hlt => ?_⟩
    obtain ⟨t, hexec, htook⟩ := hroom hlt
    obtain ⟨hfault, hmax, htaken⟩ := handConsumed_outcomes s a v ha
    have took_of : ∀ u, s.handConsumed v = u → Took t u tag r := fun u h => h ▸ htook
    exact ⟨t, hexec, fun h hn => took_of _ (hfault h hn), fun h hn => took_of _ (hmax h hn),
      fun hv hr hs => took_of _ ((htaken hv hr).1 hs), fun hv hr hs hq => took_of _ ((htaken hv hr).2 hs hq)⟩
  · have hhand : s.handOver f = s.handConsumed v := by rw [State.handOver, hf]
    rw [hhand]
    exact handConsumed_outcomes s a v ha

/-! ## Reports -/

/-- A report that is not created: the attempt is all. -/
theorem makeReport_displaced {s u : State} {d : Draft} (h : s.attempt d = (u, false)) : s.makeReport d = u := by
  rw [State.makeReport, h]
  rfl

theorem makeSync_displaced {s u : State} {f : SyncFlags} {o : Origin}
    (h : s.attempt { origin := o, subject := none, payload := s.syncPayload f } = (u, false)) :
    s.makeSync f o = (u, false) := by
  rw [State.makeSync, h]
  rfl

theorem attempt_no_anchor {s : State} (h : s.ctl.anchor = none) (d : Draft) : s.attempt d = (s, false) := by
  rw [State.attempt, h]
  rfl

/-- A report that is created is counted, and followed by a SYNC where the count has reached the interval (R145). -/
theorem makeReport_made {s : State} {a : Anchor} (ha : s.ctl.anchor = some a) (hs : s.rw.stalled = false)
    (hfree : 3 ≤ a.ringSlots - s.rw.occupancy) (d : Draft) : s.makeReport d = (s.created a d).bumpSync.cadence := by
  rw [State.makeReport, attempt_made ha hs hfree]
  rfl

theorem cadence_below {s : State} (h : s.rw.sinceSync < s.settings.syncInterval) : s.cadence = s :=
  if_neg (Nat.not_le.mpr h)

theorem cadence_reached {s : State} (h : s.settings.syncInterval ≤ s.rw.sinceSync) :
    s.cadence = (s.makeSync {} { source := .engine, word := 0 }).1 := if_pos h

theorem countLost_frame (s : State) : s.countLost = { s with
    rw := { s.rw with lost := plusOne s.rw.lost, lostTotal := plusOne s.rw.lostTotal },
    mirror := { s.mirror with dirty := s.countLost.mirror.dirty } } := by
  rw [countLost_eq]
  dsimp only
  split <;> rfl

/-- The OVERRUN that takes a displaced report's place, with the count of reports since a SYNC (R140). -/
theorem overrun_eq {s : State} {a : Anchor} (ha : s.ctl.anchor = some a) :
    let displaced := s.created a
      { origin := { source := .engine, word := 0 }, subject := none, payload := .overrun s.rw.lostTotal }
    s.overrun = { displaced with rw := { displaced.rw with stalled := true, sinceSync := s.rw.sinceSync + 1 } }.mark 1280 := by
  rw [State.overrun, place_eq ha]
  rfl

theorem alert_iff (s : State) : s.alert = true ↔ s.inReset = false ∧ 0 < s.rw.occupancy := by
  rw [State.alert, Bool.and_eq_true, Bool.not_eq_true', decide_eq_true_iff]

/-- Settles O30: each outcome of the reserve test, and what follows a created report. -/
theorem reportsAgainstReserve : Obligations.ReportsAgainstReserve := by
  refine ⟨alert_iff, fun s d h => makeReport_displaced (attempt_no_anchor h d), fun s a d ha =>
    ⟨fun hs hfree hlt => ?_, fun hs hfree hge => ?_, fun hs hfree => ?_, fun hs => ?_⟩⟩
  · rw [makeReport_made ha hs hfree d, cadence_below hlt]
    rfl
  · rw [makeReport_made ha hs hfree d, cadence_reached hge]
    rfl
  · have hframe := countLost_frame s
    have htotal : s.countLost.rw.lostTotal = plusOne s.rw.lostTotal := by rw [hframe]
    have hsince : s.countLost.rw.sinceSync = s.rw.sinceSync := by rw [hframe]
    rw [makeReport_displaced (attempt_over ha hs hfree d), overrun_eq (a := a) (by rw [hframe]; exact ha), htotal, hsince,
      countLost_eq]
  · rw [makeReport_displaced (attempt_stalled ha hs d), countLost_eq]

/-! ## SYNC -/

/-- Settles O31. -/
theorem syncMade : Obligations.SyncMade := by
  intro s a flags o ha
  refine ⟨fun hs hfree => ?_, fun h => ?_⟩
  · obtain ⟨v, hv, hstate, hdirty⟩ :=
      afterSync_eq (s.created a { origin := o, subject := none, payload := s.syncPayload flags }) flags
    exact ⟨v, by rw [makeSync_made flags o ha hs hfree, hv], hstate, hdirty⟩
  · have hattempt (d : Draft) : ∃ u, s.attempt d = (u, false) := by
      cases hs : s.rw.stalled with
      | true => exact ⟨_, attempt_stalled ha hs d⟩
      | false => exact ⟨_, attempt_over ha hs (h.resolve_left (by rw [hs]; nofun)) d⟩
    obtain ⟨u, hu⟩ := hattempt { origin := o, subject := none, payload := s.syncPayload flags }
    exact (makeSync_displaced hu).trans (congrArg (·, false) (makeReport_displaced hu).symm)

end Sys2Proof.Machine
end

section
/-! PROOF. The intake: malformed writes and faulty messages, the checks of a message in their order, and the messages that
change nothing. -/

namespace Sys2Proof.Machine

/-! ## Malformed writes and faults (R60, R61, R62) -/

/-- A malformed write on a front taken: judged, captured where it is a step for the window, its index handed over. -/
theorem exec_malformed {s : State} {tag : Tag} {r : Request} {f : StepFor} (ha : s.Admitted tag r f)
    (hi : f.intake = true) (hm : messageForm r = false) :
    ∃ t, exec (.malformed tag) s = .next t ∧ Took t
      ((if f.window then (s.judgeMalformed r).captureWrite r else s.judgeMalformed r).handOver f) tag r := by
  have hfits : (fun (f : StepFor) r => f.intake && !messageForm r) f r = true := by simp [hi, hm]
  have hwith : ∀ p, (if f.window then ((s.withPath p).judgeMalformed r).captureWrite r else
      (s.withPath p).judgeMalformed r).handOver f =
      ((if f.window then (s.judgeMalformed r).captureWrite r else s.judgeMalformed r).handOver f).withPath p := by
    intro p
    rw [judgeMalformed_withPath]
    split
    · rw [captureWrite_withPath, handOver_withPath]
    · rw [handOver_withPath]
  refine ⟨_, rfl, takeStep_of ha hfits (fun p => Prod.ext (hwith p) rfl) ?_⟩
  exact path_of_commutes (f := fun s => (if f.window then (s.judgeMalformed r).captureWrite r else
    s.judgeMalformed r).handOver f) (hwith s.path)

/-- A faulty message is a check failure at its port. -/
theorem judgeMessage_faulty {s : State} {p : Fin 16} {r : Request} {k : FaultKind}
    (h : messageFault p r.bytes = some k) (x : Treatment) (route : Option Claimed) :
    s.judgeMessage p x r route = (s.checkFailedAt p k (framerTime r.bytes), r) := by
  rw [State.judgeMessage, h]

/-- Settles O32. -/
theorem intakeFaultsReported : Obligations.IntakeFaultsReported := by
  refine ⟨fun s tag r f p ha hi hm hp => ?_, fun s tag r f p x row k hmsg hrow hk => ?_,
    fun r x => ⟨messageForm_iff r, message_slot r x⟩, fun b => ⟨framerTime_reads b, msgKind_iff b⟩, portOf_iff⟩
  · obtain ⟨t, hexec, htook⟩ := exec_malformed ha hi hm
    have hjudge : s.judgeMalformed r = s.malformedAt p := by rw [State.judgeMalformed, hp]
    rw [hjudge, State.malformedAt, fault_eq] at htook
    exact ⟨t, hexec, htook⟩
  · obtain ⟨t, hexec, htook⟩ := messageRow_took hmsg hrow (judgeMessage_faulty hk x.treatment _)
    rw [State.checkFailedAt, fault_eq] at htook
    exact ⟨t, hexec, htook⟩

/-! ## The checks of a message (TABLE 4-2) -/

/-- The number of each kind of message in its byte 1 (TABLE 13-2). -/
def MsgKind.byte : MsgKind → Nat
  | .gasp => 1 | .loss => 2 | .restore => 3 | .portDark => 4 | .portLit => 5

theorem msgKind_byte {m : List Byte} {k : MsgKind} : msgKind m = some k ↔ byteAt m 1 = k.byte := by
  rw [msgKind_iff]
  cases k <;> exact Iff.rfl

/-- A byte names a kind exactly from 1 to 5. -/
theorem msgKind_isSome_iff (m : List Byte) : (∃ k, msgKind m = some k) ↔ 1 ≤ byteAt m 1 ∧ byteAt m 1 ≤ 5 := by
  simp only [msgKind_byte]
  constructor
  · rintro ⟨k, hk⟩
    rw [hk]
    cases k <;> decide
  · intro ⟨hlo, hhi⟩
    have hcases : byteAt m 1 = 1 ∨ byteAt m 1 = 2 ∨ byteAt m 1 = 3 ∨ byteAt m 1 = 4 ∨ byteAt m 1 = 5 := by omega
    rcases hcases with h | h | h | h | h
    · exact ⟨.gasp, h⟩
    · exact ⟨.loss, h⟩
    · exact ⟨.restore, h⟩
    · exact ⟨.portDark, h⟩
    · exact ⟨.portLit, h⟩

theorem causeOk_iff {m : List Byte} {k : MsgKind} (hk : msgKind m = some k) : causeOk k (byteAt m 5) = true ↔
    if byteAt m 1 = 1 then byteAt m 5 = 1 ∨ byteAt m 5 = 2 else byteAt m 5 = 0 := by
  rw [msgKind_byte.mp hk]
  cases k <;> simp [causeOk, MsgKind.byte]

theorem reservedOk_iff {m : List Byte} {k : MsgKind} (hk : msgKind m = some k) : reservedOk k m = true ↔
    leAt m 6 2 = 0 ∧ leAt m 12 3 = 0 ∧ (4 ≤ byteAt m 1 → byteAt m 3 = 0xFF) := by
  rw [msgKind_byte.mp hk]
  cases k <;> simp [reservedOk, MsgKind.byte, and_assoc]

/-- Settles O33: the checks of `messageFault`, one branch after the other. -/
theorem messageChecksInOrder : Obligations.MessageChecksInOrder := by
  refine ⟨fun p m => ?_, fun m => ⟨crc8_serial m, crc32_serial m⟩⟩
  dsimp only
  rw [← msgKind_isSome_iff]
  unfold messageFault
  generalize (crc8 ((m.drop 1).take 14)).toNat = sum
  by_cases hcheck : byteAt m 15 = sum
  case neg => simp [hcheck]
  by_cases hport : byteAt m 2 = p.val
  case neg => simp [hcheck, hport]
  cases hk : msgKind m with
  | none => simp [hcheck, hport]
  | some k =>
    simp only [← causeOk_iff hk, ← reservedOk_iff hk]
    cases causeOk k (byteAt m 5) <;> cases reservedOk k m <;> simp [hcheck, hport]

/-! ## Messages without effect (R64, R65, R66) -/

theorem repeatGasp_iff (s : State) (d : Terminal) (gaspTag : Byte) :
    s.repeatGasp d gaspTag = true ↔ s.Repeats d gaspTag := by
  unfold State.repeatGasp State.Repeats
  cases d.deadline with
  | none => simp
  | some q => simp

theorem claimGasp_duplicate {s : State} {n : Fin 1024} {gaspTag : Byte} (h : s.Unchanged .gasp (s.term n) gaspTag)
    (e : TermEntry) (off : Bool) (o : Origin) : s.claimGasp n e off gaspTag o = .duplicate s := by
  rcases h with h | h | h | ⟨h, hrep⟩
  · simp only [State.claimGasp, h]
  · simp only [State.claimGasp, h]
  · simp only [State.claimGasp, h]
  · simp only [State.claimGasp, h]
    rw [if_pos ((repeatGasp_iff s _ _).mpr hrep)]

theorem claimLoss_duplicate {s : State} {n : Fin 1024} {gaspTag : Byte} (h : s.Unchanged .loss (s.term n) gaspTag)
    (e : TermEntry) (o : Origin) : s.claimLoss n e o = .duplicate s := by
  rcases h with h | h | h | h
  all_goals simp only [State.claimLoss, h]

theorem claimRestore_duplicate {s : State} {n : Fin 1024} {gaspTag : Byte}
    (h : s.Unchanged .restore (s.term n) gaspTag) (e : TermEntry) (o : Origin) :
    s.claimRestore n e o = .duplicate s := by
  have hup : (s.term n).state = .up := h
  simp only [State.claimRestore, hup]

/-- A message that the record it meets already says is a DUPLICATE (R65, R66). -/
theorem routeAs_duplicate {s : State} {p : Fin 16} {m : List Byte} {k : MsgKind}
    (h : k = .portDark ∧ s.portMapped p = true ∧ (s.group (.port p)).dark = true ∨
      k = .portLit ∧ s.portMapped p = true ∧ (s.group (.port p)).dark = false ∨
      ∃ n e, s.terminalOf p (byteAt m 3) = some n ∧ s.entry? n = some e ∧
        s.Unchanged k (s.term n) (repeatTag m)) : s.routeAs k p m = some (.duplicate s) := by
  rcases h with ⟨rfl, hmap, hdark⟩ | ⟨rfl, hmap, hdark⟩ | ⟨n, e, hn, he, hsame⟩
  · simp [State.routeAs, State.routePort, State.claimDark, hmap, hdark]
  · simp [State.routeAs, State.routePort, State.claimLit, hmap, hdark]
  · cases k with
    | gasp => exact (routeTerminal_about hn he _).trans (congrArg some (claimGasp_duplicate hsame e _ _))
    | loss => exact (routeTerminal_about hn he _).trans (congrArg some (claimLoss_duplicate hsame e _))
    | restore => exact (routeTerminal_about hn he _).trans (congrArg some (claimRestore_duplicate hsame e _))
    | portDark => exact hsame.elim
    | portLit => exact hsame.elim

/-- A message about what is not mapped is handed to nobody (R64). -/
theorem routeAs_unmapped {s : State} {p : Fin 16} {m : List Byte} {k : MsgKind}
    (h : if k.isPort then s.portMapped p = false else s.terminalOf p (byteAt m 3) = none) : s.routeAs k p m = none := by
  have hterm : ∀ claim, s.terminalOf p (byteAt m 3) = none → s.routeTerminal p m claim = none := fun claim hn => by
    rw [State.routeTerminal, hn]
  have hport : ∀ c, s.portMapped p = false → s.routePort p c = none := fun c hp => by
    rw [State.routePort, hp]
    rfl
  cases k with
  | gasp => exact hterm _ h
  | loss => exact hterm _ h
  | restore => exact hterm _ h
  | portDark => exact hport _ h
  | portLit => exact hport _ h

theorem judgeSound_left {s : State} (hc : s.correlating = false) (p : Fin 16) (x : Treatment) (r : Request)
    (route : Option Claimed) : s.judgeSound p x r route = (s.leftAt p, r) := by
  unfold State.judgeSound
  rw [hc]
  rfl

theorem judgeSound_routed {s : State} (hc : s.correlating = true) (p : Fin 16) (x : Treatment) (r : Request)
    (c : Claimed) : s.judgeSound p x r (some c) = (c.tallied p, answered x c.answer r) := by
  unfold State.judgeSound
  rw [hc]
  rfl

theorem judgeSound_stray {s : State} (hc : s.correlating = true) (p : Fin 16) (x : Treatment) (r : Request) :
    s.judgeSound p x r none = (s.strayAt p, r) := by
  unfold State.judgeSound
  rw [hc]
  rfl

theorem answered_duplicate (x : Ring) (r : Request) :
    answered x.treatment .duplicate r = if x.treatment = .claim then r.withByte0 3 else r := by
  cases x.treatment <;> rfl

/-- A sound message taken by its row: its judgment is all that happens beside the path. -/
theorem sound_took {s : State} {tag : Tag} {r : Request} {f : StepFor} {p : Fin 16} {x : Ring} {k : MsgKind}
    (hm : s.Message tag r f p x) (hf : messageFault p r.bytes = none) (hk : msgKind r.bytes = some k) :
    ∃ t, exec (messageRow tag k) s = .next t ∧
      ∀ u r', s.judgeSound p x.treatment r (s.routeAs k p r.bytes) = (u, r') → Took t u tag r' := by
  have hjudge : s.judgeMessage p x.treatment r (s.routeAs k p r.bytes) =
      s.judgeSound p x.treatment r (s.routeAs k p r.bytes) := by rw [State.judgeMessage, hf]
  obtain ⟨t, hexec, htook⟩ := messageRow_took hm (.inl hk) (u := (s.judgeSound p x.treatment r
    (s.routeAs k p r.bytes)).1) (r' := (s.judgeSound p x.treatment r (s.routeAs k p r.bytes)).2) hjudge
  refine ⟨t, hexec, fun u r' h => ?_⟩
  rw [h] at htook
  exact htook

/-- A write that meets no ring of its tag is attributed to no port (R59). -/
theorem portOf_none {s : State} {r : Request}
    (h : ∀ p x, s.ring p = some x → x.framer = r.tag → r.overlaps x.base.toNat (16 * x.slots) = false) :
    s.portOf r = none := by
  cases hp : s.portOf r with
  | none => rfl
  | some p =>
    obtain ⟨⟨_, x, hx, hframer, hmeets⟩, _⟩ := (portOf_iff s r p).mp hp
    exact absurd ((h p x hx hframer).symm.trans hmeets) (by decide)

/-- A message that meets no ring of its tag passes with no effect (R57, R59). -/
theorem exec_messageRow_outside {s : State} {tag : Tag} {r : Request} {f : StepFor} {k : MsgKind}
    (ha : s.Admitted tag r f) (hi : f.intake = true) (hcons : f.consumed = none) (hp : s.portOf r = none)
    (hm : messageForm r = true) (hk : msgKind r.bytes = some k ∨ msgKind r.bytes = none) :
    ∃ t, exec (messageRow tag k) s = .next t ∧ Took t s tag r := by
  refine ⟨_, exec_messageRow s tag k, takeStep_of ha ?_ (fun q => ?_) rfl⟩
  · rw [fitsMessage, hi, hm]
    rcases hk with hk | hk <;> rw [hk] <;> simp
  · rw [actMessage, State.handOver, hcons, State.judgeForm, portOf_withPath, hp]

/-- Settles O34. -/
theorem messagesWithoutEffect : Obligations.MessagesWithoutEffect := by
  refine ⟨fun s tag r f p x k hm hf hk => ?_, fun s tag r f c ha hi hw hcons hout hrow => ?_,
    fun b n => ⟨rfl, rfl⟩, fun addr tag b bs v => rfl, fun s p l n => ⟨fun hmap => ⟨terminalOf_none s hmap p l, ?_⟩,
    fun m hmap => ⟨entry_iff s m hmap n, fun hlen hpairs => terminalOf_iff s m hmap hlen hpairs p l n⟩⟩⟩
  · obtain ⟨t, hexec, htook⟩ := sound_took hm hf hk
    refine ⟨t, hexec, fun hc => htook _ _ (judgeSound_left hc p _ r _), fun hc hout => htook _ _ ?_,
      fun hc hsame => htook _ _ ?_⟩
    · rw [routeAs_unmapped hout]
      exact judgeSound_stray hc p _ r
    · rw [routeAs_duplicate hsame, judgeSound_routed hc, ← answered_duplicate]
      rfl
  · have hp : s.portOf r = none := portOf_none hout
    rcases hrow with ⟨hm, rfl⟩ | ⟨k, hm, rfl, hk⟩
    · obtain ⟨t, hexec, htook⟩ := exec_malformed ha hi hm
      rw [hw, if_neg Bool.false_ne_true, State.handOver, hcons, State.judgeMalformed, hp] at htook
      exact ⟨t, hexec, htook⟩
    · exact exec_messageRow_outside ha hi hcons hp hm hk
  · rw [State.entry?, hmap]

end Sys2Proof.Machine
end

section
/-! PROOF. What a changed record marks, and how a down-entry counts and is reported. -/

namespace Sys2Proof.Machine

/-! ## Marks (R68, R70, R91, R93, R156) -/

theorem mem_mark (s : State) (i j : Nat) : j ∈ (s.mark i).mirror.dirty ↔ j ∈ s.mirror.dirty ∨ j = i :=
  mem_insertIndex.trans or_comm

theorem tap_record (k : Fin 128) : (GroupId.tap k).record = 1024 + k.val := rfl

/-- What a change of a terminal's state marks beside its record and the summary: the groups whose measures move. -/
theorem mem_markMeasures (s : State) (n : Fin 1024) (a b : TState) (i : Nat) :
    i ∈ (s.markMeasures n a b).mirror.dirty ↔ i ∈ s.mirror.dirty ∨ ∃ e, s.entry? n = some e ∧
      (((a.tapDown ≠ b.tapDown ∨ a.tapEligible ≠ b.tapEligible) ∧ i = (GroupId.tap e.tap).record) ∨
        ((a.zoneDown ≠ b.zoneDown ∨ a.zoneEligible ≠ b.zoneEligible) ∧ i = (GroupId.zone e.zone).record)) := by
  unfold State.markMeasures
  cases s.entry? n with
  | none => simp
  | some e =>
    simp only [mem_markIf, Bool.or_eq_true, bne_iff_ne, Option.some.injEq, exists_eq_left']
    rw [or_assoc]

theorem mem_putTerm (s : State) (n : Fin 1024) (d : Terminal) (i : Nat) :
    i ∈ (s.putTerm n d).mirror.dirty ↔ i ∈ s.mirror.dirty ∨ (s.term n ≠ d ∧ i = n.val) ∨
      ((s.term n).state ≠ d.state ∧ (i = 1280 ∨ ∃ e, s.entry? n = some e ∧
        ((((s.term n).state.tapDown ≠ d.state.tapDown ∨ (s.term n).state.tapEligible ≠ d.state.tapEligible) ∧
            i = 1024 + e.tap.val) ∨
          (((s.term n).state.zoneDown ≠ d.state.zoneDown ∨ (s.term n).state.zoneEligible ≠ d.state.zoneEligible) ∧
            i = 1200 + e.zone.val)))) := by
  unfold State.putTerm
  by_cases hsame : s.term n = d
  · simp [hsame]
  rw [if_neg hsame]
  by_cases hstate : (s.term n).state = d.state
  · rw [if_pos hstate, mem_mark]
    simp [hsame, hstate]
  · rw [if_neg hstate, mem_markMeasures, State.markSummary, mem_mark, mem_mark]
    have hentry : (((s.setTerm n d).mark n.val).mark Config.summaryRecord).entry? n = s.entry? n := rfl
    rw [hentry]
    simp only [hsame, hstate, not_false_eq_true, true_and, ne_eq, setTerm_mirror, or_assoc, tap_record, zone_record]
    rfl

theorem mem_putGroup (s : State) (g : GroupId) (x : Group) (i : Nat) :
    i ∈ (s.putGroup g x).mirror.dirty ↔ i ∈ s.mirror.dirty ∨ (s.group g ≠ x ∧ i = g.record) ∨
      ((s.group g).state.counted ≠ x.state.counted ∧ ∃ p, s.parent? g = some p ∧ i = p.record) := by
  unfold State.putGroup
  by_cases hsame : s.group g = x
  · simp [hsame]
  rw [if_neg hsame, State.markParent]
  by_cases hcount : (s.group g).state.counted = x.state.counted
  · rw [if_pos hcount, mem_mark]
    simp [hsame, hcount]
  · have hparent : ((s.setGroup g x).mark g.record).parent? g = s.parent? g := parent_of_map rfl g
    rw [if_neg hcount, hparent]
    cases s.parent? g with
    | none =>
      rw [mem_mark]
      simp [hsame]
    | some p =>
      rw [mem_mark, mem_mark]
      simp [hsame, hcount, or_assoc]

theorem mem_putTally (s : State) (p : Fin 16) (x : Tally) (i : Nat) :
    i ∈ (s.putTally p x).mirror.dirty ↔ i ∈ s.mirror.dirty ∨ (s.tally p ≠ x ∧ i = 1264 + p.val) := by
  unfold State.putTally
  by_cases hsame : s.tally p = x
  · simp [hsame]
  · rw [if_neg hsame, State.markTally, mem_mark]
    simp only [hsame, ne_eq, not_false_eq_true, true_and]
    rfl

theorem putTally_frame (s : State) (p : Fin 16) (x : Tally) : s.putTally p x = { s with
    intake := { s.intake with tallies := s.intake.tallies.set p.val x },
    mirror := { s.mirror with dirty := (s.putTally p x).mirror.dirty } } := by
  unfold State.putTally
  by_cases hsame : s.tally p = x
  · rw [if_pos hsame, ← hsame]
    exact (setTally_self s p).symm
  · rw [if_neg hsame]
    rfl

/-- Settles O35. -/
theorem recordChangesMarked : Obligations.RecordChangesMarked :=
  ⟨fun s n d => ⟨putTerm_frame s n d, mem_putTerm s n d⟩, fun s g x => ⟨putGroup_frame s g x, mem_putGroup s g x⟩,
    fun s p x => ⟨putTally_frame s p x, mem_putTally s p x⟩,
    fun x y => ⟨by cases x <;> decide, by cases x <;> decide, by cases x <;> decide, by cases x <;> decide,
      by cases y <;> decide⟩,
    fun s k => ⟨rfl, mem_mark s k⟩, fun k r p z => ⟨tap_record k, riser_record r, port_record p, zone_record z⟩⟩

/-! ## Down-entries (R81, R85, R86, R87) -/

/-- The flap window of a record is open (R86). -/
def State.WithinFlap (s : State) (d : Terminal) : Prop :=
  ∃ b, d.flapStart = some b ∧ reached s.time (b + BitVec.ofNat 32 (1000 * s.settings.flapWindow)) = false

theorem flapOpen_iff (s : State) (d : Terminal) : s.flapOpen d = true ↔ s.WithinFlap d := by
  unfold State.flapOpen State.WithinFlap
  cases d.flapStart with
  | none => simp
  | some b => simp [after]

/-- A record with an entry counted: muted where it is due, with its quiet time running where it is muted already. -/
theorem muteIfDue_eq (s : State) (isPrompt : Bool) (u : Terminal) :
    (¬(isPrompt = false ∧ u.muted = false ∧ s.settings.flapLimit ≤ u.downEntries) → s.muteIfDue isPrompt u = u) ∧
    (isPrompt = false ∧ u.muted = false ∧ s.settings.flapLimit ≤ u.downEntries →
      s.muteIfDue isPrompt u = s.muteTerm u) := by
  have hiff : (!isPrompt && !u.muted && decide (s.settings.flapLimit ≤ u.downEntries)) = true ↔
      (isPrompt = false ∧ u.muted = false ∧ s.settings.flapLimit ≤ u.downEntries) := by
    simp [and_assoc]
  unfold State.muteIfDue
  exact ⟨fun h => if_neg (fun hc => h (hiff.mp hc)), fun h => if_pos (hiff.mpr h)⟩

/-- The state change of an entry, its time and its deadline, before the count. -/
theorem moveTo_unmuted {d : Terminal} (h : d.muted = false) (s : State) (st : TState) (deadline : Option Time) :
    s.moveTo d st deadline = { d with state := st, deadline := deadline, lastChange := s.time } := by
  rw [State.moveTo, h]
  rfl

theorem moveTo_muted {d : Terminal} (h : d.muted = true) (s : State) (st : TState) (deadline : Option Time) :
    s.moveTo d st deadline =
      { d with state := st, deadline := deadline, lastChange := s.time, muted := true, quiet := some s.quietEnd } := by
  rw [State.moveTo, h]
  rfl

/-- How an entry from UP counts: the entry is added within the flap window and starts a window outside it; a record that
is or becomes muted has its quiet time begin (R86, R87, R88). -/
theorem downRecord_cases (s : State) (d : Terminal) (isPrompt : Bool) (st : TState) (deadline : Option Time)
    (u : Terminal) (hopen : d.muted = false → s.countDown (s.moveTo d st deadline) = u)
    (hmuted : d.muted = true → s.countDown (s.moveTo d st deadline) = { u with muted := true, quiet := some s.quietEnd })
    (hkept : u.muted = d.muted) :
    (¬(isPrompt = false ∧ d.muted = false ∧ s.settings.flapLimit ≤ u.downEntries) → d.muted = false →
      s.downRecord d isPrompt st deadline = u) ∧
    ((isPrompt = false ∧ d.muted = false ∧ s.settings.flapLimit ≤ u.downEntries) ∨ d.muted = true →
      s.downRecord d isPrompt st deadline = { u with muted := true, quiet := some s.quietEnd }) := by
  unfold State.downRecord
  refine ⟨fun hnot hd => ?_, fun hor => ?_⟩
  · rw [hopen hd]
    exact (muteIfDue_eq s isPrompt u).1 (hkept ▸ hnot)
  · rcases hor with hmutes | hd
    · rw [hopen hmutes.2.1]
      exact (muteIfDue_eq s isPrompt u).2 (hkept ▸ hmutes)
    · rw [hmuted hd]
      exact (muteIfDue_eq s isPrompt _).1 (fun h => nomatch h.2.1)

theorem countDown_within {s : State} {d : Terminal} (h : s.WithinFlap d) :
    s.countDown d = { d with downEntries := min (d.downEntries + 1) 15 } := if_pos ((flapOpen_iff s d).mpr h)

theorem countDown_outside {s : State} {d : Terminal} (h : ¬s.WithinFlap d) :
    s.countDown d = { d with flapStart := some s.time, downEntries := 1 } :=
  if_neg (fun hc => h ((flapOpen_iff s d).mp hc))

theorem withinFlap_moveTo (s : State) (d : Terminal) (st : TState) (deadline : Option Time) :
    s.WithinFlap (s.moveTo d st deadline) ↔ s.WithinFlap d := Iff.rfl

theorem reportMuted_eq (s : State) (n : Fin 1024) (was : Bool) (o : Origin) :
    s.reportMuted n was o = if was = false ∧ (s.term n).muted = true then
      s.makeReport { origin := o, subject := some n.val, payload := .muted (s.term n).downEntries } else s := by
  unfold State.reportMuted
  cases was <;> cases (s.term n).muted <;> rfl

/-- DOWN_OFF is reported for a PROMPT terminal, and for one that is not muted where the settings say so (R81, R85). -/
theorem offDisp_reported_iff (s : State) (isPrompt : Bool) (d : Terminal) : s.offDisp isPrompt d = .reported ↔
    isPrompt = true ∨ (s.settings.offReports = true ∧ d.muted = false) := by
  unfold State.offDisp
  cases isPrompt <;> cases s.settings.offReports <;> cases d.muted <;> decide

theorem offDisp_none {s : State} {isPrompt : Bool} {d : Terminal} (h : s.offDisp isPrompt d ≠ .reported) :
    s.offDisp isPrompt d = .none := by
  unfold State.offDisp at h ⊢
  split
  · next hc => exact absurd (if_pos hc) h
  · rfl

/-- Settles O36. -/
theorem downEntriesCounted : Obligations.DownEntriesCounted := by
  refine ⟨fun s d st deadline => rfl, fun s d isPrompt st deadline => ⟨fun hw => ?_, fun hw => ?_⟩,
    fun s n o => ⟨fun was => reportMuted_eq s n was o, fun isPrompt cause => rfl, fun e d => ⟨fun hrep => ?_, fun hrep => ?_⟩⟩⟩
  · have hcount := countDown_within ((withinFlap_moveTo s d st deadline).mpr hw)
    refine downRecord_cases s d isPrompt st deadline _ (fun hd => ?_) (fun hd => ?_) rfl
    · rw [hcount, moveTo_unmuted hd]
    · rw [hcount, moveTo_muted hd]
  · have hcount := countDown_outside (fun h => hw ((withinFlap_moveTo s d st deadline).mp h))
    refine downRecord_cases s d isPrompt st deadline _ (fun hd => ?_) (fun hd => ?_) rfl
    · rw [hcount, moveTo_unmuted hd]
    · rw [hcount, moveTo_muted hd]
  · have hdisp := (offDisp_reported_iff s e.prompt d).mpr hrep
    unfold State.enterOff
    rw [hdisp]
    rfl
  · have hdisp := offDisp_none (fun h => hrep ((offDisp_reported_iff s e.prompt d).mp h))
    unfold State.enterOff
    rw [hdisp]
    rfl

end Sys2Proof.Machine
end

section
/-! PROOF. The messages about a terminal that change its record: GASP, LOSS and RESTORE (TABLE 5-3). -/

namespace Sys2Proof.Machine

/-- A state whose port p has counted one message more as taken (R65, R68). -/
def State.countTaken (u : State) (p : Fin 16) : State :=
  u.putTally p { u.tally p with taken := sat16 (u.tally p).taken }

/-- A message about a mapped terminal taken: where its claim is TAKEN, what the claim leaves, tallied, is all that happens
beside the path, and the write passes with the answer TAKEN under CLAIM (R13, R65, R67). -/
theorem about_claimed {s : State} {tag : Tag} {r : Request} {f : StepFor} {p : Fin 16} {x : Ring} {k : MsgKind}
    {n : Fin 1024} {e : TermEntry} (h : s.About tag r f p x k n e) {c : Claimed}
    (hc : s.routeAs k p r.bytes = some c) :
    ∃ t, exec (messageRow tag k) s = .next t ∧
      (∀ u, c = .taken u → Took t (u.countTaken p) tag (if x.treatment = .claim then r.withByte0 2 else r)) ∧
      ∀ u, c = { state := u, answer := .taken, blip := true } →
        Took t (u.putTally p { u.tally p with taken := sat16 (u.tally p).taken, blips := sat16 (u.tally p).blips }) tag
          (if x.treatment = .claim then r.withByte0 2 else r) := by
  obtain ⟨t, hexec, htook⟩ := about_took h hc
  refine ⟨t, hexec, fun u hu => ?_, fun u hu => ?_⟩
  · rw [hu, show (Claimed.taken u).answer = .taken from rfl, answered_taken] at htook
    exact htook
  · rw [hu, answered_taken] at htook
    exact htook

theorem gaspOff_iff (e : TermEntry) (m : List Byte) :
    gaspOff e (causeOff m) = true ↔ byteAt m 5 = 2 ∧ e.noOff = false := by
  simp [gaspOff, causeOff]

/-! ## GASP (R72, R73, R77, R78) -/

/-- A GASP in UP that is no repeat begins a new outage (R73). -/
theorem claimGasp_up {s : State} {n : Fin 1024} {gaspTag : Byte} (hup : (s.term n).state = .up)
    (hrep : ¬s.Repeats (s.term n) gaspTag) (e : TermEntry) (off : Bool) (o : Origin) :
    s.claimGasp n e off gaspTag o = .taken (s.gaspUp n e (gaspOff e off) gaspTag o) := by
  simp only [State.claimGasp, hup]
  exact if_neg (fun h => hrep ((repeatGasp_iff s _ _).mp h))

theorem claimGasp_suspect {s : State} {n : Fin 1024} (h : (s.term n).state = .suspect) (e : TermEntry) (off : Bool)
    (gaspTag : Byte) (o : Origin) :
    s.claimGasp n e off gaspTag o = .taken (s.gaspSuspect n e (gaspOff e off) gaspTag o) := by
  simp only [State.claimGasp, h]

theorem claimGasp_downFibre {s : State} {n : Fin 1024} (h : (s.term n).state = .downFibre) (e : TermEntry) (off : Bool)
    (gaspTag : Byte) (o : Origin) : s.claimGasp n e off gaspTag o = .taken (s.lateGasp n e gaspTag) := by
  simp only [State.claimGasp, h]

/-- Settles O37, cell by cell of TABLE 5-3. -/
theorem gaspTaken : Obligations.GaspTaken := by
  intro s tag r f p x n e h
  dsimp only
  have ⟨_, hterminal, hentry⟩ := h
  obtain ⟨t, hexec, htook, _⟩ := about_claimed h (routeTerminal_about hterminal hentry _)
  refine ⟨t, hexec, fun hup hrep hoff => htook _ ?_, fun hup hrep hoff => htook _ ?_, fun hs hoff => htook _ ?_,
    fun hs hoff => htook _ ?_, fun hs hd => htook _ ?_, fun hs hd => htook _ ?_⟩
  · rw [claimGasp_up hup hrep, State.gaspUp, if_neg (mt (gaspOff_iff e _).mp hoff)]
    rfl
  · rw [claimGasp_up hup hrep, State.gaspUp, if_pos ((gaspOff_iff e _).mpr hoff)]
    rfl
  · rw [claimGasp_suspect hs, State.gaspSuspect, if_neg (mt (gaspOff_iff e _).mp hoff)]
    rfl
  · rw [claimGasp_suspect hs, State.gaspSuspect, if_pos ((gaspOff_iff e _).mpr hoff)]
    rfl
  · rw [claimGasp_downFibre hs, State.lateGasp, if_pos hd]
    rfl
  · rw [claimGasp_downFibre hs, State.lateGasp, if_neg hd]
    rfl

/-! ## LOSS (R74, R76) -/

theorem claimLoss_up {s : State} {n : Fin 1024} (h : (s.term n).state = .up) (e : TermEntry) (o : Origin) :
    s.claimLoss n e o = .taken (s.lossUp n e o) := by
  simp only [State.claimLoss, h]

theorem claimLoss_gasped {s : State} {n : Fin 1024} (h : (s.term n).state = .gasped) (e : TermEntry) (o : Origin) :
    s.claimLoss n e o = .taken (s.putTerm n (s.moveTo (s.term n) .downPower none)) := by
  simp only [State.claimLoss, h]

/-- Settles O38, cell by cell of TABLE 5-3. -/
theorem lossTaken : Obligations.LossTaken := by
  intro s tag r f p x n e h
  dsimp only
  have ⟨_, hterminal, hentry⟩ := h
  obtain ⟨t, hexec, htook, _⟩ := about_claimed h (routeTerminal_about hterminal hentry _)
  refine ⟨t, hexec, fun hup hgrace => htook _ ?_, fun hup hgrace => htook _ ?_, fun hs => htook _ ?_⟩
  · rw [claimLoss_up hup, State.lossUp, if_pos hgrace]
    rfl
  · rw [claimLoss_up hup, State.lossUp, if_neg (Nat.pos_iff_ne_zero.mp hgrace)]
    rfl
  · exact claimLoss_gasped hs e _

/-! ## RESTORE (R75, R77, R79, R82, R83) -/

theorem claimRestore_suspect {s : State} {n : Fin 1024} (h : (s.term n).state = .suspect) (e : TermEntry) (o : Origin) :
    s.claimRestore n e o = { state := s.blip n o, answer := .taken, blip := true } := by
  simp only [State.claimRestore, h]

/-- A RESTORE of an outage other than SUSPECT is a return with a stale-gasp deadline (R75, R79). -/
theorem claimRestore_return {s : State} {n : Fin 1024}
    (h : (s.term n).state ∈ [TState.gasped, .downFibre, .downPower, .downOff]) (e : TermEntry) (o : Origin) :
    s.claimRestore n e o = .taken (s.returnUp n e (some s.followEnd) o) := by
  unfold State.claimRestore
  cases hs : (s.term n).state with
  | gasped => rfl
  | downFibre => rfl
  | downPower => rfl
  | downOff => rfl
  | unlisted => exact absurd (hs ▸ h) (by decide)
  | up => exact absurd (hs ▸ h) (by decide)
  | suspect => exact absurd (hs ▸ h) (by decide)

/-- What a return to UP does, by the group its outage counted in (R80, R82). -/
theorem returnUp_eq {s : State} {n : Fin 1024} {e : TermEntry} {g : Option GroupId}
    (hg : countingGroup e (s.term n).state = g) (deadline : Option Time) (o : Origin) :
    s.returnUp n e deadline o =
      ((((s.putTerm n { s.moveTo (s.term n) .up deadline with disp := .none }).leaveGroup g n (s.term n).disp).reportReturn
        n (s.term n).state (s.term n).disp o).handDown s.buildingDown o) := by
  rw [State.returnUp, hg]

theorem countingGroup_gasped_downPower {e : TermEntry} {st : TState} (h : st = .gasped ∨ st = .downPower) :
    countingGroup e st = some (.zone e.zone) := by
  rcases h with rfl | rfl
  · rfl
  · rfl

/-! ## The report of a return (R82, R83) -/

theorem reportReturn_not_due {s : State} {n : Fin 1024} {d : Disp} (h : ¬(d = .reported ∧ (s.term n).muted = false))
    (st : TState) (o : Origin) : s.reportReturn n st d o = s := by
  unfold State.reportReturn
  exact if_neg (fun hc => h (by simpa using hc))

theorem reportReturn_due {s : State} {n : Fin 1024} {d : Disp} (h : d = .reported ∧ (s.term n).muted = false)
    (st : TState) (o : Origin) : s.reportReturn n st d o = if st = .gasped then s.brownout n o else
      s.makeReport { origin := o, subject := some n.val, payload := .terminalUp } := by
  unfold State.reportReturn
  exact if_pos (by simpa using h)

/-- A brownout that is not reported counts as suppressed, up to the limit of its counter (R83). -/
theorem suppressBrownout_cases (s : State) :
    (s.table.suppressed < 65535 → s.suppressBrownout =
      { s with table := { s.table with suppressed := s.table.suppressed + 1 } }.mark 1280) ∧
    (s.table.suppressed = 65535 → s.suppressBrownout = s) := by
  refine ⟨fun h => ?_, fun h => ?_⟩
  · have hne : (s.table.suppressed + 1 != s.table.suppressed) = true := bne_iff_ne.mpr (by omega)
    rw [State.suppressBrownout, sat16_below h, hne]
    rfl
  · rw [State.suppressBrownout, sat16_full h, bne_self_eq_false]
    rfl

theorem brownout_every {s : State} (hout : s.corr.stormIn = false) (hmode : s.settings.brownoutMode = .every)
    (n : Fin 1024) (o : Origin) :
    s.brownout n o = s.makeReport { origin := o, subject := some n.val, payload := .terminalBrownout } := by
  simp only [State.brownout, State.brownoutReported, hout, hmode]
  rfl

theorem brownout_single {s : State} (hout : s.corr.stormIn = false) (hmode : s.settings.brownoutMode = .single)
    (harmed : s.table.brownoutArmed = true) (n : Fin 1024) (o : Origin) :
    s.brownout n o = ({ s with table := { s.table with brownoutArmed := false } }.mark 1280).makeReport
      { origin := o, subject := some n.val, payload := .terminalBrownout } := by
  have hput : s.putBrownoutArmed false = { s with table := { s.table with brownoutArmed := false } }.mark 1280 :=
    if_neg (by rw [harmed]; decide)
  simp only [State.brownout, State.brownoutReported, hout, hmode, harmed, hput]
  rfl

theorem brownout_suppressed {s : State} (h : s.corr.stormIn = true ∨ s.settings.brownoutMode = .none ∨
    (s.settings.brownoutMode = .single ∧ s.table.brownoutArmed = false)) (n : Fin 1024) (o : Origin) :
    s.brownout n o = s.suppressBrownout := by
  have hnot : s.brownoutReported = false := by
    unfold State.brownoutReported
    rcases h with h | h | ⟨h, hoff⟩
    · rw [h]
      rfl
    · rw [h, Bool.and_false]
    · rw [h]
      simp [hoff]
  rw [State.brownout, hnot]
  rfl

theorem reportReturn_outcomes (s : State) (n : Fin 1024) (st : TState) (d : Disp) (o : Origin) :
    let report (u : State) (p : Payload) := u.makeReport { origin := o, subject := some n.val, payload := p }
    let due := d = .reported ∧ (s.term n).muted = false
    (¬due → s.reportReturn n st d o = s) ∧
    (due → st ≠ .gasped → s.reportReturn n st d o = report s .terminalUp) ∧
    (due → st = .gasped → s.reportReturn n st d o = s.brownout n o) := by
  refine ⟨fun h => reportReturn_not_due h st o, fun h hst => ?_, fun h hst => ?_⟩
  · rw [reportReturn_due h, if_neg hst]
  · rw [reportReturn_due h, if_pos hst]

/-- Settles O39, cell by cell of TABLE 5-3. -/
theorem restoreTaken : Obligations.RestoreTaken := by
  refine ⟨fun s tag r f p x n e h => ?_, fun s n st d o => ?_⟩
  · dsimp only
    have ⟨_, hterminal, hentry⟩ := h
    obtain ⟨t, hexec, htook, hblip⟩ := about_claimed h (routeTerminal_about hterminal hentry _)
    refine ⟨t, hexec, fun hs => hblip _ ?_, fun hs => htook _ ?_, fun hs => htook _ ?_, fun hs => htook _ ?_⟩
    · exact (claimRestore_suspect hs e _).trans (by rw [State.blip]; rfl)
    · rw [claimRestore_return (by simp [hs]), returnUp_eq (g := some (.tap e.tap)) (by rw [hs]; rfl)]
      rfl
    · rw [claimRestore_return (by rcases hs with hs | hs <;> simp [hs]),
        returnUp_eq (countingGroup_gasped_downPower hs)]
      rfl
    · rw [claimRestore_return (by simp [hs]), returnUp_eq (g := none) (by rw [hs]; rfl)]
      rfl
  · obtain ⟨hnot, hup, hbrown⟩ := reportReturn_outcomes s n st d o
    refine ⟨hnot, hup, fun hdue hst hout hmode => ?_, fun hdue hst hout hmode harmed => ?_, fun hdue hst hsup => ?_⟩
    · rw [hbrown hdue hst, brownout_every hout hmode]
    · rw [hbrown hdue hst, brownout_single hout hmode harmed]
    · rw [hbrown hdue hst, brownout_suppressed hsup]
      exact suppressBrownout_cases s

/-! ## The timers of a terminal (R71, R75, R76, R77, R88) -/

theorem deadlineDue_iff (s : State) (n : Fin 1024) (st : TState) : s.deadlineDue n st = true ↔
    s.expiryReady = true ∧ (s.term n).state = st ∧ due s.time (s.term n).deadline = true := by
  simp [State.deadlineDue, and_assoc]

/-- The conditions a quiet time's end acts on (R71, R88). -/
def State.QuietDue (s : State) (n : Fin 1024) : Prop :=
  s.expiryReady = true ∧ (s.term n).muted = true ∧ due s.time (s.term n).quiet = true ∧ (s.term n).state = .up

theorem quietDue_iff (s : State) (n : Fin 1024) :
    (s.expiryReady && (s.term n).muted && due s.time (s.term n).quiet && (s.term n).state == .up) = true ↔
      s.QuietDue n := by
  simp [State.QuietDue, and_assoc]

/-- The timers of a terminal's deadline do nothing that is not due. -/
theorem exec_deadline_idle {s : State} {n : Fin 1024} (h : ∀ st, s.deadlineDue n st ≠ true) :
    exec (.graceExpiry n) s = .next s ∧ exec (.gaspFollowExpiry n) s = .next s ∧
      exec (.staleGaspWindowEnd n) s = .next s := by
  refine ⟨?_, ?_, congrArg Host.Outcome.next (if_neg (h .up))⟩
  · simp only [exec, execGraceExpiry]
    cases s.entry? n with
    | none => rfl
    | some e => exact congrArg Host.Outcome.next (if_neg (h .suspect))
  · simp only [exec, execGaspFollowExpiry]
    cases s.entry? n with
    | none => rfl
    | some e => exact congrArg Host.Outcome.next (if_neg (h .gasped))

theorem exec_quiet_idle {s : State} {n : Fin 1024} (h : ¬s.QuietDue n) : exec (.quietExpiry n) s = .next s :=
  congrArg Host.Outcome.next (if_neg (mt (quietDue_iff s n).mp h))

theorem exec_graceExpiry_due {s : State} {n : Fin 1024} {e : TermEntry} (he : s.entry? n = some e)
    (h : s.deadlineDue n .suspect = true) : exec (.graceExpiry n) s = .next (s.graceEnd n e) := by
  simp only [exec, execGraceExpiry, he, h, if_true]

theorem exec_gaspFollowExpiry_due {s : State} {n : Fin 1024} {e : TermEntry} (he : s.entry? n = some e)
    (h : s.deadlineDue n .gasped = true) : exec (.gaspFollowExpiry n) s = .next (s.returnUp n e none engineOrigin) := by
  simp only [exec, execGaspFollowExpiry, he, h, if_true]

theorem exec_quietExpiry_due {s : State} {n : Fin 1024} (h : s.QuietDue n) :
    exec (.quietExpiry n) s = .next (s.unmute n engineOrigin).1 :=
  congrArg Host.Outcome.next (if_pos ((quietDue_iff s n).mpr h))

/-- UNMUTE of a muted terminal whose disposition is not QUIET (R89). -/
theorem unmute_muted {s : State} {n : Fin 1024} (hm : (s.term n).muted = true) (hd : (s.term n).disp ≠ .quiet)
    (o : Origin) : s.unmute n o = ((s.putTerm n (s.term n).unmute).makeReport (termDraft o n .unmuted), 1) := by
  unfold State.unmute
  dsimp only
  rw [hm, Bool.not_true, if_neg Bool.false_ne_true, if_neg hd]

/-- Settles O40. -/
theorem terminalTimersExpire : Obligations.TerminalTimersExpire := by
  intro s n
  dsimp only
  refine ⟨fun hr => ?_, fun hd => ?_, fun hq => ?_, fun hr hd e he => ⟨fun hs => ?_, fun hs => ?_⟩,
    fun hr hd hs => ?_, fun hr hq hm hs hdisp => ?_⟩
  · have hnot : ∀ st, s.deadlineDue n st ≠ true := fun st h =>
      absurd (hr.symm.trans ((deadlineDue_iff s n st).mp h).1) (by decide)
    obtain ⟨hg, hf, hs⟩ := exec_deadline_idle hnot
    exact ⟨hg, hf, hs, exec_quiet_idle fun h => absurd (hr.symm.trans h.1) (by decide)⟩
  · exact exec_deadline_idle fun st h => absurd (hd.symm.trans ((deadlineDue_iff s n st).mp h).2.2) (by decide)
  · refine exec_quiet_idle fun ⟨_, hm, hdue, hup⟩ => ?_
    rcases hq with hq | hq | hq
    · exact absurd (hq.symm.trans hdue) (by decide)
    · exact absurd (hq.symm.trans hm) (by decide)
    · exact hq hup
  · exact exec_graceExpiry_due he ((deadlineDue_iff s n _).mpr ⟨hr, hs, hd⟩)
  · rw [exec_gaspFollowExpiry_due he ((deadlineDue_iff s n _).mpr ⟨hr, hs, hd⟩),
      returnUp_eq (countingGroup_gasped_downPower (.inl hs)), hs]
    rfl
  · exact congrArg Host.Outcome.next (if_pos ((deadlineDue_iff s n _).mpr ⟨hr, hs, hd⟩))
  · rw [exec_quietExpiry_due ⟨hr, hm, hq, hs⟩, unmute_muted hm hdisp]
    rfl

end Sys2Proof.Machine
end

section
/-! PROOF. The members of a group, its measures and its two conditions. -/

namespace Sys2Proof.Machine

/-! ## The members a map lists, by number -/

/-- The numbers, below N, of the entries of a list that meet a test. -/
def numbersOf {α : Type} (N : Nat) [NeZero N] (l : List α) (q : α × Nat → Bool) : List (Fin N) :=
  (l.zipIdx.filter q).map (fun x => Fin.ofNat N x.2)

section
variable {α : Type} {N : Nat} [NeZero N]

theorem lt_of_mem_zipIdx {l : List α} {x : α × Nat} (h : x ∈ l.zipIdx) : x.2 < l.length := by
  have hx := List.mk_mem_zipIdx_iff_getElem?.mp h
  exact (List.getElem?_eq_some_iff.mp hx).1

theorem mem_numbersOf {l : List α} (hl : l.length ≤ N) (q : α × Nat → Bool) (j : Fin N) :
    j ∈ numbersOf N l q ↔ ∃ a, l[j.val]? = some a ∧ q (a, j.val) = true := by
  unfold numbersOf
  simp only [List.mem_map, List.mem_filter]
  constructor
  · rintro ⟨⟨a, k⟩, ⟨hmem, hq⟩, rfl⟩
    have hk : k < l.length := lt_of_mem_zipIdx hmem
    have hval : (Fin.ofNat N k).val = k := Nat.mod_eq_of_lt (by omega)
    rw [hval]
    exact ⟨a, List.mk_mem_zipIdx_iff_getElem?.mp hmem, hq⟩
  · rintro ⟨a, ha, hq⟩
    exact ⟨(a, j.val), ⟨List.mk_mem_zipIdx_iff_getElem?.mpr ha, hq⟩, Fin.ext (Nat.mod_eq_of_lt j.isLt)⟩

/-- The numbers rise. -/
theorem numbersOf_pairwise {l : List α} (hl : l.length ≤ N) (q : α × Nat → Bool) :
    (numbersOf N l q).Pairwise (· < ·) := by
  have hidx : l.zipIdx.Pairwise (fun x y => x.2 < y.2) := by
    have hrange : (l.zipIdx.map Prod.snd).Pairwise (· < ·) := by
      rw [List.zipIdx_map_snd]
      exact List.pairwise_lt_range'
    exact List.pairwise_map.mp hrange
  refine List.pairwise_map.mpr ((hidx.filter q).imp_of_mem fun {x y} hx hy hlt => ?_)
  have hxl := lt_of_mem_zipIdx (List.mem_of_mem_filter hx)
  have hyl := lt_of_mem_zipIdx (List.mem_of_mem_filter hy)
  refine Fin.lt_def.mpr ?_
  show x.2 % N < y.2 % N
  rw [Nat.mod_eq_of_lt (by omega), Nat.mod_eq_of_lt (by omega)]
  exact hlt

/-- Counting the entries of a list by a test of their numbers is counting numbers. -/
theorem countP_zipIdx {l : List α} (hl : l.length ≤ N) (test : Fin N → Bool) :
    l.zipIdx.countP (fun x => test (Fin.ofNat N x.2)) =
      (List.finRange N).countP (fun n => l[n.val]?.isSome && test n) := by
  have hsame : numbersOf N l (fun x => test (Fin.ofNat N x.2)) =
      (List.finRange N).filter (fun n => l[n.val]?.isSome && test n) := by
    refine (numbersOf_pairwise hl _).eq_of_mem_iff ((List.pairwise_lt_finRange N).filter _) fun j => ?_
    rw [mem_numbersOf hl, List.mem_filter]
    have hj : Fin.ofNat N j.val = j := Fin.ext (Nat.mod_eq_of_lt j.isLt)
    simp only [hj, List.mem_finRange, true_and, Bool.and_eq_true, Option.isSome_iff_exists]
    exact exists_and_right
  rw [List.countP_eq_length_filter, List.countP_eq_length_filter, ← hsame, numbersOf, List.length_map]

end

/-! ## Children and parents (R38) -/

theorem children_riser {s : State} {m : BuildingMap} (hm : s.map = some m) (r : Fin 32) :
    s.children (.riser r) = (numbersOf 128 m.taps (fun x => x.1 == r)).map GroupId.tap := by
  unfold State.children numbersOf
  rw [hm, List.map_map]
  rfl

theorem children_port {s : State} {m : BuildingMap} (hm : s.map = some m) (p : Fin 16) :
    s.children (.port p) = (numbersOf 32 m.risers (fun x => x.1 == p)).map GroupId.riser := by
  unfold State.children numbersOf
  rw [hm, List.map_map]
  rfl

theorem mem_children_riser {s : State} {m : BuildingMap} (hm : s.map = some m) (hl : m.taps.length ≤ 128) (r : Fin 32)
    (c : GroupId) : c ∈ s.children (.riser r) ↔ ∃ k : Fin 128, c = .tap k ∧ m.taps[k.val]? = some r := by
  rw [children_riser hm, List.mem_map]
  simp only [mem_numbersOf hl, beq_iff_eq, exists_eq_right]
  exact exists_congr fun k => by rw [and_comm, eq_comm]

theorem mem_children_port {s : State} {m : BuildingMap} (hm : s.map = some m) (hl : m.risers.length ≤ 32) (p : Fin 16)
    (c : GroupId) : c ∈ s.children (.port p) ↔ ∃ k : Fin 32, c = .riser k ∧ m.risers[k.val]? = some p := by
  rw [children_port hm, List.mem_map]
  simp only [mem_numbersOf hl, beq_iff_eq, exists_eq_right]
  exact exists_congr fun k => by rw [and_comm, eq_comm]

theorem children_pairwise {s : State} {m : BuildingMap} (hm : s.map = some m) (htaps : m.taps.length ≤ 128)
    (hrisers : m.risers.length ≤ 32) (g : GroupId) : ((s.children g).map GroupId.number).Pairwise (· < ·) := by
  cases g with
  | tap k => rw [children_tap]; exact .nil
  | zone z => rw [children_zone]; exact .nil
  | riser r =>
    rw [children_riser hm, List.map_map, List.pairwise_map]
    exact numbersOf_pairwise htaps _
  | port p =>
    rw [children_port hm, List.map_map, List.pairwise_map]
    exact numbersOf_pairwise hrisers _

theorem parent_tap_iff {s : State} {m : BuildingMap} (hm : s.map = some m) (k : Fin 128) (g : GroupId) :
    s.parent? (.tap k) = some g ↔ ∃ r, g = .riser r ∧ m.taps[k.val]? = some r := by
  rw [State.parent?, hm, Option.bind_some, Option.map_eq_some_iff]
  exact exists_congr fun r => by rw [and_comm, eq_comm]

theorem parent_riser_iff {s : State} {m : BuildingMap} (hm : s.map = some m) (k : Fin 32) (g : GroupId) :
    s.parent? (.riser k) = some g ↔ ∃ p, g = .port p ∧ m.risers[k.val]? = some p := by
  rw [State.parent?, hm, Option.bind_some, Option.map_eq_some_iff]
  exact exists_congr fun r => by rw [and_comm, eq_comm]

theorem portMapped_iff {s : State} {m : BuildingMap} (hm : s.map = some m) (hl : m.risers.length ≤ 32) (p : Fin 16) :
    s.portMapped p = true ↔ ∃ k : Fin 32, m.risers[k.val]? = some p := by
  rw [State.portMapped, hm, List.contains_iff_mem, List.mem_iff_getElem?]
  refine ⟨fun ⟨i, hi⟩ => ?_, fun ⟨k, hk⟩ => ⟨k.val, hk⟩⟩
  have hlt := (List.getElem?_eq_some_iff.mp hi).1
  exact ⟨⟨i, by omega⟩, hi⟩

/-! ## Without a map -/

theorem entries_nil {s : State} (h : s.map = none) : s.entries = [] := by rw [State.entries, h]

theorem children_nil {s : State} (h : s.map = none) (g : GroupId) : s.children g = [] := by
  unfold State.children
  rw [h]

theorem termMembers_nil {s : State} (h : s.map = none) (g : GroupId) : s.termMembers g = [] := by
  rw [State.termMembers, entries_nil h]
  rfl

theorem parent_nil {s : State} (h : s.map = none) (g : GroupId) : s.parent? g = none := by
  cases g with
  | tap k => rw [State.parent?, h]; rfl
  | riser k => rw [State.parent?, h]; rfl
  | port k => rfl
  | zone k => rfl

/-! ## Counts of terminals (R91) -/

/-- The terminals of a map counted by a test of their state. -/
theorem countTerms_eq {s : State} (hl : s.entries.length ≤ 1024) (test : TState → Bool) : s.countTerms test =
    (List.finRange 1024).countP (fun n => (s.entry? n).isSome && test (s.term n).state) := by
  unfold State.countTerms State.entry?
  cases hm : s.map with
  | none =>
    rw [entries_nil hm]
    simp
  | some m =>
    unfold State.entries at hl ⊢
    rw [hm] at hl ⊢
    exact countP_zipIdx (by simpa using hl) (fun n => test (s.term n).state)

/-- The terminals of a map counted by a list of states. -/
theorem countTerms_list {s : State} (hl : s.entries.length ≤ 1024) {test : TState → Bool} {l : List TState}
    (h : ∀ t, test t = decide (t ∈ l)) : s.countTerms test =
      (List.finRange 1024).countP (fun n => (s.entry? n).isSome && decide ((s.term n).state ∈ l)) := by
  rw [countTerms_eq hl, funext h]

theorem stateCounts_eq {s : State} (hl : s.entries.length ≤ 1024) :
    let inState (l : List TState) :=
      (List.finRange 1024).countP (fun n => (s.entry? n).isSome && decide ((s.term n).state ∈ l))
    s.stateCounts =
      { up := inState [.up], gasped := inState [.gasped], suspect := inState [.suspect], downFibre := inState [.downFibre],
        downPower := inState [.downPower], downOff := inState [.downOff] } := by
  unfold State.stateCounts
  rw [countTerms_list hl (l := [.up]) (fun t => by cases t <;> rfl),
    countTerms_list hl (l := [.gasped]) (fun t => by cases t <;> rfl),
    countTerms_list hl (l := [.suspect]) (fun t => by cases t <;> rfl),
    countTerms_list hl (l := [.downFibre]) (fun t => by cases t <;> rfl),
    countTerms_list hl (l := [.downPower]) (fun t => by cases t <;> rfl),
    countTerms_list hl (l := [.downOff]) (fun t => by cases t <;> rfl)]

/-! ## Members and measures (R94, TABLE 6-3) -/

theorem termMembers_pairwise {s : State} (hl : s.entries.length ≤ 1024) (g : GroupId) :
    (s.termMembers g).Pairwise (· < ·) := by
  unfold State.termMembers State.entries at *
  cases hm : s.map with
  | none => exact .nil
  | some m =>
    rw [hm] at hl
    exact numbersOf_pairwise (by simpa using hl) (fun e => memberOf g e.1)

theorem memberOf_tap_iff (k : Fin 128) (e : TermEntry) : memberOf (.tap k) e = true ↔ e.tap = k := beq_iff_eq

theorem memberOf_zone_iff (z : Fin 64) (e : TermEntry) : memberOf (.zone z) e = true ↔ e.zone = z := beq_iff_eq

/-- The members of a tap or zone whose state is in a list. -/
def State.inStates (s : State) (g : GroupId) (l : List TState) : Nat :=
  (s.termMembers g).countP (fun n => decide ((s.term n).state ∈ l))

/-- The children of a riser or port that count as down. -/
def State.countedChildren (s : State) (g : GroupId) : Nat :=
  (s.children g).countP (fun c => decide ((s.group c).state ∈ [.parked, .raised, .clearing]))

theorem countP_counted (s : State) (l : List GroupId) : l.countP (fun c => (s.group c).state.counted) =
    l.countP (fun c => decide ((s.group c).state ∈ [.parked, .raised, .clearing])) :=
  List.countP_congr fun c _ => by cases (s.group c).state <;> decide

/-- A measure of a tap or zone counts its members by their states. -/
theorem countP_states (s : State) (l : List (Fin 1024)) {test : TState → Bool} {states : List TState}
    (h : ∀ t, test t = decide (t ∈ states)) :
    l.countP (fun n => test (s.term n).state) = l.countP (fun n => decide ((s.term n).state ∈ states)) :=
  List.countP_congr fun n _ => by rw [h]

theorem down_tap (s : State) (k : Fin 128) : s.down (.tap k) = s.inStates (.tap k) [.downFibre] := by
  rw [State.down, children_tap, List.countP_nil, Nat.add_zero]
  exact countP_states s _ (fun t => by cases t <;> rfl)

theorem down_zone (s : State) (z : Fin 64) : s.down (.zone z) = s.inStates (.zone z) [.gasped, .downPower] := by
  rw [State.down, children_zone, List.countP_nil, Nat.add_zero]
  exact countP_states s _ (fun t => by cases t <;> rfl)

theorem eligible_tap (s : State) (k : Fin 128) :
    s.eligible (.tap k) = s.inStates (.tap k) [.up, .suspect, .downFibre] := by
  rw [State.eligible, children_tap, List.length_nil, Nat.add_zero]
  exact countP_states s _ (fun t => by cases t <;> rfl)

theorem eligible_zone (s : State) (z : Fin 64) :
    s.eligible (.zone z) = s.inStates (.zone z) [.up, .gasped, .suspect, .downPower] := by
  rw [State.eligible, children_zone, List.length_nil, Nat.add_zero]
  exact countP_states s _ (fun t => by cases t <;> rfl)

/-- A riser or port has no terminals of its own: it counts its children. -/
theorem measures_of_parent {s : State} {g : GroupId} (h : s.termMembers g = []) :
    s.members g = (s.children g).length ∧ s.down g = s.countedChildren g ∧ s.eligible g = s.members g := by
  unfold State.members State.down State.eligible State.countedChildren
  rw [h, countP_counted]
  simp

/-! ## The two conditions (R101, R117) -/

theorem percent_le_iff (p n d : Nat) : percent p n ≤ d ↔ p * n ≤ 100 * d := by
  unfold percent
  generalize p * n = x
  omega

theorem raiseCondition_iff (s : State) (g : GroupId) : s.raiseCondition g = true ↔ (s.group g).dark = true ∨
    (0 < s.eligible g ∧ minMembers s.settings g ≤ s.down g ∧
      raisePercent s.settings g * s.eligible g ≤ 100 * s.down g) := by
  unfold State.raiseCondition State.darkPort
  rw [Bool.or_eq_true, Bool.and_eq_true, decide_eq_true_iff, decide_eq_true_iff, Nat.max_le, percent_le_iff]

theorem clearingCondition_iff (s : State) (g : GroupId) : s.clearingCondition g = true ↔ (s.group g).dark = false ∧
    (s.down g = 0 ∨ 100 * s.down g < clearPercent s.settings g * s.members g) := by
  have hpercent : s.down g < percent (clearPercent s.settings g) (s.members g) ↔
      100 * s.down g < clearPercent s.settings g * s.members g := by
    rw [← Nat.not_le, percent_le_iff, Nat.not_le]
  unfold State.clearingCondition State.darkPort State.clearLevel
  rw [Bool.and_eq_true, Bool.not_eq_true', decide_eq_true_iff, lt_max_iff, hpercent, Nat.lt_one_iff]

/-- Settles O41. -/
theorem groupConditions : Obligations.GroupConditions := by
  refine ⟨fun s m hm htaps hrisers => ⟨mem_children_riser hm htaps, mem_children_port hm hrisers,
      children_pairwise hm htaps hrisers, parent_tap_iff hm, parent_riser_iff hm, portMapped_iff hm hrisers⟩,
    fun s p z => ⟨rfl, rfl⟩, fun s hm => ⟨fun g => ⟨children_nil hm g, termMembers_nil hm g, parent_nil hm g⟩,
      fun n => by rw [State.entry?, hm], fun p => by rw [State.portMapped, hm]⟩,
    fun s hl => ⟨countTerms_list hl (fun t => by cases t <;> rfl), stateCounts_eq hl⟩,
    fun s k z n hl => ⟨?_, ?_, termMembers_pairwise hl⟩, fun s k z r p => ?_,
    fun s g => ⟨raiseCondition_iff s g, clearingCondition_iff s g⟩,
    fun c k r p z => ⟨⟨rfl, rfl, rfl⟩, ⟨rfl, rfl, rfl⟩, ⟨rfl, rfl, rfl⟩, ⟨rfl, rfl, rfl⟩⟩⟩
  · simp only [mem_termMembers s _ n hl, memberOf_tap_iff]
  · simp only [mem_termMembers s _ n hl, memberOf_zone_iff]
  · obtain ⟨hmr, hdr, her⟩ := measures_of_parent (termMembers_riser s r)
    obtain ⟨hmp, hdp, hep⟩ := measures_of_parent (termMembers_port s p)
    refine ⟨?_, ?_, hmr, hmp, down_tap s k, down_zone s z, eligible_tap s k, eligible_zone s z, hdr, hdp, her, hep⟩
    · rw [State.members, children_tap, List.length_nil, Nat.add_zero]
    · rw [State.members, children_zone, List.length_nil, Nat.add_zero]

end Sys2Proof.Machine
end

section
/-! PROOF. Joining and leaving groups, the clearing test, raising and releasing. -/

namespace Sys2Proof.Machine

/-! ## Gather windows (R95, R96) -/

/-- A group whose gather window opens with an end some milliseconds after an instant (R95, R96). -/
def State.opened (u : State) (h : GroupId) (now : Time) (ms : Nat) : State :=
  u.putGroup h { u.group h with state := .gathering, settled := 0, deadline := some (now + BitVec.ofNat 32 ms) }

theorem openWindow_eq (u : State) (h : GroupId) : u.openWindow h = u.opened h u.time (windowOf u.settings h) := rfl

theorem group_opened_ne {g h : GroupId} (hne : g ≠ h) (u : State) (now : Time) (ms : Nat) :
    (u.opened g now ms).group h = u.group h := by
  rw [State.opened, group_putGroup, if_neg hne]

/-! ## Joining a group (R80, R95, R96, R97) -/

theorem group_listUnlessPrompt_ne {g h : GroupId} (hne : g ≠ h) (s : State) (n : Fin 1024) (isPrompt : Bool) :
    (s.listUnlessPrompt g n isPrompt).group h = s.group h := by
  cases isPrompt with
  | true => exact group_putTerm s n _ h
  | false => exact (group_putTerm _ n _ h).trans (by rw [group_putGroup, if_neg hne])

/-- A tap whose riser is not CLEAR opens its own window alone (R96). -/
theorem propagate_stops {u : State} {g r : GroupId} (hr : u.parent? g = some r) (h : (u.group r).state ≠ .clear) :
    u.propagate g = u := by
  simp only [State.propagate, hr]
  exact if_neg h

/-- A tap's window opens its CLEAR riser's, and that its port's where the port is CLEAR too (R96). -/
theorem propagate_riser {u : State} {g r p : GroupId} (hr : u.parent? g = some r) (h : (u.group r).state = .clear)
    (hp : (u.openWindow r).parent? r = some p) : u.propagate g =
      if ((u.openWindow r).group p).state = .clear then (u.openWindow r).openWindow p else u.openWindow r := by
  simp only [State.propagate, hr, hp]
  exact if_pos h

theorem join_raised {s : State} {g : GroupId} (h : (s.group g).state = .raised ∨ (s.group g).state = .clearing)
    (n : Fin 1024) (isPrompt : Bool) :
    s.join g n isPrompt = (s.putDisp n (if isPrompt then .reported else .covered)).clearingTest g := by
  rcases h with h | h
  · simp only [State.join, h]
  · simp only [State.join, h]

theorem join_gathering {s : State} {g : GroupId} (h : (s.group g).state = .gathering ∨ (s.group g).state = .parked)
    (n : Fin 1024) (isPrompt : Bool) : s.join g n isPrompt = s.listUnlessPrompt g n isPrompt := by
  rcases h with h | h
  · simp only [State.join, h]
  · simp only [State.join, h]

theorem join_clear {s : State} {g : GroupId} (h : (s.group g).state = .clear) (n : Fin 1024) (isPrompt : Bool) :
    s.join g n isPrompt = ((s.openWindow g).listUnlessPrompt g n isPrompt).propagate g := by
  simp only [State.join, h]

/-- A terminal that joins a CLEAR tap: its riser's window opens where that is CLEAR, and then its port's (R96). -/
theorem join_clear_tap {s : State} {k : Fin 128} {r : Fin 32} (h : (s.group (.tap k)).state = .clear)
    (hr : s.parent? (.tap k) = some (.riser r)) (n : Fin 1024) (isPrompt : Bool) :
    let u := (s.opened (.tap k) s.time s.settings.tapWindow).listUnlessPrompt (.tap k) n isPrompt
    ((s.group (.riser r)).state ≠ .clear → s.join (.tap k) n isPrompt = u) ∧
    (∀ p, (s.group (.riser r)).state = .clear → s.parent? (.riser r) = some (.port p) →
      let v := u.opened (.riser r) s.time s.settings.riserWindow
      ((s.group (.port p)).state ≠ .clear → s.join (.tap k) n isPrompt = v) ∧
      ((s.group (.port p)).state = .clear →
        s.join (.tap k) n isPrompt = v.opened (.port p) s.time s.settings.portWindow)) := by
  intro u
  have hjoin : s.join (.tap k) n isPrompt = u.propagate (.tap k) := join_clear h n isPrompt
  have hworks : Works s u := (Works.openWindow s _).trans (Works.listUnlessPrompt _ _ n isPrompt)
  have hgroup : ∀ g, GroupId.tap k ≠ g → u.group g = s.group g := fun g hne =>
    (group_listUnlessPrompt_ne hne _ n isPrompt).trans (group_opened_ne hne s _ _)
  have hriser : u.group (.riser r) = s.group (.riser r) := hgroup (.riser r) nofun
  have hparent : u.parent? (.tap k) = some (.riser r) := (parent_of_map hworks.map _).trans hr
  rw [hjoin]
  refine ⟨fun hs => propagate_stops hparent (by rw [hriser]; exact hs), fun p hs hp => ?_⟩
  dsimp only
  have hopen : u.openWindow (.riser r) = u.opened (.riser r) s.time s.settings.riserWindow := by
    rw [openWindow_eq, hworks.time, State.settings, hworks.settings]
    rfl
  have hworks' : Works s (u.openWindow (.riser r)) := hworks.trans (Works.openWindow u _)
  have hport : (u.openWindow (.riser r)).group (.port p) = s.group (.port p) :=
    (group_opened_ne (g := .riser r) (h := .port p) nofun u _ _).trans (hgroup (.port p) nofun)
  have hopen' : (u.openWindow (.riser r)).openWindow (.port p) =
      (u.openWindow (.riser r)).opened (.port p) s.time s.settings.portWindow := by
    rw [openWindow_eq, hworks'.time, State.settings, hworks'.settings]
    rfl
  rw [propagate_riser hparent (by rw [hriser]; exact hs) ((parent_of_map hworks'.map _).trans hp), hport, ← hopen, ← hopen']
  exact ⟨fun hc => if_neg hc, fun hc => if_pos hc⟩

/-! ## The clearing test (R118) -/

theorem clearingTest_clears {s : State} {g : GroupId} (h : (s.group g).state = .raised)
    (hc : s.clearingCondition g = true) : s.clearingTest g = s.putGroup g
      { s.group g with state := .clearing, deadline := some (after s.time s.settings.holdDown) } := by
  simp only [State.clearingTest, h]
  exact if_pos hc

theorem clearingTest_returns {s : State} {g : GroupId} (h : (s.group g).state = .clearing)
    (hc : s.clearingCondition g = false) : s.clearingTest g = s.putGroup g
      { s.group g with state := .raised, deadline := none } := by
  simp only [State.clearingTest, h, hc]
  rfl

theorem clearingTest_stays {s : State} {g : GroupId}
    (h : (s.group g).state = .raised ∧ s.clearingCondition g = false ∨ (s.group g).state = .clearing ∧
      s.clearingCondition g = true ∨ (s.group g).state = .clear ∨ (s.group g).state = .gathering ∨
      (s.group g).state = .parked) : s.clearingTest g = s := by
  rcases h with ⟨h, hc⟩ | ⟨h, hc⟩ | h | h | h
  · simp only [State.clearingTest, h, hc]
    rfl
  · simp only [State.clearingTest, h, hc, if_true]
  · simp only [State.clearingTest, h]
  · simp only [State.clearingTest, h]
  · simp only [State.clearingTest, h]

theorem unlist_eq (s : State) (g : GroupId) (n : Fin 1024) : s.unlist g n =
    s.putGroup g { s.group g with pending := (s.group g).pending.filter (fun k => decide (k ≠ n)) } := by
  have htest : (fun k : Fin 1024 => k != n) = fun k => decide (k ≠ n) := funext fun k => by
    by_cases hk : k = n <;> simp [hk]
  rw [State.unlist, htest]

/-- Settles O42. -/
theorem joinsAndClearingTests : Obligations.JoinsAndClearingTests := by
  refine ⟨fun s g n => ⟨unlist_eq s g n, rfl⟩, fun s g n isPrompt => ⟨fun h => join_raised h n isPrompt,
    fun h => join_gathering h n isPrompt, ?_, ?_⟩,
    fun s g => ⟨clearingTest_clears, clearingTest_returns, clearingTest_stays⟩⟩
  · rintro z rfl h
    exact join_clear h n isPrompt
  · rintro k r rfl h hr
    exact join_clear_tap h hr n isPrompt

end Sys2Proof.Machine
end

section
/-! PROOF. What raising and releasing do to members and children, and the verdicts of taps and zones. -/

namespace Sys2Proof.Machine

/-! ## Raising (R98, R111) -/

/-- A group raised: its pending members are covered, its own record raised with empty lists, and nothing else but marks
changes (R98). -/
theorem becomeRaised_outcome (s : State) (g : GroupId) (covered : Bool) : Framed s (s.becomeRaised g covered) ∧
    (∀ h, (s.becomeRaised g covered).group h = if g = h then { s.group g with
      state := .raised, deadline := none, covered := covered, pending := [], parked := [] } else s.group h) ∧
    ∀ n, (s.becomeRaised g covered).term n =
      if n ∈ (s.group g).pending then { s.term n with disp := .covered } else s.term n := by
  obtain ⟨hcorr, hframe, hterm⟩ := foldl_disp (fun s n => s.putDisp n .covered) (fun _ => .covered)
    (fun _ _ => rfl) (fun _ _ => rfl) (s.group g).pending s
  unfold State.becomeRaised State.coverPending
  dsimp only
  generalize (s.group g).pending.foldl (fun s n => s.putDisp n .covered) s = v at hcorr hframe hterm ⊢
  have hgroup : ∀ h, v.group h = s.group h := fun h => by rw [State.group, hcorr]; rfl
  refine ⟨(hframe.trans (.putGroup v g _)).trans (.putGroup _ g _), fun h => ?_, fun n => ?_⟩
  · rw [group_putGroup, group_putGroup, group_putGroup, if_pos rfl, hgroup]
    split
    · rfl
    · exact hgroup h
  · rw [term_putGroup, term_putGroup]
    exact hterm n

/-- What covering a group's children changes: their groups and marks, no terminal (R111). -/
theorem coverChildren_outcome (s : State) (g : GroupId) : s.coverChildren g =
    { s with corr := { s.corr with groups := (s.coverChildren g).corr.groups },
             mirror := { s.mirror with dirty := (s.coverChildren g).mirror.dirty } } ∧
    ∀ h, (s.coverChildren g).group h =
      if h ∈ s.children g ∧ ((s.group h).state = .raised ∨ (s.group h).state = .clearing) then
        { s.group h with covered := true } else s.group h := by
  obtain ⟨htable, hframe, hgroup⟩ := foldl_cover (s.children g) s
  have hraised : ∀ x : GState, x.isRaised = true ↔ x = .raised ∨ x = .clearing := by
    intro x
    cases x <;> decide
  simp only [hraised] at hgroup
  refine ⟨?_, hgroup⟩
  unfold State.coverChildren
  generalize (s.children g).foldl State.coverIfRaised s = v at htable hframe
  unfold Framed at hframe
  rw [htable] at hframe
  exact hframe

/-! ## Releasing (R84, R103) -/

/-- The disposition of a released terminal (R84). -/
def Terminal.releasedDisp (t : Terminal) : Disp := if t.muted then .quiet else .reported

/-- The members of a list released: their dispositions and marks, and nothing else (R84). -/
theorem releaseAll_outcome (s : State) (ns : List (Fin 1024)) :
    let u := ns.foldl State.releaseOne s
    u = { s with table := { s.table with terms := u.table.terms }, mirror := { s.mirror with dirty := u.mirror.dirty } } ∧
    ∀ n, u.term n = if n ∈ ns then { s.term n with disp := if (s.term n).muted then .quiet else .reported }
      else s.term n := by
  obtain ⟨hcorr, hframe, hterm⟩ := foldl_disp State.releaseOne Terminal.releasedDisp (fun _ _ => rfl)
    (fun _ _ => rfl) ns s
  refine ⟨?_, hterm⟩
  generalize ns.foldl State.releaseOne s = v at hcorr hframe
  unfold Framed at hframe
  rw [hcorr] at hframe
  exact hframe

/-- Settles O43. -/
theorem raisingAndReleasing : Obligations.RaisingAndReleasing := by
  refine ⟨fun s g covered => ?_, coverChildren_outcome, fun s g ns cause =>
    ⟨ns.foldl State.releaseOne s, rfl, releaseAll_outcome s ns⟩,
    fun ns => ⟨fun h => by rw [h]; rfl, batches8_cons ns⟩, fun s d ds => ⟨rfl, rfl⟩⟩
  obtain ⟨hframe, hgroup, hterm⟩ := becomeRaised_outcome s g covered
  exact ⟨hframe, (hgroup g).trans (if_pos rfl), fun h hne => (hgroup h).trans (if_neg hne.symm), hterm⟩

/-! ## The verdicts of taps and zones (R99, R102, R103, R110) -/

theorem childGathering_tap (s : State) (k : Fin 128) : s.childGathering (.tap k) = false := by
  rw [State.childGathering, children_tap]
  rfl

theorem childGathering_zone (s : State) (z : Fin 64) : s.childGathering (.zone z) = false := by
  rw [State.childGathering, children_zone]
  rfl

/-- A tap or zone, which has no children, is due for its verdict at its gather deadline (R99). -/
theorem verdictReady_iff {s : State} {g : GroupId} (h : s.childGathering g = false) :
    (s.expiryReady && s.verdictDue g) = true ↔
      s.expiryReady = true ∧ (s.group g).state = .gathering ∧ due s.time (s.group g).deadline = true := by
  unfold State.verdictDue
  rw [h]
  simp

theorem parentState_eq {s : State} {g p : GroupId} (h : s.parent? g = some p) :
    s.parentState g = (s.group p).state := by
  simp only [State.parentState, h]

theorem parkUnder_eq {s : State} {g p : GroupId} (h : s.parent? g = some p) (hne : g ≠ p) : s.parkUnder g =
    (s.putGroup g { s.group g with state := .parked, deadline := none }).putGroup p
      { s.group p with parked := (s.group p).parked ++ [g] } := by
  simp only [State.parkUnder, h, State.park]
  rw [group_putGroup, if_neg hne]

theorem parentTest_eq {s : State} {g p : GroupId} (h : s.parent? g = some p) : s.parentTest g = s.clearingTest p := by
  simp only [State.parentTest, h]

/-- A tap that meets its raise condition, by the state of its riser (R102). -/
theorem tapVerdict_raises {s : State} {k : Fin 128} {r : Fin 32} (hc : s.raiseCondition (.tap k) = true)
    (hr : s.parent? (.tap k) = some (.riser r)) :
    ((s.group (.riser r)).state = .clear → s.tapVerdict (.tap k) = s.raiseAlone (.tap k) .fibre) ∧
    ((s.group (.riser r)).state = .gathering ∨ (s.group (.riser r)).state = .parked →
      s.tapVerdict (.tap k) = s.parkUnder (.tap k)) ∧
    ((s.group (.riser r)).state = .raised ∨ (s.group (.riser r)).state = .clearing → s.tapVerdict (.tap k) =
      (((s.becomeRaised (.tap k) true).clearingTest (.tap k)).clearingTest (.riser r))) := by
  have hstate := parentState_eq hr
  have htest : ((s.becomeRaised (.tap k) true).clearingTest (.tap k)).parentTest (.tap k) =
      ((s.becomeRaised (.tap k) true).clearingTest (.tap k)).clearingTest (.riser r) :=
    parentTest_eq ((parent_of_map ((Works.becomeRaised s _ true).trans (Works.clearingTest _ _)).map _).trans hr)
  unfold State.tapVerdict
  rw [if_pos hc, hstate, htest]
  refine ⟨fun h => by rw [h], fun h => ?_, fun h => ?_⟩
  · rcases h with h | h <;> rw [h]
  · rcases h with h | h <;> rw [h]

/-- Settles O44. -/
theorem tapAndZoneVerdicts : Obligations.TapAndZoneVerdicts := by
  intro s k z
  dsimp only
  have htap := verdictReady_iff (childGathering_tap s k)
  have hzone := verdictReady_iff (childGathering_zone s z)
  have exec_tap : s.expiryReady = true ∧ (s.group (.tap k)).state = .gathering ∧
      due s.time (s.group (.tap k)).deadline = true → exec (.tapVerdict k) s = .next (s.tapVerdict (.tap k)) :=
    fun h => congrArg Host.Outcome.next (if_pos (htap.mpr h))
  have exec_zone : s.expiryReady = true ∧ (s.group (.zone z)).state = .gathering ∧
      due s.time (s.group (.zone z)).deadline = true → exec (.zoneVerdict z) s = .next (s.zoneVerdict (.zone z)) :=
    fun h => congrArg Host.Outcome.next (if_pos (hzone.mpr h))
  refine ⟨fun h => congrArg Host.Outcome.next (if_neg (mt htap.mp h)),
    fun h => congrArg Host.Outcome.next (if_neg (mt hzone.mp h)), fun h hc => ?_, fun h hc => ?_, fun h hc => ?_,
    fun h hc r hr => ?_⟩
  · rw [exec_zone h, State.zoneVerdict, if_pos hc]
    rfl
  · rw [exec_zone h, State.zoneVerdict, hc]
    rfl
  · rw [exec_tap h, State.tapVerdict, hc]
    rfl
  · obtain ⟨hclear, hpark, hraised⟩ := tapVerdict_raises hc hr
    rw [exec_tap h]
    refine ⟨fun hs => by rw [hclear hs]; rfl, fun hs => ?_, fun hs => by rw [hraised hs]⟩
    rw [hpark hs, parkUnder_eq hr nofun]

end Sys2Proof.Machine
end

section
/-! PROOF. The verdicts of risers and ports, and what port messages do. -/

namespace Sys2Proof.Machine

/-! ## Waiting for children (R100) -/

/-- A riser or port has reached its gather deadline (R99). -/
def State.GatherDue (s : State) (g : GroupId) : Prop :=
  (s.group g).state = .gathering ∧ due s.time (s.group g).deadline = true

/-- A child of a riser or port gathers (R100). -/
def State.ChildGathers (s : State) (g : GroupId) : Prop := ∃ c ∈ s.children g, (s.group c).state = .gathering

theorem childGathering_iff (s : State) (g : GroupId) : s.childGathering g = true ↔ s.ChildGathers g := by
  simp [State.childGathering, State.ChildGathers, List.any_eq_true]

theorem waitForChildren_eq (s : State) (g : GroupId) :
    (s.GatherDue g ∧ s.ChildGathers g → s.waitForChildren g =
      s.putGroup g { s.group g with deadline := s.latestChild g }) ∧
    (¬(s.GatherDue g ∧ s.ChildGathers g) → s.waitForChildren g = s) := by
  have hiff : ((s.group g).state == .gathering && due s.time (s.group g).deadline && s.childGathering g) = true ↔
      s.GatherDue g ∧ s.ChildGathers g := by
    rw [Bool.and_eq_true, Bool.and_eq_true, beq_iff_eq, childGathering_iff]
    rfl
  exact ⟨fun h => if_pos (hiff.mpr h), fun h => if_neg (mt hiff.mp h)⟩

theorem verdictReady_parent_iff (s : State) (g : GroupId) : (s.expiryReady && s.verdictDue g) = true ↔
    s.expiryReady = true ∧ s.GatherDue g ∧ ¬s.ChildGathers g := by
  rw [Bool.and_eq_true, verdictDue_iff]
  rfl

theorem not_verdictReady {s : State} {g : GroupId} (h : ¬s.GatherDue g ∨ s.ChildGathers g ∨ s.expiryReady = false) :
    ¬(s.expiryReady && s.verdictDue g) = true := by
  rw [verdictReady_parent_iff]
  rintro ⟨hr, hd, hc⟩
  rcases h with h | h | h
  · exact h hd
  · exact hc h
  · exact absurd (h.symm.trans hr) (by decide)

/-! ## A riser's verdict (R105–R107) -/

/-- A riser whose parked taps were tested again and that meets its raise condition, by the state of its port (R106). -/
theorem riserVerdict_raises {s : State} {n : Fin 32} {p : Fin 16}
    (hc : (s.retestTaps (.riser n)).raiseCondition (.riser n) = true)
    (hp : (s.retestTaps (.riser n)).parent? (.riser n) = some (.port p)) :
    let v := s.retestTaps (.riser n)
    ((v.group (.port p)).state = .clear → s.riserVerdict (.riser n) = v.raiseRiserAlone (.riser n)) ∧
    ((v.group (.port p)).state = .gathering → s.riserVerdict (.riser n) = v.parkUnder (.riser n)) ∧
    ((v.group (.port p)).state = .raised ∨ (v.group (.port p)).state = .clearing → s.riserVerdict (.riser n) =
      (v.raiseRiserCovered (.riser n)).clearingTest (.port p)) := by
  have hstate := parentState_eq hp
  have htest := parentTest_eq ((parent_of_map (Works.raiseRiserCovered _ (.riser n)).map _).trans hp)
  unfold State.riserVerdict
  dsimp only
  rw [if_pos hc, hstate, htest]
  refine ⟨fun h => by rw [h], fun h => by rw [h], fun h => ?_⟩
  rcases h with h | h <;> rw [h]

theorem riserVerdict_releases {s : State} {r : GroupId} (hc : (s.retestTaps r).raiseCondition r = false) :
    s.riserVerdict r = (s.retestTaps r).releaseRiser r := by
  unfold State.riserVerdict
  dsimp only
  rw [hc]
  rfl

/-- The re-tests of a port's parked risers, each after its taps (R108). -/
def State.retestRisers (s : State) (p : GroupId) : State := (s.group p).parked.foldl (State.retestRiser p) s

theorem portVerdict_eq (s : State) (p : GroupId) : s.portVerdict p =
    if (s.retestRisers p).raiseCondition p then (s.retestRisers p).raisePort p .fibre engineOrigin
    else (s.retestRisers p).releasePort p := rfl

/-- Settles O45. -/
theorem riserAndPortVerdicts : Obligations.RiserAndPortVerdicts := by
  intro s
  dsimp only
  refine ⟨fun p => ⟨fun hw hc hd hg => ?_, fun h => ?_⟩,
    fun n => ⟨fun h => congrArg Host.Outcome.next (if_neg (not_verdictReady h)), fun hr hd hg => ?_⟩,
    fun n => ⟨fun h => congrArg Host.Outcome.next (if_neg (not_verdictReady h)), fun hr hd hg => ?_⟩,
    fun g cause o => rfl, latestChild_iff s⟩
  · rw [← (waitForChildren_eq s p.group).1 ⟨hd, hg⟩]
    exact congrArg Host.Outcome.next (if_pos (by rw [hw, hc]; rfl))
  · refine congrArg Host.Outcome.next ?_
    rw [(waitForChildren_eq s p.group).2 h]
    exact ite_self s
  · have hexec : exec (.riserVerdict n) s = .next (s.riserVerdict (.riser n)) :=
      congrArg Host.Outcome.next (if_pos ((verdictReady_parent_iff s _).mpr ⟨hr, hd, hg⟩))
    refine ⟨fun hc => ?_, fun hc p hp => ?_⟩
    · rw [hexec, riserVerdict_releases (s := s) hc]
      rfl
    · obtain ⟨hclear, hpark, hraised⟩ := riserVerdict_raises hc hp
      rw [hexec]
      refine ⟨fun hs => by rw [hclear hs]; rfl, fun hs => ?_, fun hs => by rw [hraised hs]; rfl⟩
      rw [hpark hs, parkUnder_eq (s := s.retestTaps (.riser n)) hp nofun]
      rfl
  · have hexec : exec (.portVerdict n) s = .next (s.portVerdict (.port n)) :=
      congrArg Host.Outcome.next (if_pos ((verdictReady_parent_iff s _).mpr ⟨hr, hd, hg⟩))
    rw [hexec, portVerdict_eq]
    refine ⟨fun hc => congrArg Host.Outcome.next (if_pos hc), fun hc => congrArg Host.Outcome.next (if_neg ?_)⟩
    exact fun h => absurd (hc.symm.trans h) (by decide)

/-! ## Port messages (R66, R112, R113) -/

/-- A port message taken, its claim TAKEN. -/
theorem port_claimed {s : State} {tag : Tag} {r : Request} {f : StepFor} {p : Fin 16} {x : Ring} {k : MsgKind}
    (h : s.Sound tag r f p x k) {u : State} (hroute : s.routeAs k p r.bytes = some (.taken u)) :
    ∃ t, exec (messageRow tag k) s = .next t ∧
      Took t (u.countTaken p) tag (if x.treatment = .claim then r.withByte0 2 else r) := by
  obtain ⟨hm, hf, hk, hc⟩ := h
  obtain ⟨t, hexec, htook⟩ := sound_took hm hf hk
  refine ⟨t, hexec, htook _ _ ?_⟩
  rw [hroute, judgeSound_routed hc, ← answered_taken]
  rfl

theorem routeAs_dark {s : State} {p : Fin 16} (hp : s.portMapped p = true) (hd : (s.group (.port p)).dark = false)
    (m : List Byte) : s.routeAs .portDark p m = some (.taken (s.portDark (.port p) (messageOrigin m))) := by
  simp [State.routeAs, State.routePort, State.claimDark, hp, hd]

theorem routeAs_lit {s : State} {p : Fin 16} (hp : s.portMapped p = true) (hd : (s.group (.port p)).dark = true)
    (m : List Byte) : s.routeAs .portLit p m = some (.taken (s.portLit (.port p))) := by
  simp [State.routeAs, State.routePort, State.claimLit, hp, hd]

/-- What a PORT_DARK does, by the state of the port (R112). -/
theorem portDark_cases (s : State) (g : GroupId) (o : Origin) :
    let u := s.putGroup g { s.group g with dark := true }
    ((s.group g).state = .clear ∨ (s.group g).state = .gathering → s.portDark g o = u.raisePort g .dark o) ∧
    ((s.group g).state = .raised → s.portDark g o = u) ∧
    ((s.group g).state = .clearing → s.portDark g o = u.putGroup g
      { s.group g with dark := true, state := .raised, deadline := none }) := by
  refine ⟨fun h => ?_, fun h => ?_, fun h => ?_⟩
  · rcases h with h | h
    · simp only [State.portDark, h]
    · simp only [State.portDark, h]
  · simp only [State.portDark, h]
  · simp only [State.portDark, h]
    rw [group_putGroup, if_pos rfl]

/-- Settles O46. -/
theorem portMessagesTaken : Obligations.PortMessagesTaken := by
  intro s tag r f p x hp
  dsimp only
  refine ⟨fun h hd => ?_, fun h hd => port_claimed h (routeAs_lit hp hd _)⟩
  obtain ⟨t, hexec, htook⟩ := port_claimed h (routeAs_dark hp hd _)
  obtain ⟨hraise, hstay, hback⟩ := portDark_cases s (.port p) (messageOrigin r.bytes)
  have took_of : ∀ u, s.portDark (.port p) (messageOrigin r.bytes) = u →
      Took t (u.countTaken p) tag (if x.treatment = .claim then r.withByte0 2 else r) := fun u h => h ▸ htook
  exact ⟨t, hexec, fun hs => took_of _ (hraise hs), fun hs => took_of _ (hstay hs), fun hs => took_of _ (hback hs)⟩

end Sys2Proof.Machine
end

section
/-! PROOF. The end of a hold-down, and the storm state. -/

namespace Sys2Proof.Machine

/-! ## The end of a hold-down (R121–R125) -/

theorem holdDownReady_iff (s : State) (g : GroupId) :
    (s.expiryReady && (s.group g).state == .clearing && due s.time (s.group g).deadline) = true ↔
      s.expiryReady = true ∧ (s.group g).state = .clearing ∧ due s.time (s.group g).deadline = true := by
  rw [Bool.and_eq_true, Bool.and_eq_true, beq_iff_eq, and_assoc]

/-- A group's stragglers are its COVERED members that are down in its own way (R84, R124). -/
theorem stragglers_eq (s : State) (g : GroupId) {ways : List TState} (h : ∀ t, downIn g t = decide (t ∈ ways)) :
    (s.termMembers g).filter (fun n => decide ((s.term n).disp = .covered) && decide ((s.term n).state ∈ ways)) =
      s.stragglers g := by
  unfold State.stragglers
  refine List.filter_congr fun n _ => ?_
  rw [h, beq_eq_decide]

theorem coveredChildren_eq (s : State) (g : GroupId) : (s.children g).filter (fun c =>
    ((s.group c).state == .raised || (s.group c).state == .clearing) && (s.group c).covered) = s.coveredChildren g := by
  unfold State.coveredChildren
  refine List.filter_congr fun c _ => ?_
  cases (s.group c).state <;> rfl

theorem parentTest_none {s : State} {g : GroupId} (h : s.parent? g = none) : s.parentTest g = s := by
  simp only [State.parentTest, h]

/-- Settles O47. -/
theorem holdDownEnds : Obligations.HoldDownEnds := by
  refine ⟨fun s g => ?_, fun k z => ⟨rfl, rfl⟩⟩
  intro ready ways stragglers children engine v uncovered w u
  have hstragglers : stragglers = s.stragglers g :=
    stragglers_eq s g (by intro t; cases g <;> cases t <;> rfl)
  have hchildren : children = s.coveredChildren g := coveredChildren_eq s g
  have hv : v = s.reportCleared g := by
    dsimp only [v]
    rw [hstragglers, hchildren]
    rfl
  have hw : w = (s.coveredChildren g).foldl State.uncover ((s.reportCleared g).release g (s.stragglers g)
      (releaseCause g)) := by
    dsimp only [w]
    rw [hstragglers, hchildren, hv]
    rfl
  have hclear : s.clearGroup g = u.parentTest g := by
    dsimp only [u]
    rw [hw]
    rfl
  have hparent : u.parent? g = s.parent? g := by
    refine parent_of_map ?_ g
    dsimp only [u]
    rw [hw]
    exact ((((Works.reportCleared s g).trans (Works.release _ g _ _)).trans (Works.foldl _ Works.uncover _ _)).trans
      (Works.putGroup _ g _)).map
  have hexec : ready → exec (.holdDownExpiry g) s = .next (s.holdDownEnd g) := fun h =>
    congrArg Host.Outcome.next (if_pos ((holdDownReady_iff s g).mpr h))
  refine ⟨fun h => congrArg Host.Outcome.next (if_neg (mt (holdDownReady_iff s g).mp h)), fun h hc => ?_,
    fun h hc => ?_⟩
  · rw [hexec h, State.holdDownEnd, hc]
    rfl
  · rw [hexec h, State.holdDownEnd, if_pos hc, hclear]
    exact ⟨fun hp => by rw [parentTest_none (hparent.trans hp)], fun p hp => by rw [parentTest_eq (hparent.trans hp)]⟩

/-! ## The storm state (R128, R129, R133) -/

theorem evaluateStorm_cases (s : State) (o : Origin) :
    (s.corr.stormIn = false → s.settings.stormOn ≤ s.buildingDown → s.evaluateStorm o = s.stormChange true o) ∧
    (s.corr.stormIn = true → s.buildingDown ≤ s.settings.stormOff → s.evaluateStorm o = s.stormChange false o) ∧
    (s.corr.stormIn = false ∧ s.buildingDown < s.settings.stormOn ∨
      s.corr.stormIn = true ∧ s.settings.stormOff < s.buildingDown → s.evaluateStorm o = s) := by
  unfold State.evaluateStorm
  refine ⟨fun hs hon => ?_, fun hs hoff => ?_, fun h => ?_⟩
  · rw [hs, decide_eq_true hon]
    rfl
  · rw [hs, decide_eq_true hoff]
    rfl
  · rcases h with ⟨hs, hlt⟩ | ⟨hs, hlt⟩
    · rw [hs, decide_eq_false (Nat.not_le.mpr hlt)]
      rfl
    · rw [hs, decide_eq_false (Nat.not_le.mpr hlt)]
      rfl

theorem handDown_same {s : State} {before : Nat} (h : s.buildingDown = before) (o : Origin) : s.handDown before o = s :=
  if_pos h

theorem handDown_changed {s : State} {before : Nat} (h : s.buildingDown ≠ before) (o : Origin) :
    s.handDown before o = (s.evaluateStorm o).watch (metByDown s.buildingDown) := if_neg h

theorem putStorm_change {s : State} {toIn : Bool} (h : s.corr.stormIn = !toIn) :
    s.putStorm toIn = { s with corr := { s.corr with stormIn := toIn } }.mark 1280 :=
  if_neg (by rw [h]; cases toIn <;> decide)

theorem putStormArmed_off {s : State} (h : s.corr.stormArmed = true) :
    s.putStormArmed false = { s with corr := { s.corr with stormArmed := false } }.mark 1280 :=
  if_neg (by rw [h]; decide)

/-- The report of a storm change: made under EVERY, and under SINGLE while armed, which it then no longer is (R129). -/
theorem reportStorm_cases (s : State) (toIn : Bool) (o : Origin) :
    (s.settings.stormMode = .every → s.reportStorm toIn o = s.makeReport (s.stormDraft toIn o)) ∧
    (s.settings.stormMode = .single → s.corr.stormArmed = false → s.reportStorm toIn o = s) ∧
    (s.settings.stormMode = .single → s.corr.stormArmed = true → s.reportStorm toIn o =
      ({ s with corr := { s.corr with stormArmed := false } }.mark 1280).makeReport (s.stormDraft toIn o)) := by
  refine ⟨fun hm => ?_, fun hm ha => ?_, fun hm ha => ?_⟩
  · simp only [State.reportStorm, hm]
  · simp only [State.reportStorm, hm]
    exact if_neg (by rw [ha]; decide)
  · simp only [State.reportStorm, hm, putStormArmed_off ha]
    exact if_pos ha

theorem watch_nil {s : State} (h : s.cmd.deferred = []) (met : Trigger → Bool) : s.watch met = s := by
  simp only [State.watch, h]

/-- A head entry whose trigger is met falls due, once (R178). -/
theorem watch_cons {s : State} {e : DeferredEntry} {rest : List DeferredEntry} (h : s.cmd.deferred = e :: rest)
    (met : Trigger → Bool) :
    (met e.trigger = false ∨ e.due = true → s.watch met = s) ∧
    (met e.trigger = true → e.due = false → s.watch met = { s with cmd := { s.cmd with
      deferred := { e with due := true } :: rest, due := s.cmd.due ++ [.deferred],
      unit := if s.cmd.unit = .idle then .actions else s.cmd.unit } }) := by
  have hwatch : s.watch met = if met e.trigger then s.fallDue else s := by simp only [State.watch, h]
  have hfall : s.fallDue = if e.due then s else
      ({ s with cmd := { s.cmd with deferred := { e with due := true } :: rest } }).appendDue .deferred := by
    simp only [State.fallDue, h]
  have hwake : s.cmd.unit.wake = if s.cmd.unit = .idle then .actions else s.cmd.unit := by
    cases s.cmd.unit <;> rfl
  rw [hwatch, hfall]
  refine ⟨fun hor => ?_, fun hmet hdue => ?_⟩
  · rcases hor with hmet | hdue
    · rw [hmet]
      rfl
    · rw [if_pos hdue]
      exact ite_self s
  · rw [if_pos hmet, hdue, ← hwake]
    rfl

/-- Settles O48. -/
theorem stormFollowsDownCount : Obligations.StormFollowsDownCount := by
  refine ⟨fun s => by simp [State.stormLine], fun s before o => ⟨fun h => handDown_same h o, fun h => ?_⟩,
    fun s toIn o h => ?_, fun s met => ⟨fun h => watch_nil h met, fun e rest h => watch_cons h met⟩,
    fun toIn count tr => ⟨metByStorm_iff toIn tr, metByDown_iff count tr⟩⟩
  · obtain ⟨hin, hout, hstay⟩ := evaluateStorm_cases s o
    rw [handDown_changed h]
    exact ⟨fun hs hon => by rw [hin hs hon], fun hs hoff => by rw [hout hs hoff], fun hor => by rw [hstay hor]⟩
  · obtain ⟨hevery, hsilent, hsingle⟩ := reportStorm_cases (s.putStorm toIn) toIn o
    rw [putStorm_change h] at hevery hsilent hsingle
    unfold State.stormChange
    rw [putStorm_change h]
    exact ⟨fun hm => by rw [hevery hm]; rfl, fun hm ha => by rw [hsilent hm ha],
      fun hm ha => by rw [hsingle hm ha]; rfl⟩

end Sys2Proof.Machine
end

section
/-! PROOF. A slot write is judged alike with any path, so its judgment is all that happens beside the path. -/

namespace Sys2Proof.Machine

/-- A pair of a state and what carrying out gave, with another path. -/
def carriedWith (p : Path) (x : State × Result) : State × Result := (x.1.withPath p, x.2)

theorem carriedWith_ite {c : Prop} [Decidable c] (p : Path) (x y : State × Result) :
    (if c then carriedWith p x else carriedWith p y) = carriedWith p (if c then x else y) := by
  split
  · rfl
  · rfl

section
variable (s : State) (p : Path)

theorem carrySetIntake_withPath (b : List Byte) :
    (s.withPath p).carrySetIntake b = carriedWith p (s.carrySetIntake b) := by
  unfold State.carrySetIntake
  dsimp only
  rw [takenAreas_withPath, putRing_withPath, ring_withPath, ← carriedWith_ite]
  rfl

theorem carryClearIntake_withPath (b : List Byte) :
    (s.withPath p).carryClearIntake b = carriedWith p (s.carryClearIntake b) := by
  unfold State.carryClearIntake
  dsimp only
  rw [putRing_withPath, ring_withPath]
  rfl

theorem carrySetStorm_withPath (b : List Byte) (o : Origin) :
    (s.withPath p).carrySetStorm b o = carriedWith p (s.carrySetStorm b o) := by
  unfold State.carrySetStorm
  dsimp only
  rw [show (s.withPath p).settings = s.settings from rfl, putSettings_withPath, evaluateStorm_withPath]
  rfl

theorem carryArm_withPath : (s.withPath p).carryArm = carriedWith p s.carryArm := by
  unfold State.carryArm
  rw [putStormArmed_withPath, putBrownoutArmed_withPath]
  rfl

theorem carryForceSync_withPath (o : Origin) :
    (s.withPath p).carryForceSync o = carriedWith p (s.carryForceSync o) := by
  unfold State.carryForceSync
  rw [makeSync_withPath]
  rfl

theorem carryMute_withPath (b : List Byte) (o : Origin) :
    (s.withPath p).carryMute b o = carriedWith p (s.carryMute b o) := by
  unfold State.carryMute
  rw [mute_withPath, show (s.withPath p).entry? (slotTerminal b) = s.entry? (slotTerminal b) from rfl]
  cases s.entry? (slotTerminal b) with
  | none => rfl
  | some e =>
    dsimp only
    rw [← carriedWith_ite]
    rfl

theorem carryUnmute_withPath (b : List Byte) (o : Origin) :
    (s.withPath p).carryUnmute b o = carriedWith p (s.carryUnmute b o) := by
  unfold State.carryUnmute
  rw [unmute_withPath, show (s.withPath p).entry? (slotTerminal b) = s.entry? (slotTerminal b) from rfl]
  cases s.entry? (slotTerminal b) with
  | none => rfl
  | some e => rfl

theorem carrySeed_withPath (b : List Byte) (o : Origin) :
    (s.withPath p).carrySeed b o = carriedWith p (s.carrySeed b o) := by
  unfold State.carrySeed
  dsimp only
  rw [show (s.withPath p).entry? (slotTerminal b) = s.entry? (slotTerminal b) from rfl]
  cases s.entry? (slotTerminal b) with
  | none => rfl
  | some e =>
    cases seedTarget b with
    | none => rfl
    | some target =>
      dsimp only
      rw [term_withPath, seed_withPath, ← carriedWith_ite, ← carriedWith_ite]
      rfl

theorem carryMapBegin_withPath (b : List Byte) :
    (s.withPath p).carryMapBegin b = carriedWith p (s.carryMapBegin b) := by
  unfold State.carryMapBegin
  rw [← carriedWith_ite]
  refine ite_congr rfl (fun _ => rfl) (fun _ => ?_)
  rw [show (s.withPath p).openLoad (leAt b 10 2) (byteAt b 12) (slotTag b) =
    (s.openLoad (leAt b 10 2) (byteAt b 12) (slotTag b)).withPath p from rfl, putMode_withPath]
  rfl

theorem carryMapEnd_withPath (b : List Byte) (addr : Addr) :
    (s.withPath p).carryMapEnd b addr = carriedWith p (s.carryMapEnd b addr) := by
  unfold State.carryMapEnd
  rw [activate_withPath, reportActivation_withPath, ← carriedWith_ite, ← carriedWith_ite]
  rfl

theorem carryMapAbort_withPath : (s.withPath p).carryMapAbort = carriedWith p s.carryMapAbort := by
  unfold State.carryMapAbort
  rw [abortLoad_withPath, show (s.withPath p).cmd = s.cmd from rfl]
  cases s.cmd.unit with
  | idle => rfl
  | actions => rfl
  | busy j addr since =>
    cases j with
    | restart done => rfl
    | unmap done => rfl
    | mapEnd expected check =>
      cases check with
      | some ended => rfl
      | none =>
        dsimp only
        rw [reportDone_withPath, finalWriteBack_withPath, leaveBusy_withPath]
        rfl

theorem carryRestart_withPath (b : List Byte) (addr : Addr) :
    (s.withPath p).carryRestart b addr = carriedWith p (s.carryRestart b addr) := by
  rw [State.carryRestart, State.carryRestart, zeroTallies_withPath, beginJob_withPath, carriedWith]

theorem carryDropAction_withPath (b : List Byte) :
    (s.withPath p).carryDropAction b = carriedWith p (s.carryDropAction b) := by
  unfold State.carryDropAction
  cases slotLine b with
  | none => rfl
  | some l =>
    dsimp only
    rw [setLine_withPath, show (s.withPath p).line l = s.line l from rfl, ← carriedWith_ite]
    rfl

theorem carryQueueFlush_withPath (o : Origin) :
    (s.withPath p).carryQueueFlush o = carriedWith p (s.carryQueueFlush o) := by
  unfold State.carryQueueFlush
  dsimp only
  rw [flushDeferred_withPath, makeReport_withPath, ← carriedWith_ite]
  rfl

/-- Carrying out a command commutes with a change of the path. -/
theorem carryOf_withPath (k : Kind) (b : List Byte) (addr : Addr) (o : Origin) :
    carryOf k (s.withPath p) b addr o = carriedWith p (carryOf k s b addr o) := by
  cases k with
  | setIntake => exact carrySetIntake_withPath s p b
  | clearIntake => exact carryClearIntake_withPath s p b
  | setWindows => rfl
  | setThresholds => rfl
  | setFlap => rfl
  | setStorm => exact carrySetStorm_withPath s p b o
  | setReporting => rfl
  | arm => exact carryArm_withPath s p
  | setSync => rfl
  | forceSync => exact carryForceSync_withPath s p o
  | mute => exact carryMute_withPath s p b o
  | unmute => exact carryUnmute_withPath s p b o
  | seed => exact carrySeed_withPath s p b o
  | mapBegin => exact carryMapBegin_withPath s p b
  | mapEnd => exact carryMapEnd_withPath s p b addr
  | mapAbort => exact carryMapAbort_withPath s p
  | unmap => rfl
  | restart => exact carryRestart_withPath s p b addr
  | dropAction => exact carryDropAction_withPath s p b
  | queueFlush => exact carryQueueFlush_withPath s p o

/-! ## The tests of TABLE 10-2 -/

theorem queueEntry_withPath (k : Kind) (t : Trigger) (addr : Addr) (b : List Byte) :
    (s.withPath p).queueEntry k t addr b = (s.queueEntry k t addr b).withPath p := rfl

theorem deferCommand_withPath (k : Kind) (addr : Addr) (b : List Byte) :
    (s.withPath p).deferCommand k addr b = (s.deferCommand k addr b).withPath p := by
  unfold State.deferCommand
  cases slotTrigger b with
  | none => rfl
  | some t =>
    dsimp only
    rw [show (s.withPath p).triggerInUse t = s.triggerInUse t by cases t <;> rfl, queueEntry_withPath,
      examineHead_withPath, ite_withPath, ite_withPath, ite_withPath]
    rfl

theorem registerLine_withPath (l : Line) (k : Kind) (addr : Addr) (b : List Byte) :
    (s.withPath p).registerLine l k addr b = (s.registerLine l k addr b).withPath p := by
  unfold State.registerLine
  dsimp only
  rw [setLine_withPath, writeBack_withPath, ite_withPath, ite_withPath]
  rfl

theorem carryNow_withPath {carry : State → State × Result}
    (h : carry (s.withPath p) = carriedWith p (carry s)) (addr : Addr) (b : List Byte) :
    (s.withPath p).carryNow carry addr b = (s.carryNow carry addr b).withPath p := by
  unfold State.carryNow
  rw [h]
  unfold carriedWith
  cases (carry s).2 with
  | done data => rfl
  | refused c => rfl
  | begun => rfl

theorem judgePlaced_withPath (k : Kind) {carry : State → State × Result}
    (h : carry (s.withPath p) = carriedWith p (carry s)) (addr : Addr) (b : List Byte) :
    (s.withPath p).judgePlaced k carry addr b = (s.judgePlaced k carry addr b).withPath p := by
  unfold State.judgePlaced
  rw [carryNow_withPath s p h, deferCommand_withPath]
  cases slotPlacement b with
  | none => rfl
  | some pl =>
    cases pl with
    | now => rw [ite_withPath, ite_withPath]; rfl
    | defer => rw [ite_withPath, ite_withPath]; rfl
    | line l =>
      dsimp only
      rw [registerLine_withPath, ite_withPath, ite_withPath]
      rfl

theorem unlessSlotBusy_withPath {u v : State} (h : v = u.withPath p) (addr : Addr) (b : List Byte) :
    (s.withPath p).unlessSlotBusy addr b v = (s.unlessSlotBusy addr b u).withPath p := by
  unfold State.unlessSlotBusy
  rw [h, ite_withPath]
  rfl

/-- The judgment of a slot write commutes with a change of the path. -/
theorem judge_withPath (k : Kind) {carry : State → State × Result}
    (h : carry (s.withPath p) = carriedWith p (carry s)) (addr : Addr) (b : List Byte) :
    (s.withPath p).judge k carry addr b = (s.judge k carry addr b).withPath p := by
  unfold State.judge
  refine unlessSlotBusy_withPath s p ?_ addr b
  rw [judgePlaced_withPath s p k h, ite_withPath]
  rfl

end

/-! ## The rows of slot commands -/

/-- What a slot write of kind k is judged to do: the tests of TABLE 10-2 and, past them, what carrying it out does. -/
def State.judgeSlot (s : State) (k : Kind) (r : Request) : State :=
  s.judge k (fun s => carryOf k s r.bytes r.addr (commandOrigin .command r.bytes)) r.addr r.bytes

theorem judgeSlot_withPath (s : State) (p : Path) (k : Kind) (r : Request) :
    (s.withPath p).judgeSlot k r = (s.judgeSlot k r).withPath p :=
  judge_withPath s p k (carryOf_withPath s p k r.bytes r.addr _) r.addr r.bytes

theorem judgeSlot_path (s : State) (k : Kind) (r : Request) : (s.judgeSlot k r).path = s.path :=
  path_of_commutes (f := fun s => s.judgeSlot k r) (judgeSlot_withPath s s.path k r)

/-- A slot write on a front taken by its row: its judgment is all that happens beside the path. -/
theorem slot_took {s : State} {tag : Tag} {r : Request} {f : StepFor} {k : Kind} (h : s.Admitted tag r f)
    (hc : f.command = true) (hk : slotKind r.bytes = some k) :
    ∃ t, exec (slotRow tag k) s = .next t ∧ Took t (s.judgeSlot k r) tag r :=
  ⟨_, exec_slotRow tag k s, judged h hc hk (judgeSlot_withPath s (s.popLane tag).path k r) (judgeSlot_path s k r)⟩

/-- A slot write in a free slot, the unit not BUSY or the command MAP_ABORT, is judged by tests 4 to 9 (TABLE 10-2). -/
theorem judgeSlot_placed {s : State} {k : Kind} {r : Request} (hprogress : s.progress r.addr = none)
    (hunit : s.cmd.unit.isBusy = false ∨ k = .mapAbort) : s.judgeSlot k r =
      s.judgePlaced k (fun s => carryOf k s r.bytes r.addr (commandOrigin .command r.bytes)) r.addr r.bytes := by
  have hbusy : (s.cmd.unit.isBusy && k != .mapAbort) = false := by
    rcases hunit with hunit | rfl
    · rw [hunit]
      rfl
    · exact Bool.and_false _
  rw [State.judgeSlot, State.judge, State.unlessSlotBusy, hprogress, hbusy]
  rfl

/-- How a NOW command that is past every test ends (R162, R163, R166): done with its write-back, refused with nothing
else, or begun. -/
theorem carried_took {s : State} {tag : Tag} {r : Request} {f : StepFor} {k : Kind} (ha : s.Admitted tag r f)
    (hc : f.command = true) (hk : slotKind r.bytes = some k) (hprogress : s.progress r.addr = none)
    (hunit : s.cmd.unit.isBusy = false ∨ k = .mapAbort) (hnow : slotPlacement r.bytes = some .now)
    (hmode : k.inMode s.ctl.mode = true) (hparams : paramsOk k s.ctl.mode r.bytes = true) :
    ∃ t, exec (slotRow tag k) s = .next t ∧
      (∀ u data, carryOf k s r.bytes r.addr (commandOrigin .command r.bytes) = (u, .done data) →
        Took t (u.enqueue (.writeBack r.addr (writeBackBytes r.bytes .done .done false data))) tag r) ∧
      (∀ u c, carryOf k s r.bytes r.addr (commandOrigin .command r.bytes) = (u, .refused c) →
        Took t (s.enqueue (.writeBack r.addr (writeBackBytes r.bytes .refused c false 0))) tag r) ∧
      (∀ u, carryOf k s r.bytes r.addr (commandOrigin .command r.bytes) = (u, .begun) → Took t u tag r) := by
  obtain ⟨t, hexec, htook⟩ := slot_took ha hc hk
  rw [judgeSlot_placed hprogress hunit] at htook
  refine ⟨t, hexec, fun u data h => ?_, fun u c h => ?_, fun u h => ?_⟩
  · rw [judgePlaced_done hnow hmode hparams h] at htook
    exact htook
  · rw [judgePlaced_refused hnow hmode hparams h] at htook
    exact htook
  · rw [judgePlaced_begun hnow hmode hparams h] at htook
    exact htook

theorem now_took {s : State} {tag : Tag} {r : Request} {f : StepFor} {k : Kind} (h : s.NowWrite tag r f k) :
    ∃ t, exec (slotRow tag k) s = .next t ∧
      (∀ u data, carryOf k s r.bytes r.addr (commandOrigin .command r.bytes) = (u, .done data) →
        Took t (u.enqueue (.writeBack r.addr (writeBackBytes r.bytes .done .done false data))) tag r) ∧
      (∀ u c, carryOf k s r.bytes r.addr (commandOrigin .command r.bytes) = (u, .refused c) →
        Took t (s.enqueue (.writeBack r.addr (writeBackBytes r.bytes .refused c false 0))) tag r) ∧
      (∀ u, carryOf k s r.bytes r.addr (commandOrigin .command r.bytes) = (u, .begun) → Took t u tag r) := by
  obtain ⟨⟨ha, hc, hk, hprogress, hidle⟩, hnow, hmode, hparams⟩ := h
  exact carried_took ha hc hk hprogress (.inl (by rw [hidle]; rfl)) hnow hmode hparams

end Sys2Proof.Machine
end

section
/-! PROOF. The commands that change settings and arm reports. -/

namespace Sys2Proof.Machine

/-! ## Carrying out SET_STORM, SET_REPORTING and ARM (R130, R131, R171) -/

/-- A state with the storm levels of a SET_STORM. -/
def State.withStormLevels (s : State) (b : List Byte) : State :=
  s.putSettings { s.settings with stormOn := leAt b 10 2, stormOff := leAt b 12 2 }

/-- SET_STORM evaluates the storm state with the new levels at once; its data says whether it changed (R131, R171). -/
theorem carrySetStorm_cases (s : State) (b : List Byte) (o : Origin) :
    (s.corr.stormIn = false → leAt b 10 2 ≤ s.buildingDown →
      s.carrySetStorm b o = ((s.withStormLevels b).stormChange true o, .done 1)) ∧
    (s.corr.stormIn = true → s.buildingDown ≤ leAt b 12 2 →
      s.carrySetStorm b o = ((s.withStormLevels b).stormChange false o, .done 1)) ∧
    (s.corr.stormIn = false ∧ s.buildingDown < leAt b 10 2 ∨ s.corr.stormIn = true ∧ leAt b 12 2 < s.buildingDown →
      s.carrySetStorm b o = (s.withStormLevels b, .done 0)) := by
  have hcarry : ∀ u, (s.withStormLevels b).evaluateStorm o = u →
      s.carrySetStorm b o = (u, .done (bit (u.corr.stormIn != s.corr.stormIn))) := by
    rintro u rfl
    rfl
  obtain ⟨hin, hout, hstay⟩ := evaluateStorm_cases (s.withStormLevels b) o
  refine ⟨fun hs hon => ?_, fun hs hoff => ?_, fun h => ?_⟩
  · rw [hcarry _ (hin hs hon), stormIn_stormChange, hs]
    rfl
  · rw [hcarry _ (hout hs hoff), stormIn_stormChange, hs]
    rfl
  · rw [hcarry _ (hstay h), show (s.withStormLevels b).corr.stormIn = s.corr.stormIn from rfl, bne_self_eq_false]
    rfl

/-- SET_REPORTING with parameters in range (R171). -/
theorem carrySetReporting_eq (s : State) {b : List Byte} (h : setReportingOk b = true) : s.carrySetReporting b =
    (s.putSettings { s.settings with
      stormMode := if byteAt b 10 = 1 then .single else .every,
      brownoutMode := if byteAt b 11 = 0 then .none else if byteAt b 11 = 1 then .single else .every,
      offReports := byteAt b 12 == 1 }, .done 0) := by
  obtain ⟨hstorm, hbrown, hoff⟩ := reporting_settings b s.settings h
  rw [State.carrySetReporting, hstorm, hbrown, hoff]

theorem mark_mark (s : State) (i : Nat) : (s.mark i).mark i = s.mark i := by
  simp only [State.mark, insertIndex_idem]

/-- A state with both reports armed (R130). -/
def State.armed (s : State) : State :=
  { s with corr := { s.corr with stormArmed := true }, table := { s.table with brownoutArmed := true } }

theorem putStormArmed_same {s : State} {v : Bool} (h : s.corr.stormArmed = v) : s.putStormArmed v = s := if_pos h

theorem putStormArmed_on {s : State} (h : s.corr.stormArmed = false) :
    s.putStormArmed true = { s with corr := { s.corr with stormArmed := true } }.mark 1280 :=
  if_neg (by rw [h]; decide)

theorem putBrownoutArmed_same {s : State} {v : Bool} (h : s.table.brownoutArmed = v) : s.putBrownoutArmed v = s :=
  if_pos h

theorem putBrownoutArmed_on {s : State} (h : s.table.brownoutArmed = false) :
    s.putBrownoutArmed true = { s with table := { s.table with brownoutArmed := true } }.mark 1280 :=
  if_neg (by rw [h]; decide)

/-- ARM arms both reports; a change marks the engine summary (R130, R156). -/
theorem carryArm_cases (s : State) :
    (s.corr.stormArmed = true ∧ s.table.brownoutArmed = true → s.carryArm = (s, .done 0)) ∧
    (s.corr.stormArmed = false ∨ s.table.brownoutArmed = false → s.carryArm = (s.armed.mark 1280, .done 0)) := by
  refine ⟨fun ⟨hs, hb⟩ => ?_, fun h => ?_⟩
  · rw [State.carryArm, putStormArmed_same hs, putBrownoutArmed_same hb]
  unfold State.carryArm
  cases hs : s.corr.stormArmed with
  | true =>
    have hb : s.table.brownoutArmed = false := h.resolve_left (by rw [hs]; decide)
    rw [putStormArmed_same hs, putBrownoutArmed_on hb, State.armed, ← hs]
  | false =>
    have hput := putStormArmed_on hs
    have harmed : (s.putStormArmed true).table.brownoutArmed = s.table.brownoutArmed := by
      rw [hput]
      rfl
    cases hb : s.table.brownoutArmed with
    | true => rw [putBrownoutArmed_same (harmed.trans hb), hput, State.armed, ← hb]
    | false =>
      rw [putBrownoutArmed_on (harmed.trans hb), hput]
      exact congrArg (·, Result.done 0) (mark_mark s.armed 1280)

/-! ## The ranges and orders of the settings commands (TABLE 10-4) -/

theorem setWindowsOk_iff (b : List Byte) : setWindowsOk b = true ↔
    (0 ≤ leAt b 10 2 ∧ leAt b 10 2 ≤ 2000) ∧ (100 ≤ leAt b 12 2 ∧ leAt b 12 2 ≤ 10000) ∧
    (100 ≤ leAt b 14 2 ∧ leAt b 14 2 ≤ 30000) ∧ (100 ≤ leAt b 16 2 ∧ leAt b 16 2 ≤ 30000) ∧
    (100 ≤ leAt b 18 2 ∧ leAt b 18 2 ≤ 30000) ∧ (100 ≤ leAt b 20 2 ∧ leAt b 20 2 ≤ 30000) ∧
    (0 ≤ leAt b 22 2 ∧ leAt b 22 2 ≤ 60000) ∧ leAt b 14 2 ≤ leAt b 16 2 ∧ leAt b 16 2 ≤ leAt b 18 2 := by
  simp only [setWindowsOk, Bool.and_eq_true, inRange_iff, decide_eq_true_eq, and_assoc]

theorem setThresholdsOk_iff (b : List Byte) : setThresholdsOk b = true ↔
    (∀ k < 4, (1 ≤ byteAt b (10 + k) ∧ byteAt b (10 + k) ≤ 100) ∧ (0 ≤ byteAt b (14 + k) ∧ byteAt b (14 + k) ≤ 99) ∧
      byteAt b (14 + k) < byteAt b (10 + k)) ∧ (2 ≤ byteAt b 18 ∧ byteAt b 18 ≤ 32) ∧
      (2 ≤ byteAt b 19 ∧ byteAt b 19 ≤ 32) := by
  simp only [setThresholdsOk, Bool.and_eq_true, List.all_eq_true, List.mem_range, inRange_iff, decide_eq_true_eq, and_assoc]

theorem setFlapOk_iff (b : List Byte) : setFlapOk b = true ↔ (2 ≤ byteAt b 10 ∧ byteAt b 10 ≤ 15) ∧
    (1 ≤ leAt b 12 2 ∧ leAt b 12 2 ≤ 600) ∧ (10 ≤ leAt b 14 2 ∧ leAt b 14 2 ≤ 3600) := by
  simp only [setFlapOk, Bool.and_eq_true, inRange_iff, and_assoc]

theorem setStormOk_iff (b : List Byte) : setStormOk b = true ↔
    (1 ≤ leAt b 10 2 ∧ leAt b 10 2 ≤ 1024) ∧ leAt b 12 2 < leAt b 10 2 := by
  simp only [setStormOk, Bool.and_eq_true, inRange_iff, decide_eq_true_eq]

/-- The values of SET_REPORTING: those its three choices name (R171). -/
theorem setReportingOk_iff (b : List Byte) : setReportingOk b = true ↔ (1 ≤ byteAt b 10 ∧ byteAt b 10 ≤ 2) ∧
    (0 ≤ byteAt b 11 ∧ byteAt b 11 ≤ 2) ∧ (0 ≤ byteAt b 12 ∧ byteAt b 12 ≤ 1) := by
  have hstorm : (slotStormMode b).isSome = true ↔ 1 ≤ byteAt b 10 ∧ byteAt b 10 ≤ 2 := by
    unfold slotStormMode
    generalize byteAt b 10 = v
    rcases v with _ | _ | _ | v <;> simp
  have hbrown : (slotBrownoutMode b).isSome = true ↔ 0 ≤ byteAt b 11 ∧ byteAt b 11 ≤ 2 := by
    unfold slotBrownoutMode
    generalize byteAt b 11 = v
    rcases v with _ | _ | _ | v <;> simp
  have hoff : (slotOffReports b).isSome = true ↔ 0 ≤ byteAt b 12 ∧ byteAt b 12 ≤ 1 := by
    unfold slotOffReports
    generalize byteAt b 12 = v
    rcases v with _ | _ | v <;> simp
  rw [setReportingOk, Bool.and_eq_true, Bool.and_eq_true, hstorm, hbrown, hoff, and_assoc]

theorem slotTag_reads (b : List Byte) : (slotTag b).toNat = leAt b 4 2 :=
  (BitVec.toNat_ofNat _ 16).trans (Nat.mod_eq_of_lt (leAt_lt b 2 4))

/-- A NOW command that replaces the settings and is done (R167). -/
theorem settings_took {s : State} {tag : Tag} {r : Request} {f : StepFor} {k : Kind} (h : s.NowWrite tag r f k)
    {c : Settings} (hc : carryOf k s r.bytes r.addr (commandOrigin .command r.bytes) = (s.putSettings c, .done 0)) :
    ∃ t, exec (slotRow tag k) s = .next t ∧ Took t (State.enqueue { s with cmd := { s.cmd with settings := c } }
      (.writeBack r.addr (writeBackBytes r.bytes .done .done false 0))) tag r := by
  obtain ⟨t, hexec, hdone, _, _⟩ := now_took h
  exact ⟨t, hexec, hdone _ _ hc⟩

/-- Settles O49. -/
theorem settingsCommands : Obligations.SettingsCommands := by
  refine ⟨fun s tag r f => ⟨fun h => settings_took h rfl, fun h => settings_took h rfl, fun h => settings_took h rfl,
      fun h => ?_, fun h => settings_took h rfl, fun h => ?_, fun h => ?_⟩,
    fun m b => ⟨setWindowsOk_iff b, setThresholdsOk_iff b, setFlapOk_iff b, setStormOk_iff b, setReportingOk_iff b,
      inRange_iff 16 1024 _, rfl⟩, slotTag_reads⟩
  · have ⟨_, _, _, hparams⟩ := h
    exact settings_took h (carrySetReporting_eq s hparams)
  · obtain ⟨t, hexec, hdone, _, _⟩ := now_took h
    obtain ⟨hin, hout, hstay⟩ := carrySetStorm_cases s r.bytes (commandOrigin .command r.bytes)
    exact ⟨t, hexec, fun hs hon => hdone _ _ (hin hs hon), fun hs hoff => hdone _ _ (hout hs hoff),
      fun hor => hdone _ _ (hstay hor)⟩
  · obtain ⟨t, hexec, hdone, _, _⟩ := now_took h
    obtain ⟨hboth, hchange⟩ := carryArm_cases s
    exact ⟨t, hexec, fun hb => hdone _ _ (hboth hb), fun hor => hdone _ _ (hchange hor)⟩

end Sys2Proof.Machine
end

section
/-! PROOF. The commands on terminals and rings: MUTE, UNMUTE, FORCE_SYNC, SEED, SET_INTAKE and CLEAR_INTAKE. -/

namespace Sys2Proof.Machine

/-! ## MUTE, UNMUTE and FORCE_SYNC (R88, R89, R172) -/

theorem bit_ite (v : Bool) : bit v = if v = true then 1 else 0 := by
  cases v <;> rfl

theorem carryForceSync_eq (s : State) (o : Origin) : s.carryForceSync o =
    ((s.makeSync { forced := true } o).1, .done (if (s.makeSync { forced := true } o).2 = true then 1 else 0)) := by
  rw [State.carryForceSync, bit_ite]

theorem carry_unmapped {s : State} {b : List Byte} {n : Fin 1024} (hn : n.val = leAt b 10 2) (h : s.entry? n = none)
    (o : Origin) : s.carryMute b o = (s, .refused .noTerminal) ∧ s.carryUnmute b o = (s, .refused .noTerminal) := by
  unfold State.carryMute State.carryUnmute
  rw [slotTerminal_eq hn, h]
  exact ⟨rfl, rfl⟩

/-- MUTE of a mapped terminal: refused for a PROMPT one, its quiet time restarted where it is muted, else muted and
reported (R89). -/
theorem carryMute_cases {s : State} {b : List Byte} {n : Fin 1024} (hn : n.val = leAt b 10 2) {e : TermEntry}
    (h : s.entry? n = some e) (o : Origin) :
    (e.prompt = true → s.carryMute b o = (s, .refused .badParam)) ∧
    (e.prompt = false → (s.term n).muted = true →
      s.carryMute b o = (s.putTerm n { s.term n with quiet := some s.quietEnd }, .done 0)) ∧
    (e.prompt = false → (s.term n).muted = false → s.carryMute b o =
      ((s.putTerm n (s.muteTerm (s.term n))).makeReport (termDraft o n (.muted (s.term n).downEntries)), .done 1)) := by
  have hcarry : s.carryMute b o =
      if e.prompt then (s, .refused .badParam) else ((s.mute n o).1, .done (s.mute n o).2) := by
    unfold State.carryMute
    rw [slotTerminal_eq hn, h]
  rw [hcarry]
  refine ⟨fun hp => if_pos hp, fun hp hm => ?_, fun hp hm => ?_⟩
  · rw [hp, State.mute, hm]
    rfl
  · rw [hp, State.mute, hm]
    rfl

/-- A terminal that is no longer muted, its flap window closed (R86, R88). -/
theorem unmute_unmuted {s : State} {n : Fin 1024} (hm : (s.term n).muted = false) (o : Origin) :
    s.unmute n o = (s, 0) := by
  unfold State.unmute
  dsimp only
  rw [hm]
  rfl

theorem unmute_quiet {s : State} {n : Fin 1024} (hm : (s.term n).muted = true) (hd : (s.term n).disp = .quiet)
    (o : Origin) : s.unmute n o =
      (((s.putTerm n { (s.term n).unmute with disp := .reported }).makeReport (termDraft o n .unmuted)).makeReport
        (termDraft o n (.terminalDown (quietCause (s.term n).state))), 1) := by
  unfold State.unmute
  dsimp only
  rw [hm, Bool.not_true, if_neg Bool.false_ne_true, if_pos hd]

/-- UNMUTE of a mapped terminal: nothing where it is not muted, else unmuted and reported, and reported down where its
outage was QUIET (R89). -/
theorem carryUnmute_cases {s : State} {b : List Byte} {n : Fin 1024} (hn : n.val = leAt b 10 2) {e : TermEntry}
    (h : s.entry? n = some e) (o : Origin) :
    ((s.term n).muted = false → s.carryUnmute b o = (s, .done 0)) ∧
    ((s.term n).muted = true → (s.term n).disp ≠ .quiet → s.carryUnmute b o =
      ((s.putTerm n (s.term n).unmute).makeReport (termDraft o n .unmuted), .done 1)) ∧
    ((s.term n).muted = true → (s.term n).disp = .quiet → s.carryUnmute b o =
      (((s.putTerm n { (s.term n).unmute with disp := .reported }).makeReport (termDraft o n .unmuted)).makeReport
        (termDraft o n (.terminalDown (quietCause (s.term n).state))), .done 1)) := by
  have hcarry : s.carryUnmute b o = ((s.unmute n o).1, .done (s.unmute n o).2) := by
    unfold State.carryUnmute
    rw [slotTerminal_eq hn, h]
  rw [hcarry]
  exact ⟨fun hm => by rw [unmute_unmuted hm], fun hm hd => by rw [unmute_muted hm hd],
    fun hm hd => by rw [unmute_quiet hm hd]⟩

/-- Settles O50. -/
theorem muteAndSyncCommands : Obligations.MuteAndSyncCommands := by
  intro s tag r f
  dsimp only
  refine ⟨fun h => ?_, fun n hn => ⟨fun h => ?_, fun h => ?_⟩⟩
  · obtain ⟨t, hexec, hdone, _, _⟩ := now_took h
    exact ⟨t, hexec, hdone _ _ (carryForceSync_eq s _)⟩
  · obtain ⟨t, hexec, hdone, hrefused, _⟩ := now_took h
    refine ⟨t, hexec, fun he => hrefused _ _ (carry_unmapped hn he _).1, fun e he => ?_⟩
    obtain ⟨hprompt, hagain, hmute⟩ := carryMute_cases hn he (commandOrigin .command r.bytes)
    exact ⟨fun hp => hrefused _ _ (hprompt hp), fun hp hm => hdone _ _ (hagain hp hm),
      fun hp hm => hdone _ _ (hmute hp hm)⟩
  · obtain ⟨t, hexec, hdone, hrefused, _⟩ := now_took h
    refine ⟨t, hexec, fun he => hrefused _ _ (carry_unmapped hn he _).2, fun e he => ?_⟩
    obtain ⟨hunmuted, hmuted, hquiet⟩ := carryUnmute_cases hn he (commandOrigin .command r.bytes)
    exact ⟨fun hm => hdone _ _ (hunmuted hm), fun hm hd => hdone _ _ (hmuted hm hd),
      fun hm hd => hdone _ _ (hquiet hm hd)⟩

/-! ## SEED (R90) -/

theorem carrySeed_unmapped {s : State} {b : List Byte} {n : Fin 1024} (hn : n.val = leAt b 10 2)
    (h : s.entry? n = none) (o : Origin) : s.carrySeed b o = (s, .refused .noTerminal) := by
  unfold State.carrySeed
  dsimp only
  rw [slotTerminal_eq hn, h]

/-- SEED of a mapped terminal: refused in GASPED or SUSPECT and while PENDING, else carried out (R90). -/
theorem carrySeed_mapped {s : State} {b : List Byte} {n : Fin 1024} (hn : n.val = leAt b 10 2) {e : TermEntry}
    (h : s.entry? n = some e) {target : TState} (ht : seedTarget b = some target) (o : Origin) : s.carrySeed b o =
      if (s.term n).state = .gasped ∨ (s.term n).state = .suspect then (s, .refused .badParam)
      else if (s.term n).disp = .pending then (s, .refused .terminalPending)
      else (s.seed n e target o, .done (s.term n).state.code) := by
  unfold State.carrySeed
  dsimp only
  rw [slotTerminal_eq hn, h, ht]

theorem seed_same {s : State} {n : Fin 1024} {target : TState} (h : (s.term n).state = target) (e : TermEntry)
    (o : Origin) : s.seed n e target o = s.putTerm n { s.term n with disp := seedDisp target } := if_pos h

theorem seed_moves {s : State} {n : Fin 1024} {target : TState} (h : (s.term n).state ≠ target) (e : TermEntry)
    (o : Origin) : s.seed n e target o =
      ((s.putTerm n { s.moveTo (s.term n) target none with disp := seedDisp target }).clearingTests
        (movedGroups e (s.term n).state target)).handDown s.buildingDown o := if_neg h

/-- Settles O51. -/
theorem seedCommand : Obligations.SeedCommand := by
  refine ⟨fun s tag r f n target h hn ht => ?_, fun x => by cases x <;> decide⟩
  dsimp only
  obtain ⟨t, hexec, hdone, hrefused, _⟩ := now_took h
  refine ⟨t, hexec, fun he => hrefused _ _ (carrySeed_unmapped hn he _), fun e he => ?_⟩
  have hcarry := carrySeed_mapped hn he ht (commandOrigin .command r.bytes)
  have hpast : (s.term n).state ≠ .gasped → (s.term n).state ≠ .suspect → s.carrySeed r.bytes _ = _ :=
    fun hg hs => hcarry.trans (if_neg (not_or.mpr ⟨hg, hs⟩))
  exact ⟨fun hs => hrefused _ _ (hcarry.trans (if_pos hs)),
    fun hg hs hp => hrefused _ _ ((hpast hg hs).trans (if_pos hp)),
    fun hg hs hp hsame => hdone _ _ (((hpast hg hs).trans (if_neg hp)).trans
      (congrArg (·, Result.done _) (seed_same hsame e _))),
    fun hg hs hp hmove => hdone _ _ (((hpast hg hs).trans (if_neg hp)).trans
      (congrArg (·, Result.done _) (seed_moves hmove e _)))⟩

/-! ## Rings (R55–R58) -/

theorem slotPort_eq {b : List Byte} {p : Fin 16} (h : p.val = byteAt b 10) : Fin.ofNat 16 (byteAt b 10) = p := by
  rw [← h]
  exact Fin.ext (Nat.mod_eq_of_lt p.isLt)

theorem carryClearIntake_eq {s : State} {b : List Byte} {p : Fin 16} (h : p.val = byteAt b 10) :
    s.carryClearIntake b = (s.putRing p none, .done (if (s.ring p).isSome = true then 1 else 0)) := by
  unfold State.carryClearIntake
  dsimp only
  rw [slotPort_eq h, bit_ite]

/-- SET_INTAKE with parameters in range: refused where the ring meets another's area, else set (R56, R57). -/
theorem carrySetIntake_eq {s : State} {b : List Byte} {p : Fin 16} (h : p.val = byteAt b 10) {x : Ring}
    (hx : slotRing b = x) : s.carrySetIntake b =
      if (s.takenAreas p).any (fun q => rangesOverlap x.area.1 x.area.2 q.1 q.2) then (s, .refused .overlap)
      else (s.putRing p (some x), .done (if (s.ring p).isSome = true then 1 else 0)) := by
  unfold State.carrySetIntake
  dsimp only
  rw [slotPort_eq h, hx, bit_ite]

/-- Settles O52. -/
theorem intakeRingCommands : Obligations.IntakeRingCommands := by
  intro s tag r f p hp
  dsimp only
  refine ⟨fun h => ?_, fun a x h ha hx => ?_⟩
  · obtain ⟨t, hexec, hdone, _, _⟩ := now_took h
    exact ⟨t, hexec, hdone _ _ (carryClearIntake_eq hp)⟩
  · obtain ⟨t, hexec, hdone, hrefused, _⟩ := now_took h
    obtain ⟨_, _, _, hparams⟩ := h
    have hcarry := carrySetIntake_eq (s := s) hp ((slotRing_eq hparams).trans hx.symm)
    have htaken := taken_iff s a p x ha
    exact ⟨t, hexec, fun ho => hrefused _ _ (hcarry.trans (if_pos (htaken.mpr ho))),
      fun hn => hdone _ _ (hcarry.trans (if_neg (mt htaken.mp hn)))⟩

end Sys2Proof.Machine
end

section
/-! PROOF. The commands that open and end a load, and those that begin a clearing. -/

namespace Sys2Proof.Machine

/-! ## MAP_BEGIN and MAP_END (R41, R44, R49) -/

theorem carryMapBegin_attached {s : State} (h : s.ctl.mode = .attached) (b : List Byte) :
    s.carryMapBegin b = (State.mark { s.openLoad (leAt b 10 2) (byteAt b 12) (slotTag b) with
      ctl := { s.ctl with mode := .loading } } 1280, .done 0) := by
  have hmode : (s.openLoad (leAt b 10 2) (byteAt b 12) (slotTag b)).ctl.mode ≠ .loading := by
    rw [show (s.openLoad (leAt b 10 2) (byteAt b 12) (slotTag b)).ctl = s.ctl from rfl, h]
    decide
  rw [State.carryMapBegin, if_neg (by rw [h]; decide), putMode_ne hmode]
  rfl

theorem carryMapBegin_loading {s : State} (h : s.ctl.mode = .loading) (b : List Byte) :
    s.carryMapBegin b = (s.restartLoad (slotTag b), .done 0) := if_pos h

theorem carryMapEnd_loading {s : State} (h : s.ctl.mode = .loading) (b : List Byte) (addr : Addr) :
    s.carryMapEnd b addr = (s.stopBurst.beginJob (.mapEnd (leAt b 10 2) none) addr b, .begun) := if_pos h

theorem carryMapEnd_attached {s : State} (h : s.ctl.mode = .attached) (b : List Byte) (addr : Addr) :
    (leAt b 10 2 = 0 → s.carryMapEnd b addr = ((s.activate emptyMap).reportActivation b 0, .done 0)) ∧
    (leAt b 10 2 ≠ 0 → s.carryMapEnd b addr = (s, .refused .wrongMode)) := by
  have hnot : s.ctl.mode ≠ .loading := by
    rw [h]
    decide
  exact ⟨fun hz => (if_neg hnot).trans (if_pos hz), fun hz => (if_neg hnot).trans (if_neg hz)⟩

/-! ## MAP_ABORT (R50) -/

theorem abortLoad_eq {s : State} (h : s.ctl.mode = .loading) : s.abortLoad =
    State.mark { s with
      ctl := { s.ctl with mode := .attached },
      loader := { s.loader with capture := [], pointer := 0, overlong := false, burst := none } } 1280 := by
  have hmode : s.dropLoad.ctl.mode ≠ .attached := by
    rw [show s.dropLoad.ctl = s.ctl from rfl, h]
    decide
  rw [State.abortLoad, putMode_ne hmode]
  rfl

theorem carryMapAbort_idle {s : State} (h : s.cmd.unit = .idle) : s.carryMapAbort = (s.abortLoad, .done 0) := by
  simp only [State.carryMapAbort, h]

theorem carryMapAbort_ended {s : State} {expected : Nat} {check : Option CheckEnd} {addr : Addr} {since : Time}
    (h : s.cmd.unit = .busy (.mapEnd expected check) addr since) (hc : check ≠ none) :
    s.carryMapAbort = (s, .refused .wrongMode) := by
  obtain ⟨ended, rfl⟩ := Option.ne_none_iff_exists'.mp hc
  simp only [State.carryMapAbort, h]

theorem carryMapAbort_checking {s : State} {expected : Nat} {addr : Addr} {since : Time}
    (h : s.cmd.unit = .busy (.mapEnd expected none) addr since) : s.carryMapAbort =
      (((s.abortLoad.reportDone (s.progressSlot addr) .mapEnd .failed MapFail.aborted.code).finalWriteBack addr .failed
        .failed MapFail.aborted.code).leaveBusy, .done 0) := by
  simp only [State.carryMapAbort, h]

/-! ## RESTART (R31, R33, R68) -/

theorem zeroTallies_frame (s : State) : s.zeroTallies = { s with
    intake := { s.intake with tallies := Vector.replicate 16 ⟨0, 0, 0, 0, 0, 0, 0⟩ },
    mirror := { s.mirror with dirty := s.zeroTallies.mirror.dirty } } := by
  have h := foldl_markTally_eq (List.finRange 16)
    { s with intake := { s.intake with tallies := Vector.replicate 16 Tally.zero } }
  rw [← State.zeroTallies] at h
  generalize s.zeroTallies = u at h ⊢
  rw [h]
  rfl

theorem mem_zeroTallies (s : State) (i : Nat) :
    i ∈ s.zeroTallies.mirror.dirty ↔ i ∈ s.mirror.dirty ∨ (1264 ≤ i ∧ i < 1280) := by
  rw [State.zeroTallies, mem_foldl_markTally]
  refine or_congr Iff.rfl ⟨fun ⟨p, _, hp⟩ => by omega, fun hi => ?_⟩
  exact ⟨⟨i - 1264, by omega⟩, List.mem_finRange _, by simp only; omega⟩

/-! ## Activation (R47, R49) -/

theorem activate_eq (s : State) (m : BuildingMap) : s.activate m = { s with
    ctl := { s.ctl with mode := .running }, map := some m,
    loader := { s.loader with capture := [], pointer := 0, overlong := false, burst := none },
    table := { s.table with terms := s.activatedTerms m.terminals.length },
    corr := { s.corr with groups := Vector.replicate 240 Group.idle, stormIn := false },
    mirror := { s.mirror with dirty := List.range Config.mirrorRecords, cursor := 0 } } := rfl

/-- Settles O53. -/
theorem mapAndRestartCommands : Obligations.MapAndRestartCommands := by
  intro s tag r f
  dsimp only
  refine ⟨fun h => ?_, fun h => ?_, fun h => ?_, fun expected check addr since e ha hc hk hp hnow hmode hunit he => ?_,
    fun h => ?_, fun h => ?_, fun m => ⟨s.activatedTerms m.terminals.length, activated_get s _, ?_⟩, rfl⟩
  · obtain ⟨t, hexec, hdone, _, _⟩ := now_took h
    exact ⟨t, hexec, fun hm => hdone _ _ (carryMapBegin_attached hm _),
      fun hm => hdone _ _ (carryMapBegin_loading hm _)⟩
  · obtain ⟨t, hexec, hdone, hrefused, hbegun⟩ := now_took h
    exact ⟨t, hexec, fun hm => hbegun _ (carryMapEnd_loading hm _ _),
      fun hm hz => hdone _ _ ((carryMapEnd_attached hm _ _).1 hz),
      fun hm hz => hrefused _ _ ((carryMapEnd_attached hm _ _).2 hz)⟩
  · obtain ⟨t, hexec, hdone, _, _⟩ := now_took h
    obtain ⟨⟨_, _, _, _, hidle⟩, _, hmode, _⟩ := h
    refine ⟨t, hexec, ?_⟩
    rw [← abortLoad_eq (beq_iff_eq.mp hmode)]
    exact hdone _ _ (carryMapAbort_idle hidle)
  · obtain ⟨t, hexec, hdone, hrefused, _⟩ := carried_took ha hc hk hp (.inr rfl) hnow (by rw [hmode]; rfl) rfl
    refine ⟨t, hexec, fun hch => hrefused _ _ (carryMapAbort_ended hunit hch), ?_⟩
    rintro rfl
    have hcarry := carryMapAbort_checking hunit
    have hprogress : (s.abortLoad.reportDone e.slot .mapEnd .failed MapFail.aborted.code).progress addr = some e := by
      rw [progress_reportDone, abortLoad_eq hmode]
      exact he
    rw [progress_of he, finish_eq hprogress, abortLoad_eq hmode] at hcarry
    exact hdone _ _ hcarry
  · obtain ⟨t, hexec, _, _, hbegun⟩ := now_took h
    exact ⟨t, hexec, hbegun _ rfl⟩
  · obtain ⟨t, hexec, _, _, hbegun⟩ := now_took h
    refine ⟨t, s.zeroTallies, hexec, hbegun _ ?_, zeroTallies_frame s, mem_zeroTallies s⟩
    rw [show carryOf .restart s r.bytes r.addr _ = (s.zeroTallies.beginJob (.restart false) r.addr r.bytes, .begun) from rfl,
      State.beginJob, show s.zeroTallies.time = s.time by rw [zeroTallies_frame]]
  · rw [activate_eq]
    rfl

end Sys2Proof.Machine
end

section
/-! PROOF. The load window: what a write into it captures, and the end of a burst. -/

namespace Sys2Proof.Machine

/-! ## Capturing (R40, R42, R44) -/

/-- A load-window write is captured in LOADING alone, and not while a check is under way (R42, R44). -/
def State.CaptureClosed (s : State) : Prop :=
  s.ctl.mode ≠ .loading ∨ ∃ expected check addr since, s.cmd.unit = .busy (.mapEnd expected check) addr since

theorem checking_iff (u : UnitState) :
    u.checking = true ↔ ∃ expected check addr since, u = .busy (.mapEnd expected check) addr since := by
  constructor
  · intro h
    cases u with
    | idle => exact absurd h (by decide)
    | actions => exact absurd h (by decide)
    | busy j addr since =>
      cases j with
      | mapEnd expected check => exact ⟨expected, check, addr, since, rfl⟩
      | restart ended => exact absurd h Bool.false_ne_true
      | unmap ended => exact absurd h Bool.false_ne_true
  · rintro ⟨expected, check, addr, since, rfl⟩
    rfl

theorem captureClosed_iff (s : State) :
    (s.ctl.mode != .loading || s.cmd.unit.checking) = true ↔ s.CaptureClosed := by
  rw [Bool.or_eq_true, bne_iff_ne, checking_iff]
  rfl

theorem captureWrite_cases (s : State) (r : Request) (a : Anchor) :
    (s.ctl.anchor = none → s.captureWrite r = s) ∧
    (s.ctl.anchor = some a → (s.CaptureClosed → s.captureWrite r = s) ∧
      (¬s.CaptureClosed → s.captureWrite r = { s with loader := { (windowBeats a r).foldl Loader.captureBeat s.loader with
        burst := some s.burstEnd } })) := by
  unfold State.captureWrite
  refine ⟨fun ha => by rw [ha], fun ha => ?_⟩
  rw [ha]
  exact ⟨fun hc => if_pos ((captureClosed_iff s).mpr hc), fun hc => if_neg (mt (captureClosed_iff s).mp hc)⟩

/-- LOAD_WINDOW_WRITE on a front of its kind alone: the write is captured and its index handed over (R42). -/
theorem exec_loadWindowWrite {s : State} {tag : Tag} {r : Request} {f : StepFor} (ha : s.Admitted tag r f)
    (hw : f.window = true) (hi : f.intake = false) :
    ∃ t, exec (.loadWindowWrite tag) s = .next t ∧ Took t ((s.captureWrite r).handOver f) tag r := by
  have hwith : ∀ p, ((s.withPath p).captureWrite r).handOver f = ((s.captureWrite r).handOver f).withPath p := fun p => by
    rw [captureWrite_withPath, handOver_withPath]
  refine ⟨_, rfl, takeStep_of ha hw (fun p => ?_) ((handOver_path _ f).trans (captureWrite_path s r))⟩
  rw [hi, ← hwith]
  rfl

theorem captureBeat_below {l : Loader} (h : l.pointer < l.declared) (b : Beat) : l.captureBeat b = { l with
    capture := l.capture.take l.pointer ++ Beat.stored b ++ l.capture.drop (l.pointer + 8),
    crc := crcRun l.crc l.pointer (Beat.stored b), pointer := l.pointer + 8 } := if_pos h

theorem captureBeat_beyond {l : Loader} (h : l.declared ≤ l.pointer) (b : Beat) :
    l.captureBeat b = { l with overlong := true } := if_neg (Nat.not_lt.mpr h)

theorem length_beats_le (r : Request) : r.beats.length ≤ r.body.beatCount := by
  unfold Request.beats
  cases r.body with
  | read n => exact Nat.zero_le n
  | write bs => exact Nat.le_refl _

/-- The beats of a write that lies inside the window with every beat, or with none. -/
theorem windowBeats_uniform {a : Anchor} {r : Request} (inside : Nat → Prop)
    (hi : ∀ k, inside k ↔ a.windowBase.toNat ≤ r.addr.toNat + 8 * k ∧
      r.addr.toNat + 8 * k + 8 ≤ a.windowBase.toNat + 4096) :
    ((∀ k < r.body.beatCount, inside k) → windowBeats a r = r.beats) ∧
    ((∀ k < r.body.beatCount, ¬inside k) → windowBeats a r = []) := by
  have hlt : ∀ k < r.beats.length, k < r.body.beatCount := fun k hk => Nat.lt_of_lt_of_le hk (length_beats_le r)
  refine ⟨fun h => ?_, fun h => ?_⟩
  · refine windowBeats_split (outer := []) (after := []) (by simp) inside hi nofun (fun k hk => ?_) nofun
    rw [List.length_nil, Nat.zero_add]
    exact h k (hlt k hk)
  · exact windowBeats_split (inner := []) (after := []) (by simp) inside hi (fun k hk => h k (hlt k hk)) nofun nofun

/-! ## The burst timer (R43) -/

theorem burstExpired_iff (s : State) : (s.ready && s.ctl.mode == .loading && due s.time s.loader.burst) = true ↔
    s.ready = true ∧ s.ctl.mode = .loading ∧ due s.time s.loader.burst = true := by
  rw [Bool.and_eq_true, Bool.and_eq_true, beq_iff_eq, and_assoc]

theorem exec_burstTimerExpiry_expired {s : State} (h : s.ready = true ∧ s.ctl.mode = .loading ∧
    due s.time s.loader.burst = true) : exec .burstTimerExpiry s =
      .next (s.abortLoad.makeReport (doneDraft s.loader.tag .mapBegin .timeout 0)) :=
  congrArg Host.Outcome.next (if_pos ((burstExpired_iff s).mpr h))

/-- A unit that is BUSY and clears nothing checks a map (R44). -/
theorem checking_of_busy {u : UnitState} (hb : u.isBusy = true) (hc : u.clearing = false) : u.checking = true := by
  cases u with
  | idle => exact hb
  | actions => exact hb
  | busy j addr since =>
    cases j with
    | mapEnd expected check => rfl
    | restart ended => exact absurd hc.symm Bool.false_ne_true
    | unmap ended => exact absurd hc.symm Bool.false_ne_true

/-- In LOADING, with a unit that is not BUSY, the capture is open. -/
theorem captureOpen {s : State} (hmode : s.ctl.mode = .loading) (hb : s.cmd.unit.isBusy = false) :
    ¬s.CaptureClosed := by
  rintro (hne | ⟨expected, check, addr, since, hunit⟩)
  · exact hne hmode
  · rw [hunit] at hb
    exact absurd hb.symm Bool.false_ne_true

/-- Settles O54. -/
theorem loadWindowCaptured : Obligations.LoadWindowCaptured := by
  refine ⟨fun s tag r f a ha hw hi hanchor hmode => ?_,
    fun l b => ⟨fun h => captureBeat_below h b, fun h => captureBeat_beyond h b⟩,
    fun s => ⟨fun h => ?_, fun h => congrArg Host.Outcome.next (if_neg (mt (burstExpired_iff s).mp h))⟩,
    fun c k b bs => ⟨rfl, rfl⟩, captureWrite_cases⟩
  · obtain ⟨t, hexec, htook⟩ := exec_loadWindowWrite ha hw hi
    obtain ⟨hclosed, hopen⟩ := (captureWrite_cases s r a).2 hanchor
    obtain ⟨hall, hnone⟩ := windowBeats_uniform (a := a) (r := r) _ (fun k => Iff.rfl)
    refine ⟨t, hexec, fun hbusy hclear => ?_, fun hbusy => ?_, fun outer inner after hsplit houter hinner hafter =>
      windowBeats_split hsplit _ (fun k => Iff.rfl) houter hinner hafter, hall, hnone⟩
    · rw [hclosed (.inr ((checking_iff _).mp (checking_of_busy hbusy hclear)))] at htook
      exact htook
    · rw [hopen (captureOpen hmode hbusy)] at htook
      exact htook
  · have ⟨_, hmode, _⟩ := h
    rw [exec_burstTimerExpiry_expired h, abortLoad_eq hmode]
    rfl

end Sys2Proof.Machine
end

section
/-! PROOF. The check of a load and its completion. -/

namespace Sys2Proof.Machine

/-! ## The tests of TABLE 3-4 in order (R45) -/

/-- The tests of a captured image: length, version, check value, counts, references, pairs, tree (TABLE 3-4). -/
theorem checkImage_order (l : Loader) (expected : Nat) :
    let b := l.capture.take l.pointer
    let length := l.pointer = l.declared ∧ l.overlong = false ∧ expected = l.declared
    let version := leAt b 0 2 = 1
    let check := (crc32Final l.crc).toNat = leAt b 16 4
    let counts := imageTerminals b ≤ 1024 ∧ imageTaps b ≤ 128 ∧ imageRisers b ≤ 32 ∧ imageZones b ≤ 64 ∧
      imageLength b = l.declared
    let reference := imageBadReference b = false
    let unique := anyEqualPair ((mapOf b).terminals.map (fun e => (e.port, e.localId))) = false
    let tree := mapBadTree (mapOf b) = false
    let fails (p : Prop) (c : MapFail) := ¬p → checkImage l expected = .failed c
    fails length .length ∧ (length → fails version .version) ∧ (length → version → fails check .check) ∧
    (length → version → check → fails counts .counts) ∧ (length → version → check → counts → fails reference .reference) ∧
    (length → version → check → counts → reference → fails unique .duplicate) ∧
    (length → version → check → counts → reference → unique → fails tree .tree) ∧
    (length → version → check → counts → reference → unique → tree → checkImage l expected = .passed (mapOf b)) := by
  intro b length version check counts reference unique tree fails
  have hlength : (l.pointer != l.declared || l.overlong || expected != l.declared) = true ↔ ¬length := by
    simp only [Bool.or_eq_true, bne_iff_ne, length, not_and_or, Bool.not_eq_false, or_assoc, ne_eq]
  have hversion : (leAt b 0 2 != 1) = true ↔ ¬version := bne_iff_ne
  have hcheck : ((crc32Final l.crc).toNat != leAt b 16 4) = true ↔ ¬check := bne_iff_ne
  have hcounts : (1024 < imageTerminals b || 128 < imageTaps b || 32 < imageRisers b || 64 < imageZones b ||
      imageLength b != l.declared) = true ↔ ¬counts := by
    simp only [Bool.or_eq_true, decide_eq_true_eq, bne_iff_ne, counts, not_and_or, Nat.not_le, or_assoc, ne_eq]
  have past_length (h : length) : checkImage l expected = _ := if_neg (fun hc => hlength.mp hc h)
  have past_version (h1 : length) (h : version) := (past_length h1).trans (if_neg (fun hc => hversion.mp hc h))
  have past_check (h1 : length) (h2 : version) (h : check) :=
    (past_version h1 h2).trans (if_neg (fun hc => hcheck.mp hc h))
  have past_counts (h1 : length) (h2 : version) (h3 : check) (h : counts) :=
    (past_check h1 h2 h3).trans (if_neg (fun hc => hcounts.mp hc h))
  have past_reference (h1 : length) (h2 : version) (h3 : check) (h4 : counts) (h : reference) :=
    (past_counts h1 h2 h3 h4).trans (if_neg (Bool.eq_false_iff.mp h))
  have past_unique (h1 : length) (h2 : version) (h3 : check) (h4 : counts) (h5 : reference) (h : unique) :=
    (past_reference h1 h2 h3 h4 h5).trans (if_neg (Bool.eq_false_iff.mp h))
  exact ⟨fun h => if_pos (hlength.mpr h), fun h1 h => (past_length h1).trans (if_pos (hversion.mpr h)),
    fun h1 h2 h => (past_version h1 h2).trans (if_pos (hcheck.mpr h)),
    fun h1 h2 h3 h => (past_check h1 h2 h3).trans (if_pos (hcounts.mpr h)),
    fun h1 h2 h3 h4 h => (past_counts h1 h2 h3 h4).trans (if_pos (Bool.not_eq_false _ ▸ h)),
    fun h1 h2 h3 h4 h5 h => (past_reference h1 h2 h3 h4 h5).trans (if_pos (Bool.not_eq_false _ ▸ h)),
    fun h1 h2 h3 h4 h5 h6 h => (past_unique h1 h2 h3 h4 h5 h6).trans (if_pos (Bool.not_eq_false _ ▸ h)),
    fun h1 h2 h3 h4 h5 h6 h => (past_unique h1 h2 h3 h4 h5 h6).trans (if_neg (Bool.eq_false_iff.mp h))⟩

/-! ## The row of the check (R44) -/

theorem workDone_iff (s : State) (since : Time) :
    s.workDone since = true ↔ s.working = true ∧ reached s.time (since + 1) = true := by
  rw [State.workDone, Bool.and_eq_true]
  rfl

theorem not_workDone {s : State} {since : Time} (h : s.working = false ∨ reached s.time (since + 1) = false) :
    ¬s.workDone since = true := by
  rw [workDone_iff]
  rintro ⟨hw, hr⟩
  rcases h with h | h
  · exact absurd (h.symm.trans hw) Bool.false_ne_true
  · exact absurd (h.symm.trans hr) Bool.false_ne_true

/-- MAP_CHECK_END while a check is under way: its outcome is decided once its time is over (R44). -/
theorem exec_mapCheckEnd {s : State} {expected : Nat} {addr : Addr} {since : Time}
    (h : s.cmd.unit = .busy (.mapEnd expected none) addr since) : exec .mapCheckEnd s = .next
      (if s.workDone since then s.setUnit (.busy (.mapEnd expected (some (checkImage s.loader expected))) addr since)
        else s) := by
  simp only [exec, execMapCheckEnd, h]

theorem exec_mapEndCompletion_undecided {s : State} {expected : Nat} {addr : Addr} {since : Time}
    (h : s.cmd.unit = .busy (.mapEnd expected none) addr since) : exec .mapEndCompletion s = .next s := by
  simp only [exec, execMapEndCompletion, h]

/-- What the completion of a decided check does (R46, R47). -/
def State.endLoad (s : State) (addr : Addr) : CheckEnd → State
  | .passed m => s.completeLoad addr m
  | .failed c => s.failLoad addr c

/-- MAP_END_COMPLETION once a check is decided: the load is completed or fails, as soon as there is room (R46, R47). -/
theorem exec_mapEndCompletion_decided {s : State} {expected : Nat} {ended : CheckEnd} {addr : Addr} {since : Time}
    (h : s.cmd.unit = .busy (.mapEnd expected (some ended)) addr since) :
    exec .mapEndCompletion s = .next (if s.ready then s.endLoad addr ended else s) := by
  cases ended with
  | passed m => simp only [exec, execMapEndCompletion, h, State.endLoad]
  | failed c => simp only [exec, execMapEndCompletion, h, State.endLoad]

/-! ## Completion (R46, R47, R48, R165) -/

/-- A command in progress that ends: reported where completion reports are on, written back, off the in-progress list, and
the unit out of BUSY (R164, R165). -/
def State.finished (u : State) (addr : Addr) (e : InProgress) (k : Kind) (st : SlotState) (c : Code) (data : Nat) : State :=
  let v := (u.reportDone e.slot k c data).enqueue (.writeBack addr (writeBackBytes e.slot st c e.overwritten data))
  { v with cmd := { v.cmd with unit := if v.cmd.due = [] then .idle else .actions,
                               inProgress := v.cmd.inProgress.filter (fun x => x.addr != addr) } }

theorem finished_eq {u : State} {addr : Addr} {e : InProgress} (h : u.progress addr = some e) (k : Kind) (st : SlotState)
    (c : Code) (data : Nat) :
    ((u.reportDone e.slot k c data).finalWriteBack addr st c data).leaveBusy = u.finished addr e k st c data :=
  finish_eq ((progress_reportDone u _ _ _ _ addr).trans h) st c data

theorem progress_of_cmd {s u : State} (h : u.cmd = s.cmd) (addr : Addr) : u.progress addr = s.progress addr := by
  rw [State.progress, State.progress, h]

theorem completeLoad_eq {s : State} {addr : Addr} {e : InProgress} (h : s.progress addr = some e) (m : BuildingMap) :
    s.completeLoad addr m = ((s.activate m).makeSync { mapActive := true } engineOrigin).1.finished addr e .mapEnd .done
      .done m.terminals.length := by
  have hprogress : ((s.activate m).makeSync { mapActive := true } engineOrigin).1.progress addr = some e :=
    (progress_of_cmd (cmd_makeSync (s.activate m) _ _) addr).trans h
  rw [← finished_eq hprogress, State.completeLoad, State.reportActivation, progress_of h]

theorem failLoad_eq {s : State} {addr : Addr} {e : InProgress} (h : s.progress addr = some e)
    (hmode : s.ctl.mode = .loading) (c : MapFail) : s.failLoad addr c = (State.mark { s with
      ctl := { s.ctl with mode := .attached },
      loader := { s.loader with capture := [], pointer := 0, overlong := false, burst := none } } 1280).finished addr e
        .mapEnd .failed .failed c.code := by
  have hprogress : s.abortLoad.progress addr = some e := by
    rw [abortLoad_eq hmode]
    exact h
  rw [← abortLoad_eq hmode, ← finished_eq hprogress, State.failLoad, progress_of h, State.abortLoad]

theorem reportDone_cases (s : State) (slot : List Byte) (k : Kind) (c : Code) (data : Nat) :
    (s.ctl.anchor = none → s.reportDone slot k c data = s) ∧
    ∀ a, s.ctl.anchor = some a → s.reportDone slot k c data =
      if a.completionReports = true then s.makeReport (doneDraft (slotTag slot) k c data) else s := by
  unfold State.reportDone
  exact ⟨fun h => by rw [h], fun a h => by rw [h]⟩

theorem length_terminals (b : List Byte) : (mapOf b).terminals.length = leAt b 2 2 :=
  (List.length_map _).trans List.length_range

theorem length_taps (b : List Byte) : (mapOf b).taps.length = leAt b 4 2 :=
  (List.length_map _).trans List.length_range

theorem length_risers (b : List Byte) : (mapOf b).risers.length = leAt b 6 2 :=
  (List.length_map _).trans List.length_range

/-- Settles O55. -/
theorem mapChecksComplete : Obligations.MapChecksComplete := by
  refine ⟨fun s expected addr since => ⟨fun h => ⟨fun hw hr => ?_, fun hearly => ?_,
      exec_mapEndCompletion_undecided h⟩, fun e ended h he => ⟨fun hr => ?_, ?_, ?_⟩⟩, fun l expected => ?_,
    reportDone_cases, fun c => ?_, fun c => by cases c <;> decide⟩
  · rw [exec_mapCheckEnd h, if_pos ((workDone_iff s since).mpr ⟨hw, hr⟩)]
    rfl
  · rw [exec_mapCheckEnd h, if_neg (not_workDone hearly)]
  · rw [exec_mapEndCompletion_decided h, hr]
    rfl
  · rintro m hr rfl
    refine ⟨s.activatedTerms m.terminals.length, activated_get s _, ?_⟩
    rw [exec_mapEndCompletion_decided h, if_pos hr, State.endLoad, completeLoad_eq he, activate_eq]
    rfl
  · rintro c hr rfl hmode
    rw [exec_mapEndCompletion_decided h, if_pos hr, State.endLoad, failLoad_eq he hmode]
    rfl
  · obtain ⟨hlength, hversion, hcheck, hcounts, href, hunique, htree, hpassed⟩ := checkImage_order l expected
    simp only [imageBadReference_iff, anyEqualPair_iff, mapBadTree_iff] at href hunique htree hpassed
    refine ⟨hlength, hversion, hcheck, hcounts, href, hunique, htree, hpassed, length_terminals _, length_taps _,
      length_risers _, rfl, fun ⟨_, htaps, hrisers, hzones, _⟩ hrefs => ?_⟩
    exact mapOf_reads _ ⟨htaps, hrisers, hzones⟩ ((imageBadReference_iff _).mpr hrefs)
  · rw [crc32Final, ← BitVec.xor_allOnes]
    rfl

end Sys2Proof.Machine
end

section
/-! PROOF. The clearings and completions of UNMAP and RESTART. -/

namespace Sys2Proof.Machine

/-! ## UNMAP's clearing (R51, R52) -/

/-- A state without its map: records cleared, the stores of spec/11 emptied, nothing marked yet (R52). -/
def State.mapless (s : State) : State := { s with
  map := none,
  table := { s.table with terms := s.table.terms.map Terminal.unmapped },
  corr := { s.corr with groups := Vector.replicate 240 Group.idle, stormIn := false },
  cmd := { s.cmd with
    inProgress := s.cmd.inProgress.filter (fun e => !s.cmd.deferred.any (fun d => d.addr == e.addr)),
    deferred := [], lineA := s.cmd.lineA.emptied, lineB := s.cmd.lineB.emptied, due := [] } }

theorem clearMap_eq (s : State) : s.clearMap = s.mapless.markChanged s :=
  congrArg (State.markChanged · s) (emptyLines_flush
    ({ s with map := none }.setRecords (s.table.terms.map Terminal.unmapped)))

/-- Marks and a unit state show in no group record. -/
theorem recordBytes_shown (u : State) (dirty : List Nat) (unit : UnitState) (g : GroupId) :
    ({ u with mirror := { u.mirror with dirty := dirty }, cmd := { u.cmd with unit := unit } } : State).recordBytes
      g.record 0 = u.recordBytes g.record 0 := by
  rw [recordBytes_group, recordBytes_group]
  rfl

theorem markChanged_frame (u s : State) : u.markChanged s =
    { u with mirror := { u.mirror with dirty := (u.markChanged s).mirror.dirty } } := by
  unfold State.markChanged
  generalize (List.range Config.mirrorRecords).filter (State.recordChanged s u) = marked
  exact foldl_mark_eq marked u

/-- UNMAP_CLEARING once its time is over (R52). -/
theorem unmapCleared (s : State) (unit : UnitState) : ∃ t, s.clearMap.setUnit unit = t ∧
    t = { s.mapless with mirror := { s.mirror with dirty := t.mirror.dirty }, cmd := { s.mapless.cmd with unit := unit } } ∧
    ∀ i, i ∈ t.mirror.dirty ↔ i ∈ s.mirror.dirty ∨ i = 1280 ∨ (∃ n : Fin 1024, i = n.val ∧ t.term n ≠ s.term n) ∨
      ∃ g : GroupId, i = g.record ∧ (t.group g ≠ s.group g ∨ t.recordBytes i 0 ≠ s.recordBytes i 0) := by
  have hmem := mem_markChanged s.mapless s
  have hclear := (clearMap_eq s).trans (markChanged_frame s.mapless s)
  generalize (s.mapless.markChanged s).mirror.dirty = dirty at hmem hclear
  refine ⟨{ s.mapless with
    mirror := { s.mapless.mirror with dirty := dirty },
    cmd := { s.mapless.cmd with unit := unit } }, by rw [hclear]; rfl, rfl, fun i => ?_⟩
  refine (hmem i).trans (or_congr Iff.rfl (or_congr Iff.rfl (or_congr Iff.rfl (exists_congr fun g =>
    and_congr_right ?_))))
  rintro rfl
  rw [recordBytes_shown]
  rfl

theorem exec_unmapClearing {s : State} {addr : Addr} {since : Time} (h : s.cmd.unit = .busy (.unmap false) addr since) :
    exec .unmapClearing s = .next
      (if s.workDone since then s.clearMap.setUnit (.busy (.unmap true) addr since) else s) := by
  simp only [exec, execUnmapClearing, h]

theorem exec_unmapCompletion_early {s : State} {addr : Addr} {since : Time}
    (h : s.cmd.unit = .busy (.unmap false) addr since) : exec .unmapCompletion s = .next s := by
  simp only [exec, execUnmapCompletion, h]

theorem exec_unmapCompletion {s : State} {addr : Addr} {since : Time} (h : s.cmd.unit = .busy (.unmap true) addr since) :
    exec .unmapCompletion s = .next (if s.ready then s.completeUnmap addr else s) := by
  simp only [exec, execUnmapCompletion, h]

theorem completeUnmap_eq {s : State} {addr : Addr} {e : InProgress} (h : s.progress addr = some e) :
    s.completeUnmap addr = ((s.setMode .attached).markAll).finished addr e .unmap .done .done 0 := by
  have hprogress : ((s.setMode .attached).markAll).progress addr = some e := h
  rw [← finished_eq hprogress, State.completeUnmap, progress_of h]

/-! ## RESTART's clearing (R33, R34) -/

theorem clearRecords_running {s : State} (h : s.ctl.mode = .running) : s.clearRecords = { s with
    table := { s.table with terms := s.restartedTerms },
    corr := { s.corr with groups := Vector.replicate 240 Group.idle, stormIn := false },
    mirror := { s.mirror with dirty := List.range Config.mirrorRecords, cursor := 0 },
    cmd := { s.cmd with
      inProgress := s.cmd.inProgress.filter (fun e => !s.cmd.deferred.any (fun d => d.addr == e.addr)),
      deferred := [], due := s.cmd.due.filter (fun a => a != .deferred) } } := by
  have hclear : s.clearRecords = ((s.setRecords s.restartedTerms).flushDeferred).markAll := if_pos h
  rw [hclear, State.markAll, State.flushDeferred, State.setRecords, clearedGroups]

theorem clearRecords_attached {s : State} (h : s.ctl.mode ≠ .running) : s.clearRecords = s := if_neg h

theorem exec_restartClearing {s : State} {addr : Addr} {since : Time}
    (h : s.cmd.unit = .busy (.restart false) addr since) : exec .restartClearing s = .next
      (if s.workDone since then s.clearRecords.setUnit (.busy (.restart true) addr since) else s) := by
  simp only [exec, execRestartClearing, h]

theorem exec_restartCompletion_early {s : State} {addr : Addr} {since : Time}
    (h : s.cmd.unit = .busy (.restart false) addr since) : exec .restartCompletion s = .next s := by
  simp only [exec, execRestartCompletion, h]

theorem exec_restartCompletion {s : State} {addr : Addr} {since : Time}
    (h : s.cmd.unit = .busy (.restart true) addr since) :
    exec .restartCompletion s = .next (if s.ready then s.completeRestart addr else s) := by
  simp only [exec, execRestartCompletion, h]

theorem completeRestart_eq {s : State} {addr : Addr} {e : InProgress} (h : s.progress addr = some e) :
    s.completeRestart addr =
      (s.makeSync { restarted := true } engineOrigin).1.finished addr e .restart .done .done 0 := by
  have hprogress : (s.makeSync { restarted := true } engineOrigin).1.progress addr = some e :=
    (progress_of_cmd (cmd_makeSync s _ _) addr).trans h
  rw [← finished_eq hprogress, State.completeRestart, progress_of h]

/-- Settles O56. -/
theorem unmapAndRestartComplete : Obligations.UnmapAndRestartComplete := by
  refine ⟨fun s addr since => ?_, fun u => rfl⟩
  dsimp only
  refine ⟨fun h => ⟨fun hearly => ?_, exec_unmapCompletion_early h, fun hready => ?_⟩,
    fun h => ⟨fun hearly => ?_, exec_restartCompletion_early h, fun hready hmode => ?_, fun hready hmode => ?_⟩,
    fun e he => ⟨fun h => ⟨fun hr => ?_, fun hr => ?_⟩, fun h => ⟨fun hr => ?_, fun hr => ?_⟩⟩⟩
  · rw [exec_unmapClearing h, if_neg (not_workDone hearly)]
  · obtain ⟨t, hclear, hframe, hmem⟩ := unmapCleared s (.busy (.unmap true) addr since)
    refine ⟨t, s.table.terms.map Terminal.unmapped, ?_, fun n => Vector.getElem_map _ _, hframe, hmem⟩
    rw [exec_unmapClearing h, if_pos ((workDone_iff s since).mpr hready), hclear]
  · rw [exec_restartClearing h, if_neg (not_workDone hearly)]
  · rw [exec_restartClearing h, if_pos ((workDone_iff s since).mpr hready), clearRecords_attached hmode]
    rfl
  · refine ⟨s.restartedTerms, activated_get s _, ?_⟩
    rw [exec_restartClearing h, if_pos ((workDone_iff s since).mpr hready), clearRecords_running hmode]
    rfl
  · rw [exec_unmapCompletion h, hr]
    rfl
  · rw [exec_unmapCompletion h, if_pos hr, completeUnmap_eq he]
    rfl
  · rw [exec_restartCompletion h, hr]
    rfl
  · rw [exec_restartCompletion h, if_pos hr, completeRestart_eq he]
    rfl

end Sys2Proof.Machine
end

section
/-! PROOF. The tests of TABLE 10-2 in their order, and the parameters in range. -/

namespace Sys2Proof.Machine

/-! ## What a slot write is refused for (R163, R165, R166) -/

theorem progress_none_iff (s : State) (addr : Addr) :
    s.progress addr = none ↔ ∀ e ∈ s.cmd.inProgress, e.addr ≠ addr := by
  simp [State.progress, List.find?_eq_none]

theorem progress_some {s : State} {addr : Addr} {e : InProgress} (h : s.progress addr = some e) :
    e ∈ s.cmd.inProgress ∧ e.addr = addr :=
  ⟨List.mem_of_find?_eq_some h, by simpa using List.find?_some h⟩

theorem unlessSlotBusy_busy {s : State} {addr : Addr} (h : s.progress addr ≠ none) (b : List Byte) (u : State) :
    s.unlessSlotBusy addr b u = (s.markOverwritten addr).refuse addr b .slotBusy :=
  if_pos (Option.isSome_iff_ne_none.mpr h)

theorem unlessSlotBusy_free {s : State} {addr : Addr} (h : s.progress addr = none) (b : List Byte) (u : State) :
    s.unlessSlotBusy addr b u = u := if_neg (by rw [h]; exact Bool.false_ne_true)

/-- BAD_KIND on a slot write whose kind byte names no command: judged by tests 1 and 2 (R163). -/
theorem exec_badKind {s : State} {tag : Tag} {r : Request} {f : StepFor} (ha : s.Admitted tag r f)
    (hc : f.command = true) (hk : slotKind r.bytes = none) : ∃ t, exec (.badKind tag) s = .next t ∧
      Took t (s.unlessSlotBusy r.addr r.bytes (s.refuse r.addr r.bytes .badKind)) tag r := by
  have hwith : ∀ p, (s.withPath p).unlessSlotBusy r.addr r.bytes ((s.withPath p).refuse r.addr r.bytes .badKind) =
      (s.unlessSlotBusy r.addr r.bytes (s.refuse r.addr r.bytes .badKind)).withPath p := fun p =>
    unlessSlotBusy_withPath s p (refuse_withPath s p _ _ _) r.addr r.bytes
  refine ⟨_, rfl, takeStep_of ha ?_ (fun p => Prod.ext (hwith p) rfl) (path_of_commutes (f := fun u =>
    u.unlessSlotBusy r.addr r.bytes (u.refuse r.addr r.bytes .badKind)) (hwith s.path))⟩
  rw [hc, hk]
  rfl

theorem judgeSlot_slotBusy {s : State} {r : Request} (h : s.progress r.addr ≠ none) (k : Kind) :
    s.judgeSlot k r = (s.markOverwritten r.addr).refuse r.addr r.bytes .slotBusy := unlessSlotBusy_busy h _ _

theorem judgeSlot_busy {s : State} {r : Request} {k : Kind} (h : s.progress r.addr = none)
    (hbusy : s.cmd.unit.isBusy = true) (hk : k ≠ .mapAbort) : s.judgeSlot k r = s.refuse r.addr r.bytes .busy := by
  refine (unlessSlotBusy_free h _ _).trans (if_pos ?_)
  rw [hbusy, Bool.true_and]
  exact bne_iff_ne.mpr hk

section
variable {s : State} {k : Kind} {addr : Addr} {b : List Byte} (carry : State → State × Result)

theorem judgePlaced_noPlacement (h : slotPlacement b = none) :
    s.judgePlaced k carry addr b = s.refuse addr b .badParam := by
  simp only [State.judgePlaced, h]

theorem judgePlaced_wrongMode (h : slotPlacement b = some .now) (hmode : k.inMode s.ctl.mode = false) :
    s.judgePlaced k carry addr b = s.refuse addr b .wrongMode := by
  simp only [State.judgePlaced, h, hmode]
  rfl

theorem judgePlaced_badParam (h : slotPlacement b = some .now) (hmode : k.inMode s.ctl.mode = true)
    (hparams : paramsOk k s.ctl.mode b = false) : s.judgePlaced k carry addr b = s.refuse addr b .badParam := by
  simp only [State.judgePlaced, h, hmode, hparams]
  rfl

theorem judgePlaced_notDeferrable {p : Placement} (h : slotPlacement b = some p) (hp : p ≠ .now)
    (hd : k.deferrable = false) : s.judgePlaced k carry addr b = s.refuse addr b .notDeferrable := by
  cases p with
  | now => exact absurd rfl hp
  | defer =>
    simp only [State.judgePlaced, h, hd]
    rfl
  | line l =>
    simp only [State.judgePlaced, h, hd]
    rfl

theorem judgePlaced_laterBadParam {p : Placement} (h : slotPlacement b = some p) (hp : p ≠ .now)
    (hd : k.deferrable = true) (hparams : paramsOk k s.ctl.mode b = false) :
    s.judgePlaced k carry addr b = s.refuse addr b .badParam := by
  cases p with
  | now => exact absurd rfl hp
  | defer =>
    simp only [State.judgePlaced, h, hd, hparams]
    rfl
  | line l =>
    simp only [State.judgePlaced, h, hd, hparams]
    rfl

end

/-! ## Modes and parameters (TABLE 10-3, R41, R56, R58, R90, R173, R174) -/

theorem takesCommands_iff (m : Mode) : m.takesCommands = true ↔ m ∈ [Mode.attached, .loading, .running] := by
  cases m <;> decide

theorem eitherMode_iff (a b m : Mode) : (m == a || m == b) = true ↔ m ∈ [a, b] := by simp

theorem oneMode_iff (a m : Mode) : (m == a) = true ↔ m ∈ [a] := by simp

theorem powerOfTwoIn_iff (n lo hi : Nat) : powerOfTwoIn n lo hi = true ↔ ∃ e, lo ≤ e ∧ e ≤ hi ∧ n = 2 ^ e := by
  unfold powerOfTwoIn
  simp only [List.any_eq_true, List.mem_range'_1, beq_iff_eq]
  exact exists_congr fun e => ⟨fun ⟨⟨h1, h2⟩, h3⟩ => ⟨h1, by omega, h3⟩, fun ⟨h1, h2, h3⟩ => ⟨⟨h1, by omega⟩, h3⟩⟩

theorem inRange_zero_iff (hi v : Nat) : inRange 0 hi v = true ↔ v ≤ hi := by simp [inRange]

theorem intakeTreatment_isSome_iff (b : List Byte) :
    (intakeTreatment b).isSome = true ↔ byteAt b 19 = 1 ∨ byteAt b 19 = 2 := by
  unfold intakeTreatment
  generalize byteAt b 19 = v
  rcases v with _ | _ | _ | v <;> simp

theorem setIntakeOk_iff (b : List Byte) : setIntakeOk b = true ↔ byteAt b 10 ≤ 15 ∧ leAt b 11 5 % 64 = 0 ∧
    (∃ e, 2 ≤ e ∧ e ≤ 12 ∧ leAt b 16 2 = 2 ^ e) ∧ byteAt b 18 ≤ 31 ∧ (byteAt b 19 = 1 ∨ byteAt b 19 = 2) ∧
    leAt b 11 5 + 16 * leAt b 16 2 ≤ 2 ^ 40 := by
  simp only [setIntakeOk, Bool.and_eq_true, inRange_zero_iff, beq_iff_eq, powerOfTwoIn_iff, intakeTreatment_isSome_iff,
    decide_eq_true_eq, and_assoc]
  exact Iff.rfl

theorem seedOk_iff (b : List Byte) : (terminalOk b && (seedTarget b).isSome) = true ↔
    leAt b 10 2 ≤ 1023 ∧ ∃ target, seedTarget b = some target := by
  rw [Bool.and_eq_true, terminalOk, inRange_zero_iff, Option.isSome_iff_exists]

theorem mapBeginOk_iff (m : Mode) (b : List Byte) : (m == .loading || mapBeginOk b) = true ↔ m = .loading ∨
    (leAt b 10 2 % 8 = 0 ∧ 32 ≤ leAt b 10 2 ∧ leAt b 10 2 ≤ 4448 ∧ 1 ≤ byteAt b 12 ∧ byteAt b 12 ≤ 63) := by
  simp only [mapBeginOk, Bool.or_eq_true, Bool.and_eq_true, beq_iff_eq, inRange_iff]
  tauto

theorem dropActionOk_iff (b : List Byte) : (slotLine b).isSome = true ↔ byteAt b 10 = 0 ∨ byteAt b 10 = 1 := by
  unfold slotLine
  generalize byteAt b 10 = v
  rcases v with _ | _ | v <;> simp

/-- Settles O57, test by test of TABLE 10-2. -/
theorem commandsRefusedInOrder : Obligations.CommandsRefusedInOrder := by
  refine ⟨fun s tag r f ha hc => ⟨fun hk => ?_, fun k hk => ?_⟩, ?_, fun m b => ?_,
    fun b => ⟨seedTarget_iff b, slotKind_iff b, slotPlacement_iff b⟩,
    fun s addr => ⟨progress_none_iff s addr, fun e => progress_some⟩⟩
  · obtain ⟨t, hexec, htook⟩ := exec_badKind ha hc hk
    refine ⟨t, hexec, fun hp => ?_, fun hp => ?_⟩
    · rw [unlessSlotBusy_busy hp] at htook
      exact htook
    · rw [unlessSlotBusy_free hp] at htook
      exact htook
  · obtain ⟨t, hexec, htook⟩ := slot_took ha hc hk
    have took_of : ∀ u, s.judgeSlot k r = u → Took t u tag r := fun u h => h ▸ htook
    refine ⟨t, hexec, fun hp => took_of _ (judgeSlot_slotBusy hp k), fun hp =>
      ⟨fun hb hm => took_of _ (judgeSlot_busy hp hb hm), fun hb => ?_⟩⟩
    have past := judgeSlot_placed (k := k) hp hb
    exact ⟨fun hpl => took_of _ (past.trans (judgePlaced_noPlacement _ hpl)),
      fun hpl hmode => took_of _ (past.trans (judgePlaced_wrongMode _ hpl hmode)),
      fun hpl hmode hpar => took_of _ (past.trans (judgePlaced_badParam _ hpl hmode hpar)),
      fun p hpl hnow => ⟨fun hd => took_of _ (past.trans (judgePlaced_notDeferrable _ hpl hnow hd)),
        fun hd hpar => took_of _ (past.trans (judgePlaced_laterBadParam _ hpl hnow hd hpar))⟩⟩
  · have two := eitherMode_iff .attached .running
    have load := eitherMode_iff .attached .loading
    have run := oneMode_iff .running
    exact ⟨⟨two, rfl⟩, ⟨two, rfl⟩, ⟨takesCommands_iff, rfl⟩, ⟨takesCommands_iff, rfl⟩, ⟨takesCommands_iff, rfl⟩,
      ⟨takesCommands_iff, rfl⟩, ⟨takesCommands_iff, rfl⟩, ⟨takesCommands_iff, rfl⟩, ⟨takesCommands_iff, rfl⟩, ⟨two, rfl⟩,
      ⟨run, rfl⟩, ⟨run, rfl⟩, ⟨run, rfl⟩, ⟨load, rfl⟩, ⟨load, rfl⟩, ⟨oneMode_iff .loading, rfl⟩, ⟨run, rfl⟩, ⟨two, rfl⟩,
      ⟨takesCommands_iff, rfl⟩, ⟨takesCommands_iff, rfl⟩⟩
  · refine ⟨setIntakeOk_iff b, inRange_zero_iff 15 _, inRange_zero_iff 1023 _, inRange_zero_iff 1023 _, seedOk_iff b,
      mapBeginOk_iff m b, dropActionOk_iff b, ?_⟩
    simp only [List.forall_mem_cons]
    exact ⟨rfl, rfl, rfl, rfl, rfl, rfl, nofun⟩

end Sys2Proof.Machine
end

section
/-! PROOF. Commands stored for later, and the commands that remove them. -/

namespace Sys2Proof.Machine

/-! ## The head of the deferred queue (R178) -/

/-- A trigger that the building down count or engine time meets already (R178). -/
def State.MetAlready (s : State) (tr : Trigger) : Prop :=
  (∃ n, tr = .downAtLeast n ∧ n ≤ s.buildingDown) ∨ ∃ x, tr = .atTime x ∧ reached s.time x = true

theorem metAlready_iff (s : State) (tr : Trigger) :
    (metByDown s.buildingDown tr || metByTime s.time tr) = true ↔ s.MetAlready tr := by
  rw [Bool.or_eq_true, metByDown_iff]
  refine or_congr Iff.rfl ?_
  cases tr <;> simp [metByTime]

theorem examineHead_nil {s : State} (h : s.cmd.deferred = []) : s.examineHead = s := watch_nil h _

/-- The head entry falls due on becoming head where its trigger is met already, once (R178). -/
theorem examineHead_cons {s : State} {e : DeferredEntry} {rest : List DeferredEntry} (h : s.cmd.deferred = e :: rest) :
    (¬s.MetAlready e.trigger ∨ e.due = true → s.examineHead = s) ∧
    (s.MetAlready e.trigger → e.due = false → s.examineHead = { s with cmd := { s.cmd with
      deferred := { e with due := true } :: rest, due := s.cmd.due ++ [.deferred],
      unit := if s.cmd.unit = .idle then .actions else s.cmd.unit } }) := by
  obtain ⟨hstay, hfall⟩ := watch_cons h (fun t => metByDown s.buildingDown t || metByTime s.time t)
  refine ⟨fun hor => hstay (hor.imp (fun hn => ?_) id), fun hm => hfall ((metAlready_iff s _).mpr hm)⟩
  exact Bool.eq_false_iff.mpr (mt (metAlready_iff s _).mp hn)

/-! ## Storing (R166, R177, R183) -/

theorem slotWrite_took {s : State} {tag : Tag} {r : Request} {f : StepFor} {k : Kind} (h : s.SlotWrite tag r f k) :
    ∃ t, exec (slotRow tag k) s = .next t ∧ ∀ u,
      s.judgePlaced k (fun s => carryOf k s r.bytes r.addr (commandOrigin .command r.bytes)) r.addr r.bytes = u →
        Took t u tag r := by
  obtain ⟨ha, hc, hk, hprogress, hidle⟩ := h
  obtain ⟨t, hexec, htook⟩ := slot_took ha hc hk
  rw [judgeSlot_placed hprogress (.inl (by rw [hidle]; rfl))] at htook
  exact ⟨t, hexec, fun u hu => hu ▸ htook⟩

theorem triggerInUse_false {s : State} {tr : Trigger} (h : ∀ l, tr = .line l → (s.line l).actions = []) :
    s.triggerInUse tr = false := by
  cases tr with
  | line l => exact Bool.eq_false_iff.mpr fun hc => triggerInUse_line_iff.mp hc (h l rfl)
  | stormIn => rfl
  | stormOut => rfl
  | downAtLeast n => rfl
  | atTime x => rfl

theorem deferCommand_noTrigger {b : List Byte} (h : slotTrigger b = none) (s : State) (k : Kind) (addr : Addr) :
    s.deferCommand k addr b = s.refuse addr b .badParam := by
  simp only [State.deferCommand, h]

/-- A command deferred under a trigger not in use: refused by a full queue, else queued, and examined as the head of an
empty one (R177, R178). -/
theorem deferCommand_cases {s : State} {b : List Byte} {tr : Trigger} (htr : slotTrigger b = some tr)
    (huse : s.triggerInUse tr = false) (k : Kind) (addr : Addr) :
    (8 ≤ s.cmd.deferred.length → s.deferCommand k addr b = s.refuse addr b .queueFull) ∧
    (s.cmd.deferred.length < 8 → s.cmd.deferred ≠ [] → s.deferCommand k addr b = s.queueEntry k tr addr b) ∧
    (s.cmd.deferred = [] → s.deferCommand k addr b = (s.queueEntry k tr addr b).examineHead) := by
  have hdefer : s.deferCommand k addr b = if Config.deferredSize ≤ s.cmd.deferred.length then s.refuse addr b .queueFull
      else if s.cmd.deferred.isEmpty then (s.queueEntry k tr addr b).examineHead else s.queueEntry k tr addr b := by
    simp only [State.deferCommand, htr, huse]
    rfl
  rw [hdefer]
  refine ⟨fun h => if_pos h, fun h hne => ?_, fun h => ?_⟩
  · exact (if_neg (Nat.not_le.mpr h)).trans (if_neg (by rwa [List.isEmpty_iff]))
  · rw [h]
    rfl

/-- The entry of an empty queue is its head at once (R178). -/
theorem queueEntry_head {s : State} (hempty : s.cmd.deferred = []) (hidle : s.cmd.unit = .idle) (k : Kind) (tr : Trigger)
    (addr : Addr) (b : List Byte) :
    let u := s.queueEntry k tr addr b
    (s.MetAlready tr → u.examineHead = { u with cmd := { u.cmd with
      deferred := [{ kind := k, slot := b, trigger := tr, addr := addr, due := true }],
      due := s.cmd.due ++ [.deferred], unit := .actions } }) ∧
    (¬s.MetAlready tr → u.examineHead = u) := by
  intro u
  have hhead : u.cmd.deferred = [{ kind := k, slot := b, trigger := tr, addr := addr, due := false }] := by
    show s.cmd.deferred ++ _ = _
    rw [hempty]
    rfl
  obtain ⟨hstay, hfall⟩ := examineHead_cons hhead
  refine ⟨fun hm => (hfall hm rfl).trans ?_, fun hm => hstay (.inl hm)⟩
  rw [if_pos (show u.cmd.unit = .idle from hidle)]
  rfl

/-- A command registered on a line that no deferred entry waits for (R183). -/
theorem registerLine_cases {s : State} {l : Line} (h : s.lineDeferred l = false) (k : Kind) (addr : Addr)
    (b : List Byte) :
    (4 ≤ (s.line l).actions.length → s.registerLine l k addr b = s.refuse addr b .listFull) ∧
    ((s.line l).actions.length < 4 → s.registerLine l k addr b =
      (s.setLine l { s.line l with actions := (s.line l).actions ++ [{ kind := k, slot := b }] }).writeBack addr b .done
        .done false (s.line l).actions.length) := by
  unfold State.registerLine
  dsimp only
  rw [h, if_neg Bool.false_ne_true]
  exact ⟨fun hl => if_pos hl, fun hl => if_neg (Nat.not_le.mpr hl)⟩

/-! ## DROP_ACTION and QUEUE_FLUSH (R174) -/

theorem slotLine_of {b : List Byte} {l : Line} (h : byteAt b 10 = lineCode l) : slotLine b = some l := by
  unfold slotLine
  rw [h]
  cases l <;> rfl

theorem carryDropAction_cases {s : State} {b : List Byte} {l : Line} (h : byteAt b 10 = lineCode l) :
    ((s.line l).actions = [] → s.carryDropAction b = (s, .done 0)) ∧
    ((s.line l).actions ≠ [] → s.carryDropAction b = (s.setLine l { s.line l with
      actions := (s.line l).actions.dropLast,
      absorbed := if (s.line l).actions.length = 1 then 0 else (s.line l).absorbed }, .done 1)) := by
  have hcarry : s.carryDropAction b =
      if (s.line l).actions.isEmpty then (s, .done 0) else (s.setLine l (s.line l).dropLast, .done 1) := by
    simp only [State.carryDropAction, slotLine_of h]
  rw [hcarry]
  refine ⟨fun he => by rw [he]; rfl, fun hne => ?_⟩
  have hpos := List.length_pos_of_ne_nil hne
  have hone : ((s.line l).actions.length ≤ 1) = ((s.line l).actions.length = 1) := propext ⟨by omega, by omega⟩
  rw [if_neg (by rwa [List.isEmpty_iff]), LineUnit.dropLast]
  simp only [hone]

theorem carryQueueFlush_cases (s : State) (o : Origin) :
    (s.cmd.deferred = [] → s.carryQueueFlush o = (s, .done 0)) ∧
    (s.cmd.deferred ≠ [] → s.carryQueueFlush o = (s.flushDeferred.makeReport
      { origin := o, subject := none, payload := .deferredFlushed s.cmd.deferred.length },
        .done s.cmd.deferred.length)) :=
  ⟨fun h => if_pos (List.length_eq_zero_iff.mpr h), fun h => if_neg (mt List.length_eq_zero_iff.mp h)⟩

theorem lineDeferred_iff (s : State) (l : Line) :
    s.lineDeferred l = true ↔ ∃ e ∈ s.cmd.deferred, e.trigger = .line l := by
  simp [State.lineDeferred, List.any_eq_true]

/-- Settles O58. -/
theorem storingCommands : Obligations.StoringCommands := by
  refine ⟨fun s tag r f k h => ⟨fun hd hpar => ?_, ?_, ?_⟩, slotTrigger_iff, lineDeferred_iff, rfl, rfl⟩
  · obtain ⟨t, hexec, htook⟩ := slotWrite_took h
    obtain ⟨_, _, _, _, hidle⟩ := h
    refine ⟨t, hexec, fun hpl htr => htook _ ?_, fun tr hpl htr huse => ?_, fun l hpl hline => ?_⟩
    · rw [judgePlaced_defer hpl hd hpar]
      exact deferCommand_noTrigger htr s k r.addr
    · have hplaced := fun carry => judgePlaced_defer (s := s) (carry := carry) (addr := r.addr) hpl hd hpar
      obtain ⟨hfull, hjoins, hempty⟩ := deferCommand_cases htr (triggerInUse_false huse) k r.addr
      refine ⟨fun hl => htook _ ((hplaced _).trans (hfull hl)),
        fun hl hne => htook _ ((hplaced _).trans (hjoins hl hne)), fun hnil => ?_⟩
      obtain ⟨hmet, hwaits⟩ := queueEntry_head hnil hidle k tr r.addr r.bytes
      exact ⟨fun hm => htook _ (((hplaced _).trans (hempty hnil)).trans (hmet hm)),
        fun hm => htook _ (((hplaced _).trans (hempty hnil)).trans (hwaits hm))⟩
    · have hplaced := fun carry => judgePlaced_line (s := s) (carry := carry) (addr := r.addr) hpl hd hpar
      obtain ⟨hfull, hjoins⟩ := registerLine_cases hline k r.addr r.bytes
      exact ⟨fun hl => htook _ ((hplaced _).trans (hfull hl)), fun hl => htook _ ((hplaced _).trans (hjoins hl))⟩
  · rintro rfl hnow
    obtain ⟨t, hexec, hdone, _, _⟩ := now_took hnow
    refine ⟨t, hexec, fun l hl => ?_⟩
    obtain ⟨hnil, hdrops⟩ := carryDropAction_cases (s := s) hl
    exact ⟨fun he => hdone _ _ (hnil he), fun hne => hdone _ _ (hdrops hne)⟩
  · rintro rfl hnow
    obtain ⟨t, hexec, hdone, _, _⟩ := now_took hnow
    obtain ⟨hnil, hflush⟩ := carryQueueFlush_cases s (commandOrigin .command r.bytes)
    exact ⟨t, hexec, fun he => hdone _ _ (hnil he), fun hne => hdone _ _ (hflush hne)⟩

end Sys2Proof.Machine
end

section
/-! PROOF. The contact lines: pins, their debouncing, and what a debounced change does. -/

namespace Sys2Proof.Machine

theorem appendDue_eq (s : State) (a : DueAction) : s.appendDue a = { s with cmd := { s.cmd with
    due := s.cmd.due ++ [a], unit := if s.cmd.unit = .idle then .actions else s.cmd.unit } } := by
  have hwake : s.cmd.unit.wake = if s.cmd.unit = .idle then .actions else s.cmd.unit := by
    cases s.cmd.unit <;> rfl
  rw [State.appendDue, hwake]

/-! ## A debounced change (R182) -/

/-- A line's unit once its pin has settled: no deadline, and its level the pin's (R181). -/
def LineUnit.settledAt (u : LineUnit) : LineUnit := { u with deadline := none, level := u.pin }

/-- The end of a debounce time: where the level stays, only the deadline goes; else the level changes (R181). -/
theorem debounceEnd_cases (s : State) (l : Line) :
    ((s.line l).pin = (s.line l).level → s.debounceEnd l = s.setLine l { s.line l with deadline := none }) ∧
    ((s.line l).pin ≠ (s.line l).level → s.ctl.mode = .detached →
      s.debounceEnd l = s.setLine l (s.line l).settledAt) ∧
    ((s.line l).pin ≠ (s.line l).level → s.ctl.mode ≠ .detached → s.debounceEnd l =
      let changed := s.setLine l (s.line l).settledAt
      if (s.line l).pin then ((changed.watch (metByLine l)).assertLine l).reportLine l (s.line l).pin
      else changed.reportLine l (s.line l).pin) := by
  have hmode : (s.setLine l (s.line l).settledAt).ctl.mode = s.ctl.mode := by cases l <;> rfl
  have hend : s.debounceEnd l = if (s.line l).pin = (s.line l).level then s.setLine l { s.line l with deadline := none }
      else if (s.setLine l (s.line l).settledAt).ctl.mode = .detached then s.setLine l (s.line l).settledAt
      else if (s.line l).pin then
        (((s.setLine l (s.line l).settledAt).watch (metByLine l)).assertLine l).reportLine l (s.line l).pin
      else (s.setLine l (s.line l).settledAt).reportLine l (s.line l).pin := by
    simp only [State.debounceEnd, State.debounced, line_setLine, setLine_setLine]
    rfl
  rw [hmode] at hend
  rw [hend]
  exact ⟨fun h => if_pos h, fun h hd => (if_neg h).trans (if_pos hd), fun h hd => (if_neg h).trans (if_neg hd)⟩

/-- A debounced assertion: nothing with an empty list, absorbed where a run waits, else a run of the list falls due
(R182). -/
theorem assertLine_cases (s : State) (l : Line) :
    ((s.line l).actions = [] → s.assertLine l = s) ∧
    ((s.line l).actions ≠ [] → (s.line l).runPending = true →
      s.assertLine l = s.setLine l { s.line l with absorbed := sat8 (s.line l).absorbed }) ∧
    ((s.line l).actions ≠ [] → (s.line l).runPending = false →
      s.assertLine l = (s.setLine l { s.line l with runPending := true }).appendDue (.line l)) := by
  unfold State.assertLine
  refine ⟨fun h => if_pos (List.isEmpty_iff.mpr h), fun h hr => ?_, fun h hr => ?_⟩
  · exact (if_neg (by rwa [List.isEmpty_iff])).trans (if_pos hr)
  · exact (if_neg (by rwa [List.isEmpty_iff])).trans (if_neg (by rw [hr]; exact Bool.false_ne_true))

theorem exec_debounceExpiry_idle {s : State} {l : Line} (h : s.ready = false ∨ due s.time (s.line l).deadline = false) :
    exec (.debounceExpiry l) s = .next s := by
  refine congrArg Host.Outcome.next (if_neg ?_)
  rcases h with h | h
  · rw [h]
    exact Bool.false_ne_true
  · rw [h, Bool.and_false]
    exact Bool.false_ne_true

theorem exec_debounceExpiry_due {s : State} {l : Line} (hr : s.ready = true)
    (hd : due s.time (s.line l).deadline = true) : exec (.debounceExpiry l) s = .next (s.debounceEnd l) :=
  congrArg Host.Outcome.next (if_pos (by rw [hr, hd]; rfl))

/-- Settles O59, from the ways a debounce time ends and the ways an assertion meets the list (R181, R182). -/
theorem linesAreDebounced : Obligations.LinesAreDebounced := by
  intro s l
  dsimp only
  refine ⟨fun hw => congrArg Host.Outcome.next (if_pos hw),
    fun hw => congrArg Host.Outcome.next (if_neg (by rw [hw]; exact Bool.false_ne_true)), fun level => rfl,
    exec_debounceExpiry_idle, fun hr hd => ?_, fun tr => ⟨metByLine_iff l tr, metByTime_iff s.time tr⟩, appendDue_eq s⟩
  obtain ⟨hsame, hdetached, hchange⟩ := debounceEnd_cases s l
  have hline : ((s.setLine l (s.line l).settledAt).watch (metByLine l)).line l = (s.line l).settledAt := by
    rw [line_watch, line_setLine]
  obtain ⟨hempty, habsorbs, hruns⟩ := assertLine_cases ((s.setLine l (s.line l).settledAt).watch (metByLine l)) l
  rw [exec_debounceExpiry_due hr hd]
  refine ⟨fun h => by rw [hsame h], fun h hm => by rw [hdetached h hm]; rfl, fun h hm => ⟨fun hor => ?_,
    fun hp hne hpending => ?_, fun hp hne hpending => ?_⟩⟩
  · rw [hchange h hm]
    by_cases hp : (s.line l).pin = true
    · have hnil : (s.line l).settledAt.actions = [] := hor.resolve_left (by rw [hp]; decide)
      dsimp only
      rw [if_pos hp, if_pos hp, hempty (by rwa [hline])]
      rfl
    · dsimp only
      rw [if_neg hp, if_neg hp]
      rfl
  · rw [hchange h hm]
    dsimp only
    rw [if_pos hp, habsorbs (by rwa [hline]) (by rwa [hline]), congrArg LineUnit.absorbed hline]
    rfl
  · rw [hchange h hm]
    dsimp only
    rw [if_pos hp, hruns (by rwa [hline]) (by rwa [hline])]
    rfl

end Sys2Proof.Machine
end

section
/-! PROOF. The runs of stored commands: the deferred head, a line's list, and what a stored command does. -/

namespace Sys2Proof.Machine

/-! ## One stored command (R166) -/

theorem runStored_wrongMode {s : State} {k : Kind} (h : k.inMode s.ctl.mode = false) (b : List Byte) (src : Source) :
    s.runStored k b src = .error .wrongMode :=
  if_pos (by rw [h]; rfl)

/-- A stored command inside its modes: what it carries decides (R166). -/
theorem runStored_inMode {s : State} {k : Kind} (hm : k.inMode s.ctl.mode = true) (b : List Byte) (src : Source) :
    (∀ {u : State} {data : Nat}, s.carryStored k b (commandOrigin src b) = (u, .done data) →
      s.runStored k b src = .ok (u, data)) ∧
    (∀ {u : State} {c : Code}, s.carryStored k b (commandOrigin src b) = (u, .refused c) →
      s.runStored k b src = .error c) := by
  have hin : ¬(!k.inMode s.ctl.mode) = true := by
    rw [hm]
    exact Bool.false_ne_true
  unfold State.runStored
  refine ⟨fun hc => ?_, fun hc => ?_⟩ <;> rw [if_neg hin, hc]

/-- The kinds that only change settings run while commands are taken. -/
theorem runStored_settings {s : State} (b : List Byte) (src : Source) (h : s.ctl.mode.takesCommands = true) :
    (s.runStored .setWindows b src = .ok ((s.carrySetWindows b).1, 0)) ∧
    (s.runStored .setThresholds b src = .ok ((s.carrySetThresholds b).1, 0)) ∧
    (s.runStored .setFlap b src = .ok ((s.carrySetFlap b).1, 0)) ∧
    (s.runStored .setSync b src = .ok ((s.carrySetSync b).1, 0)) :=
  ⟨(runStored_inMode (k := .setWindows) h b src).1 rfl, (runStored_inMode (k := .setThresholds) h b src).1 rfl,
    (runStored_inMode (k := .setFlap) h b src).1 rfl, (runStored_inMode (k := .setSync) h b src).1 rfl⟩

theorem runStored_setStorm {s : State} (b : List Byte) (src : Source) (h : s.ctl.mode.takesCommands = true) :
    (s.corr.stormIn = false → leAt b 10 2 ≤ s.buildingDown →
      s.runStored .setStorm b src = .ok ((s.withStormLevels b).stormChange true (commandOrigin src b), 1)) ∧
    (s.corr.stormIn = true → s.buildingDown ≤ leAt b 12 2 →
      s.runStored .setStorm b src = .ok ((s.withStormLevels b).stormChange false (commandOrigin src b), 1)) ∧
    (s.corr.stormIn = false ∧ s.buildingDown < leAt b 10 2 ∨ s.corr.stormIn = true ∧ leAt b 12 2 < s.buildingDown →
      s.runStored .setStorm b src = .ok (s.withStormLevels b, 0)) := by
  have ⟨hdone, _⟩ := runStored_inMode (k := .setStorm) h b src
  obtain ⟨henter, hleave, hstay⟩ := carrySetStorm_cases s b (commandOrigin src b)
  exact ⟨fun h1 h2 => hdone (henter h1 h2), fun h1 h2 => hdone (hleave h1 h2), fun h1 => hdone (hstay h1)⟩

theorem runStored_arm {s : State} (b : List Byte) (src : Source) (h : s.ctl.mode.takesCommands = true) :
    (s.corr.stormArmed = true ∧ s.table.brownoutArmed = true → s.runStored .arm b src = .ok (s, 0)) ∧
    (s.corr.stormArmed = false ∨ s.table.brownoutArmed = false →
      s.runStored .arm b src = .ok (s.armed.mark 1280, 0)) := by
  have ⟨hdone, _⟩ := runStored_inMode (k := .arm) h b src
  obtain ⟨harmed, hrearmed⟩ := carryArm_cases s
  exact ⟨fun h1 => hdone (harmed h1), fun h1 => hdone (hrearmed h1)⟩

theorem forceSync_inMode {m : Mode} (h : m = .attached ∨ m = .running) : Kind.forceSync.inMode m = true := by
  rcases h with rfl | rfl <;> rfl

/-- A stored MUTE or UNMUTE of a terminal the map holds not fails (R176). -/
theorem runStored_unmapped {s : State} {b : List Byte} {n : Fin 1024} (src : Source) (h : s.ctl.mode = .running)
    (hn : n.val = leAt b 10 2) (he : s.entry? n = none) :
    s.runStored .mute b src = .error .noTerminal ∧ s.runStored .unmute b src = .error .noTerminal := by
  obtain ⟨hmute, hunmute⟩ := carry_unmapped hn he (commandOrigin src b)
  exact ⟨(runStored_inMode (by rw [h]; rfl) b src).2 hmute, (runStored_inMode (by rw [h]; rfl) b src).2 hunmute⟩

/-! ## The final write-back (R165) -/

theorem finalWriteBack_cases (s : State) (addr : Addr) (st : SlotState) (c : Code) (data : Nat) :
    (s.progress addr = none → s.finalWriteBack addr st c data = s) ∧
    (∀ e, s.progress addr = some e → s.finalWriteBack addr st c data =
      let v := s.enqueue (.writeBack addr (writeBackBytes e.slot st c e.overwritten data))
      { v with cmd := { v.cmd with inProgress := s.cmd.inProgress.filter (fun x => x.addr != addr) } }) := by
  unfold State.finalWriteBack
  refine ⟨fun h => by rw [h], fun e h => ?_⟩
  rw [h]
  rfl

/-! ## The run of the head entry (R179, R180) -/

theorem runHead_ok {s u : State} {e : DeferredEntry} {rest : List DeferredEntry} {data : Nat}
    (h : ((s.takeDue).setDeferred []).runStored e.kind e.slot .deferred = .ok (u, data)) :
    s.runHead e rest = (u.entryDone e rest data).endActions := by
  unfold State.runHead
  dsimp only
  rw [h]

theorem runHead_error {s : State} {e : DeferredEntry} {rest : List DeferredEntry} {c : Code}
    (h : ((s.takeDue).setDeferred []).runStored e.kind e.slot .deferred = .error c) :
    s.runHead e rest = (((s.takeDue).setDeferred []).entryFailed e rest c).endActions := by
  unfold State.runHead
  dsimp only
  rw [h]

theorem reportFlushed_eq (s : State) (e : DeferredEntry) (rest : List DeferredEntry) : s.reportFlushed e rest.length =
    if rest = [] then s else s.makeReport (actionDraft .deferred e.slot (.deferredFlushed rest.length)) := by
  cases rest with
  | nil => rfl
  | cons d rest => exact (if_neg (List.cons_ne_nil d rest)).symm

/-- A deferred entry is run in ACTIONS, first among what is due (R186). -/
theorem exec_deferredEntryRun {s : State} {e : DeferredEntry} {rest : List DeferredEntry} {due : List DueAction}
    (hdue : s.cmd.due = .deferred :: due) (hq : s.cmd.deferred = e :: rest) : exec .deferredEntryRun s =
      .next (if s.ready && s.cmd.unit.inActions then s.runHead e rest else s) := by
  show execDeferredEntryRun s = _
  unfold execDeferredEntryRun
  rw [hdue, hq]

/-! ## A line's run (R185) -/

theorem exec_lineActionRun {s : State} {l : Line} {due : List DueAction} (hdue : s.cmd.due = .line l :: due) :
    exec (.lineActionRun l) s = .next (if s.ready && s.cmd.unit.inActions then s.runLine l else s) := by
  show execLineActionRun l s = _
  unfold execLineActionRun
  rw [hdue]
  dsimp only
  rw [beq_self_eq_true, Bool.and_true]

theorem runEntries_ok {s u : State} {l : Line} {e : LineEntry} {rest : List LineEntry} {data : Nat}
    (h : s.runStored e.kind e.slot (.line l) = .ok (u, data)) : State.runEntries l (e :: rest) s =
      State.runEntries l rest (u.makeReport (actionDraft (.line l) e.slot (.actionDone e.kind .done))) := by
  rw [State.runEntries, h]

theorem runEntries_error {s : State} {l : Line} {e : LineEntry} {rest : List LineEntry} {c : Code}
    (h : s.runStored e.kind e.slot (.line l) = .error c) : State.runEntries l (e :: rest) s =
      let u := s.makeReport (actionDraft (.line l) e.slot (.actionFailed e.kind c))
      u.setLine l (u.line l).emptied := by
  rw [State.runEntries, h]

/-- Settles O60: the head, a line's list and a stored command each by its cases. -/
theorem storedCommandsRun : Obligations.StoredCommandsRun := by
  refine ⟨fun s e rest due hdue hq => ?_, fun s l due hdue => ?_, fun s l e rest =>
    ⟨rfl, fun u data => runEntries_ok, fun c => runEntries_error⟩, fun s k b src h => runStored_wrongMode h b src,
    fun s b src => ?_, fun s => ⟨examineHead_nil, fun e rest hq => examineHead_cons hq, rfl⟩, finalWriteBack_cases⟩
  · have hcleared : (s.takeDue).setDeferred [] = { s with cmd := { s.cmd with due := due, deferred := [] } } := by
      rw [State.takeDue, hdue]
      rfl
    have hrun := exec_deferredEntryRun hdue hq
    refine ⟨fun h => ?_, fun hr ha => ?_⟩
    · rw [hrun, ready_actions (P := True) h]
      rfl
    · have hhead : exec .deferredEntryRun s = .next (s.runHead e rest) := by
        rw [hrun, ready_actions' hr ha]
        rfl
      rw [hhead]
      refine ⟨fun u data h => ?_, fun c h => ?_⟩
      · rw [runHead_ok (hcleared ▸ h), endActions_eq]
        rfl
      · rw [runHead_error (hcleared ▸ h), hcleared, endActions_eq, State.entryFailed, reportFlushed_eq]
        rfl
  · have hrun := exec_lineActionRun hdue
    have htaken : s.takeDue = { s with cmd := { s.cmd with due := due } } := by
      rw [State.takeDue, hdue]
      rfl
    refine ⟨fun h => ?_, fun hr ha => ?_⟩
    · rw [hrun, ready_actions (P := True) h]
      rfl
    · rw [hrun, ready_actions' hr ha]
      refine congrArg Host.Outcome.next ((if_pos rfl).trans ?_)
      rw [State.runLine, endActions_eq, htaken]
      cases l <;> rfl
  · refine ⟨fun hm => ?_, fun hm => ?_, fun hm n hn => ?_⟩
    · have htakes : s.ctl.mode.takesCommands = true := by
        rcases hm with h | h | h <;> rw [h] <;> rfl
      obtain ⟨hwindows, hthresholds, hflap, hsync⟩ := runStored_settings b src htakes
      exact ⟨hwindows, hthresholds, hflap, hsync,
        fun hp => (runStored_inMode (k := .setReporting) htakes b src).1 (carrySetReporting_eq s hp),
        runStored_setStorm b src htakes, runStored_arm b src htakes⟩
    · exact (runStored_inMode (forceSync_inMode hm) b src).1 (carryForceSync_eq s _)
    · have ⟨hmdone, hmrefused⟩ := runStored_inMode (s := s) (k := .mute) (by rw [hm]; rfl) b src
      have ⟨hudone, _⟩ := runStored_inMode (s := s) (k := .unmute) (by rw [hm]; rfl) b src
      refine ⟨runStored_unmapped src hm hn, fun e he => ?_⟩
      obtain ⟨hprompt, hagain, hmute⟩ := carryMute_cases hn he (commandOrigin src b)
      obtain ⟨hfree, hunmute, hquiet⟩ := carryUnmute_cases hn he (commandOrigin src b)
      exact ⟨fun h => hmrefused (hprompt h), fun h h2 => hmdone (hagain h h2), fun h h2 => hmdone (hmute h h2),
        fun h => hudone (hfree h), fun h h2 => hudone (hunmute h h2), fun h h2 => hudone (hquiet h h2)⟩

end Sys2Proof.Machine
end
